-- ==== Sys2Proof/Word.lean ====
section
/-!
DEFINITION. The words of the Pentaru 612: bytes on the line, 32-bit words of the management map, and the plainest
helpers over them (big-endian bytes of a word). "A byte is 8 bits. A word is 32 bits. Multi-byte fields on the line are
sent most significant byte first" (spec/00_scope.md, Conventions).
-/

namespace Sys2Proof

/-- A byte of a frame. -/
abbrev Byte := BitVec 8

/-- A word of the management map, and every 32-bit count and Uptime value. -/
abbrev Word := BitVec 32

/-- A number as a 32-bit word, modulo 2^32. -/
abbrev word (n : Nat) : Word := BitVec.ofNat 32 n

/-- The low 8 bits of a number, as a byte. -/
abbrev byte (n : Nat) : Byte := BitVec.ofNat 8 n

end Sys2Proof
end

