-- ==== Sys2Proof/Syntax.lean ====
section
/-!
DEFINITION. The commands of the block: one constructor for each row of spec/opcode_table.json, which "lists the part's
steps, each whole and indivisible" (spec/95_what_each_step_holds.md). A row's operands are what the happening brings with
it: the port, the byte on the line, the words of an operation, the value written to a register.
-/

namespace Sys2Proof

/-- The two ports (R1). -/
inductive Port where
  | A | B
  deriving DecidableEq, Repr

/-- The port at the other end of a direction: frames in at one leave at the other. -/
def Port.other : Port → Port
  | .A => .B
  | .B => .A

/-- The four Capture Rings (R85). -/
abbrev RingId := Fin 4

/-- The two configuration words of a ring (R85, R164). -/
inductive RingField where
  | baseCell | size
  deriving DecidableEq, Repr

/-- One constructor per row of spec/opcode_table.json, in the table's order. -/
inductive Instr where
  /-- RESET_N_FALL (R18). -/
  | resetNFall
  /-- RESET_N_RELEASE (R18): the levels of the UNIT straps are sampled. -/
  | resetNRelease (straps : BitVec 5)
  /-- UPTIME_TICK (R66). -/
  | uptimeTick
  /-- LINK_DOWN (R1): the line of the port reports DOWN. -/
  | linkDown (p : Port)
  /-- LINK_UP (R1): the line of the port reports UP. -/
  | linkUp (p : Port)
  /-- BYTE_ARRIVAL (R10): a byte on the receive pair of the port; `first` when it begins a frame on the line. -/
  | byteArrival (p : Port) (first : Bool) (b : Byte)
  /-- FRAME_END (R2): the frame on the receive pair ends, normally or with an abort ending. -/
  | frameEnd (p : Port) (aborted : Bool)
  /-- FRAME_END_UPDATE (R47): the oldest frame-end notice of the ingress reaches the Flow Table. -/
  | frameEndUpdate (p : Port)
  /-- CAPTURE_COMPLETION (R92): the oldest frame-end notice handed on for the ingress reaches the rings. -/
  | captureCompletion (p : Port)
  /-- EGRESS_CHOOSE (R14). -/
  | egressChoose (p : Port)
  /-- EGRESS_BYTE_SENT (R13). -/
  | egressByteSent (p : Port)
  /-- INSERTED_FRAME_DONE (R15). -/
  | insertedFrameDone (p : Port)
  /-- SWEEPER_VISIT (R70). -/
  | sweeperVisit
  /-- FLUSH_BUCKET_STEP (R76). -/
  | flushBucketStep
  /-- FLUSH_RESUME (R77). -/
  | flushResume
  /-- CLEAR_BUCKET_STEP (R79). -/
  | clearBucketStep
  /-- HOLD_TIMER_EXPIRY (R108). -/
  | holdTimerExpiry
  /-- RETRANSMIT_EXPIRY_STARTING (R130). -/
  | retransmitExpiryStarting
  /-- RETRANSMIT_EXPIRY_OPEN (R131). -/
  | retransmitExpiryOpen
  /-- ACK_TAKEN (R124): the Report Engine takes the oldest ACK consumed at the ingress. -/
  | ackTaken (p : Port)
  /-- TAKE_COMMAND_COPY (R139): the oldest COMMAND copy of the ingress reaches the Agent. -/
  | takeCommandCopy (p : Port)
  /-- BEGIN_COMMAND (R140). -/
  | beginCommand
  /-- SET_CURSOR (R144): the op and its 24-bit address. -/
  | setCursor (addr : BitVec 24)
  /-- MOVE_CURSOR (R144): the op and its 16-bit two's-complement delta. -/
  | moveCursor (delta : BitVec 16)
  /-- WRITE (R144): words of the WRITE op being walked; all of its words, or the next of them (R140). -/
  | write (words : List Word)
  /-- READ (R147): a number of words of the READ op being walked; its whole count, or the next of them (R140). -/
  | read (count : Nat)
  /-- COMMAND_END (R148). -/
  | commandEnd
  /-- SETTING_WRITE (R156): a write to a setting or staging word with no row of its own, by local offset. -/
  | settingWrite (offset : BitVec 16) (value : Word)
  /-- HASH_SEED_WRITE (R44). -/
  | hashSeedWrite (value : Word)
  /-- RING_CONFIG_WRITE (R85). -/
  | ringConfigWrite (r : RingId) (field : RingField) (value : Word)
  /-- RULE_COMMIT (R27): the whole written word is the index (R160). -/
  | ruleCommit (value : Word)
  /-- TEMPLATE_COMMIT (R35): the whole written word is the template number (R160). -/
  | templateCommit (value : Word)
  /-- ENTRY_SELECT (R57): the whole written word is the entry index (R163). -/
  | entrySelect (value : Word)
  /-- CLOSE_ENTRY (R60): the whole written word is the entry index (R163). -/
  | closeEntry (value : Word)
  /-- ACTIVATE (R86): the value written is not used. -/
  | activate (r : RingId)
  /-- DEACTIVATE (R87): the value written is not used. -/
  | deactivate (r : RingId)
  /-- SESSION_ENABLE_ON (R120): a write of Session Enable on. -/
  | sessionEnableOn
  /-- SESSION_ENABLE_OFF (R121): a write of Session Enable off. -/
  | sessionEnableOff
  /-- SOFT_RESET (R150). -/
  | softReset
  /-- SWAP_BANKS (R29). -/
  | swapBanks
  /-- FLUSH (R75): bits 9:8 and bits 23:16 of the Control word (R157). -/
  | flush (selector : BitVec 2) (argument : BitVec 8)
  /-- CLEAR_TABLE (R79). -/
  | clearTable
  /-- SESSION_RESTART (R122). -/
  | sessionRestart
  /-- REPORT_NOW (R109). -/
  | reportNow
  /-- CLEAR_COUNTERS (R158). -/
  | clearCounters
  deriving DecidableEq, Repr

end Sys2Proof
end

