-- ==== Sys2Proof/Config.lean ====
section
/-!
DEFINITION. What the manual leaves open as a VALUE: uninterpreted constants, with no body, so that nothing in Lean can
compute or prove which value they take. A claim that holds of the model holds whatever they are.
-/

namespace Sys2Proof

/-- DESIGN CHOICE (notes/assumptions/1.md). What a byte of the Capture Store reads as that no capture has written since
the store's content last became undefined (R101: "The content of the Capture Store's cells is not defined"). The first
argument counts the happenings that left the content undefined (`CaptureEngine.epoch`), the second is the byte's place in
the store. -/
opaque Config.unwrittenCell : Nat → Nat → Byte

/-- DESIGN CHOICE (notes/assumptions/2.md). A field of a capture descriptor that the manual calls absent (R88: the "first
only" fields of a later descriptor; R90: the flow entry index before a completion), read by the producer of a report that
finishes after its release or discard (R115, R170). The arguments are the count of resets (`CaptureEngine.epoch`), the port
and the number of symbols its egress has put on its line, so that every byte produced has a value of its own. -/
opaque Config.absentField : Nat → Port → Nat → Byte

end Sys2Proof
end

