-- ==== Sys2Proof/Machine/State.lean ====
section
/-!
DEFINITION. The state of the Pentaru 612 as plain data: every register, FIFO, buffer, counter, mode, timer and pin the
manual gives it, block by block, and the queue of commands that wait. INVENTORY.md lists each with its rule and its reset
value. The model's own fields are marked so.

Sparse maps. A numbered store with a default content (flow entries, record slots, descriptors, rules, counters by rule,
templates, staging words) is a list of (number, value) pairs in one canonical form: numbers strictly rising, and no value
equal to the store's default content. Machine/Ops.lean has its reads and writes.
-/

namespace Sys2Proof.Machine

/-- A sparse store: (number, value) pairs, numbers strictly rising (Machine/Ops.lean: `SMap.Wf`). -/
abbrev SMap (α : Type) := List (Nat × α)

/-! ## The line -/

/-- A link state (R1). -/
inductive Link where
  | down | up
  deriving DecidableEq, Repr

/-- The two directions: AB is in at Port A, BA in at Port B (spec/00_scope.md). -/
inductive Direction where
  | ab | ba
  deriving DecidableEq, Repr

/-- What an egress puts on its line: a byte, the normal end of a frame, or the abort ending (R13). -/
inductive LineSymbol where
  | byte (b : Byte)
  | endNormal
  | endAbort
  deriving DecidableEq, Repr

/-- The ingress endings of Table 5 that a frame-end notice carries (R7); a fragment has no notice (R3). -/
inductive Ending where
  | good | checkFailed | truncated | oversize
  deriving DecidableEq, Repr

/-- The four kinds of management frame (Table 86). -/
inductive Kind where
  | command | response | report | ack
  deriving DecidableEq, Repr

/-- The action of a frame (R11, R23). -/
inductive Action where
  | pass | measure | drop
  deriving DecidableEq, Repr

/-- Reception of a held frame (Table 8). -/
inductive CopyReception where
  | isOpen | endedNormally | endedAborted
  deriving DecidableEq, Repr

/-- State of a held frame (Table 8). -/
inductive CopyState where
  | arriving | ready | sending | discarding
  deriving DecidableEq, Repr

/-- The record of a frame held in a Transit Buffer (Table 8). -/
structure HeldFrame where
  held : List Byte
  sent : Nat
  action : Option Action
  reception : CopyReception
  state : CopyState
  deriving DecidableEq, Repr

/-- What a decision hands to its neighbours and what travels with the frame to its end (R23, Table 12); `rule` is absent
in BYPASS and for a management frame. -/
structure Decision where
  action : Action
  rule : Option Nat
  generation : BitVec 16
  template : Option (BitVec 3)
  deriving DecidableEq, Repr

/-- A frame in reception at an ingress: what the Line Interface keeps of it from its first byte to its end (R2, R8).
`bytes` are the first 2048 bytes received, `count` all bytes received; Marker, Envelope Length and Management Port Mask
are those in force at the first byte (R8). `serial` numbers the frames of the ingress (the model's own). -/
structure Reception where
  serial : Nat
  bytes : List Byte
  count : Nat
  envLen : Nat
  marker : BitVec 16
  mask : BitVec 2
  settled : Option Ending
  overflowed : Bool
  resetIntervened : Bool
  decision : Option Decision
  capture : Option RingId
  deriving DecidableEq, Repr

/-- A frame-end notice (Table 6), with what travels with the frame to its end (R23) and the received bytes the key is
cut from (R37). -/
structure Notice where
  serial : Nat
  dir : Direction
  length : Nat
  ending : Ending
  overflowed : Bool
  resetIntervened : Bool
  management : Bool
  decision : Option Decision
  bytes : List Byte
  deriving DecidableEq, Repr

/-- A COMMAND copy on its way to the Agent (R9, R139): the bytes up to the last before the frame check, the length, the
Envelope Length in force at the first byte, and the ingress ending. -/
structure CommandCopy where
  bytes : List Byte
  length : Nat
  envLen : Nat
  ending : Ending
  deriving DecidableEq, Repr

/-- The fields of a consumed ACK that the Report Engine is handed (R169). -/
structure Ack where
  session : BitVec 16
  sequence : BitVec 16
  deriving DecidableEq, Repr

/-! ## Op statuses and responses -/

/-- The reasons of a REJECTED status (Table 74). -/
inductive Reject where
  | badValue | badTemplate | badRing | inUse | overlap | notEmpty | notActive
  deriving DecidableEq, Repr

/-- The result of one word that is mine (R146). -/
inductive WordResult where
  | ok | unmapped | readOnly | busy
  | rejected (reason : Reject)
  deriving DecidableEq, Repr

/-- The status of an op (Table 74). -/
inductive OpStatus where
  | notMine | noRoom | skipped
  | result (r : WordResult)
  deriving DecidableEq, Repr

/-- One op of a COMMAND frame (Table 88). -/
inductive Op where
  | setCursor (addr : BitVec 24)
  | moveCursor (delta : BitVec 16)
  | write (words : List Word)
  | read (count : Nat)
  deriving DecidableEq, Repr

/-- A read block of a RESPONSE (Table 90). -/
structure Block where
  offset : Nat
  data : List Word
  deriving DecidableEq, Repr

/-- A RESPONSE as it is queued (Table 75). -/
structure Response where
  unit : BitVec 5
  malformed : Bool
  reset : Bool
  tag : BitVec 16
  opCount : Nat
  statuses : List OpStatus
  blocks : List Block
  deriving DecidableEq, Repr

/-- A queued COMMAND (R139). -/
structure Command where
  bytes : List Byte
  length : Nat
  envLen : Nat
  port : Port
  deriving DecidableEq, Repr

/-- The command being executed (R140): the ops left (the head is the one being walked), the cursor (R144), and what its
response will hold. `taken`, `firstMine`, `failure` and `data` belong to the op being walked: its words taken so far,
the offset of its first mine word, its first mine word result that was not OK, and the words read. -/
structure Walk where
  tag : BitVec 16
  rollcall : Bool
  port : Port
  opCount : Nat
  ops : List Op
  cursor : BitVec 24
  statuses : List OpStatus
  blocks : List Block
  anyMine : Bool
  taken : Nat
  firstMine : Option Nat
  failure : Option WordResult
  data : List Word
  deriving DecidableEq, Repr

/-- The counters of the Management Agent (Table 77). -/
structure AgentCounters where
  commandsQueued : Word
  badCheck : Word
  overrun : Word
  malformed : Word
  responsesQueued : Word
  responseLost : Word
  deriving DecidableEq, Repr

/-- The Management Agent but for the Response Queues, which stand with their ports (R153). -/
structure Agent where
  unit : BitVec 5
  queue : List Command
  walk : Option Walk
  counters : AgentCounters
  deriving DecidableEq, Repr

/-! ## Reports -/

/-- An item of a report's item list (Table 51): a record by its slot, or a capture by its ring and first descriptor; with
the lengths fixed at the build. -/
inductive Item where
  | record (slot : Nat) (keyLen : Nat)
  | capture (ring : RingId) (first : Nat) (c : Nat) (hasEntry : Bool)
  deriving DecidableEq, Repr

/-- Transmission states (Table 52). -/
inductive TxState where
  | queued | sending | sent
  deriving DecidableEq, Repr

/-- A report (Table 51). -/
structure Report where
  session : BitVec 16
  sequence : BitVec 16
  start : Bool
  items : List Item
  recordCount : Nat
  captureCount : Nat
  itemsSize : Nat
  state : TxState
  deriving DecidableEq, Repr

/-- A report being sent (R114): its fields, whether it has left the Outstanding List meanwhile (R113), the bytes fixed at
the start of the transmission (envelope, Marker, kind, header), the bytes sent so far, the frame check register over
them (R166), and the bytes still to go of the item field being sent, which is formed whole when its first byte is produced
(R67, notes/assumptions/26.md). -/
structure ReportTx where
  report : Report
  gone : Bool
  head : List Byte
  pos : Nat
  crc : Word
  field : List Byte
  deriving DecidableEq, Repr

/-- What an egress is sending (R14): nothing, the head transit frame, a response (its whole frame, fixed at the start of
the transmission, R168, and the bytes sent so far), or a report. -/
inductive Egress where
  | idle
  | transit
  | response (bytes : List Byte) (pos : Nat)
  | report (tx : ReportTx)
  deriving DecidableEq, Repr

/-- The kind of the last frame an egress started (R14). -/
inductive LastKind where
  | transit | inserted
  deriving DecidableEq, Repr

/-- The port counters (Table 11). -/
structure PortCounters where
  framesIn : Word
  bytesIn : Word
  fragments : Word
  oversize : Word
  badCheck : Word
  truncated : Word
  dropped : Word
  transitOverflow : Word
  egressDown : Word
  insertedFramesOut : Word
  deriving DecidableEq, Repr

/-- One port: its link, its ingress with the Transit Buffer that it fills, its egress with its Response Queue, its
counters; the hand-overs of its ingress that their receivers have not yet taken (the model's own queues, oldest first:
frame-end notices to the Flow Table, the same handed on with the flow entry index to the Capture Engine, COMMAND copies to
the Agent, ACKs to the Report Engine); and what its egress has put on its line since RESET_N was released (the model's
own record of the transmit pair). -/
structure PortState where
  link : Link
  rx : Option Reception
  serial : Nat
  buffer : List HeldFrame
  egress : Egress
  lastKind : LastKind
  responses : List Response
  counters : PortCounters
  flowNotices : List Notice
  captureNotices : List (Notice × Option Nat)
  commandCopies : List CommandCopy
  acks : List Ack
  line : List LineSymbol
  deriving DecidableEq, Repr

/-- The reach settings (Table 70). An envelope is 8 words, the words not listed being 0. -/
structure Reach where
  highMark : Nat
  marker : BitVec 16
  envLen : Nat
  mask : BitVec 2
  responseEnvelope : SMap Word
  reportEnvelope : SMap Word
  deriving DecidableEq, Repr

/-! ## Classification -/

/-- The Mode (R20). -/
inductive Mode where
  | bypass | run
  deriving DecidableEq, Repr

/-- The Directions of a rule (Table 13). -/
inductive Directions where
  | ab | ba | both
  deriving DecidableEq, Repr

/-- A term of a rule (Table 13), its Offset as the 8 bits of Table 82. -/
structure Term where
  enabled : Bool
  offset : BitVec 8
  mask : Word
  value : Word
  deriving DecidableEq, Repr

/-- A rule record (Table 13), the fields as wide as Table 82 commits them. -/
structure Rule where
  valid : Bool
  directions : Directions
  term0 : Term
  term1 : Term
  term2 : Term
  term3 : Term
  action : Action
  template : BitVec 3
  slice : Nat
  ring : BitVec 3
  ratio : Word
  deriving DecidableEq, Repr

/-- A term as a reset leaves it (R40). -/
def Term.reset : Term := { enabled := false, offset := 0, mask := 0, value := 0 }

/-- A rule 0–63 as a reset leaves it (R40). -/
def Rule.reset : Rule :=
  { valid := false, directions := .both, term0 := .reset, term1 := .reset, term2 := .reset, term3 := .reset,
    action := .pass, template := 0, slice := 0, ring := 0, ratio := 1 }

/-- Rule 64 as a reset leaves it (R40): always valid. DESIGN CHOICE (notes/assumptions/27.md): its four disabled terms hold
Offset, Mask and Value 0, which the manual does not say. -/
def Rule.resetDefault : Rule := { Rule.reset with valid := true }

/-- A rule bank: rules 0–63, those not listed as a reset leaves them, and rule 64. -/
structure Bank where
  rules : SMap Rule
  last : Rule
  deriving DecidableEq, Repr

/-- A segment of a key template (Table 17), as wide as R161 commits it. -/
structure Segment where
  offset : BitVec 9
  length : BitVec 5
  deriving DecidableEq, Repr

/-- A key template (Table 17). -/
structure Template where
  defined : Bool
  merge : Bool
  seg0 : Segment
  seg1 : Segment
  seg2 : Segment
  seg3 : Segment
  deriving DecidableEq, Repr

/-- An unused segment at offset 0. -/
def Segment.reset : Segment := { offset := 0, length := 0 }

/-- A template as a reset leaves it (R40). -/
def Template.reset : Template :=
  { defined := false, merge := false, seg0 := .reset, seg1 := .reset, seg2 := .reset, seg3 := .reset }

/-- The Classifier with the Template Table: Mode, the two banks and which is active, the Bank Generation, the sample
countdowns and hit counters by rule index (those not listed are 0), the eight templates (those not listed are as a reset
leaves them), the staging words (those not listed are 0) and the words last written to the two commit words (R160). -/
structure Classifier where
  mode : Mode
  bank0 : Bank
  bank1 : Bank
  activeBank : Bool
  generation : BitVec 16
  countdowns : SMap Nat
  hits : SMap Word
  templates : SMap Template
  ruleStaging : SMap Word
  templateStaging : SMap Word
  ruleCommit : Word
  templateCommit : Word
  deriving DecidableEq, Repr

/-! ## Flow Table, ageing, table operations -/

/-- The direction field of a flow (R37): 0, 1 or 2. -/
inductive DirField where
  | ab | ba | merged
  deriving DecidableEq, Repr

/-- An ACTIVE flow entry (Table 20). -/
structure FlowEntry where
  template : BitVec 3
  dirField : DirField
  origin : Direction
  key : List Byte
  rule : Nat
  generation : BitVec 16
  firstSeen : Word
  lastSeen : Word
  frames : BitVec 32
  bytes : BitVec 40
  saturated : Bool
  merged : Bool
  deriving DecidableEq, Repr

/-- Evict Policy (R62). -/
inductive EvictPolicy where
  | evictOldest | noEvict
  deriving DecidableEq, Repr

/-- The counters of the Flow Table (Table 24). -/
structure FlowCounters where
  activeEntries : Word
  inserts : Word
  evictions : Word
  untrackedFull : Word
  untrackedQueue : Word
  keyShort : Word
  deriving DecidableEq, Repr

/-- The Entry View (R57, R58): the entry index, the snapshot (none: FREE) with its timestamps as shown, and the Snapshot
Time (R163). -/
structure EntryView where
  index : Nat
  entry : Option FlowEntry
  time : Word
  deriving DecidableEq, Repr

/-- The Flow Table: its ACTIVE entries by entry index (an entry not listed is FREE), settings, counters, the Entry View
with its Entry Select index, and the word last written to Close Entry. -/
structure FlowTable where
  entries : SMap FlowEntry
  seed : BitVec 16
  policy : EvictPolicy
  counters : FlowCounters
  view : EntryView
  closeEntry : Word
  deriving DecidableEq, Repr

/-- Uptime and Time Offset (R66, R67). -/
structure Time where
  uptime : Word
  offset : Word
  deriving DecidableEq, Repr

/-- The counters of Table 37. -/
structure AgeCounters where
  idleCloses : Word
  activeExports : Word
  sweepDeferred : Word
  sweepPasses : Word
  flushed : Word
  cleared : Word
  deriving DecidableEq, Repr

/-- The Sweeper (R68, R69): the ageing settings in seconds, the sweep position, the pass start, the pass length in
milliseconds; with the counters of Table 37. -/
structure Sweeper where
  idleTimeout : Nat
  activeTimeout : Nat
  sweepPeriod : Nat
  position : Nat
  passStart : Word
  passLength : Nat
  counters : AgeCounters
  deriving DecidableEq, Repr

/-- States of the table-operation walker (R74). -/
inductive WalkerState where
  | idle | running | done
  deriving DecidableEq, Repr

/-- Kinds of table operation (Table 32). -/
inductive WalkerKind where
  | none | flush | clear
  deriving DecidableEq, Repr

/-- Flush selectors (Table 32). -/
inductive Selector where
  | all | byRule | byTemplate
  deriving DecidableEq, Repr

/-- The table-operation walker (Table 32); `way` is the way a stalled Flush resumes at (R77). -/
structure Walker where
  state : WalkerState
  kind : WalkerKind
  selector : Selector
  argument : Nat
  position : Nat
  way : Nat
  stalled : Bool
  count : Nat
  flushAborted : Bool
  deriving DecidableEq, Repr

/-! ## Header capture -/

/-- Descriptor states (Table 42). -/
inductive DescState where
  | free | filling | filled | inReport
  deriving DecidableEq, Repr

/-- The "first only" fields of a descriptor (Table 43); `flag` is the ingress ending, `good` for no flag;
`length` is none from a reservation until the completion that settles it. -/
structure CaptureInfo where
  rule : Nat
  generation : BitVec 16
  dir : Direction
  flag : Ending
  uptime : Word
  length : Option Nat
  entry : Option Nat
  deriving DecidableEq, Repr

/-- A descriptor (Table 43); `info` is absent in the later descriptors of a capture (R88). -/
structure Descriptor where
  state : DescState
  first : Bool
  last : Bool
  byteCount : Nat
  info : Option CaptureInfo
  deriving DecidableEq, Repr

/-- A descriptor at power-up (R101): FREE, its fields 0 and its flow entry index absent. -/
def Descriptor.reset : Descriptor :=
  { state := .free, first := false, last := false, byteCount := 0,
    info := some { rule := 0, generation := 0, dir := .ab, flag := .good, uptime := 0, length := some 0,
                   entry := none } }

/-- The capture being copied into a ring (R90, R91): whose frame it belongs to, its slice, and the bytes copied. -/
structure Filling where
  dir : Direction
  serial : Nat
  slice : Nat
  copied : Nat
  deriving DecidableEq, Repr

/-- The counters of a ring (Table 47). -/
structure RingCounters where
  completed : Word
  ringBusy : Word
  ringFull : Word
  exported : Word
  discarded : Word
  deriving DecidableEq, Repr

/-- A Capture Ring: its configuration (R85), indices and zone counts (Table 44), descriptors (those not listed are as at
power-up), the capture being filled, and its counters. -/
structure Ring where
  active : Bool
  baseCell : Nat
  size : Nat
  release : Nat
  send : Nat
  fill : Nat
  inReport : Nat
  filled : Nat
  filling : Nat
  free : Nat
  descriptors : SMap Descriptor
  capture : Option Filling
  counters : RingCounters
  deriving DecidableEq, Repr

/-- The four rings. -/
structure Rings where
  r0 : Ring
  r1 : Ring
  r2 : Ring
  r3 : Ring
  deriving DecidableEq, Repr

/-- The Capture Engine: the rings, the bytes that captures have written into the store (byte `o` of cell `c` at `64·c + o`;
a byte not listed holds the undefined content of R101), and the count of happenings that left the content undefined (the
model's own, an argument of `Config.unwrittenCell`). -/
structure CaptureEngine where
  rings : Rings
  cells : List Host.Cell
  epoch : Nat
  deriving DecidableEq, Repr

/-! ## The Record Queue and the Report Engine -/

/-- Record reasons (R81). -/
inductive Reason where
  | idle | active | evicted | flushed | closed
  deriving DecidableEq, Repr

/-- A flow record (Table 35). -/
structure FlowRecord where
  reason : Reason
  index : Nat
  template : BitVec 3
  dirField : DirField
  key : List Byte
  rule : Nat
  generation : BitVec 16
  firstSeen : Word
  lastSeen : Word
  frames : BitVec 32
  bytes : BitVec 40
  saturated : Bool
  merged : Bool
  deriving DecidableEq, Repr

/-- The Record Queue (Table 48): the 256 slots (one not listed holds 0), Head Slot, Record Count, In Report Count. -/
structure RecordQueue where
  slots : SMap FlowRecord
  head : Nat
  count : Nat
  inReport : Nat
  deriving DecidableEq, Repr

/-- The builder's sources (R110). -/
inductive Source where
  | records
  | ring (r : RingId)
  deriving DecidableEq, Repr

/-- Session states (Table 59). -/
inductive SessionState where
  | idle | starting | opened
  deriving DecidableEq, Repr

/-- The delivery counters (Table 67). -/
structure DeliveryCounters where
  reportsSent : Word
  retransmissions : Word
  acks : Word
  staleAcks : Word
  badAcks : Word
  ackMismatch : Word
  sessionsLost : Word
  deriving DecidableEq, Repr

/-- The record conservation counters (Table 68). -/
structure ConservationCounters where
  appended : Word
  exported : Word
  discarded : Word
  deriving DecidableEq, Repr

/-- The Report Engine: its settings (Table 49), session items (Table 58), the Outstanding List (R112), the Report Egress
Queue by sequence (R113), the Hold Timer with its deadline (none: STOPPED), the pending build request and the Next Start
Source (R108–R110), and its counters. -/
structure ReportEngine where
  sessionEnable : Bool
  port : Port
  windowSize : Nat
  sizeLimit : Nat
  holdTime : Nat
  retransmitBase : Nat
  retryLimit : Nat
  session : SessionState
  sessionNumber : BitVec 16
  nextSequence : BitVec 16
  attempts : Nat
  retransmit : Option Word
  outstanding : List Report
  queue : List (BitVec 16)
  hold : Option Word
  buildPending : Bool
  nextStart : Source
  delivery : DeliveryCounters
  conservation : ConservationCounters
  deriving DecidableEq, Repr

/-! ## The state -/

/-- The whole block. `resetN` is the RESET_N pin (true: released). `lastResult` is the result the owner of the last
written word gave the executor (R146; the model's own field). `pending` is the queue of commands that wait, first in,
first out (the model's own field). -/
structure State where
  resetN : Bool
  portA : PortState
  portB : PortState
  reach : Reach
  cls : Classifier
  flow : FlowTable
  time : Time
  sweep : Sweeper
  walker : Walker
  cap : CaptureEngine
  rq : RecordQueue
  rep : ReportEngine
  agent : Agent
  lastResult : Option WordResult
  pending : List Instr
  deriving DecidableEq, Repr

/-- A reason the machine stops with a fault. The manual names none for this block, and no meaning raises one: the type
has no constructor. Nothing is lost by it, so it is safe. -/
inductive Fault where
  deriving DecidableEq, Repr

/-- A reason a command is not run. -/
inductive Refusal where
  /-- Raised by `exec` for a row of the table that has no meaning yet, by its mnemonic. Safe: nothing can be proved of
  such a row. No row is refused in this model. -/
  | notModelled (mnemonic : String)
  deriving DecidableEq, Repr

/-! ## Reset -/

/-- The port counters after any reset (R17). -/
def PortCounters.zero : PortCounters :=
  { framesIn := 0, bytesIn := 0, fragments := 0, oversize := 0, badCheck := 0, truncated := 0, dropped := 0,
    transitOverflow := 0, egressDown := 0, insertedFramesOut := 0 }

/-- A port when RESET_N is released (R18, R153). -/
def PortState.powerUp (link : Link) : PortState :=
  { link := link, rx := none, serial := 0, buffer := [], egress := .idle, lastKind := .transit, responses := [],
    counters := .zero, flowNotices := [], captureNotices := [], commandCopies := [], acks := [], line := [] }

/-- The reach settings when RESET_N is released (R137, Table 70). -/
def Reach.powerUp : Reach :=
  { highMark := 8192, marker := 0xB7C4, envLen := 0, mask := 3, responseEnvelope := [], reportEnvelope := [] }

/-- A cleared bank (R40). -/
def Bank.reset : Bank := { rules := [], last := .resetDefault }

/-- The Classifier after either reset (R39, R40); the reset contents of Rule Staging are those of R159. -/
def Classifier.reset : Classifier :=
  { mode := .bypass, bank0 := .reset, bank1 := .reset, activeBank := false, generation := 0, countdowns := [],
    hits := [], templates := [], ruleStaging := [(0, 3), (3, 1)], templateStaging := [], ruleCommit := 0,
    templateCommit := 0 }

/-- The counters of the Flow Table after either reset (R63). -/
def FlowCounters.zero : FlowCounters :=
  { activeEntries := 0, inserts := 0, evictions := 0, untrackedFull := 0, untrackedQueue := 0, keyShort := 0 }

/-- The Flow Table after either reset (R64, R65). -/
def FlowTable.reset : FlowTable :=
  { entries := [], seed := 0xFFFF, policy := .evictOldest, counters := .zero,
    view := { index := 0, entry := none, time := 0 }, closeEntry := 0 }

/-- The counters of Table 37 after either reset (R82). -/
def AgeCounters.zero : AgeCounters :=
  { idleCloses := 0, activeExports := 0, sweepDeferred := 0, sweepPasses := 0, flushed := 0, cleared := 0 }

/-- The Sweeper as a reset taken at Uptime `now` leaves it (R83 with `now` 0, R84). -/
def Sweeper.reset (now : Word) : Sweeper :=
  { idleTimeout := 30, activeTimeout := 0, sweepPeriod := 4, position := 0, passStart := now, passLength := 4000,
    counters := .zero }

/-- The walker after either reset (R83, R84). -/
def Walker.reset : Walker :=
  { state := .idle, kind := .none, selector := .all, argument := 0, position := 0, way := 0, stalled := false,
    count := 0, flushAborted := false }

/-- The counters of a ring after either reset (R99). -/
def RingCounters.zero : RingCounters :=
  { completed := 0, ringBusy := 0, ringFull := 0, exported := 0, discarded := 0 }

/-- Ring `r` after either reset (R101, R102), Base Cell r × 512. -/
def Ring.reset (r : Nat) : Ring :=
  { active := false, baseCell := r * 512, size := 512, release := 0, send := 0, fill := 0, inReport := 0, filled := 0,
    filling := 0, free := 0, descriptors := [], capture := none, counters := .zero }

/-- The Capture Engine after a reset; `epoch` tells the undefined contents of the store apart. -/
def CaptureEngine.reset (epoch : Nat) : CaptureEngine :=
  { rings := { r0 := .reset 0, r1 := .reset 1, r2 := .reset 2, r3 := .reset 3 }, cells := [], epoch := epoch }

/-- The Record Queue after either reset (R117, R118). -/
def RecordQueue.reset : RecordQueue := { slots := [], head := 0, count := 0, inReport := 0 }

/-- The delivery counters after either reset (R133). -/
def DeliveryCounters.zero : DeliveryCounters :=
  { reportsSent := 0, retransmissions := 0, acks := 0, staleAcks := 0, badAcks := 0, ackMismatch := 0,
    sessionsLost := 0 }

/-- The Report Engine as a reset leaves it (R117, R118, R135, R136): power-up with session number 0, a Soft Reset with
the session number kept. -/
def ReportEngine.reset (sessionNumber : BitVec 16) : ReportEngine :=
  { sessionEnable := false, port := .A, windowSize := 4, sizeLimit := 1024, holdTime := 200, retransmitBase := 100,
    retryLimit := 5, session := .idle, sessionNumber := sessionNumber, nextSequence := 0, attempts := 0,
    retransmit := none, outstanding := [], queue := [], hold := none, buildPending := false, nextStart := .records,
    delivery := .zero, conservation := { appended := 0, exported := 0, discarded := 0 } }

/-- The counters of the Agent after either reset (R152). -/
def AgentCounters.zero : AgentCounters :=
  { commandsQueued := 0, badCheck := 0, overrun := 0, malformed := 0, responsesQueued := 0, responseLost := 0 }

/-- The block when RESET_N is released (R18, R39, R64, R83, R101, R117, R135, R153), with the Unit Number the straps give
and the link states the two lines report. -/
def State.powerUp (unit : BitVec 5) (linkA linkB : Link) (epoch : Nat) : State :=
  { resetN := true, portA := .powerUp linkA, portB := .powerUp linkB, reach := .powerUp, cls := .reset, flow := .reset,
    time := { uptime := 0, offset := 0 }, sweep := .reset 0, walker := .reset, cap := .reset epoch, rq := .reset,
    rep := .reset 0, agent := { unit := unit, queue := [], walk := none, counters := .zero }, lastResult := none,
    pending := [] }

/-- The machine right after reset: RESET_N just released. DESIGN CHOICE (notes/assumptions/3.md): the straps read 0 and
both lines report DOWN, which the manual leaves to the board. -/
def State.reset : State := State.powerUp 0 .down .down 0

end Sys2Proof.Machine
end

