-- ==== Sys2Proof/Machine/Ops.lean ====
section
/-!
DEFINITION. The named operations over the state that every meaning is written with: sparse stores, the Capture Store's
bytes, the blocks of the state, the two cyclic checks (R43, R166), and elapsed time (R66).
-/

namespace Sys2Proof.Machine

/-! ## Sparse stores -/

/-- What a sparse store lists for number `i`. -/
def SMap.find {α : Type} : SMap α → Nat → Option α
  | [], _ => none
  | (k, v) :: t, i => if k = i then some v else SMap.find t i

/-- List `v` for number `i`, keeping the numbers rising. -/
def SMap.insert {α : Type} : SMap α → Nat → α → SMap α
  | [], i, v => [(i, v)]
  | (k, w) :: t, i, v =>
    if i < k then (i, v) :: (k, w) :: t else if i = k then (i, v) :: t else (k, w) :: SMap.insert t i v

/-- List nothing for number `i`. -/
def SMap.erase {α : Type} : SMap α → Nat → SMap α
  | [], _ => []
  | (k, w) :: t, i => if k = i then SMap.erase t i else (k, w) :: SMap.erase t i

/-- The value at number `i` of a store whose unlisted numbers hold `d`. -/
def SMap.get {α : Type} (d : α) (m : SMap α) (i : Nat) : α := (SMap.find m i).getD d

/-- Write `v` at number `i` of a store whose unlisted numbers hold `d`: writing `d` removes the entry. -/
def SMap.set {α : Type} [DecidableEq α] (d : α) (m : SMap α) (i : Nat) (v : α) : SMap α :=
  if v = d then SMap.erase m i else SMap.insert m i v

/-- The numbers listed rise strictly. -/
abbrev SMap.Sorted {α : Type} (m : SMap α) : Prop := m.Pairwise (fun x y => x.1 < y.1)

/-- The canonical form of a store whose unlisted numbers hold `d`. -/
abbrev SMap.Wf {α : Type} [DecidableEq α] (d : α) (m : SMap α) : Prop := SMap.Sorted m ∧ ∀ x ∈ m, x.2 ≠ d

/-! ## The Capture Store (R88) -/

/-- A byte of the Capture Store: what a capture wrote there, or the undefined content of R101. -/
def CaptureEngine.readByte (c : CaptureEngine) (a : Nat) : Byte :=
  match SMap.find c.cells a with
  | some b => b
  | none => Config.unwrittenCell c.epoch a

/-- A byte written into the Capture Store, which has 2048 cells of 64 bytes (R88): there is nothing to write outside it
(notes/assumptions/24.md). -/
def CaptureEngine.writeByte (c : CaptureEngine) (a : Nat) (b : Byte) : CaptureEngine :=
  if a < 2048 * 64 then { c with cells := SMap.insert c.cells a b } else c

/-- The Capture Store's canonical form: addresses strictly rising and inside its 2048 cells of 64 bytes. A byte not
listed has no known value, so no listed byte equals what an unlisted one reads as. -/
abbrev Memory.wf (m : List Host.Cell) : Prop := SMap.Sorted m ∧ ∀ x ∈ m, x.1 < 2048 * 64

/-! ## Rings -/

/-- Ring `r`. -/
def Rings.get (g : Rings) : RingId → Ring
  | 0 => g.r0
  | 1 => g.r1
  | 2 => g.r2
  | 3 => g.r3

/-- Ring `r` replaced. -/
def Rings.set (g : Rings) (r : RingId) (x : Ring) : Rings :=
  match r with
  | 0 => { g with r0 := x }
  | 1 => { g with r1 := x }
  | 2 => { g with r2 := x }
  | 3 => { g with r3 := x }

/-- The rings in the order of their numbers. -/
def allRings : List RingId := [0, 1, 2, 3]

/-- Descriptor `i` of a ring. -/
def Ring.desc (r : Ring) (i : Nat) : Descriptor := SMap.get .reset r.descriptors i

/-- Descriptor `i` of a ring written. -/
def Ring.setDesc (r : Ring) (i : Nat) (d : Descriptor) : Ring :=
  { r with descriptors := SMap.set .reset r.descriptors i d }

/-! ## The blocks of the state -/

/-- The state of port `p`. -/
def State.port (s : State) : Port → PortState
  | .A => s.portA
  | .B => s.portB

/-- Port `p` replaced. -/
def State.setPort (s : State) (p : Port) (x : PortState) : State :=
  match p with
  | .A => { s with portA := x }
  | .B => { s with portB := x }

/-- The RESET_N pin. -/
def State.setResetN (s : State) (x : Bool) : State := { s with resetN := x }

/-- The reach settings replaced. -/
def State.setReach (s : State) (x : Reach) : State := { s with reach := x }

/-- The Classifier replaced. -/
def State.setCls (s : State) (x : Classifier) : State := { s with cls := x }

/-- The Flow Table replaced. -/
def State.setFlow (s : State) (x : FlowTable) : State := { s with flow := x }

/-- The Time block replaced. -/
def State.setTime (s : State) (x : Time) : State := { s with time := x }

/-- The Sweeper replaced. -/
def State.setSweep (s : State) (x : Sweeper) : State := { s with sweep := x }

/-- The walker replaced. -/
def State.setWalker (s : State) (x : Walker) : State := { s with walker := x }

/-- The Capture Engine replaced. -/
def State.setCap (s : State) (x : CaptureEngine) : State := { s with cap := x }

/-- The Record Queue replaced. -/
def State.setRq (s : State) (x : RecordQueue) : State := { s with rq := x }

/-- The Report Engine replaced. -/
def State.setRep (s : State) (x : ReportEngine) : State := { s with rep := x }

/-- The Agent replaced. -/
def State.setAgent (s : State) (x : Agent) : State := { s with agent := x }

/-- The result of the last written word. -/
def State.setResult (s : State) (x : WordResult) : State := { s with lastResult := some x }

/-- The queue of waiting commands replaced. -/
def State.setPending (s : State) (x : List Instr) : State := { s with pending := x }

/-- Ring `r` of the state. -/
def State.ring (s : State) (r : RingId) : Ring := s.cap.rings.get r

/-- Ring `r` of the state replaced. -/
def State.setRing (s : State) (r : RingId) (x : Ring) : State :=
  s.setCap { s.cap with rings := s.cap.rings.set r x }

/-- The Uptime at which a step is taken. -/
def State.now (s : State) : Word := s.time.uptime

/-- The counters of port `p` replaced. -/
def State.setPortCounters (s : State) (p : Port) (c : PortCounters) : State :=
  s.setPort p { s.port p with counters := c }

/-- A symbol put on the line by the egress of port `p`. -/
def State.emit (s : State) (p : Port) (x : LineSymbol) : State :=
  s.setPort p { s.port p with line := (s.port p).line ++ [x] }

/-- The shadow bank (R29). -/
def Classifier.shadow (c : Classifier) : Bank := if c.activeBank then c.bank0 else c.bank1

/-- The active bank (R29). -/
def Classifier.active (c : Classifier) : Bank := if c.activeBank then c.bank1 else c.bank0

/-- The shadow bank replaced. -/
def Classifier.setShadow (c : Classifier) (b : Bank) : Classifier :=
  if c.activeBank then { c with bank0 := b } else { c with bank1 := b }

/-- Rule `i` of a bank: 0–63, or 64 the default rule. -/
def Bank.rule (b : Bank) (i : Nat) : Rule := if i = 64 then b.last else SMap.get .reset b.rules i

/-- Rule `i` of a bank replaced. -/
def Bank.setRule (b : Bank) (i : Nat) (r : Rule) : Bank :=
  if i = 64 then { b with last := r } else { b with rules := SMap.set .reset b.rules i r }

/-- Template `t` (R35). -/
def Classifier.template (c : Classifier) (t : Nat) : Template := SMap.get .reset c.templates t

/-! ## Directions -/

/-- The direction of the frames that enter at port `p`. -/
def directionIn : Port → Direction
  | .A => .ab
  | .B => .ba

/-! ## Elapsed time (R66) -/

/-- The elapsed time from `t` to `now`, the difference modulo 2^32. -/
def elapsed (now t : Word) : Nat := (now - t).toNat

/-- A deadline is reached when Uptime equals it (R128), and stays reached until the expiry is taken: the elapsed time
since it is in the lower half of the modulus (notes/assumptions/12.md). -/
def deadlineReached (now deadline : Word) : Bool := elapsed now deadline < 2 ^ 31

/-! ## The cyclic checks -/

/-- One input bit of a cyclic check in a `w`-bit register: the register is shifted one place toward its most significant
end, and combined with the polynomial when the bit shifted out differs from the input bit (R43, R166). -/
def crcBit {w : Nat} (poly : BitVec w) (reg : BitVec w) (b : Bool) : BitVec w :=
  if reg.msb != b then (reg <<< 1) ^^^ poly else reg <<< 1

/-- One byte of a cyclic check, most significant bit first. -/
def crcByte {w : Nat} (poly : BitVec w) (reg : BitVec w) (b : Byte) : BitVec w :=
  [7, 6, 5, 4, 3, 2, 1, 0].foldl (fun r i => crcBit poly r (b.getLsbD i)) reg

/-- The 16-bit check of R43 over bytes, from the Hash Seed. -/
def hash16 (seed : BitVec 16) (bytes : List Byte) : BitVec 16 := bytes.foldl (crcByte 0x1021) seed

/-- The register of the frame check (R166) over more bytes. -/
def crc32 (reg : Word) (bytes : List Byte) : Word := bytes.foldl (crcByte 0x04C11DB7) reg

/-- The start value of the frame check register (R166). -/
def crcStart : Word := 0xFFFFFFFF

/-! ## Bytes of numbers, most significant first -/

/-- The two bytes of a 16-bit number. -/
def be16 (x : BitVec 16) : List Byte := [x.extractLsb' 8 8, x.extractLsb' 0 8]

/-- The four bytes of a 32-bit number. -/
def be32 (x : Word) : List Byte := [x.extractLsb' 24 8, x.extractLsb' 16 8, x.extractLsb' 8 8, x.extractLsb' 0 8]

/-- The five bytes of a 40-bit number. -/
def be40 (x : BitVec 40) : List Byte :=
  [x.extractLsb' 32 8, x.extractLsb' 24 8, x.extractLsb' 16 8, x.extractLsb' 8 8, x.extractLsb' 0 8]

/-- The number two bytes spell. -/
def word16 (hi lo : Byte) : BitVec 16 := hi ++ lo

/-- The number four bytes spell. -/
def word32 (a b c d : Byte) : Word := a ++ b ++ c ++ d

/-- The frame check of the bytes before it, as sent (R166): every bit of the register inverted. -/
def frameCheck (bytes : List Byte) : List Byte := be32 (~~~ (crc32 crcStart bytes))

/-- Whether a frame's last four bytes are the check of the bytes before them (R166). -/
def checkCorrect (frame : List Byte) : Bool :=
  frame.drop (frame.length - 4) == frameCheck (frame.take (frame.length - 4))

/-! ## The last of a list -/

/-- The last of a list changed. -/
def updateLast {α : Type} (f : α → α) : List α → List α
  | [] => []
  | [x] => [f x]
  | x :: y :: t => x :: updateLast f (y :: t)

/-- How many numbers of `bytes` fit, rounded up, into units of `unit`. -/
def ceilDiv (n unit : Nat) : Nat := (n + (unit - 1)) / unit

end Sys2Proof.Machine
end

