-- ==== Sys2Proof/Machine/Flags.lean ====
section
/-!
DEFINITION. The flags, endings and statuses: how an ingress ending is settled (Table 5), how the counts of a flow
saturate and merge (R46, R49), how the words of an op settle its status (R146), and the codes of each on the line.
-/

namespace Sys2Proof.Machine

/-! ## Ingress endings (R2 to R6) -/

/-- How a frame in reception ends. -/
inductive LineEnd where
  | normal | aborted | linkDown
  deriving DecidableEq, Repr

/-- The ingress ending of a frame of 16 bytes or more (Table 5): the event that settled one first, else what its end
gives. -/
def settleEnding (settled : Option Ending) (e : LineEnd) (checkOk : Bool) : Ending :=
  match settled with
  | some x => x
  | none =>
    match e with
    | .linkDown => .truncated
    | .aborted => .checkFailed
    | .normal => if checkOk then .good else .checkFailed

/-- The port counters of an ingress ending, apart from Frames In and Bytes In (R17). -/
def PortCounters.countEnding (c : PortCounters) : Ending → PortCounters
  | .good => c
  | .checkFailed => { c with badCheck := c.badCheck + 1 }
  | .truncated => { c with truncated := c.truncated + 1 }
  | .oversize => { c with oversize := c.oversize + 1 }

/-- The ending of a capture item's Flags byte (Table 95). -/
def Ending.code : Ending → Byte
  | .good => 0
  | .checkFailed => 1
  | .truncated => 2
  | .oversize => 3

/-! ## Flow counts (R46, R49) -/

/-- A saturating sum, and whether it would have passed the maximum (R46). -/
def saturatingAdd {w : Nat} (x : BitVec w) (n : Nat) : BitVec w × Bool :=
  if x.toNat + n < 2 ^ w then (BitVec.ofNat w (x.toNat + n), false) else (BitVec.allOnes w, true)

/-- An entry after a hit by a frame of `dir` and `length` bytes at Uptime `now` (R48, R46, R49). -/
def FlowEntry.hit (e : FlowEntry) (dir : Direction) (length : Nat) (now : Word) : FlowEntry :=
  let f := saturatingAdd e.frames 1
  let b := saturatingAdd e.bytes length
  { e with
    frames := f.1
    bytes := b.1
    lastSeen := now
    saturated := e.saturated || f.2 || b.2
    merged := e.merged || (e.dirField == .merged && dir != e.origin) }

/-- An entry after an active export at Uptime `now` (R71). -/
def FlowEntry.exported (e : FlowEntry) (now : Word) : FlowEntry :=
  { e with frames := 0, bytes := 0, saturated := false, firstSeen := now }

/-- The direction field's number (R37). -/
def DirField.code : DirField → Nat
  | .ab => 0
  | .ba => 1
  | .merged => 2

/-- The number of a direction: 0 for AB, 1 for BA. -/
def Direction.code : Direction → Nat
  | .ab => 0
  | .ba => 1

/-- The code of a record's reason (Table 94). -/
def Reason.code : Reason → Byte
  | .idle => 1
  | .active => 2
  | .evicted => 3
  | .flushed => 4
  | .closed => 5

/-! ## Op statuses (R146) -/

/-- The status of a WRITE or READ op from its first mine word and its first word result that was not OK (R146). -/
def settleStatus (firstMine : Option Nat) (failure : Option WordResult) : OpStatus :=
  match firstMine with
  | none => .notMine
  | some _ => .result (failure.getD .ok)

/-- The first word result that was not OK, after one more word. -/
def noteFailure (failure : Option WordResult) (r : WordResult) : Option WordResult :=
  match failure with
  | some f => some f
  | none => if r = .ok then none else some r

/-- The code of a status (Table 91). -/
def OpStatus.code : OpStatus → Byte
  | .result .ok => 0x00
  | .notMine => 0x01
  | .result .unmapped => 0x02
  | .result .readOnly => 0x03
  | .result .busy => 0x04
  | .noRoom => 0x05
  | .skipped => 0x06
  | .result (.rejected .badValue) => 0x81
  | .result (.rejected .badTemplate) => 0x82
  | .result (.rejected .badRing) => 0x83
  | .result (.rejected .inUse) => 0x84
  | .result (.rejected .overlap) => 0x85
  | .result (.rejected .notEmpty) => 0x86
  | .result (.rejected .notActive) => 0x87

end Sys2Proof.Machine
end

