-- ==== Sys2Proof/Machine/Operands.lean ====
section
/-!
DEFINITION. The forms of what the commands carry: management addresses and the local map (R143, Table 78), the fields of
the rule and template words (R159, R161), the ops of a COMMAND body (R141, R167), and the bytes of the frames the block
originates (R138, R168, R170).
-/

namespace Sys2Proof.Machine

/-! ## Windows (R143, R144) -/

/-- The local offset of a management address that is mine to the unit: in its own window or in the All-Units window
(Table 73). -/
def localOffset (unit : BitVec 5) (a : BitVec 24) : Option (BitVec 16) :=
  if (a.extractLsb' 16 8).toNat = unit.toNat ∨ a.extractLsb' 16 8 = 0xFF then some (a.extractLsb' 0 16) else none

/-- How many of the `n` words from address `a` are mine. -/
def mineCount (unit : BitVec 5) (a : BitVec 24) : Nat → Nat
  | 0 => 0
  | n + 1 => (if (localOffset unit a).isSome then 1 else 0) + mineCount unit (a + 1) n

/-- The cursor after a MOVE_CURSOR: plus the signed delta, modulo 2^24 (R144). -/
def moveBy (a : BitVec 24) (delta : BitVec 16) : BitVec 24 := a + delta.signExtend 24

/-! ## The local map (Table 78) -/

/-- The setting words (Table 80). -/
inductive Setting where
  | mode | timeOffset | hashSeed | evictPolicy | idleTimeout | activeTimeout | sweepPeriod | highMark | marker
  | envelopeLength | portMask | sessionEnable | reportPort | windowSize | sizeLimit | holdTime | retransmitBase
  | retryLimit
  deriving DecidableEq, Repr

/-- The status words of Table 79. -/
inductive StatusWord where
  | identity | unitNumber | portStatus | transitFill | bankStatus | tableStatus | tableProgress | uptime
  | sweepPosition | agentStatus | sessionStatus | sequenceStatus | recordQueueStatus | exportStatus
  deriving DecidableEq, Repr

/-- The word a local offset reaches. -/
inductive Target where
  | unmapped
  | status (w : StatusWord)
  | setting (k : Setting)
  | control
  | responseEnvelope (i : Nat)
  | reportEnvelope (i : Nat)
  | ruleStaging (i : Nat)
  | ruleCommit
  | templateStaging (i : Nat)
  | templateCommit
  | activeRule (rule : Nat) (i : Nat)
  | shadowRule (rule : Nat) (i : Nat)
  | template (t : Nat) (i : Nat)
  | hitCounter (i : Nat)
  | entrySelect
  | entryView (i : Nat)
  | closeEntry
  | ring (r : RingId) (i : Nat)
  | counter (i : Nat)
  deriving DecidableEq, Repr

/-- The offsets of the counter block that Table 85 names, counted from 0x4000. -/
def counterNamed (i : Nat) : Bool :=
  i ≤ 0x09 || (0x10 ≤ i && i ≤ 0x19) || (0x20 ≤ i && i ≤ 0x25) || (0x28 ≤ i && i ≤ 0x2D)
    || (0x30 ≤ i && i < 0x50 && (i - 0x30) % 8 < 5) || (0x50 ≤ i && i ≤ 0x56) || (0x58 ≤ i && i ≤ 0x5A)
    || (0x60 ≤ i && i ≤ 0x65)

/-- The single words of Table 78 below 0x0100. -/
def lowTarget (o : Nat) : Target :=
  match o with
  | 0x00 => .status .identity
  | 0x01 => .status .unitNumber
  | 0x02 => .status .portStatus
  | 0x03 => .status .transitFill
  | 0x04 => .setting .mode
  | 0x05 => .status .bankStatus
  | 0x08 => .control
  | 0x09 => .status .tableStatus
  | 0x0A => .status .tableProgress
  | 0x0C => .status .uptime
  | 0x0D => .setting .timeOffset
  | 0x10 => .setting .hashSeed
  | 0x11 => .setting .evictPolicy
  | 0x12 => .setting .idleTimeout
  | 0x13 => .setting .activeTimeout
  | 0x14 => .setting .sweepPeriod
  | 0x15 => .status .sweepPosition
  | 0x20 => .setting .highMark
  | 0x21 => .setting .marker
  | 0x22 => .setting .envelopeLength
  | 0x23 => .setting .portMask
  | 0x24 => .status .agentStatus
  | 0x30 => .setting .sessionEnable
  | 0x31 => .setting .reportPort
  | 0x32 => .setting .windowSize
  | 0x33 => .setting .sizeLimit
  | 0x34 => .setting .holdTime
  | 0x35 => .setting .retransmitBase
  | 0x36 => .setting .retryLimit
  | 0x38 => .status .sessionStatus
  | 0x39 => .status .sequenceStatus
  | 0x3A => .status .recordQueueStatus
  | 0x3B => .status .exportStatus
  | _ => .unmapped

/-- The address decoder of the local map (Table 78, R164, R165). -/
def decodeOffset (o : Nat) : Target :=
  if o < 0x0100 then lowTarget o
  else if o ≤ 0x0107 then .responseEnvelope (o - 0x0100)
  else if o ≤ 0x010F then .reportEnvelope (o - 0x0108)
  else if o < 0x0200 then .unmapped
  else if o ≤ 0x020F then .ruleStaging (o - 0x0200)
  else if o = 0x0210 then .ruleCommit
  else if o ≤ 0x0214 then .templateStaging (o - 0x0211)
  else if o = 0x0215 then .templateCommit
  else if o < 0x1000 then .unmapped
  else if o ≤ 0x13FF then .activeRule ((o - 0x1000) / 16) ((o - 0x1000) % 16)
  else if o ≤ 0x17FF then .shadowRule ((o - 0x1400) / 16) ((o - 0x1400) % 16)
  else if o ≤ 0x181F then .template ((o - 0x1800) / 4) ((o - 0x1800) % 4)
  else if o ≤ 0x182F then .activeRule 64 (o - 0x1820)
  else if o ≤ 0x183F then .shadowRule 64 (o - 0x1830)
  else if o ≤ 0x1880 then .hitCounter (o - 0x1840)
  else if o < 0x2000 then .unmapped
  else if o = 0x2000 then .entrySelect
  else if o ≤ 0x2010 then .entryView (o - 0x2001)
  else if o = 0x2011 then .closeEntry
  else if o < 0x3000 then .unmapped
  else if o ≤ 0x301F then
    if (o - 0x3000) % 8 = 7 then .unmapped else .ring (Fin.ofNat 4 ((o - 0x3000) / 8)) ((o - 0x3000) % 8)
  else if o < 0x4000 then .unmapped
  else if o ≤ 0x4065 then if counterNamed (o - 0x4000) then .counter (o - 0x4000) else .unmapped
  else .unmapped

/-! ## Rule and template words (R159, R161) -/

/-- Bits `lo + len - 1` to `lo` of a word, as a number. -/
def field (v : Word) (lo len : Nat) : Nat := (v.extractLsb' lo len).toNat

/-- A number placed at bit `lo` of a word. -/
def place (n lo : Nat) : Word := word n <<< lo

/-- A Bool placed at bit `lo` of a word. -/
def flagAt (b : Bool) (lo : Nat) : Word := if b then place 1 lo else 0

/-- Word `i` of a staging record. -/
def stagingWord (m : SMap Word) (i : Nat) : Word := SMap.get 0 m i

/-- Term `k` of the Rule Staging record (Table 82). -/
def stagedTerm (m : SMap Word) (k : Nat) : Term :=
  { enabled := (stagingWord m (4 + 3 * k)).getLsbD 31
    offset := (stagingWord m (4 + 3 * k)).extractLsb' 0 8
    mask := stagingWord m (5 + 3 * k)
    value := stagingWord m (6 + 3 * k) }

/-- The Directions a staged code names (Table 82); 0 names no direction. -/
def directionsOf : Nat → Option Directions
  | 1 => some .ab
  | 2 => some .ba
  | 3 => some .both
  | _ => none

/-- The Action a staged code names (Table 82); 3 names none. -/
def actionOf : Nat → Option Action
  | 0 => some .pass
  | 1 => some .measure
  | 2 => some .drop
  | _ => none

/-- The code of Directions (Table 82). -/
def Directions.code : Directions → Nat
  | .ab => 1
  | .ba => 2
  | .both => 3

/-- The code of an Action (Table 82). -/
def Action.code : Action → Nat
  | .pass => 0
  | .measure => 1
  | .drop => 2

/-- Term `k` of a rule. -/
def Rule.term (r : Rule) : Nat → Term
  | 0 => r.term0
  | 1 => r.term1
  | 2 => r.term2
  | _ => r.term3

/-- Word `i` of a rule record in a bank view (Table 82). -/
def Rule.viewWord (r : Rule) (i : Nat) : Word :=
  match i with
  | 0 => flagAt r.valid 31 ||| place r.directions.code 0
  | 1 => place r.action.code 0 ||| place r.template.toNat 8
  | 2 => place r.slice 0 ||| place r.ring.toNat 16
  | 3 => r.ratio
  | _ =>
    let t := r.term ((i - 4) / 3)
    match (i - 4) % 3 with
    | 0 => flagAt t.enabled 31 ||| place t.offset.toNat 0
    | 1 => t.mask
    | _ => t.value

/-- Segment `k` of a template. -/
def Template.seg (t : Template) : Nat → Segment
  | 0 => t.seg0
  | 1 => t.seg1
  | 2 => t.seg2
  | _ => t.seg3

/-- The segments of a template in order. -/
def Template.segments (t : Template) : List Segment := [t.seg0, t.seg1, t.seg2, t.seg3]

/-- The key length of a template (2.7). -/
def Template.keyLength (t : Template) : Nat := (t.segments.map fun g => g.length.toNat).sum

/-- Segment `k` of the Template Staging record (R161). -/
def stagedSegment (m : SMap Word) (k : Nat) : Segment :=
  { offset := (stagingWord m k).extractLsb' 16 9, length := (stagingWord m k).extractLsb' 0 5 }

/-- The template the Template Staging record holds (R161). -/
def stagedTemplate (m : SMap Word) : Template :=
  { defined := (stagingWord m 0).getLsbD 31, merge := (stagingWord m 0).getLsbD 30, seg0 := stagedSegment m 0,
    seg1 := stagedSegment m 1, seg2 := stagedSegment m 2, seg3 := stagedSegment m 3 }

/-- Word `i` of a template in the template view (R161). -/
def Template.viewWord (t : Template) (i : Nat) : Word :=
  place (t.seg i).offset.toNat 16 ||| place (t.seg i).length.toNat 0
    ||| (if i = 0 then flagAt t.defined 31 ||| flagAt t.merge 30 else 0)

/-! ## The ops of a COMMAND body (R141, R167) -/

/-- The first `n` words of a byte list, if it holds them. -/
def takeWords : Nat → List Byte → Option (List Word × List Byte)
  | 0, b => some ([], b)
  | n + 1, a :: b :: c :: d :: rest =>
    match takeWords n rest with
    | some (ws, r) => some (word32 a b c d :: ws, r)
    | none => none
  | _ + 1, _ => none

/-- One op at the front of a byte list (Table 88): none when it is malformed by R141. -/
def parseOp : List Byte → Option (Op × List Byte)
  | [] => none
  | k :: rest =>
    if k = 0x10 then
      match rest with
      | a :: b :: c :: r => some (.setCursor (a ++ b ++ c), r)
      | _ => none
    else if k = 0x11 then
      match rest with
      | a :: b :: r => some (.moveCursor (word16 a b), r)
      | _ => none
    else if k = 0x12 then
      match rest with
      | n :: r =>
        if n = 0 then none
        else
          match takeWords n.toNat r with
          | some (ws, r') => some (.write ws, r')
          | none => none
      | [] => none
    else if k = 0x13 then
      match rest with
      | n :: r => if n = 0 then none else some (.read n.toNat, r)
      | [] => none
    else none

/-- `n` ops, and at most 3 bytes of padding after the last (R141). -/
def parseOps : Nat → List Byte → Option (List Op)
  | 0, b => if b.length ≤ 3 then some [] else none
  | n + 1, b =>
    match parseOp b with
    | some (op, r) =>
      match parseOps n r with
      | some ops => some (op :: ops)
      | none => none
    | none => none

/-- The bytes of an op in a COMMAND body (Table 88), as a station lays it out. -/
def Op.encode : Op → List Byte
  | .setCursor a => [0x10, a.extractLsb' 16 8, a.extractLsb' 8 8, a.extractLsb' 0 8]
  | .moveCursor d => 0x11 :: be16 d
  | .write ws => 0x12 :: byte ws.length :: ws.flatMap be32
  | .read n => [0x13, byte n]

/-- An op whose count is one that Table 88 can encode. -/
def Op.encodable : Op → Bool
  | .setCursor _ => true
  | .moveCursor _ => true
  | .write ws => 1 ≤ ws.length && ws.length ≤ 255
  | .read n => 1 ≤ n && n ≤ 255

/-- The body of a queued COMMAND: from frame offset E + 3 to the last byte before the check (R167). -/
def Command.body (c : Command) : List Byte := c.bytes.drop (c.envLen + 3)

/-- Byte `i` of a byte list, 0 past its end. -/
def byteAt (b : List Byte) (i : Nat) : Byte := b.getD i 0

/-- The ops of a well-formed command (R141), none for a malformed one. -/
def Command.ops (c : Command) : Option (List Op) :=
  let b := c.body
  if b.length < 4 then none
  else if byteAt b 3 = 0 then none
  else parseOps (byteAt b 3).toNat (b.drop 4)

/-- The Tag of a command (Table 87). -/
def Command.tag (c : Command) : BitVec 16 := word16 (byteAt c.body 0) (byteAt c.body 1)

/-- ROLLCALL, readable when the body holds at least 3 bytes (R142, R167). -/
def Command.rollcall (c : Command) : Bool := 3 ≤ c.body.length && (byteAt c.body 2).getLsbD 0

/-- How many words an op has: 0 for the cursor ops. -/
def Op.count : Op → Nat
  | .setCursor _ => 0
  | .moveCursor _ => 0
  | .write ws => ws.length
  | .read n => n

/-! ## Frames the block originates (R138) -/

/-- The kind byte (Table 86). -/
def Kind.code : Kind → Byte
  | .command => 1
  | .response => 2
  | .report => 3
  | .ack => 4

/-- The kind a kind byte names. -/
def kindOf (b : Byte) : Option Kind :=
  if b = 1 then some .command
  else if b = 2 then some .response
  else if b = 3 then some .report
  else if b = 4 then some .ack
  else none

/-- The first `n` bytes of an envelope of 8 words (R137). -/
def envelopeBytes (m : SMap Word) (n : Nat) : List Byte :=
  (([0, 1, 2, 3, 4, 5, 6, 7] : List Nat).flatMap fun k => be32 (stagingWord m k)).take n

/-- Size of a read block (R147). -/
def Block.size (b : Block) : Nat := 2 + 4 * b.data.length

/-- The bytes of a read block (Table 90). -/
def Block.bytes (b : Block) : List Byte := byte b.offset :: byte b.data.length :: b.data.flatMap be32

/-- The body of a RESPONSE up to its filler (Table 89). -/
def Response.body (r : Response) : List Byte :=
  [BitVec.setWidth 8 r.unit, flagAtByte r.malformed 0 ||| flagAtByte r.reset 1] ++ be16 r.tag ++ [byte r.opCount]
    ++ r.statuses.map OpStatus.code ++ r.blocks.flatMap Block.bytes
where
  /-- A Bool placed at a bit of a byte. -/
  flagAtByte (b : Bool) (i : Nat) : Byte := if b then (1 : Byte) <<< i else 0

/-- The whole frame of a RESPONSE whose transmission starts under the reach settings (R138, R168). -/
def Response.frame (g : Reach) (r : Response) : List Byte :=
  let f := envelopeBytes g.responseEnvelope g.envLen ++ be16 g.marker ++ [Kind.code .response] ++ r.body
  let filled := f ++ List.replicate (12 - f.length) 0
  filled ++ frameCheck filled

/-! ## The bytes of a REPORT (R114, R115, R170) -/

/-- Size of an item (Table 50). -/
def Item.size : Item → Nat
  | .record _ k => 28 + k
  | .capture _ _ c e => (if e then 19 else 17) + c

/-- The descriptors a capture of `c` bytes uses (R92). -/
def descriptorsOf (c : Nat) : Nat := ceilDiv c 64

/-- The fields of a record item from its slot, length `k` as built, in the order of Table 94; each of its bytes that is no
part of a number stands alone. A slot that holds nothing reads 0, its two timestamps shown with the Time Offset like any
other's (R114, notes/assumptions/25.md). -/
def recordItemFields (timeOffset : Word) (slot : Option FlowRecord) (k : Nat) : List (List Byte) :=
  match slot with
  | none =>
    [[1], [0], [0], [0], [byte k], [0], [0], [0, 0], [0, 0], be32 timeOffset, be32 timeOffset, [0, 0, 0, 0],
        [0, 0, 0, 0, 0]] ++ List.replicate k [0]
  | some r =>
    [[1], [r.reason.code], [BitVec.setWidth 8 r.template], [byte r.dirField.code], [byte k],
        [(if r.saturated then 1 else 0) ||| (if r.merged then 2 else 0)], [byte r.rule], be16 (BitVec.ofNat 16 r.index),
        be16 r.generation, be32 (r.firstSeen + timeOffset), be32 (r.lastSeen + timeOffset), be32 r.frames, be40 r.bytes]
      ++ (List.range k).map fun j => [byteAt r.key j]

/-- The produced Frame length of a capture item: saturated (R170). -/
def shownLength (n : Nat) : Word := if n < 2 ^ 32 then word n else 0xFFFFFFFF

/-- The fields of a capture item that its descriptor gives: Flags without bit 7, rule index, Bank Generation, Uptime at
decision and Frame length, and apart from them the flow entry index (Table 95). `u` gives the bytes that an absent field
reads as, counted from the first byte of the field. -/
def captureFields (timeOffset : Word) (u : Nat → Byte) (info : Option CaptureInfo) : List (List Byte) × List Byte :=
  match info with
  | some i =>
    ([[i.flag.code ||| (byte i.dir.code <<< 4)], [byte i.rule], be16 i.generation, be32 (i.uptime + timeOffset),
        match i.length with
        | some n => be32 (shownLength n)
        | none => [u 0, u 1, u 2, u 3]],
      match i.entry with
      | some e => be16 (BitVec.ofNat 16 e)
      | none => [u 0 &&& 0x3F, u 1])
  | none =>
    ([[u 0 &&& 0x13], [byte ((u 0).toNat % 65)], [u 0, u 1], [u 0, u 1, u 2, u 3], [u 0, u 1, u 2, u 3]],
      [u 0 &&& 0x3F, u 1])

/-- Place in the store of byte `j` of a capture whose first descriptor is `first` (R88, R100). -/
def Ring.cellAddress (r : Ring) (first j : Nat) : Nat := 64 * (r.baseCell + (first + j / 64) % r.size) + j % 64

/-- The fields of a capture item (Table 95), its lengths and presence bit as built, its other fields from the ring as it
stands (R100, R115): all 0 when the ring is inactive. Each captured byte stands alone. -/
def captureItemFields (timeOffset : Word) (u : Nat → Byte) (cap : CaptureEngine) (ring : RingId) (first c : Nat)
    (hasEntry : Bool) : List (List Byte) :=
  let r := cap.rings.get ring
  let given :=
    if r.active then captureFields timeOffset u (r.desc (first % r.size)).info
    else ([[0], [0], [0, 0], [0, 0, 0, 0], [0, 0, 0, 0]], [0, 0])
  [[2], [byte ring.val], [byteAt (given.1.headD []) 0 ||| (if hasEntry then 0x80 else 0)]] ++ given.1.drop 1
    ++ [be16 (BitVec.ofNat 16 c), [byte (descriptorsOf c)]] ++ (if hasEntry then [given.2] else [])
    ++ (List.range c).map fun j => [if r.active then cap.readByte (r.cellAddress first j) else 0]

/-- The fields of an item as the stores stand (R115). -/
def Item.fields (s : State) (u : Nat → Byte) : Item → List (List Byte)
  | .record slot k => recordItemFields s.time.offset (SMap.find s.rq.slots slot) k
  | .capture r first c e => captureItemFields s.time.offset u s.cap r first c e

/-- The bytes of an item as the stores stand (R115). -/
def Item.bytes (s : State) (u : Nat → Byte) (it : Item) : List Byte := (it.fields s u).flatten

/-- The field that holds byte `i` of a run of fields, from that byte on. -/
def fieldFrom : List (List Byte) → Nat → List Byte
  | [], _ => []
  | f :: rest, i => if i < f.length then f.drop i else fieldFrom rest (i - f.length)

/-- The sum of Captures Discarded over the rings (R99, R114). -/
def capturesDiscarded (s : State) : Word :=
  (allRings.map fun r => (s.ring r).counters.discarded).foldl (· + ·) 0

/-- The bytes fixed when a report's transmission starts: envelope, Marker, kind, header (R114, Table 54, Table 93). -/
def reportHead (s : State) (r : Report) : List Byte :=
  envelopeBytes s.reach.reportEnvelope s.reach.envLen ++ be16 s.reach.marker ++ [Kind.code .report]
    ++ [BitVec.setWidth 8 s.agent.unit] ++ be16 r.session ++ be16 r.sequence ++ [if r.start then 1 else 0]
    ++ [byte r.recordCount, byte r.captureCount] ++ be16 (BitVec.ofNat 16 r.itemsSize)
    ++ be32 (s.time.uptime + s.time.offset) ++ be32 s.rep.conservation.discarded ++ be32 (capturesDiscarded s)
    ++ be32 (s.flow.counters.untrackedFull + s.flow.counters.untrackedQueue)

/-- The length of the frame a report is being sent in: E + 33 plus its items size (R107). -/
def ReportTx.total (t : ReportTx) : Nat := t.head.length + t.report.itemsSize + 4

/-- The bytes of the field at the present position of a report being sent, the next of them first (R114, R115). An item
field is formed now when its first byte is next, and its bytes formed before go on otherwise: a timestamp has one Time
Offset (R67, notes/assumptions/26.md). `u` gives the bytes an absent field reads as. -/
def ReportTx.toGo (s : State) (u : Nat → Byte) (t : ReportTx) : List Byte :=
  if t.field ≠ [] then t.field
  else if t.pos < t.head.length then [byteAt t.head t.pos]
  else if t.pos < t.head.length + t.report.itemsSize then
    fieldFrom (t.report.items.flatMap (Item.fields s u)) (t.pos - t.head.length)
  else [byteAt (be32 (~~~ t.crc)) (t.pos - t.head.length - t.report.itemsSize)]

/-- The transmission after byte `b`, with what is still to go of its field: the frame check register takes every byte
before the check (R166). -/
def ReportTx.advance (t : ReportTx) (b : Byte) (rest : List Byte) : ReportTx :=
  { t with
    pos := t.pos + 1
    crc := if t.pos < t.head.length + t.report.itemsSize then crcByte 0x04C11DB7 t.crc b else t.crc
    field := rest }

end Sys2Proof.Machine
end

