-- ==== Sys2Proof/Machine/Rings.lean ====
section
/-!
DEFINITION. What each happening does to one Capture Ring (chapter Header Capture): reservation, copy, completion,
abandonment, and what the Report Engine does to a ring (5.5). Each is taken whole at the ring (R89).
-/

namespace Sys2Proof.Machine

/-- The `n` positions from `i` onward, counted modulo Size (5.1). -/
def Ring.positions (r : Ring) (i n : Nat) : List Nat := (List.range n).map fun k => (i + k) % r.size

/-- The state of the descriptors at the positions set. -/
def Ring.setStates (r : Ring) (ps : List Nat) (st : DescState) : Ring :=
  ps.foldl (fun r i => r.setDesc i { r.desc i with state := st }) r

/-- The fields a capture request carries for the first descriptor (R23, R90). -/
structure CaptureRequest where
  ring : RingId
  slice : Nat
  rule : Nat
  generation : BitVec 16
  dir : Direction
  serial : Nat
  uptime : Word
  deriving DecidableEq, Repr

/-- The first reserved descriptor (R90). -/
def CaptureRequest.firstDescriptor (q : CaptureRequest) : Descriptor :=
  { state := .filling, first := true, last := false, byteCount := 0,
    info := some { rule := q.rule, generation := q.generation, dir := q.dir, flag := .good, uptime := q.uptime,
                   length := none, entry := none } }

/-- A later reserved descriptor (R88, R90): its "first only" fields are absent. -/
def Descriptor.later : Descriptor := { state := .filling, first := false, last := false, byteCount := 0, info := none }

/-- A capture attempt (Table 45): the ring afterwards, and whether the capture was reserved. -/
def Ring.attempt (r : Ring) (q : CaptureRequest) : Ring × Bool :=
  let d := descriptorsOf q.slice
  if r.filling ≠ 0 then ({ r with counters := { r.counters with ringBusy := r.counters.ringBusy + 1 } }, false)
  else if r.free < d then ({ r with counters := { r.counters with ringFull := r.counters.ringFull + 1 } }, false)
  else
    let r1 := (r.positions (r.fill + 1) (d - 1)).foldl (fun r i => r.setDesc i Descriptor.later) r
    let r2 := r1.setDesc (r.fill % r.size) q.firstDescriptor
    ({ r2 with
        filling := d
        free := r.free - d
        capture := some { dir := q.dir, serial := q.serial, slice := q.slice, copied := 0 } },
      true)

/-- Whether the capture being filled belongs to that frame. -/
def Ring.fillingFor (r : Ring) (dir : Direction) (serial : Nat) : Bool :=
  match r.capture with
  | some f => f.dir == dir && f.serial == serial
  | none => false

/-- The engine after one more received byte of the frame whose capture ring `id` is filling (R91); nothing once the slice
is held. -/
def CaptureEngine.copyByte (c : CaptureEngine) (id : RingId) (dir : Direction) (serial : Nat) (b : Byte) : CaptureEngine :=
  let r := c.rings.get id
  match r.capture with
  | none => c
  | some f =>
    if r.fillingFor dir serial && f.copied < f.slice then
      let i := (r.fill + f.copied / 64) % r.size
      let r1 := r.setDesc i { r.desc i with byteCount := (r.desc i).byteCount + 1 }
      let r2 := { r1 with capture := some { f with copied := f.copied + 1 } }
      { c.writeByte (r.cellAddress r.fill f.copied) b with rings := c.rings.set id r2 }
    else c

/-- The engine after several received bytes (R91). -/
def CaptureEngine.copyBytes (c : CaptureEngine) (id : RingId) (dir : Direction) (serial : Nat) (bs : List Byte) :
    CaptureEngine :=
  bs.foldl (fun c b => c.copyByte id dir serial b) c

/-- The capture abandoned (R94): the whole of FILLING returns to FREE. -/
def Ring.abandon (r : Ring) : Ring :=
  { r.setStates (r.positions r.fill r.filling) .free with
    filling := 0
    free := r.free + r.filling
    capture := none }

/-- The capture completed by the notice of its frame (R92, R93), with the flow entry index that the Flow Table handed. -/
def Ring.complete (r : Ring) (f : Filling) (length : Nat) (ending : Ending) (entry : Option Nat) : Ring :=
  let u := descriptorsOf (min f.slice length)
  let d := r.filling
  let r1 := (r.setStates (r.positions r.fill u) .filled).setStates (r.positions (r.fill + u) (d - u)) .free
  let firstD := r1.desc (r.fill % r.size)
  let r2 := r1.setDesc (r.fill % r.size)
    { firstD with info := firstD.info.map fun i => { i with length := some length, flag := ending, entry := entry } }
  let lastAt := (r.fill + u - 1) % r.size
  let r3 := r2.setDesc lastAt { r2.desc lastAt with last := true }
  { r3 with
    fill := (r.fill + u) % r.size
    filled := r.filled + u
    free := r.free + (d - u)
    filling := 0
    capture := none
    counters := { r.counters with completed := r.counters.completed + 1 } }

/-! ## Export (5.5) -/

/-- The descriptors and bytes of the capture whose descriptors begin at `i`, among the next `n`. -/
def Ring.captureRun (r : Ring) (i : Nat) : Nat → Nat × Nat
  | 0 => (0, 0)
  | n + 1 =>
    let d := r.desc (i % r.size)
    if d.last then (1, d.byteCount)
    else
      let rest := r.captureRun (i + 1) n
      (rest.1 + 1, d.byteCount + rest.2)

/-- Whether the first descriptor at `i` names a flow entry. -/
def Ring.hasEntry (r : Ring) (i : Nat) : Bool :=
  match (r.desc i).info with
  | some f => f.entry.isSome
  | none => false

/-- The FILLED captures among the `left` descriptors from `i`, oldest first, as items (R96, R110). -/
def Ring.captureItems (r : Ring) (id : RingId) : Nat → Nat → Nat → List Item
  | 0, _, _ => []
  | fuel + 1, i, left =>
    if left = 0 then []
    else
      let run := r.captureRun i left
      .capture id i run.2 (r.hasEntry i) :: r.captureItems id fuel ((i + run.1) % r.size) (left - run.1)

/-- The material of a ring: its FILLED captures, none when it is inactive (R108, R110). -/
def Ring.material (r : Ring) (id : RingId) : List Item :=
  if r.active then r.captureItems id r.filled r.send r.filled else []

/-- Captures of `n` descriptors taken into a report (R96); no more than are FILLED. -/
def Ring.take (r : Ring) (n : Nat) : Ring :=
  let m := min n r.filled
  { r.setStates (r.positions r.send m) .inReport with
    send := (r.send + m) % r.size
    inReport := r.inReport + m
    filled := r.filled - m }

/-- The captures among the `n` descriptors from `i`: those with First set. -/
def Ring.countCaptures (r : Ring) (i n : Nat) : Nat := ((r.positions i n).filter fun k => (r.desc k).first).length

/-- Captures of `n` descriptors released (R97), no more descriptors than are IN_REPORT; Captures Exported rises by 1 for
each capture, told by its First. -/
def Ring.releaseCaptures (r : Ring) (n : Nat) : Ring :=
  let m := min n r.inReport
  { r.setStates (r.positions r.release m) .free with
    release := (r.release + m) % r.size
    inReport := r.inReport - m
    free := r.free + m
    counters := { r.counters with exported := r.counters.exported + word (r.countCaptures r.release m) } }

/-- Every IN_REPORT capture discarded (R98). -/
def Ring.discardInReport (r : Ring) : Ring :=
  { r.setStates (r.positions r.release r.inReport) .free with
    release := r.send
    inReport := 0
    free := r.free + r.inReport
    counters := { r.counters with
      discarded := r.counters.discarded + word (r.countCaptures r.release r.inReport) } }

/-- Every descriptor FREE, its other fields kept (R86, R87, R88). -/
def Ring.freeAll (r : Ring) : Ring :=
  (r.descriptors.map (·.1)).foldl (fun r i => r.setDesc i { r.desc i with state := .free }) r

/-- The ring activated (R86). -/
def Ring.activated (r : Ring) : Ring :=
  { r.freeAll with
    active := true, release := 0, send := 0, fill := 0, inReport := 0, filled := 0, filling := 0, free := r.size
    capture := none }

/-- The ring deactivated (R87): its FILLED captures are discarded, counted in captures. -/
def Ring.deactivated (r : Ring) : Ring :=
  { r.freeAll with
    active := false, release := 0, send := 0, fill := 0, inReport := 0, filled := 0, filling := 0, free := 0
    capture := none
    counters := { r.counters with
      discarded := r.counters.discarded + word (r.countCaptures r.send r.filled) } }

end Sys2Proof.Machine
end

