-- ==== Sys2Proof/Machine/Reports.lean ====
section
/-!
DEFINITION. The Record Queue and the Report Engine as shared operations (chapters The Record Queue and Report Building,
and Report Delivery): append, release and discard of records; material, the Hold Timer, the build; the Outstanding List
and the Report Egress Queue; opening, losing and ending a session; classifying an ACK; the Retransmit Timer. The meanings
of the rows stand in Machine/Delivery.lean.
-/

namespace Sys2Proof.Machine

/-! ## The Record Queue (6.1) -/

/-- The queue has room when it holds fewer than 256 records. -/
def RecordQueue.hasRoom (q : RecordQueue) : Bool := q.count < 256

/-- A record appended at the tail as UNSENT (R104). -/
def RecordQueue.append (q : RecordQueue) (r : FlowRecord) : RecordQueue :=
  { q with slots := SMap.insert q.slots ((q.head + q.count) % 256) r, count := q.count + 1 }

/-- The oldest `n` IN_REPORT records removed from the head (R105); no more than there are. -/
def RecordQueue.remove (q : RecordQueue) (n : Nat) : RecordQueue :=
  let m := min n q.inReport
  { q with head := (q.head + m) % 256, count := q.count - m, inReport := q.inReport - m }

/-- How many records `remove n` removes. -/
def RecordQueue.removed (q : RecordQueue) (n : Nat) : Nat := min n q.inReport

/-- The Unsent Count (6.1). -/
def RecordQueue.unsent (q : RecordQueue) : Nat := q.count - q.inReport

/-- The first `n` UNSENT records taken into a report (R111); no more than there are. -/
def RecordQueue.take (q : RecordQueue) (n : Nat) : RecordQueue := { q with inReport := q.inReport + min n q.unsent }

/-- The slot of the `k`-th UNSENT record. -/
def RecordQueue.unsentSlot (q : RecordQueue) (k : Nat) : Nat := (q.head + q.inReport + k) % 256

/-- The key length of the record in a slot. -/
def RecordQueue.keyLength (q : RecordQueue) (slot : Nat) : Nat :=
  match SMap.find q.slots slot with
  | some r => r.key.length
  | none => 0

/-- The UNSENT records as items, oldest first (R110). -/
def RecordQueue.material (q : RecordQueue) : List Item :=
  (List.range q.unsent).map fun k => .record (q.unsentSlot k) (q.keyLength (q.unsentSlot k))

/-! ## Material and sources (R108, R110) -/

/-- The items a source has to give, oldest first. -/
def sourceItems (s : State) : Source → List Item
  | .records => s.rq.material
  | .ring r => (s.ring r).material r

/-- The source after a source, in the circular order of R110. -/
def Source.next : Source → Source
  | .records => .ring 0
  | .ring 0 => .ring 1
  | .ring 1 => .ring 2
  | .ring 2 => .ring 3
  | .ring 3 => .records

/-- The five sources from a start source round the circle. -/
def Source.round (a : Source) : List Source := [a, a.next, a.next.next, a.next.next.next, a.next.next.next.next]

/-- All the material there is. -/
def allMaterial (s : State) : List Item := Source.records.round.flatMap (sourceItems s)

/-- Whether there is material (R108). -/
def hasMaterial (s : State) : Bool :=
  s.rq.unsent != 0 || allRings.any fun r => (s.ring r).active && (s.ring r).filled != 0

/-- The sum of the sizes of items. -/
def itemsSize (is : List Item) : Nat := (is.map Item.size).sum

/-- The builder's budget (R107). -/
def budget (e : ReportEngine) : Nat := e.sizeLimit - 65

/-- A build is allowed when the session is OPEN and the Outstanding List is shorter than Window Size (R109). -/
def buildAllowed (e : ReportEngine) : Bool := e.session == .opened && e.outstanding.length < e.windowSize

/-- The fill condition (R109). -/
def fillCondition (s : State) : Bool := budget s.rep ≤ itemsSize (allMaterial s)

/-- Whether the Report Engine builds (R109). -/
def buildDue (s : State) : Bool := buildAllowed s.rep && hasMaterial s && (s.rep.buildPending || fillCondition s)

/-! ## The build (R110, R111) -/

/-- The items a report takes, going round the sources one item from each, until an item does not fit or the sources are
exhausted (R110). `fuel` bounds the turns. -/
def takeItems (budget : Nat) : Nat → List (List Item) → Nat → List Item
  | 0, _, _ => []
  | _ + 1, [], _ => []
  | fuel + 1, [] :: rest, total => takeItems budget fuel rest total
  | fuel + 1, (it :: more) :: rest, total =>
    if total + it.size ≤ budget then it :: takeItems budget fuel (rest ++ [more]) (total + it.size) else []

/-- The items of the next report. -/
def nextItems (s : State) : List Item :=
  let sources := s.rep.nextStart.round.map (sourceItems s)
  takeItems (budget s.rep) ((sources.map List.length).sum + 6) sources 0

/-- How many items are records. -/
def recordItems (is : List Item) : Nat := (is.filter fun i => match i with | .record _ _ => true | _ => false).length

/-- How many descriptors the captures of a ring take. -/
def ringDescriptors (is : List Item) (r : RingId) : Nat :=
  (is.map fun i => match i with | .capture q _ c _ => if q == r then descriptorsOf c else 0 | _ => 0).sum

/-- A change made to every ring by its number. -/
def Rings.update (g : Rings) (f : RingId → Ring → Ring) : Rings :=
  { r0 := f 0 g.r0, r1 := f 1 g.r1, r2 := f 2 g.r2, r3 := f 3 g.r3 }

/-- The Hold Timer and the request after material changed, `had` telling whether there was any before (R108): it starts
when material appears from none, stops and takes the request with it when material is gone. -/
def holdAfterMaterial (had : Bool) (s : State) : State :=
  if hasMaterial s then
    if !had && s.rep.hold.isNone && !s.rep.buildPending then
      s.setRep { s.rep with hold := some (s.now + word s.rep.holdTime) }
    else s
  else s.setRep { s.rep with hold := none, buildPending := false }

/-- The Hold Timer after a build (R108). -/
def holdAfterBuild (s : State) : State :=
  if hasMaterial s then
    if s.rep.hold.isNone then s.setRep { s.rep with hold := some (s.now + word s.rep.holdTime) } else s
  else s.setRep { s.rep with hold := none, buildPending := false }

/-- One build (R111), whole at the Record Queue, the rings and the lists. -/
def buildReport (s : State) : State :=
  let items := nextItems s
  let r : Report :=
    { session := s.rep.sessionNumber, sequence := s.rep.nextSequence, start := false, items := items,
      recordCount := recordItems items, captureCount := items.length - recordItems items,
      itemsSize := itemsSize items, state := .queued }
  let s1 := s.setRq (s.rq.take (recordItems items))
  let s2 := s1.setCap { s1.cap with rings := s1.cap.rings.update fun id g => g.take (ringDescriptors items id) }
  holdAfterBuild (s2.setRep { s2.rep with
    outstanding := s2.rep.outstanding ++ [r]
    queue := s2.rep.queue ++ [r.sequence]
    nextSequence := s2.rep.nextSequence + 1
    nextStart := s2.rep.nextStart.next
    buildPending := false })

/-- Report after report while a build is due (R109); at most `n`. -/
def buildWhileDue : Nat → State → State
  | 0, s => s
  | n + 1, s => if buildDue s then buildWhileDue n (buildReport s) else s

/-- The Report Engine's test of R109 after a happening: it builds while a build is due, at most as many reports as the
window has places. -/
def pump (s : State) : State := buildWhileDue (s.rep.windowSize - s.rep.outstanding.length) s

/-- A flow record appended in the step of its close or export (R104), counted, with what the append does to the Hold
Timer and the builder (R108, R109). -/
def appendRecord (r : FlowRecord) (s : State) : State :=
  let had := hasMaterial s
  let s1 := s.setRq (s.rq.append r)
  let s2 := s1.setRep { s1.rep with
    conservation := { s1.rep.conservation with appended := s1.rep.conservation.appended + 1 } }
  pump (holdAfterMaterial had s2)

/-! ## Leaving the lists (R97, R98, R105, R113) -/

/-- A report being sent that has left the Outstanding List (R113). -/
def Egress.markGone : Egress → Egress
  | .report t => .report { t with gone := true }
  | e => e

/-- Every report being sent has left the Outstanding List. -/
def markGone (s : State) : State :=
  let s1 := s.setPort .A { s.portA with egress := s.portA.egress.markGone }
  s1.setPort .B { s1.portB with egress := s1.portB.egress.markGone }

/-- What the release of one report does to the queue, the rings, the counters and the Report Egress Queue (R126). -/
def releaseReport (s : State) (r : Report) : State :=
  let n := s.rq.removed r.recordCount
  let s1 := s.setRq (s.rq.remove r.recordCount)
  let s2 := s1.setCap { s1.cap with
    rings := s1.cap.rings.update fun id g => g.releaseCaptures (ringDescriptors r.items id) }
  let s3 := s2.setRep { s2.rep with
    conservation := { s2.rep.conservation with exported := s2.rep.conservation.exported + word n }
    queue := s2.rep.queue.filter (· != r.sequence) }
  if r.state = .sending then markGone s3 else s3

/-- Every outstanding report discarded, with its records and captures, and every QUEUED report withdrawn (R121, R123,
R98, R105). -/
def discardOutstanding (s : State) : State :=
  let n := s.rq.removed s.rq.inReport
  let s1 := s.setRq (s.rq.remove s.rq.inReport)
  let s2 := s1.setCap { s1.cap with rings := s1.cap.rings.update fun _ g => g.discardInReport }
  let s3 := s2.setRep { s2.rep with
    conservation := { s2.rep.conservation with discarded := s2.rep.conservation.discarded + word n }
    outstanding := [], queue := [] }
  markGone s3

/-! ## The session (7.1) -/

/-- The Start Report of a session (R120). -/
def startReport (session : BitVec 16) : Report :=
  { session := session, sequence := 0, start := true, items := [], recordCount := 0, captureCount := 0, itemsSize := 0,
    state := .queued }

/-- A new session opened, its Start Report queued (R120, step 4 and 5 of R123). -/
def openSession (e : ReportEngine) : ReportEngine :=
  { e with
    sessionNumber := e.sessionNumber + 1
    outstanding := [startReport (e.sessionNumber + 1)]
    queue := e.queue ++ [0]
    nextSequence := 1
    attempts := 0
    retransmit := none
    session := .starting }

/-- A session loss (R123). -/
def loseSession (s : State) : State :=
  let s1 := discardOutstanding s
  s1.setRep (openSession { s1.rep with
    delivery := { s1.rep.delivery with sessionsLost := s1.rep.delivery.sessionsLost + 1 } })

/-- A write of Session Enable on (R120). -/
def enableSession (s : State) : State :=
  if s.rep.session = .idle then s.setRep (openSession { s.rep with sessionEnable := true }) else s

/-- A write of Session Enable off (R121). -/
def disableSession (s : State) : State :=
  if s.rep.session = .idle then s
  else
    let s1 := discardOutstanding s
    s1.setRep { s1.rep with
      sessionEnable := false, session := .idle, attempts := 0, retransmit := none, buildPending := false }

/-! ## The Retransmit Timer (7.3) -/

/-- The interval of the Retransmit Timer (R129). -/
def retransmitInterval (e : ReportEngine) : Nat := e.retransmitBase * min (2 ^ e.attempts) 16

/-- Whether the oldest outstanding report is SENDING. -/
def oldestSending (e : ReportEngine) : Bool :=
  match e.outstanding with
  | r :: _ => r.state == .sending
  | [] => false

/-- The outstanding report that is SENDING has finished a transmission (R113): it is SENT, and the timer starts when it is
the oldest (R127). -/
def finishTransmission (s : State) : State :=
  let out := s.rep.outstanding.map fun r => if r.state = .sending then { r with state := .sent } else r
  s.setRep { s.rep with
    outstanding := out
    retransmit := if oldestSending s.rep then some (s.now + word (retransmitInterval s.rep)) else s.rep.retransmit }

/-- The outstanding report that is SENDING was cut (R15): it is QUEUED at the head of the queue, and the timer is STOPPED
when it is the oldest (R127). -/
def cutTransmission (e : ReportEngine) : ReportEngine :=
  let cut := (e.outstanding.filter fun r => r.state == .sending).map (·.sequence)
  { e with
    outstanding := e.outstanding.map fun r => if r.state = .sending then { r with state := .queued } else r
    queue := cut ++ e.queue
    retransmit := if oldestSending e then none else e.retransmit }

/-- Every SENT report requeued at the tail in order of sequence (R130, R131). -/
def requeueSent (e : ReportEngine) : ReportEngine :=
  let sent := (e.outstanding.filter fun r => r.state == .sent).map (·.sequence)
  { e with
    outstanding := e.outstanding.map fun r => if r.state = .sent then { r with state := .queued } else r
    queue := e.queue ++ sent
    retransmit := none
    delivery := { e.delivery with retransmissions := e.delivery.retransmissions + word sent.length } }

/-! ## Acknowledgements (7.2) -/

/-- Outcomes of an ACK (Table 61); a Release names how many of the oldest reports it covers. -/
inductive AckOutcome where
  | mismatch | stale | bad
  | release (n : Nat)
  deriving DecidableEq, Repr

/-- The sequence of the oldest outstanding report, or the next sequence when there is none (R126). -/
def oldestSequence (e : ReportEngine) : BitVec 16 :=
  match e.outstanding with
  | r :: _ => r.sequence
  | [] => e.nextSequence

/-- The classification of an ACK (R124, R125, R126). -/
def classifyAck (e : ReportEngine) (a : Ack) : AckOutcome :=
  match e.session with
  | .idle => .mismatch
  | .starting =>
    if a.session ≠ e.sessionNumber then .mismatch else if a.sequence = 0 then .release 1 else .bad
  | .opened =>
    if a.session ≠ e.sessionNumber then .mismatch
    else
      let d := (a.sequence - oldestSequence e).toNat
      if d < e.outstanding.length then .release (d + 1)
      else if (oldestSequence e - 1 - a.sequence).toNat < 32768 then .stale
      else .bad

/-- The Retransmit Timer set from the oldest outstanding report after a Release (R125, R126). -/
def timerAfterRelease (now : Word) (e : ReportEngine) : Option Word :=
  match e.outstanding with
  | r :: _ => if r.state = .sent then some (now + word e.retransmitBase) else none
  | [] => none

/-- A Release of the `n` oldest reports (R125, R126): the session is OPEN afterwards, and the builder may work. -/
def releaseOldest (n : Nat) (s : State) : State :=
  let s1 := (s.rep.outstanding.take n).foldl releaseReport s
  let e := { s1.rep with outstanding := s1.rep.outstanding.drop n, attempts := 0, session := .opened }
  pump (s1.setRep { e with
    retransmit := timerAfterRelease s.now e
    delivery := { e.delivery with acks := e.delivery.acks + 1 } })

/-- The Report Engine takes an ACK (R124). -/
def takeAck (a : Ack) (s : State) : State :=
  match classifyAck s.rep a with
  | .mismatch => s.setRep { s.rep with delivery := { s.rep.delivery with ackMismatch := s.rep.delivery.ackMismatch + 1 } }
  | .stale => s.setRep { s.rep with delivery := { s.rep.delivery with staleAcks := s.rep.delivery.staleAcks + 1 } }
  | .bad => s.setRep { s.rep with delivery := { s.rep.delivery with badAcks := s.rep.delivery.badAcks + 1 } }
  | .release n => releaseOldest n s

end Sys2Proof.Machine
end

