-- ==== Sys2Proof/Machine/Delivery.lean ====
section
/-!
DEFINITION. The rows of report delivery: HOLD_TIMER_EXPIRY (R108), RETRANSMIT_EXPIRY_STARTING (R130),
RETRANSMIT_EXPIRY_OPEN (R131) and ACK_TAKEN (R124).
-/

namespace Sys2Proof.Machine

/-- The Hold Timer expires (R108): STOPPED, a build request pending, and the builder tests R109. -/
def expireHold (s : State) : State := pump (s.setRep { s.rep with hold := none, buildPending := true })

/-- HOLD_TIMER_EXPIRY (R108): the timer is RUNNING and its deadline is reached. -/
def execHoldTimerExpiry (s : State) : Host.Outcome State Fault Refusal :=
  match s.rep.hold with
  | some d => if deadlineReached s.now d then .next (expireHold s) else .next s
  | none => .next s

/-- Whether the Retransmit Timer is RUNNING with its deadline reached (R128). -/
def retransmitDue (s : State) : Bool :=
  match s.rep.retransmit with
  | some d => deadlineReached s.now d
  | none => false

/-- RETRANSMIT_EXPIRY_STARTING (R130): Attempts rises to at most 15, and the Start Report is requeued. -/
def execRetransmitExpiryStarting (s : State) : Host.Outcome State Fault Refusal :=
  if s.rep.session = .starting ∧ retransmitDue s = true then
    .next (s.setRep (requeueSent { s.rep with attempts := min (s.rep.attempts + 1) 15 }))
  else .next s

/-- RETRANSMIT_EXPIRY_OPEN (R131): the session is lost, or every SENT report is requeued. -/
def execRetransmitExpiryOpen (s : State) : Host.Outcome State Fault Refusal :=
  if s.rep.session = .opened ∧ retransmitDue s = true then
    if s.rep.retryLimit ≤ s.rep.attempts then .next (loseSession s)
    else .next (s.setRep (requeueSent { s.rep with attempts := s.rep.attempts + 1 }))
  else .next s

/-- ACK_TAKEN (R124): the oldest ACK consumed at ingress `p` reaches the Report Engine. With none on its way, nothing
happens. -/
def execAckTaken (p : Port) (s : State) : Host.Outcome State Fault Refusal :=
  match (s.port p).acks with
  | [] => .next s
  | a :: rest => .next (takeAck a (s.setPort p { s.port p with acks := rest }))

end Sys2Proof.Machine
end

