-- ==== Sys2Proof/Machine/Flow.lean ====
section
/-!
DEFINITION. The Flow Table (chapter The Flow Table): geometry, key cutting and hash, the frame-end update with its
outcomes, closing an entry, and management's access to single entries. FRAME_END_UPDATE has its meaning here; the writes
of ENTRY_SELECT and CLOSE_ENTRY are the operations that Machine/Registers.lean calls.
-/

namespace Sys2Proof.Machine

/-! ## Geometry, key and hash (R42, R37, R38, R43) -/

/-- The index of way `w` of bucket `b` (R42). -/
def entryIndex (b w : Nat) : Nat := b * 4 + w

/-- The entry at an index, none when it is FREE. -/
def FlowTable.entry (f : FlowTable) (i : Nat) : Option FlowEntry := SMap.find f.entries i

/-- The direction field of a frame under a template (R37). -/
def directionField (t : Template) (dir : Direction) : DirField :=
  if t.merge then .merged
  else
    match dir with
    | .ab => .ab
    | .ba => .ba

/-- Whether every used segment ends before the frame check (R38). -/
def Template.fits (t : Template) (length : Nat) : Bool :=
  t.segments.all fun g => g.length == 0 || g.offset.toNat + g.length.toNat ≤ length - 4

/-- The key bytes a template cuts (R37). -/
def Template.cut (t : Template) (bytes : List Byte) : List Byte :=
  t.segments.flatMap fun g => (bytes.drop g.offset.toNat).take g.length.toNat

/-- The hash of a flow's identity (R43). -/
def flowHash (seed : BitVec 16) (t : BitVec 3) (d : DirField) (key : List Byte) : BitVec 16 :=
  hash16 seed (BitVec.setWidth 8 t :: byte d.code :: byte key.length :: key)

/-- The bucket of a flow (R43): the low 12 bits of the hash. -/
def flowBucket (seed : BitVec 16) (t : BitVec 3) (d : DirField) (key : List Byte) : Nat :=
  (flowHash seed t d key).toNat % 4096

/-- Whether an entry holds the flow of that identity (R47). -/
def FlowEntry.matchesFlow (e : FlowEntry) (t : BitVec 3) (d : DirField) (key : List Byte) : Bool :=
  e.template == t && e.dirField == d && e.key == key

/-- The four entry indices of a bucket in way order. -/
def bucketIndices (b : Nat) : List Nat := [entryIndex b 0, entryIndex b 1, entryIndex b 2, entryIndex b 3]

/-- The index of the way of a bucket that holds the flow, if one does. -/
def FlowTable.lookup (f : FlowTable) (b : Nat) (t : BitVec 3) (d : DirField) (key : List Byte) : Option Nat :=
  (bucketIndices b).find? fun i =>
    match f.entry i with
    | some e => e.matchesFlow t d key
    | none => false

/-- The lowest FREE way of a bucket (R50). -/
def FlowTable.freeWay (f : FlowTable) (b : Nat) : Option Nat := (bucketIndices b).find? fun i => (f.entry i).isNone

/-- The age of the entry at an index (R51). -/
def FlowTable.age (f : FlowTable) (now : Word) (i : Nat) : Nat :=
  match f.entry i with
  | some e => elapsed now e.lastSeen
  | none => 0

/-- The victim of a full bucket (R51): the largest age, the lowest-numbered way among equals. -/
def FlowTable.victim (f : FlowTable) (now : Word) (b : Nat) : Nat :=
  [entryIndex b 1, entryIndex b 2, entryIndex b 3].foldl
    (fun best i => if f.age now best < f.age now i then i else best) (entryIndex b 0)

/-! ## Closing and freeing (R53) -/

/-- The record an entry leaves (R80). -/
def FlowEntry.record (e : FlowEntry) (i : Nat) (reason : Reason) : FlowRecord :=
  { reason := reason, index := i, template := e.template, dirField := e.dirField, key := e.key, rule := e.rule,
    generation := e.generation, firstSeen := e.firstSeen, lastSeen := e.lastSeen, frames := e.frames, bytes := e.bytes,
    saturated := e.saturated, merged := e.merged }

/-- The entry freed, its fields zeroed, and Active Entries lowered (R45, R63). -/
def freeEntry (i : Nat) (s : State) : State :=
  s.setFlow { s.flow with
    entries := SMap.erase s.flow.entries i
    counters := { s.flow.counters with activeEntries := s.flow.counters.activeEntries - 1 } }

/-- The entry written, ACTIVE. -/
def setEntry (i : Nat) (e : FlowEntry) (s : State) : State :=
  s.setFlow { s.flow with entries := SMap.insert s.flow.entries i e }

/-- A close (R53): the record of the entry as it stands is appended, and the entry becomes FREE. The caller has found
room in the Record Queue. -/
def closeFlow (i : Nat) (e : FlowEntry) (reason : Reason) (s : State) : State :=
  appendRecord (e.record i reason) (freeEntry i s)

/-! ## The frame-end update (3.4) -/

/-- A frame fit for measurement (R7). -/
def Notice.fit (n : Notice) : Bool :=
  (match n.decision with
    | some d => d.action == .measure
    | none => false)
    && n.ending == .good && !n.overflowed && !n.resetIntervened && !n.management

/-- The entry a new flow gets (R50). -/
def Notice.newEntry (n : Notice) (d : Decision) (t : BitVec 3) (f : DirField) (key : List Byte) (now : Word) : FlowEntry :=
  { template := t, dirField := f, origin := n.dir, key := key, rule := d.rule.getD 0, generation := d.generation,
    firstSeen := now, lastSeen := now, frames := 1, bytes := BitVec.ofNat 40 n.length, saturated := false,
    merged := false }

/-- A new flow at index `i` (R50). -/
def insertFlow (i : Nat) (e : FlowEntry) (s : State) : State :=
  let s1 := setEntry i e s
  s1.setFlow { s1.flow with counters := { s1.flow.counters with
    inserts := s1.flow.counters.inserts + 1, activeEntries := s1.flow.counters.activeEntries + 1 } }

/-- The update of a frame with key, once it is not Key Short (R47 to R52): the state and the entry index handed on. -/
def updateBucket (n : Notice) (d : Decision) (t : BitVec 3) (f : DirField) (key : List Byte) (s : State) :
    State × Option Nat :=
  let b := flowBucket s.flow.seed t f key
  match s.flow.lookup b t f key with
  | some i =>
    match s.flow.entry i with
    | some e => (setEntry i (e.hit n.dir n.length s.now) s, some i)
    | none => (s, none)
  | none =>
    match s.flow.freeWay b with
    | some i => (insertFlow i (n.newEntry d t f key s.now) s, some i)
    | none =>
      match s.flow.policy with
      | .noEvict =>
        (s.setFlow { s.flow with counters := { s.flow.counters with
          untrackedFull := s.flow.counters.untrackedFull + 1 } }, none)
      | .evictOldest =>
        if s.rq.hasRoom then
          let i := s.flow.victim s.now b
          match s.flow.entry i with
          | some e =>
            let s1 := closeFlow i e .evicted s
            let s2 := s1.setFlow { s1.flow with counters := { s1.flow.counters with
              evictions := s1.flow.counters.evictions + 1 } }
            (insertFlow i (n.newEntry d t f key s.now) s2, some i)
          | none => (s, none)
        else
          (s.setFlow { s.flow with counters := { s.flow.counters with
            untrackedQueue := s.flow.counters.untrackedQueue + 1 } }, none)

/-- A frame counted as Key Short (R38). -/
def countKeyShort (s : State) : State :=
  s.setFlow { s.flow with counters := { s.flow.counters with keyShort := s.flow.counters.keyShort + 1 } }

/-- The frame-end update of a notice (R47): the state, and the flow entry index or its absence (Table 22). -/
def frameEndUpdate (n : Notice) (s : State) : State × Option Nat :=
  if n.fit then
    match n.decision with
    | some d =>
      match d.template with
      | some t =>
        let tmpl := s.cls.template t.toNat
        if tmpl.defined && tmpl.fits n.length then
          updateBucket n d t (directionField tmpl n.dir) (tmpl.cut n.bytes) s
        else (countKeyShort s, none)
      | none => (countKeyShort s, none)
    | none => (s, none)
  else (s, none)

/-- FRAME_END_UPDATE (R47, R54): the oldest notice of the ingress reaches the Flow Table, which hands it on to the Capture
Engine with the flow entry index. With no notice on its way, nothing happens. -/
def execFrameEndUpdate (p : Port) (s : State) : Host.Outcome State Fault Refusal :=
  match (s.port p).flowNotices with
  | [] => .next s
  | n :: rest =>
    let r := frameEndUpdate n (s.setPort p { s.port p with flowNotices := rest })
    .next (r.1.setPort p { r.1.port p with captureNotices := (r.1.port p).captureNotices ++ [(n, r.2)] })

/-! ## Management access (3.6) -/

/-- An entry as the Entry View shows it (R58): timestamps with the Time Offset. -/
def FlowEntry.shown (e : FlowEntry) (offset : Word) : FlowEntry :=
  { e with firstSeen := e.firstSeen + offset, lastSeen := e.lastSeen + offset }

/-- A write of Entry Select (R57, R163). -/
def writeEntrySelect (v : Word) (s : State) : State × WordResult :=
  if v.toNat ≤ 16383 then
    (s.setFlow { s.flow with view :=
      { index := v.toNat
        entry := (s.flow.entry v.toNat).map fun e => e.shown s.time.offset
        time := s.time.uptime + s.time.offset } }, .ok)
  else (s, .rejected .badValue)

/-- A write of Close Entry (Table 23), but for the register it leaves. -/
def closeSelected (v : Word) (s : State) : State × WordResult :=
  if v.toNat ≤ 16383 then
    match s.flow.entry v.toNat with
    | none => (s, .rejected .notActive)
    | some e => if s.rq.hasRoom then (closeFlow v.toNat e .closed s, .ok) else (s, .busy)
  else (s, .rejected .badValue)

/-- A write of Close Entry (R60): a read returns the index last written, whatever the result. -/
def writeCloseEntry (v : Word) (s : State) : State × WordResult :=
  closeSelected v (s.setFlow { s.flow with closeEntry := v })

end Sys2Proof.Machine
end

