-- ==== Sys2Proof/Machine/Ageing.lean ====
section
/-!
DEFINITION. Time, ageing and the table operations (chapter Time, Ageing and Closing Flows): UPTIME_TICK, SWEEPER_VISIT,
FLUSH_BUCKET_STEP, FLUSH_RESUME and CLEAR_BUCKET_STEP have their meanings here; the control ops FLUSH and CLEAR_TABLE are
the operations that Machine/Registers.lean calls.
-/

namespace Sys2Proof.Machine

/-- UPTIME_TICK (R66): Uptime advances by 1, modulo 2^32. -/
def execUptimeTick (s : State) : Host.Outcome State Fault Refusal :=
  .next (s.setTime { s.time with uptime := s.time.uptime + 1 })

/-! ## The Sweeper (4.3) -/

/-- Bucket `b` of a pass is due when the Uptime elapsed since the pass start reaches b × P / 4096, rounded down (R69). A
pass may start a little after the visit that ended the one before, so the test is that of a deadline
(notes/assumptions/12.md). -/
def Sweeper.due (w : Sweeper) (now : Word) : Bool :=
  deadlineReached now (w.passStart + word (w.position * w.passLength / 4096))

/-- The idle test of Table 30. -/
def Sweeper.isIdle (w : Sweeper) (now : Word) (e : FlowEntry) : Bool := w.idleTimeout * 1000 ≤ elapsed now e.lastSeen

/-- The active test of Table 30. -/
def Sweeper.isLongLived (w : Sweeper) (now : Word) (e : FlowEntry) : Bool :=
  w.activeTimeout != 0 && w.activeTimeout * 1000 ≤ elapsed now e.firstSeen

/-- A counter of Table 37 counted. -/
def State.countAge (s : State) (f : AgeCounters → AgeCounters) : State :=
  s.setSweep { s.sweep with counters := f s.sweep.counters }

/-- One way at a visit (R70, R71, R72). -/
def visitWay (s : State) (i : Nat) : State :=
  match s.flow.entry i with
  | none => s
  | some e =>
    if s.sweep.isIdle s.now e then
      if s.rq.hasRoom then (closeFlow i e .idle s).countAge fun c => { c with idleCloses := c.idleCloses + 1 }
      else s.countAge fun c => { c with sweepDeferred := c.sweepDeferred + 1 }
    else if s.sweep.isLongLived s.now e then
      if s.rq.hasRoom then
        (appendRecord (e.record i .active) (setEntry i (e.exported s.now) s)).countAge
          fun c => { c with activeExports := c.activeExports + 1 }
      else s.countAge fun c => { c with sweepDeferred := c.sweepDeferred + 1 }
    else s

/-- The sweep position after a visit (R69): the next bucket, or a new pass with the Sweep Period then in force. -/
def Sweeper.advance (w : Sweeper) : Sweeper :=
  if w.position < 4095 then { w with position := w.position + 1 }
  else
    { w with
      position := 0
      passStart := w.passStart + word w.passLength
      passLength := w.sweepPeriod * 1000
      counters := { w.counters with sweepPasses := w.counters.sweepPasses + 1 } }

/-- SWEEPER_VISIT (R69 to R72): the bucket at the sweep position, once it is due. -/
def execSweeperVisit (s : State) : Host.Outcome State Fault Refusal :=
  if s.sweep.due s.now then
    let s1 := (bucketIndices s.sweep.position).foldl visitWay s
    .next (s1.setSweep s1.sweep.advance)
  else .next s

/-! ## Table operations (4.4) -/

/-- Whether a Flush selector matches an ACTIVE entry (Table 34). -/
def Walker.selects (w : Walker) (e : FlowEntry) : Bool :=
  match w.selector with
  | .all => true
  | .byRule => e.rule == w.argument
  | .byTemplate => e.template.toNat == w.argument

/-- The walker after a bucket step (R76, R79): the next bucket, DONE past bucket 4095. -/
def Walker.advance (w : Walker) : Walker :=
  if w.position < 4095 then { w with position := w.position + 1, way := 0 }
  else { w with position := 4096, way := 0, state := .done }

/-- The Flush walk over ways of its bucket (R76): it closes matching entries until it is past the last way, or stalls at
one with the Record Queue full (R77). -/
def flushWays : List Nat → State → State
  | [], s => s.setWalker s.walker.advance
  | w :: rest, s =>
    let i := entryIndex s.walker.position w
    match s.flow.entry i with
    | none => flushWays rest s
    | some e =>
      if s.walker.selects e then
        if s.rq.hasRoom then
          let s1 := (closeFlow i e .flushed s).countAge fun c => { c with flushed := c.flushed + 1 }
          flushWays rest (s1.setWalker { s1.walker with count := s1.walker.count + 1 })
        else s.setWalker { s.walker with stalled := true, way := w }
      else flushWays rest s

/-- The ways of a bucket from way `w` on. -/
def waysFrom (w : Nat) : List Nat := [0, 1, 2, 3].filter (w ≤ ·)

/-- FLUSH_BUCKET_STEP (R76): the next bucket step of a Flush that is not stalled. -/
def execFlushBucketStep (s : State) : Host.Outcome State Fault Refusal :=
  if s.walker.state = .running ∧ s.walker.kind = .flush ∧ s.walker.stalled = false then
    .next (flushWays (waysFrom s.walker.way) s)
  else .next s

/-- FLUSH_RESUME (R77): a stalled Flush that finds room resumes at the same bucket and way. -/
def execFlushResume (s : State) : Host.Outcome State Fault Refusal :=
  if s.walker.state = .running ∧ s.walker.kind = .flush ∧ s.walker.stalled = true ∧ s.rq.hasRoom = true then
    .next (flushWays (waysFrom s.walker.way) (s.setWalker { s.walker with stalled := false }))
  else .next s

/-- One way freed by the Clear walk (R79). -/
def clearWay (s : State) (i : Nat) : State :=
  match s.flow.entry i with
  | none => s
  | some _ =>
    let s1 := (freeEntry i s).countAge fun c => { c with cleared := c.cleared + 1 }
    s1.setWalker { s1.walker with count := s1.walker.count + 1 }

/-- CLEAR_BUCKET_STEP (R79): every ACTIVE entry of the bucket is freed with no record. -/
def execClearBucketStep (s : State) : Host.Outcome State Fault Refusal :=
  if s.walker.state = .running ∧ s.walker.kind = .clear then
    let s1 := (bucketIndices s.walker.position).foldl clearWay s
    .next (s1.setWalker s1.walker.advance)
  else .next s

/-- The selector a code names (Table 81); 3 names none. -/
def selectorOf (c : BitVec 2) : Option Selector :=
  if c = 0 then some .all else if c = 1 then some .byRule else if c = 2 then some .byTemplate else none

/-- Whether a Flush's argument is in range for its selector (R75, R157). -/
def argumentLegal (sel : Selector) (a : BitVec 8) : Bool :=
  match sel with
  | .all => true
  | .byRule => a.toNat ≤ 64
  | .byTemplate => a.toNat ≤ 7

/-- The control op Flush (R75): selector and argument first, then BUSY. -/
def startFlush (sel : BitVec 2) (a : BitVec 8) (s : State) : State × WordResult :=
  match selectorOf sel with
  | none => (s, .rejected .badValue)
  | some k =>
    if argumentLegal k a then
      if s.walker.state = .running then (s, .busy)
      else
        (s.setWalker
          { state := .running, kind := .flush, selector := k, argument := if k = .all then 0 else a.toNat,
            position := 0, way := 0, stalled := false, count := 0, flushAborted := false }, .ok)
    else (s, .rejected .badValue)

/-- The control op Clear Table (R79): BUSY while a Clear is RUNNING; a running Flush is aborted. -/
def startClear (s : State) : State × WordResult :=
  if s.walker.state = .running ∧ s.walker.kind = .clear then (s, .busy)
  else
    (s.setWalker
      { state := .running, kind := .clear, selector := .all, argument := 0, position := 0, way := 0, stalled := false,
        count := 0, flushAborted := s.walker.state == .running }, .ok)

end Sys2Proof.Machine
end

