-- ==== Sys2Proof/Machine/Capture.lean ====
section
/-!
DEFINITION. The Capture Engine's side of header capture: capture attempts (R90), the notice's completion or abandonment
(R92 to R94), and the writes of a ring's words (R85 to R87). CAPTURE_COMPLETION has its meaning here; the writes are the
operations that Machine/Registers.lean calls.
-/

namespace Sys2Proof.Machine

/-- A capture request taken as an attempt by the ring it names (R90); when it is reserved, the bytes already received are
copied at once (R91). Answers whether the capture was reserved. -/
def attemptCapture (q : CaptureRequest) (received : List Byte) (s : State) : State × Bool :=
  let r := (s.ring q.ring).attempt q
  let s1 := s.setRing q.ring r.1
  if r.2 then (s1.setCap (s1.cap.copyBytes q.ring q.dir q.serial received), true) else (s1, false)

/-- The ring whose FILLING capture belongs to the frame, if one does. -/
def fillingRing (s : State) (dir : Direction) (serial : Nat) : Option RingId :=
  allRings.find? fun r => (s.ring r).fillingFor dir serial

/-- What a frame-end notice does at the rings (R92, R94): the frame's FILLING capture completes, or is abandoned when
Reset intervened; without one, nothing. -/
def completeCapture (n : Notice) (entry : Option Nat) (s : State) : State :=
  match fillingRing s n.dir n.serial with
  | none => s
  | some id =>
    let r := s.ring id
    if n.resetIntervened then s.setRing id r.abandon
    else
      match r.capture with
      | none => s
      | some f =>
        let had := hasMaterial s
        pump (holdAfterMaterial had (s.setRing id (r.complete f n.length n.ending entry)))

/-- CAPTURE_COMPLETION (R92): the oldest notice handed on for the ingress reaches the rings. With none on its way,
nothing happens. -/
def execCaptureCompletion (p : Port) (s : State) : Host.Outcome State Fault Refusal :=
  match (s.port p).captureNotices with
  | [] => .next s
  | (n, entry) :: rest => .next (completeCapture n entry (s.setPort p { s.port p with captureNotices := rest }))

/-! ## The words of a ring (R85 to R87, R164) -/

/-- The legal values of Size (Table 39). -/
def legalRingSize (v : Nat) : Bool := [8, 16, 32, 64, 128, 256, 512, 1024].contains v

/-- The legal values of Base Cell (Table 39). -/
def legalBaseCell (v : Nat) : Bool := v ≤ 2040 && v % 8 == 0

/-- A write of Base Cell or Size (R85). -/
def writeRingConfig (id : RingId) (k : RingField) (v : Word) (s : State) : State × WordResult :=
  let r := s.ring id
  if r.active then (s, .busy)
  else
    match k with
    | .baseCell =>
      if legalBaseCell v.toNat then (s.setRing id { r with baseCell := v.toNat }, .ok) else (s, .rejected .badValue)
    | .size =>
      if legalRingSize v.toNat then (s.setRing id { r with size := v.toNat }, .ok) else (s, .rejected .badValue)

/-- Whether the cells of two rings overlap (Table 40). -/
def Ring.overlaps (a b : Ring) : Bool := a.baseCell < b.baseCell + b.size && b.baseCell < a.baseCell + a.size

/-- Whether a ring's cells belong in part to another active ring (Table 40). -/
def overlapsOther (s : State) (id : RingId) : Bool :=
  allRings.any fun o => o != id && (s.ring o).active && (s.ring id).overlaps (s.ring o)

/-- A write of Activate (R86). -/
def writeActivate (id : RingId) (s : State) : State × WordResult :=
  let r := s.ring id
  if r.active then (s, .busy)
  else if 2048 < r.baseCell + r.size then (s, .rejected .badValue)
  else if overlapsOther s id then (s, .rejected .overlap)
  else (s.setRing id r.activated, .ok)

/-- Whether a rule names ring `id` (2.3): valid, with a Capture Slice and that Capture Ring. -/
def Rule.namesRing (r : Rule) (id : RingId) : Bool := r.valid && r.slice != 0 && r.ring.toNat == id.val

/-- Whether a valid rule of a bank names the ring; the rules not listed are invalid. -/
def Bank.namesRing (b : Bank) (id : RingId) : Bool := b.rules.any (fun x => x.2.namesRing id) || b.last.namesRing id

/-- A write of Deactivate (R87). -/
def writeDeactivate (id : RingId) (s : State) : State × WordResult :=
  let r := s.ring id
  if r.active then
    if s.cls.bank0.namesRing id || s.cls.bank1.namesRing id then (s, .rejected .inUse)
    else if r.filling ≠ 0 ∨ r.inReport ≠ 0 then (s, .busy)
    else (holdAfterMaterial (hasMaterial s) (s.setRing id r.deactivated), .ok)
  else (s, .ok)

end Sys2Proof.Machine
end

