-- ==== Sys2Proof/Machine/Classify.lean ====
section
/-!
DEFINITION. The Classifier and the Template Table (chapter Classification): matching and the decision (R20 to R25), hit
counters and sample countdowns (R31, R32), the commits (R27, R28, R35, R36) and the bank swap (R29).
-/

namespace Sys2Proof.Machine

/-! ## Matching (2.3) -/

/-- The four bytes of a frame at an offset as a number, none when one lies beyond the last byte read (R24). -/
def fourBytes (bytes : List Byte) (o : Nat) : Option Word :=
  if o + 4 ≤ bytes.length then
    some (word32 (byteAt bytes o) (byteAt bytes (o + 1)) (byteAt bytes (o + 2)) (byteAt bytes (o + 3)))
  else none

/-- Whether a term matches a frame (R24). -/
def Term.matchesFrame (t : Term) (bytes : List Byte) : Bool :=
  if !t.enabled then true
  else if t.mask = 0 then true
  else
    match fourBytes bytes t.offset.toNat with
    | some v => v &&& t.mask == t.value
    | none => false

/-- Whether the Directions of a rule include a direction (R25). -/
def Directions.includes : Directions → Direction → Bool
  | .ab, .ab => true
  | .ba, .ba => true
  | .both, _ => true
  | _, _ => false

/-- Whether a rule 0–63 matches a frame (R25). -/
def Rule.matchesFrame (r : Rule) (dir : Direction) (bytes : List Byte) : Bool :=
  r.valid && r.directions.includes dir && r.term0.matchesFrame bytes && r.term1.matchesFrame bytes
    && r.term2.matchesFrame bytes && r.term3.matchesFrame bytes

/-- The rule index a bank chooses for a frame (R25): the matching rule of lowest index, else 64. The rules not listed are
invalid and match nothing. -/
def Bank.choose (b : Bank) (dir : Direction) (bytes : List Byte) : Nat :=
  match b.rules.find? fun x => x.2.matchesFrame dir bytes with
  | some x => x.1
  | none => 64

/-! ## The decision (2.2) -/

/-- Hit counter `i` after a decision with that rule (R31). -/
def Classifier.countHit (c : Classifier) (i : Nat) : Classifier :=
  { c with hits := SMap.set 0 c.hits i (SMap.get 0 c.hits i + 1) }

/-- The sample countdown of the chosen rule (R32): the classifier afterwards, and whether a capture request is made. -/
def Classifier.sample (c : Classifier) (i : Nat) (r : Rule) : Classifier × Bool :=
  if r.slice = 0 then (c, false)
  else
    let n := SMap.get 0 c.countdowns i - 1
    if n = 0 then ({ c with countdowns := SMap.set 0 c.countdowns i r.ratio.toNat }, true)
    else ({ c with countdowns := SMap.set 0 c.countdowns i n }, false)

/-- The decision in BYPASS, and of a management frame but for the rule (R20, R9). -/
def passDecision (c : Classifier) : Decision :=
  { action := .pass, rule := none, generation := c.generation, template := none }

/-- What a decision hands over when rule `i` is chosen (Table 12). -/
def ruleDecision (c : Classifier) (i : Nat) (r : Rule) : Decision :=
  { action := r.action, rule := some i, generation := c.generation,
    template := if r.action = .measure then some r.template else none }

/-- The Classifier decides a frame (R20, R22, R25): the state, the decision, and the ring that reserved a capture of the
frame. `bytes` are the received bytes up to the decision point. -/
def classify (dir : Direction) (serial : Nat) (bytes : List Byte) (s : State) : State × Decision × Option RingId :=
  match s.cls.mode with
  | .bypass => (s, passDecision s.cls, none)
  | .run =>
    let i := s.cls.active.choose dir bytes
    let r := s.cls.active.rule i
    let d := ruleDecision s.cls i r
    let c := (s.cls.countHit i).sample i r
    let s1 := s.setCls c.1
    if c.2 then
      let q : CaptureRequest :=
        { ring := Fin.ofNat 4 r.ring.toNat, slice := r.slice, rule := i, generation := d.generation, dir := dir,
          serial := serial, uptime := s.now }
      let a := attemptCapture q bytes s1
      (a.1, d, if a.2 then some q.ring else none)
    else (s1, d, none)

/-! ## Rule Commit (2.4) -/

/-- Whether a staged term passes check 2 (Table 16). -/
def stagedTermLegal (m : SMap Word) (k : Nat) : Bool :=
  let t := stagedTerm m k
  !t.enabled || (t.offset.toNat ≤ 124 && t.value &&& ~~~t.mask == 0)

/-- The staged Capture Slice (Table 82). -/
def stagedSlice (m : SMap Word) : Nat := field (stagingWord m 2) 0 9

/-- The staged Capture Ring (Table 82). -/
def stagedRing (m : SMap Word) : Nat := field (stagingWord m 2) 16 3

/-- The staged Action code (Table 82). -/
def stagedAction (m : SMap Word) : Nat := field (stagingWord m 1) 0 2

/-- The staged Template (Table 82). -/
def stagedTemplateNumber (m : SMap Word) : Nat := field (stagingWord m 1) 8 4

/-- The staged Directions code (Table 82). -/
def stagedDirections (m : SMap Word) : Nat := field (stagingWord m 0) 0 2

/-- The staged Valid (Table 82). -/
def stagedValid (m : SMap Word) : Bool := (stagingWord m 0).getLsbD 31

/-- Check 2 of Table 16. -/
def commitCheck2 (m : SMap Word) (i : Nat) : Bool :=
  if i = 64 then stagedAction m == 0 || stagedAction m == 2
  else
    stagedDirections m != 0 && stagedAction m != 3 && stagedTemplateNumber m ≤ 7 && stagedTermLegal m 0
      && stagedTermLegal m 1 && stagedTermLegal m 2 && stagedTermLegal m 3

/-- Check 3 of Table 16. -/
def commitCheck3 (m : SMap Word) : Bool :=
  stagedSlice m == 0
    || (16 ≤ stagedSlice m && stagedSlice m ≤ 256 && stagedSlice m % 16 == 0 && stagedRing m ≤ 3
        && 1 ≤ (stagingWord m 3).toNat && (stagingWord m 3).toNat ≤ 65535)

/-- Check 4 of Table 16. -/
def commitCheck4 (c : Classifier) (i : Nat) : Bool :=
  i == 64 || !stagedValid c.ruleStaging || stagedAction c.ruleStaging != 1
    || (c.template (stagedTemplateNumber c.ruleStaging)).defined

/-- Check 5 of Table 16. -/
def commitCheck5 (s : State) (i : Nat) : Bool :=
  let m := s.cls.ruleStaging
  (i != 64 && !stagedValid m) || stagedSlice m == 0 || (s.ring (Fin.ofNat 4 (stagedRing m))).active

/-- The record a commit stores at index 0–63, as staged (R28). -/
def stagedRule (m : SMap Word) : Rule :=
  { valid := stagedValid m
    directions := (directionsOf (stagedDirections m)).getD .both
    term0 := stagedTerm m 0
    term1 := stagedTerm m 1
    term2 := stagedTerm m 2
    term3 := stagedTerm m 3
    action := (actionOf (stagedAction m)).getD .pass
    template := BitVec.ofNat 3 (stagedTemplateNumber m)
    slice := stagedSlice m
    ring := (stagingWord m 2).extractLsb' 16 3
    ratio := stagingWord m 3 }

/-- The record a commit stores at index 64 (R28): Action and the capture fields as staged, the rest fixed. DESIGN CHOICE
(notes/assumptions/27.md): the disabled terms hold Offset, Mask and Value 0, whatever is staged there. -/
def stagedDefault (m : SMap Word) : Rule :=
  { Rule.resetDefault with
    action := (stagedRule m).action, slice := (stagedRule m).slice, ring := (stagedRule m).ring,
    ratio := (stagedRule m).ratio }

/-- The record a commit stores at an index (R28). -/
def committedRule (m : SMap Word) (i : Nat) : Rule := if i = 64 then stagedDefault m else stagedRule m

/-- The checks of Table 16 in order, and the commit (R27, R28). -/
def commitRule (i : Nat) (s : State) : State × WordResult :=
  let c := s.cls
  if 64 < i then (s, .rejected .badValue)
  else if !commitCheck2 c.ruleStaging i then (s, .rejected .badValue)
  else if !commitCheck3 c.ruleStaging then (s, .rejected .badValue)
  else if !commitCheck4 c i then (s, .rejected .badTemplate)
  else if !commitCheck5 s i then (s, .rejected .badRing)
  else (s.setCls (c.setShadow (c.shadow.setRule i (committedRule c.ruleStaging i))), .ok)

/-- A write of Rule Commit (R27, R160): a read returns the value last written, whatever the result. -/
def writeRuleCommit (v : Word) (s : State) : State × WordResult :=
  commitRule v.toNat (s.setCls { s.cls with ruleCommit := v })

/-! ## Bank swap (2.5) -/

/-- The countdowns a swap loads (R29): the Sample Ratio of every rule of the new active bank with a Capture Slice, 0 for
the others. -/
def Bank.countdowns (b : Bank) : SMap Nat :=
  let c := b.rules.foldl (fun m x => SMap.set 0 m x.1 (if x.2.slice = 0 then 0 else x.2.ratio.toNat)) []
  SMap.set 0 c 64 (if b.last.slice = 0 then 0 else b.last.ratio.toNat)

/-- Swap Banks (R29): the shadow bank becomes active, the new shadow is its copy, the generation rises, countdowns are
loaded and hit counters zeroed. -/
def Classifier.swap (c : Classifier) : Classifier :=
  { c with
    bank0 := c.shadow
    bank1 := c.shadow
    activeBank := !c.activeBank
    generation := c.generation + 1
    countdowns := c.shadow.countdowns
    hits := [] }

/-! ## Template Commit (2.7) -/

/-- Check 2 of Table 18. -/
def templateLegal (t : Template) : Bool :=
  !t.defined
    || ((t.segments.all fun g => g.length.toNat ≤ 16 && g.offset.toNat ≤ 255) && 1 ≤ t.keyLength && t.keyLength ≤ 32)

/-- Whether a rule names template `t` (2.3): valid, MEASURE, with that Template. -/
def Rule.namesTemplate (r : Rule) (t : Nat) : Bool := r.valid && r.action == .measure && r.template.toNat == t

/-- Whether a valid rule 0–63 of a bank names the template; rule 64 never does. -/
def Bank.namesTemplate (b : Bank) (t : Nat) : Bool := b.rules.any fun x => x.2.namesTemplate t

/-- The checks of Table 18 in order, and the commit (R35, R36). -/
def commitTemplate (t : Nat) (s : State) : State × WordResult :=
  let c := s.cls
  let staged := stagedTemplate c.templateStaging
  if 7 < t then (s, .rejected .badValue)
  else if !templateLegal staged then (s, .rejected .badValue)
  else if c.bank0.namesTemplate t || c.bank1.namesTemplate t then (s, .rejected .inUse)
  else (s.setCls { c with templates := SMap.set .reset c.templates t staged }, .ok)

/-- A write of Template Commit (R35, R160). -/
def writeTemplateCommit (v : Word) (s : State) : State × WordResult :=
  commitTemplate v.toNat (s.setCls { s.cls with templateCommit := v })

end Sys2Proof.Machine
end

