-- ==== Sys2Proof/Machine/Line.lean ====
section
/-!
DEFINITION. The Line Interfaces and the Transit Buffers (chapter The Line: Ports, Transit and Insertion, 1.1 to 1.4):
bytes and ends of frames at an ingress, recognition of management frames, the decision point, overflow, and what a DOWN
egress discards. RESET_N_FALL, RESET_N_RELEASE, LINK_DOWN, LINK_UP, BYTE_ARRIVAL and FRAME_END have their meanings here.
-/

namespace Sys2Proof.Machine

/-! ## The Transit Buffer (1.4) -/

/-- Bytes of a held frame that have been neither sent nor discarded. -/
def HeldFrame.fill (f : HeldFrame) : Nat := f.held.length - f.sent

/-- The fill of a buffer (R10). -/
def bufferFill (b : List HeldFrame) : Nat := (b.map HeldFrame.fill).sum

/-- A frame newly begun (R10, R11). -/
def HeldFrame.new : HeldFrame := { held := [], sent := 0, action := none, reception := .isOpen, state := .arriving }

/-- A frame entering DISCARDING: its held bytes are released (R16). -/
def HeldFrame.discard (f : HeldFrame) : HeldFrame := { f with held := [], sent := 0, state := .discarding }

/-- A held copy cut: its reception becomes ENDED ABORTED if it was OPEN (R4, R12). -/
def HeldFrame.cut (f : HeldFrame) : HeldFrame :=
  if f.reception = .isOpen then { f with reception := .endedAborted } else f

/-- A held copy whose frame ends on the line (R13, Table 8). -/
def HeldFrame.ended (f : HeldFrame) (e : LineEnd) : HeldFrame :=
  if f.reception = .isOpen then
    { f with reception := if e = .normal then .endedNormally else .endedAborted }
  else f

/-- Whether the copy of the arriving frame takes its bytes: it is OPEN and not DISCARDING (R10). -/
def HeldFrame.takesBytes (f : HeldFrame) : Bool := f.reception == .isOpen && f.state != .discarding

/-- The head of a buffer while its egress is DOWN (R16): READY frames enter DISCARDING, and frames in DISCARDING leave when
their reception is no longer OPEN. With how many entered DISCARDING. -/
def drainFrames : List HeldFrame → List HeldFrame × Nat
  | [] => ([], 0)
  | f :: rest =>
    match f.state with
    | .ready =>
      if f.reception = .isOpen then (f.discard :: rest, 1)
      else
        let r := drainFrames rest
        (r.1, r.2 + 1)
    | .discarding => if f.reception = .isOpen then (f :: rest, 0) else drainFrames rest
    | .arriving => (f :: rest, 0)
    | .sending => (f :: rest, 0)

/-- The head of a buffer while its egress is UP: a frame in DISCARDING leaves when its reception is no longer OPEN (R16). -/
def dropDiscarded : List HeldFrame → List HeldFrame
  | [] => []
  | f :: rest => if f.state = .discarding ∧ f.reception ≠ .isOpen then dropDiscarded rest else f :: rest

/-- The buffer filled by the ingress of `q` replaced. -/
def State.setBuffer (s : State) (q : Port) (b : List HeldFrame) : State := s.setPort q { s.port q with buffer := b }

/-- The frame that egress `p` is sending closed on the line, when all its held bytes are sent and its reception is no
longer OPEN (R13); it leaves the buffer and the egress is idle. -/
def closeSent (p : Port) (s : State) : State :=
  match (s.port p).egress, (s.port p.other).buffer with
  | .transit, f :: rest =>
    if f.state = .sending ∧ f.held.length ≤ f.sent ∧ f.reception ≠ .isOpen then
      let s1 := s.setBuffer p.other rest
      let s2 := s1.emit p (if f.reception = .endedNormally then .endNormal else .endAbort)
      s2.setPort p { s2.port p with egress := .idle }
    else s
  | _, _ => s

/-- What follows at egress `p` when the buffer that feeds it has changed: the frame being sent is closed if it is done,
discarded frames leave, and a DOWN egress discards what is READY at the head (R13, R16). -/
def settleEgress (p : Port) (s : State) : State :=
  let s1 := closeSent p s
  match (s1.port p).link with
  | .up => s1.setBuffer p.other (dropDiscarded (s1.port p.other).buffer)
  | .down =>
    let r := drainFrames (s1.port p.other).buffer
    let s2 := s1.setBuffer p.other r.1
    s2.setPortCounters p { (s2.port p).counters with egressDown := (s2.port p).counters.egressDown + word r.2 }

/-! ## Recognition (1.3) -/

/-- The kind of management frame that a frame in reception is, by the bytes received so far (R8). -/
def Reception.kind (r : Reception) : Option Kind :=
  if r.envLen + 7 ≤ r.count ∧ word16 (byteAt r.bytes r.envLen) (byteAt r.bytes (r.envLen + 1)) = r.marker then
    kindOf (byteAt r.bytes (r.envLen + 2))
  else none

/-- Whether a port is enabled in a Management Port Mask (Table 80). -/
def maskEnables (mask : BitVec 2) : Port → Bool
  | .A => mask.getLsbD 0
  | .B => mask.getLsbD 1

/-! ## The decision point (R11) -/

/-- The action applied to the copy of the arriving frame, the last of the buffer (R11): READY, or discarded whole. -/
def applyAction (a : Action) (b : List HeldFrame) : List HeldFrame :=
  match b.getLast? with
  | none => b
  | some f =>
    if f.state = .arriving then
      if a = .drop ∨ f.held.length < 16 then b.dropLast
      else updateLast (fun f => { f with action := some a, state := .ready }) b
    else b

/-- The decision of the frame in reception at ingress `q` (R11): management frames by R9, others by the Classifier; the
action takes effect in the buffer. Answers the reception with its decision. -/
def decideFrame (q : Port) (r : Reception) (s : State) : State × Reception :=
  let c := if r.kind.isSome then (s, passDecision s.cls, none) else classify (directionIn q) r.serial r.bytes s
  let d := c.2.1
  let s1 := c.1
  let s2 :=
    if d.action = .drop then
      s1.setPortCounters q { (s1.port q).counters with dropped := (s1.port q).counters.dropped + 1 }
    else s1
  (s2.setBuffer q (applyAction d.action (s2.port q).buffer), { r with decision := some d, capture := c.2.2 })

/-! ## BYTE_ARRIVAL (R10) -/

/-- A frame that begins at ingress `q`: its place in the buffer, and the settings in force at its first byte (R8). -/
def beginFrame (q : Port) (s : State) : State × Reception :=
  let ps := s.port q
  (s.setPort q { ps with serial := ps.serial + 1, buffer := ps.buffer ++ [HeldFrame.new] },
    { serial := ps.serial, bytes := [], count := 0, envLen := s.reach.envLen, marker := s.reach.marker,
      mask := s.reach.mask, settled := none, overflowed := false, resetIntervened := false, decision := none,
      capture := none })

/-- The received byte counted, and kept while it is one of the first 2048. -/
def Reception.receive (r : Reception) (b : Byte) : Reception :=
  { r with count := r.count + 1, bytes := if r.count < 2048 then r.bytes ++ [b] else r.bytes }

/-- The 2049th byte settles OVERSIZE unless an ending is settled (R4). -/
def Reception.settleOversize (r : Reception) : Reception :=
  if r.count = 2049 ∧ r.settled = none then { r with settled := some .oversize } else r

/-- The 2049th byte cuts the held copy (R4): its reception becomes ENDED ABORTED. -/
def cutOversize (q : Port) (r : Reception) (s : State) : State :=
  if r.count = 2049 then s.setBuffer q (updateLast HeldFrame.cut (s.port q).buffer) else s

/-- A received byte at the Transit Buffer (R10, R12): stored while the frame is kept and there is room, cutting the frame
by overflow when the buffer is full. -/
def storeByte (q : Port) (r : Reception) (b : Byte) (s : State) : State × Reception :=
  let buf := (s.port q).buffer
  match buf.getLast? with
  | none => (s, r)
  | some f =>
    if f.takesBytes = true ∧ r.count ≤ 2048 then
      if 16384 ≤ bufferFill buf then
        let s1 := s.setBuffer q (updateLast HeldFrame.cut buf)
        (s1.setPortCounters q
            { (s1.port q).counters with transitOverflow := (s1.port q).counters.transitOverflow + 1 },
          { r with overflowed := true })
      else (s.setBuffer q (updateLast (fun f => { f with held := f.held ++ [b] }) buf), r)
    else (s, r)

/-- A received byte copied into the capture of its frame (R91). -/
def captureByte (q : Port) (r : Reception) (b : Byte) (s : State) : State :=
  match r.capture with
  | some id => s.setCap (s.cap.copyByte id (directionIn q) r.serial b)
  | none => s

/-- A byte of the frame in reception at ingress `q` (R4, R10, R11, R12, R91). -/
def receiveByte (q : Port) (b : Byte) (r0 : Reception) (s0 : State) : State :=
  let r1 := (r0.receive b).settleOversize
  let a := storeByte q r1 b (cutOversize q r1 s0)
  let s1 := captureByte q r1 b a.1
  let d := if r1.count = 128 ∧ a.2.decision = none ∧ a.2.kind ≠ some .ack then decideFrame q a.2 s1 else (s1, a.2)
  settleEgress q.other (d.1.setPort q { d.1.port q with rx := some d.2 })

/-- BYTE_ARRIVAL (R10): the port is UP and RESET_N is high, and a frame is in reception or this byte begins one; the bytes
of a frame already under way when the port came UP or RESET_N was released are ignored (R1, R18). -/
def execByteArrival (p : Port) (first : Bool) (b : Byte) (s : State) : Host.Outcome State Fault Refusal :=
  if s.resetN = true ∧ (s.port p).link = .up then
    match (s.port p).rx with
    | some r => .next (receiveByte p b r s)
    | none =>
      if first then
        let f := beginFrame p s
        .next (receiveByte p b f.2 f.1)
      else .next s
  else .next s

/-! ## The end of a frame (R2, R3, R7, R9) -/

/-- The copy of a fragment discarded whole (R3). -/
def dropArriving (b : List HeldFrame) : List HeldFrame :=
  match b.getLast? with
  | some f => if f.state = .arriving then b.dropLast else b
  | none => b

/-- Frames In and Bytes In at the end of a frame (R17). -/
def PortCounters.countFrame (c : PortCounters) (n : Nat) : PortCounters :=
  { c with framesIn := c.framesIn + 1, bytesIn := c.bytesIn + word n }

/-- A fragment (R3): discarded whole and counted; no decision and no notice. -/
def endFragment (q : Port) (r : Reception) (s : State) : State :=
  let s1 := s.setBuffer q (dropArriving (s.port q).buffer)
  let c := (s1.port q).counters.countFrame r.count
  settleEgress q.other (s1.setPortCounters q { c with fragments := c.fragments + 1 })

/-- Whether a recognised ACK that ends so is consumed (R9, R169). -/
def ackConsumed (s : State) (q : Port) (r : Reception) (e : Ending) : Bool :=
  maskEnables r.mask q && e == .good && r.envLen + 12 ≤ r.count
    && (byteAt r.bytes (r.envLen + 3)).toNat == s.agent.unit.toNat

/-- The session and sequence fields of an ACK (Table 92). -/
def Reception.ackFields (r : Reception) : Ack :=
  { session := word16 (byteAt r.bytes (r.envLen + 4)) (byteAt r.bytes (r.envLen + 5))
    sequence := word16 (byteAt r.bytes (r.envLen + 6)) (byteAt r.bytes (r.envLen + 7)) }

/-- The notice of a frame that ends (Table 6, R23). -/
def Reception.notice (r : Reception) (q : Port) (e : Ending) : Notice :=
  { serial := r.serial, dir := (directionIn q), length := r.count, ending := e, overflowed := r.overflowed,
    resetIntervened := r.resetIntervened, management := r.kind.isSome, decision := r.decision, bytes := r.bytes }

/-- The copy of a COMMAND that the Agent is handed (R9, R139). -/
def Reception.commandCopy (r : Reception) (e : Ending) : CommandCopy :=
  { bytes := r.bytes.take (r.count - 4), length := r.count, envLen := r.envLen, ending := e }

/-- A frame of 16 bytes or more ends at ingress `q` (R2, R5, R6, R7, R9, R11, R17). -/
def endWhole (q : Port) (r : Reception) (e : LineEnd) (s : State) : State :=
  let ending := settleEnding r.settled e (checkCorrect r.bytes)
  let s1 := s.setBuffer q (updateLast (fun f => f.ended e) (s.port q).buffer)
  let consumed := r.kind == some .ack && ackConsumed s q r ending
  let s2 := if consumed then s1.setBuffer q (dropArriving (s1.port q).buffer) else s1
  let d :=
    if r.decision = none then
      if consumed then (s2, { r with decision := some (passDecision s2.cls) }) else decideFrame q r s2
    else (s2, r)
  let s3 := d.1
  let ps := s3.port q
  let s4 := s3.setPort q
    { ps with
      counters := (ps.counters.countFrame r.count).countEnding ending
      flowNotices := ps.flowNotices ++ [d.2.notice q ending]
      commandCopies :=
        if r.kind = some .command ∧ maskEnables r.mask q = true then ps.commandCopies ++ [r.commandCopy ending]
        else ps.commandCopies
      acks := if consumed then ps.acks ++ [r.ackFields] else ps.acks }
  settleEgress q.other s4

/-- The frame in reception at ingress `q` ends (R2). -/
def endFrame (q : Port) (r : Reception) (e : LineEnd) (s : State) : State :=
  let s1 := s.setPort q { s.port q with rx := none }
  if r.count < 16 then endFragment q r s1 else endWhole q r e s1

/-- FRAME_END (R2): with no frame in reception, the end is that of a frame being ignored, and nothing happens. -/
def execFrameEnd (p : Port) (aborted : Bool) (s : State) : Host.Outcome State Fault Refusal :=
  match (s.port p).rx with
  | some r => .next (endFrame p r (if aborted then .aborted else .normal) s)
  | none => .next s

/-! ## Links (R1, R6, R15, R16) -/

/-- The frame that egress `p` is sending, cut by a link DOWN (R15, R16): closed with an abort ending; a transit frame
enters DISCARDING, a response is lost, a report returns to the head of the Report Egress Queue unless it has left the
Outstanding List. -/
def cutEgress (p : Port) (s : State) : State :=
  match (s.port p).egress with
  | .idle => s
  | .transit =>
    let s1 := (s.emit p .endAbort)
    let s2 := s1.setPort p
      { s1.port p with
        egress := .idle
        counters := { (s1.port p).counters with egressDown := (s1.port p).counters.egressDown + 1 } }
    match (s2.port p.other).buffer with
    | f :: rest => s2.setBuffer p.other (f.discard :: rest)
    | [] => s2
  | .response _ _ =>
    let s1 := (s.emit p .endAbort)
    let s2 := s1.setPort p { s1.port p with egress := .idle }
    s2.setAgent { s2.agent with counters := { s2.agent.counters with
      responseLost := s2.agent.counters.responseLost + 1 } }
  | .report t =>
    let s1 := (s.emit p .endAbort)
    let s2 := s1.setPort p { s1.port p with egress := .idle }
    if t.gone then s2 else s2.setRep (cutTransmission s2.rep)

/-- The link of port `p` goes DOWN (R1): the ingress truncates the frame it receives (R6), the egress stops (R15, R16). -/
def linkGoesDown (p : Port) (s : State) : State :=
  let s1 := s.setPort p { s.port p with link := .down }
  let s2 :=
    match (s1.port p).rx with
    | some r => endFrame p r .linkDown s1
    | none => s1
  settleEgress p (cutEgress p s2)

/-- LINK_DOWN (R1). While RESET_N is low the line pins still report link state (R18). -/
def execLinkDown (p : Port) (s : State) : Host.Outcome State Fault Refusal :=
  if (s.port p).link = .down then .next s
  else if s.resetN then .next (linkGoesDown p s)
  else .next (s.setPort p { s.port p with link := .down })

/-- LINK_UP (R1): the ingress takes the next frame that begins, and the egress is available to its Merge. -/
def execLinkUp (p : Port) (s : State) : Host.Outcome State Fault Refusal :=
  .next (s.setPort p { s.port p with link := .up })

/-! ## RESET_N (R18) -/

/-- RESET_N falls at port `p` (R18): a frame being sent is closed with an abort ending, a frame being received is
abandoned with no notice. -/
def resetPort (p : Port) (s : State) : State :=
  let s1 := if (s.port p).egress = .idle then s else s.emit p .endAbort
  s1.setPort p { s1.port p with egress := .idle, rx := none }

/-- RESET_N_FALL (R18); with RESET_N low already, nothing happens. -/
def execResetNFall (s : State) : Host.Outcome State Fault Refusal :=
  if s.resetN then .next ((resetPort .B (resetPort .A s)).setResetN false) else .next s

/-- RESET_N_RELEASE (R18): the straps are sampled, each link is what its line reports, and every block takes its power-up
state; with RESET_N high already, nothing happens. -/
def execResetNRelease (straps : BitVec 5) (s : State) : Host.Outcome State Fault Refusal :=
  if s.resetN then .next s
  else .next ((State.powerUp straps s.portA.link s.portB.link (s.cap.epoch + 1)).setPending s.pending)

end Sys2Proof.Machine
end

