-- ==== Sys2Proof/Machine/Egress.lean ====
section
/-!
DEFINITION. The Egress Merges (1.5) and the sending of frames (R13, R15, R114): EGRESS_CHOOSE, EGRESS_BYTE_SENT and
INSERTED_FRAME_DONE have their meanings here.
-/

namespace Sys2Proof.Machine

/-- Transit is ready when the head frame of the feeding buffer is READY (R14). -/
def transitReady (p : Port) (s : State) : Bool :=
  match (s.port p.other).buffer with
  | f :: _ => f.state == .ready
  | [] => false

/-- What the Merge chooses (Table 9). -/
inductive Choice where
  | nothing | transit | response | report
  deriving DecidableEq, Repr

/-- The first case of Table 9 that applies (R14). -/
def mergeChoice (p : Port) (s : State) : Choice :=
  if s.reach.highMark ≤ bufferFill (s.port p.other).buffer ∧ transitReady p s = true then .transit
  else if (s.port p).lastKind = .inserted ∧ transitReady p s = true then .transit
  else if (s.port p).responses ≠ [] then .response
  else if s.rep.port = p ∧ s.rep.queue ≠ [] then .report
  else if transitReady p s then .transit
  else .nothing

/-- The head transit frame begins (R14): SENDING, and it stays in the buffer. -/
def startTransit (p : Port) (s : State) : State :=
  match (s.port p.other).buffer with
  | f :: rest =>
    let s1 := s.setBuffer p.other ({ f with state := .sending } :: rest)
    s1.setPort p { s1.port p with egress := .transit, lastKind := .transit }
  | [] => s

/-- The head response begins (R14, R138, R168): it leaves its queue, and its frame is fixed. -/
def startResponse (p : Port) (s : State) : State :=
  match (s.port p).responses with
  | r :: rest =>
    s.setPort p { s.port p with
      responses := rest, egress := .response (r.frame s.reach) 0, lastKind := .inserted }
  | [] => s

/-- The head report begins (R14, R113, R114): it leaves the queue and is SENDING; the producer reads the envelope, the
Marker and the header. The Retransmit Timer is STOPPED when it is the oldest (R127). -/
def startReportTx (p : Port) (s : State) : State :=
  match s.rep.queue with
  | q :: rest =>
    match s.rep.outstanding.find? fun r => r.sequence == q with
    | some r =>
      let sending := { r with state := TxState.sending }
      let tx : ReportTx :=
        { report := sending, gone := false, head := reportHead s r, pos := 0, crc := crcStart, field := [] }
      let s1 := s.setPort p { s.port p with egress := .report tx, lastKind := .inserted }
      let out := s1.rep.outstanding.map fun x => if x.sequence = q then sending else x
      s1.setRep { s1.rep with
        queue := rest
        outstanding := out
        retransmit := if oldestSending { s1.rep with outstanding := out } then none else s1.rep.retransmit }
    | none => s
  | [] => s

/-- EGRESS_CHOOSE (R14): an idle egress of an UP port starts what Table 9 chooses; otherwise nothing is chosen. -/
def execEgressChoose (p : Port) (s : State) : Host.Outcome State Fault Refusal :=
  if s.resetN = true ∧ (s.port p).link = .up ∧ (s.port p).egress = .idle then
    match mergeChoice p s with
    | .nothing => .next s
    | .transit => .next (startTransit p s)
    | .response => .next (startResponse p s)
    | .report => .next (startReportTx p s)
  else .next s

/-- One byte of the head transit frame (R13), which frees room; the frame is closed when it was the last and reception is
no longer OPEN. With no byte held that is not sent, the egress waits. -/
def sendTransitByte (p : Port) (s : State) : State :=
  match (s.port p.other).buffer with
  | f :: rest =>
    if f.state = .sending ∧ f.sent < f.held.length then
      let s1 := s.setBuffer p.other ({ f with sent := f.sent + 1 } :: rest)
      settleEgress p (s1.emit p (.byte (byteAt f.held f.sent)))
    else s
  | [] => s

/-- One byte of a report, produced now (R115). -/
def sendReportByte (p : Port) (t : ReportTx) (s : State) : State :=
  let f := t.toGo s fun k => Config.absentField s.cap.epoch p ((s.port p).line.length + k)
  let b := byteAt f 0
  let s1 := s.emit p (.byte b)
  s1.setPort p { s1.port p with egress := .report (t.advance b f.tail) }

/-- One byte of a response. -/
def sendResponseByte (p : Port) (bytes : List Byte) (pos : Nat) (s : State) : State :=
  let s1 := s.emit p (.byte (byteAt bytes pos))
  s1.setPort p { s1.port p with egress := .response bytes (pos + 1) }

/-- EGRESS_BYTE_SENT (R13, R15, R114): one byte of the frame being sent. The last byte of an inserted frame is
INSERTED_FRAME_DONE's. -/
def execEgressByteSent (p : Port) (s : State) : Host.Outcome State Fault Refusal :=
  match (s.port p).egress with
  | .idle => .next s
  | .transit => .next (sendTransitByte p s)
  | .response bytes pos => if pos + 1 < bytes.length then .next (sendResponseByte p bytes pos s) else .next s
  | .report t => if t.pos + 1 < t.total then .next (sendReportByte p t s) else .next s

/-- `n` more bytes of the report that egress `p` is sending. -/
def sendReportBytes (p : Port) : Nat → State → State
  | 0, s => s
  | n + 1, s =>
    match (s.port p).egress with
    | .report t => sendReportBytes p n (sendReportByte p t s)
    | _ => s

/-- An inserted frame sent whole (R15): closed normally, counted, and the egress idle. -/
def closeInserted (p : Port) (s : State) : State :=
  let s1 := s.emit p .endNormal
  let ps := s1.port p
  s1.setPort p { ps with
    egress := .idle
    counters := { ps.counters with insertedFramesOut := ps.counters.insertedFramesOut + 1 } }

/-- INSERTED_FRAME_DONE (R15): the bytes of the inserted frame still to go are sent, the last among them; it is counted,
and its owner is told. -/
def execInsertedFrameDone (p : Port) (s : State) : Host.Outcome State Fault Refusal :=
  match (s.port p).egress with
  | .idle => .next s
  | .transit => .next s
  | .response bytes pos =>
    let ps := s.port p
    .next (closeInserted p (s.setPort p { ps with line := ps.line ++ (bytes.drop pos).map .byte }))
  | .report t =>
    let s1 := closeInserted p (sendReportBytes p (t.total - t.pos) s)
    let s2 := s1.setRep { s1.rep with delivery := { s1.rep.delivery with
      reportsSent := s1.rep.delivery.reportsSent + 1 } }
    .next (if t.gone then s2 else finishTransmission s2)

end Sys2Proof.Machine
end

