-- ==== Sys2Proof/Machine/Cursor.lean ====
section
/-!
DEFINITION. The walk of a command (chapter Management Frames and the Shared Cursor, 8.4 to 8.7): how the words of an op are
taken at the cursor, how an op's status is settled, how a RESPONSE is formed and queued, and the Soft Reset of R150.
-/

namespace Sys2Proof.Machine

/-! ## The op being walked -/

/-- The op being walked ends with a status (R146). -/
def Walk.finishOp (w : Walk) (st : OpStatus) : Walk :=
  { w with
    ops := w.ops.tail, statuses := w.statuses ++ [st], taken := 0, firstMine := none, failure := none, data := [] }

/-- How many words the op being walked has. -/
def Walk.opWords (w : Walk) : Nat :=
  match w.ops with
  | op :: _ => op.count
  | [] => 0

/-- A word of the op that is mine has been executed with a result (R146): the cursor rises by 1. -/
def Walk.noteMine (w : Walk) (r : WordResult) : Walk :=
  { w with
    cursor := w.cursor + 1
    taken := w.taken + 1
    anyMine := true
    firstMine := some (w.firstMine.getD w.taken)
    failure := noteFailure w.failure r }

/-- A word of the op that is not mine has been passed over (R144). -/
def Walk.noteOther (w : Walk) : Walk := { w with cursor := w.cursor + 1, taken := w.taken + 1 }

/-- A WRITE ends when its last word has been taken (R146). -/
def Walk.closeWrite (w : Walk) : Walk :=
  if w.opWords ≤ w.taken then w.finishOp (settleStatus w.firstMine w.failure) else w

/-- A READ ends when its last word has been taken: its block is added when one of its words was mine (R148). -/
def Walk.closeRead (w : Walk) : Walk :=
  if w.opWords ≤ w.taken then
    { w.finishOp (settleStatus w.firstMine w.failure) with
      blocks := w.blocks ++ (match w.firstMine with
        | some o => [{ offset := o, data := w.data }]
        | none => []) }
  else w

/-- The walk of the command being executed changed. -/
def State.updateWalk (s : State) (f : Walk → Walk) : State :=
  s.setAgent { s.agent with walk := s.agent.walk.map f }

/-- The word of a WRITE that the executor stands at, when it is mine: its local offset and value. -/
def wordAtCursor (s : State) : Option (BitVec 16 × Word) :=
  match s.agent.walk with
  | none => none
  | some w =>
    match w.ops with
    | .write ws :: _ =>
      match ws[w.taken]?, localOffset s.agent.unit w.cursor with
      | some v, some o => some (o, v)
      | _, _ => none
    | _ => none

/-! ## Responses (R148, R149) -/

/-- The content of a walked command's RESPONSE (Table 75). -/
def Walk.response (w : Walk) (unit : BitVec 5) (reset : Bool) (statuses : List OpStatus) : Response :=
  { unit := unit, malformed := false, reset := reset, tag := w.tag, opCount := w.opCount, statuses := statuses,
    blocks := w.blocks }

/-- A response placed in the Response Queue of a port, or lost when it holds 4 (R149). -/
def queueResponse (p : Port) (r : Response) (s : State) : State :=
  if (s.port p).responses.length < 4 then
    let s1 := s.setPort p { s.port p with responses := (s.port p).responses ++ [r] }
    s1.setAgent { s1.agent with counters := { s1.agent.counters with
      responsesQueued := s1.agent.counters.responsesQueued + 1 } }
  else
    s.setAgent { s.agent with counters := { s.agent.counters with
      responseLost := s.agent.counters.responseLost + 1 } }

/-! ## Soft Reset (R150, R19, R40, R65, R84, R102, R118, R136, R153) -/

/-- A port at a Soft Reset (R19): counters 0; a frame in reception will carry Reset intervened (R7), and a report being
sent has left the Outstanding List (R118). -/
def PortState.softReset (x : PortState) : PortState :=
  { x with
    counters := .zero
    rx := x.rx.map fun r => { r with resetIntervened := true }
    egress := x.egress.markGone }

/-- The reset acts on the blocks (step 6 of R150). -/
def softResetBlocks (s : State) : State :=
  { s with
    portA := s.portA.softReset
    portB := s.portB.softReset
    cls := .reset
    flow := .reset
    sweep := .reset s.time.uptime
    walker := .reset
    cap := .reset (s.cap.epoch + 1)
    rq := .reset
    rep := .reset s.rep.sessionNumber
    agent := { s.agent with counters := .zero } }

/-- The executor stands at the word that writes Soft Reset to the Control word. -/
def standsAtReset (s : State) : Bool :=
  match wordAtCursor s with
  | some (o, v) => o == 0x0008 && field v 0 8 == 1
  | none => false

/-- The response of a command that a Soft Reset ended (steps 1, 2 and 5 of R150): the status of its op settled over the
words up to the Soft Reset word, SKIPPED for every later op, RESET set. -/
def resetResponse (unit : BitVec 5) (w : Walk) : Response :=
  w.response unit true
    (w.statuses ++ [settleStatus (some (w.firstMine.getD w.taken)) w.failure]
      ++ List.replicate (w.ops.length - 1) .skipped)

/-- Both Response Queues and the Command Queue emptied, the command being executed with it (steps 3, 4 and 6 of R150). -/
def emptyQueues (s : State) : State :=
  { s with
    portA := { s.portA with responses := [] }
    portB := { s.portB with responses := [] }
    agent := { s.agent with queue := [], walk := none } }

/-- Soft Reset (R150). With no command standing at the word, there is no command to answer. -/
def softReset (s : State) : State :=
  let s1 := emptyQueues s
  let s2 :=
    match s.agent.walk with
    | some w => if standsAtReset s then queueResponse w.port (resetResponse s.agent.unit w) s1 else s1
    | none => s1
  softResetBlocks s2

end Sys2Proof.Machine
end

