-- ==== Sys2Proof/Machine/Window.lean ====
section
/-!
DEFINITION. The management window (chapter The Management Window): what a read of each word returns, the settings with
their checks, the control ops, and what a write of each word does and results in.
-/

namespace Sys2Proof.Machine

/-! ## Status words (R155, Table 79) -/

/-- A link as a bit. -/
def Link.bit : Link → Nat
  | .down => 0
  | .up => 1

/-- Codes of the walker's state (Table 79). -/
def WalkerState.code : WalkerState → Nat
  | .idle => 0
  | .running => 1
  | .done => 2

/-- Codes of the walker's kind (Table 79). -/
def WalkerKind.code : WalkerKind → Nat
  | .none => 0
  | .flush => 1
  | .clear => 2

/-- Codes of a selector (Table 79). -/
def Selector.code : Selector → Nat
  | .all => 0
  | .byRule => 1
  | .byTemplate => 2

/-- Codes of the session state (Table 79). -/
def SessionState.code : SessionState → Nat
  | .idle => 0
  | .starting => 1
  | .opened => 2

/-- Codes of a source (Table 79). -/
def Source.code : Source → Nat
  | .records => 0
  | .ring r => r.val + 1

/-- A status word (Table 79). -/
def readStatus (s : State) : StatusWord → Word
  | .identity => 0x06120100
  | .unitNumber => place s.agent.unit.toNat 0
  | .portStatus => place s.portA.link.bit 1 ||| place s.portB.link.bit 0
  | .transitFill => place (bufferFill s.portA.buffer) 16 ||| place (bufferFill s.portB.buffer) 0
  | .bankStatus => flagAt s.cls.activeBank 16 ||| place s.cls.generation.toNat 0
  | .tableStatus =>
    place s.walker.state.code 30 ||| place s.walker.kind.code 28 ||| place s.walker.selector.code 24
      ||| flagAt s.walker.stalled 23 ||| flagAt s.walker.flushAborted 22 ||| place s.walker.argument 0
  | .tableProgress => place s.walker.position 16 ||| place s.walker.count 0
  | .uptime => s.time.uptime
  | .sweepPosition => place s.sweep.position 0
  | .agentStatus =>
    place s.agent.queue.length 16 ||| place s.portA.responses.length 8 ||| place s.portB.responses.length 0
  | .sessionStatus =>
    place s.rep.session.code 30 ||| place s.rep.attempts 24 ||| place s.rep.outstanding.length 16
      ||| place s.rep.sessionNumber.toNat 0
  | .sequenceStatus => place (oldestSequence s.rep).toNat 16 ||| place s.rep.nextSequence.toNat 0
  | .recordQueueStatus => place s.rq.head 24 ||| place s.rq.count 12 ||| place s.rq.inReport 0
  | .exportStatus =>
    flagAt s.rep.hold.isSome 31 ||| flagAt s.rep.buildPending 30 ||| place s.rep.nextStart.code 24
      ||| place s.rq.unsent 0

/-! ## Settings (R156, Table 80) -/

/-- The number a port is written as (Table 80). -/
def Port.number : Port → Nat
  | .A => 0
  | .B => 1

/-- A setting as read: the value stored. -/
def readSetting (s : State) : Setting → Word
  | .mode => if s.cls.mode = .run then 1 else 0
  | .timeOffset => s.time.offset
  | .hashSeed => place s.flow.seed.toNat 0
  | .evictPolicy => if s.flow.policy = .noEvict then 1 else 0
  | .idleTimeout => word s.sweep.idleTimeout
  | .activeTimeout => word s.sweep.activeTimeout
  | .sweepPeriod => word s.sweep.sweepPeriod
  | .highMark => word s.reach.highMark
  | .marker => place s.reach.marker.toNat 0
  | .envelopeLength => word s.reach.envLen
  | .portMask => place s.reach.mask.toNat 0
  | .sessionEnable => if s.rep.sessionEnable then 1 else 0
  | .reportPort => word (Port.number s.rep.port)
  | .windowSize => word s.rep.windowSize
  | .sizeLimit => word s.rep.sizeLimit
  | .holdTime => word s.rep.holdTime
  | .retransmitBase => word s.rep.retransmitBase
  | .retryLimit => word s.rep.retryLimit

/-- The legal values of a setting (Table 80). -/
def Setting.legal (k : Setting) (v : Nat) : Bool :=
  match k with
  | .mode => v ≤ 1
  | .timeOffset => true
  | .hashSeed => v ≤ 0xFFFF
  | .evictPolicy => v ≤ 1
  | .idleTimeout => 1 ≤ v && v ≤ 65535
  | .activeTimeout => v ≤ 65535
  | .sweepPeriod => 1 ≤ v && v ≤ 255
  | .highMark => 2048 ≤ v && v ≤ 14336 && v % 1024 == 0
  | .marker => v ≤ 0xFFFF
  | .envelopeLength => v ≤ 32 && v % 2 == 0
  | .portMask => v ≤ 3
  | .sessionEnable => v ≤ 1
  | .reportPort => v ≤ 1
  | .windowSize => 1 ≤ v && v ≤ 16
  | .sizeLimit => 512 ≤ v && v ≤ 2048
  | .holdTime => 1 ≤ v && v ≤ 10000
  | .retransmitBase => 10 ≤ v && v ≤ 10000
  | .retryLimit => 1 ≤ v && v ≤ 15

/-- The owner's state check of a setting (Table 80), passed when it is none. -/
def Setting.stateCheck (k : Setting) (s : State) : Option WordResult :=
  match k with
  | .hashSeed => if s.flow.entries ≠ [] ∨ s.walker.state = .running then some (.rejected .notEmpty) else none
  | .reportPort => if s.rep.session = .idle then none else some .busy
  | .windowSize => if s.rep.session = .idle then none else some .busy
  | _ => none

/-- A legal value stored in a setting; a write of Session Enable has the effect of R120 or R121. -/
def storeSetting (k : Setting) (v : Word) (s : State) : State :=
  match k with
  | .mode => s.setCls { s.cls with mode := if v = 1 then .run else .bypass }
  | .timeOffset => s.setTime { s.time with offset := v }
  | .hashSeed => s.setFlow { s.flow with seed := v.setWidth 16 }
  | .evictPolicy => s.setFlow { s.flow with policy := if v = 1 then .noEvict else .evictOldest }
  | .idleTimeout => s.setSweep { s.sweep with idleTimeout := v.toNat }
  | .activeTimeout => s.setSweep { s.sweep with activeTimeout := v.toNat }
  | .sweepPeriod => s.setSweep { s.sweep with sweepPeriod := v.toNat }
  | .highMark => s.setReach { s.reach with highMark := v.toNat }
  | .marker => s.setReach { s.reach with marker := v.setWidth 16 }
  | .envelopeLength => s.setReach { s.reach with envLen := v.toNat }
  | .portMask => s.setReach { s.reach with mask := v.setWidth 2 }
  | .sessionEnable => if v = 1 then enableSession s else disableSession s
  | .reportPort => s.setRep { s.rep with port := if v = 1 then .B else .A }
  | .windowSize => s.setRep { s.rep with windowSize := v.toNat }
  | .sizeLimit => s.setRep { s.rep with sizeLimit := v.toNat }
  | .holdTime => s.setRep { s.rep with holdTime := v.toNat }
  | .retransmitBase => s.setRep { s.rep with retransmitBase := v.toNat }
  | .retryLimit => s.setRep { s.rep with retryLimit := v.toNat }

/-- A write of a setting (R156): the state check, the range check, then the value is stored. -/
def writeSetting (k : Setting) (v : Word) (s : State) : State × WordResult :=
  match k.stateCheck s with
  | some r => (s, r)
  | none => if k.legal v.toNat then (storeSetting k v s, .ok) else (s, .rejected .badValue)

/-! ## Views and counters (R159 to R165) -/

/-- Word `i` of the Entry View (Table 83). -/
def EntryView.viewWord (w : EntryView) (i : Nat) : Word :=
  if i = 15 then w.time
  else
    match w.entry with
    | none => if i = 0 then place w.index 0 else 0
    | some e =>
      match i with
      | 0 =>
        flagAt true 31 ||| flagAt e.saturated 30 ||| flagAt e.merged 29 ||| place e.origin.code 28
          ||| place e.dirField.code 26 ||| place e.template.toNat 23 ||| place e.key.length 16 ||| place w.index 0
      | 1 => place e.rule 16 ||| place e.generation.toNat 0
      | 2 => e.firstSeen
      | 3 => e.lastSeen
      | 4 => e.frames
      | 5 => (e.bytes.extractLsb' 32 8).setWidth 32
      | 6 => e.bytes.extractLsb' 0 32
      | _ =>
        let j := 4 * (i - 7)
        word32 (byteAt e.key j) (byteAt e.key (j + 1)) (byteAt e.key (j + 2)) (byteAt e.key (j + 3))

/-- Word `i` of a ring (Table 84); an inactive ring reads 0 in words 4 to 6. -/
def Ring.readWord (r : Ring) (i : Nat) : Word :=
  match i with
  | 0 => word r.baseCell
  | 1 => word r.size
  | 4 => if r.active then flagAt true 31 ||| place r.filling 24 ||| place r.free 0 else 0
  | 5 => if r.active then place r.release 20 ||| place r.send 10 ||| place r.fill 0 else 0
  | 6 => if r.active then place r.inReport 16 ||| place r.filled 0 else 0
  | _ => 0

/-- The ten counters of a port in offset order (Table 85). -/
def PortCounters.list (c : PortCounters) : List Word :=
  [c.framesIn, c.bytesIn, c.fragments, c.oversize, c.badCheck, c.truncated, c.dropped, c.transitOverflow,
    c.egressDown, c.insertedFramesOut]

/-- The six counters of the Flow Table in offset order (Table 85). -/
def FlowCounters.list (c : FlowCounters) : List Word :=
  [c.activeEntries, c.inserts, c.evictions, c.untrackedFull, c.untrackedQueue, c.keyShort]

/-- The six counters of Table 37 in offset order (Table 85). -/
def AgeCounters.list (c : AgeCounters) : List Word :=
  [c.idleCloses, c.activeExports, c.sweepDeferred, c.sweepPasses, c.flushed, c.cleared]

/-- The five counters of a ring in offset order (Table 85). -/
def RingCounters.list (c : RingCounters) : List Word :=
  [c.completed, c.ringBusy, c.ringFull, c.exported, c.discarded]

/-- The delivery counters in offset order (Table 85). -/
def DeliveryCounters.list (c : DeliveryCounters) : List Word :=
  [c.reportsSent, c.retransmissions, c.acks, c.staleAcks, c.badAcks, c.ackMismatch, c.sessionsLost]

/-- The record conservation counters in offset order (Table 85). -/
def ConservationCounters.list (c : ConservationCounters) : List Word := [c.appended, c.exported, c.discarded]

/-- The counters of the Agent in offset order (Table 85). -/
def AgentCounters.list (c : AgentCounters) : List Word :=
  [c.commandsQueued, c.badCheck, c.overrun, c.malformed, c.responsesQueued, c.responseLost]

/-- Word `i` of the counter block, counted from 0x4000 (R165, Table 85). -/
def readCounter (s : State) (i : Nat) : Word :=
  if i < 0x10 then s.portA.counters.list.getD i 0
  else if i < 0x20 then s.portB.counters.list.getD (i - 0x10) 0
  else if i < 0x28 then s.flow.counters.list.getD (i - 0x20) 0
  else if i < 0x30 then s.sweep.counters.list.getD (i - 0x28) 0
  else if i < 0x50 then (s.ring (Fin.ofNat 4 ((i - 0x30) / 8))).counters.list.getD ((i - 0x30) % 8) 0
  else if i < 0x58 then s.rep.delivery.list.getD (i - 0x50) 0
  else if i < 0x60 then s.rep.conservation.list.getD (i - 0x58) 0
  else s.agent.counters.list.getD (i - 0x60) 0

/-- A read of a word of the local map (R154): its value, and its result; an unmapped word reads 0 (R146). -/
def readWord (s : State) (o : BitVec 16) : Word × WordResult :=
  match decodeOffset o.toNat with
  | .unmapped => (0, .unmapped)
  | .status w => (readStatus s w, .ok)
  | .setting k => (readSetting s k, .ok)
  | .control => (0, .ok)
  | .responseEnvelope i => (stagingWord s.reach.responseEnvelope i, .ok)
  | .reportEnvelope i => (stagingWord s.reach.reportEnvelope i, .ok)
  | .ruleStaging i => (stagingWord s.cls.ruleStaging i, .ok)
  | .ruleCommit => (s.cls.ruleCommit, .ok)
  | .templateStaging i => (stagingWord s.cls.templateStaging i, .ok)
  | .templateCommit => (s.cls.templateCommit, .ok)
  | .activeRule r i => ((s.cls.active.rule r).viewWord i, .ok)
  | .shadowRule r i => ((s.cls.shadow.rule r).viewWord i, .ok)
  | .template t i => ((s.cls.template t).viewWord i, .ok)
  | .hitCounter i => (SMap.get 0 s.cls.hits i, .ok)
  | .entrySelect => (word s.flow.view.index, .ok)
  | .entryView i => (s.flow.view.viewWord i, .ok)
  | .closeEntry => (s.flow.closeEntry, .ok)
  | .ring r i => ((s.ring r).readWord i, .ok)
  | .counter i => (readCounter s i, .ok)

/-! ## Control ops (R157, Table 81) -/

/-- Session Restart (R122). -/
def restartSession (s : State) : State × WordResult :=
  if s.rep.session = .idle then (s, .rejected .notActive) else (loseSession s, .ok)

/-- Report Now (R109). -/
def reportNow (s : State) : State × WordResult :=
  (if hasMaterial s then pump (s.setRep { s.rep with buildPending := true }) else s, .ok)

/-- Clear Counters (R158). -/
def clearCounters (s : State) : State :=
  let ringClear : RingId → Ring → Ring := fun _ g => { g with counters := { g.counters with ringBusy := 0, ringFull := 0 } }
  { s with
    portA := { s.portA with counters := .zero }
    portB := { s.portB with counters := .zero }
    cls := { s.cls with hits := [] }
    flow := { s.flow with counters := { FlowCounters.zero with activeEntries := s.flow.counters.activeEntries } }
    sweep := { s.sweep with counters := .zero }
    cap := { s.cap with rings := s.cap.rings.update ringClear }
    rep := { s.rep with delivery := .zero }
    agent := { s.agent with counters := .zero } }

/-- A write of the Control word (Table 81). -/
def writeControl (v : Word) (s : State) : State × WordResult :=
  match field v 0 8 with
  | 1 => (softReset s, .ok)
  | 2 => (s.setCls s.cls.swap, .ok)
  | 3 => startFlush (v.extractLsb' 8 2) (v.extractLsb' 16 8) s
  | 4 => startClear s
  | 5 => restartSession s
  | 6 => reportNow s
  | 7 => (clearCounters s, .ok)
  | _ => (s, .rejected .badValue)

/-- A write of word `i` of a ring (Table 84). -/
def writeRingWord (r : RingId) (i : Nat) (v : Word) (s : State) : State × WordResult :=
  match i with
  | 0 => writeRingConfig r .baseCell v s
  | 1 => writeRingConfig r .size v s
  | 2 => writeActivate r s
  | 3 => writeDeactivate r s
  | _ => (s, .readOnly)

/-- A write of a word that the address decoder has sent to its owner (R146, R154). -/
def writeTarget (t : Target) (v : Word) (s : State) : State × WordResult :=
  match t with
  | .unmapped => (s, .unmapped)
  | .status _ => (s, .readOnly)
  | .setting k => writeSetting k v s
  | .control => writeControl v s
  | .responseEnvelope i =>
    (s.setReach { s.reach with responseEnvelope := SMap.set 0 s.reach.responseEnvelope i v }, .ok)
  | .reportEnvelope i => (s.setReach { s.reach with reportEnvelope := SMap.set 0 s.reach.reportEnvelope i v }, .ok)
  | .ruleStaging i => (s.setCls { s.cls with ruleStaging := SMap.set 0 s.cls.ruleStaging i v }, .ok)
  | .ruleCommit => writeRuleCommit v s
  | .templateStaging i => (s.setCls { s.cls with templateStaging := SMap.set 0 s.cls.templateStaging i v }, .ok)
  | .templateCommit => writeTemplateCommit v s
  | .activeRule _ _ => (s, .readOnly)
  | .shadowRule _ _ => (s, .readOnly)
  | .template _ _ => (s, .readOnly)
  | .hitCounter _ => (s, .readOnly)
  | .entrySelect => writeEntrySelect v s
  | .entryView _ => (s, .readOnly)
  | .closeEntry => writeCloseEntry v s
  | .ring r i => writeRingWord r i v s
  | .counter _ => (s, .readOnly)

/-- A write of a word of the local map (R146, R154). -/
def writeWord (o : BitVec 16) (v : Word) (s : State) : State × WordResult := writeTarget (decodeOffset o.toNat) v s

end Sys2Proof.Machine
end

