-- ==== Sys2Proof/Machine/Agent.lean ====
section
/-!
DEFINITION. The Management Agent (chapter Management Frames and the Shared Cursor): TAKE_COMMAND_COPY, BEGIN_COMMAND, the
four ops SET_CURSOR, MOVE_CURSOR, WRITE and READ, and COMMAND_END. An op's row acts on the op the Agent stands at; a row
that names another op changes nothing (notes/assumptions/7.md).
-/

namespace Sys2Proof.Machine

/-! ## The Command Queue (R139) -/

/-- The counters of the Agent changed. -/
def State.countAgent (s : State) (f : AgentCounters → AgentCounters) : State :=
  s.setAgent { s.agent with counters := f s.agent.counters }

/-- A COMMAND copy reaches the Agent (Table 71). -/
def takeCopy (p : Port) (c : CommandCopy) (s : State) : State :=
  if c.ending ≠ .good then s.countAgent fun k => { k with badCheck := k.badCheck + 1 }
  else if 2 ≤ s.agent.queue.length then s.countAgent fun k => { k with overrun := k.overrun + 1 }
  else
    let s1 := s.setAgent { s.agent with
      queue := s.agent.queue ++ [{ bytes := c.bytes, length := c.length, envLen := c.envLen, port := p }] }
    s1.countAgent fun k => { k with commandsQueued := k.commandsQueued + 1 }

/-- TAKE_COMMAND_COPY (R139): the oldest COMMAND copy of ingress `p` reaches the Agent. With none on its way, nothing
happens. -/
def execTakeCommandCopy (p : Port) (s : State) : Host.Outcome State Fault Refusal :=
  match (s.port p).commandCopies with
  | [] => .next s
  | c :: rest => .next (takeCopy p c (s.setPort p { s.port p with commandCopies := rest }))

/-- The command at the head leaves the Command Queue, and no command is being executed (R140). -/
def leaveQueue (s : State) : State :=
  s.setAgent { s.agent with queue := s.agent.queue.tail, walk := none }

/-- The response of a malformed command (R142). -/
def malformedResponse (unit : BitVec 5) (c : Command) : Response :=
  { unit := unit, malformed := true, reset := false, tag := c.tag, opCount := 0, statuses := [], blocks := [] }

/-- A malformed command (R142): counted, answered when its ROLLCALL is set, and gone from the queue. -/
def refuseCommand (c : Command) (s : State) : State :=
  let s1 := s.countAgent fun k => { k with malformed := k.malformed + 1 }
  leaveQueue (if c.rollcall then queueResponse c.port (malformedResponse s.agent.unit c) s1 else s1)

/-- The walk of a well-formed command as it begins (R144): the cursor is 0. -/
def Command.startWalk (c : Command) (ops : List Op) : Walk :=
  { tag := c.tag, rollcall := c.rollcall, port := c.port, opCount := ops.length, ops := ops, cursor := 0,
    statuses := [], blocks := [], anyMine := false, taken := 0, firstMine := none, failure := none, data := [] }

/-- BEGIN_COMMAND (R140 to R142): the Agent is not executing, and begins the command at the head of its queue. -/
def execBeginCommand (s : State) : Host.Outcome State Fault Refusal :=
  match s.agent.walk, s.agent.queue with
  | none, c :: _ =>
    match c.ops with
    | some ops => .next (s.setAgent { s.agent with walk := some (c.startWalk ops) })
    | none => .next (refuseCommand c s)
  | _, _ => .next s

/-! ## The ops (R144 to R147) -/

/-- The op the Agent stands at. -/
def currentOp (s : State) : Option Op := s.agent.walk.bind fun w => w.ops.head?

/-- The cursor set and the op ended with OK (R144, R146). -/
def stepCursor (a : BitVec 24) (s : State) : State :=
  s.updateWalk fun w => { w.finishOp (.result .ok) with cursor := a }

/-- SET_CURSOR (R144). -/
def execSetCursor (addr : BitVec 24) (s : State) : Host.Outcome State Fault Refusal :=
  match s.agent.walk with
  | some w => if w.ops.head? = some (.setCursor addr) then .next (stepCursor addr s) else .next s
  | none => .next s

/-- MOVE_CURSOR (R144). -/
def execMoveCursor (delta : BitVec 16) (s : State) : Host.Outcome State Fault Refusal :=
  match s.agent.walk with
  | some w =>
    if w.ops.head? = some (.moveCursor delta) then .next (stepCursor (moveBy w.cursor delta) s) else .next s
  | none => .next s

/-- One word of a WRITE taken at the cursor (R144, R146): the owner of the word acts when it is mine, and the executor
notes the result. -/
def writeOne (v : Word) (s : State) : State :=
  match s.agent.walk with
  | none => s
  | some w =>
    match localOffset s.agent.unit w.cursor with
    | some o =>
      let r := writeWord o v s
      (r.1.setResult r.2).updateWalk fun w => w.noteMine r.2
    | none => s.updateWalk Walk.noteOther

/-- Words of a WRITE taken in cursor order; none after a Soft Reset that ended the command (step 1 of R150). -/
def writeWords : List Word → State → State
  | [], s => s
  | v :: rest, s => writeWords rest (writeOne v s)

/-- WRITE (R144): the next words of the WRITE op the Agent stands at, whose status is settled with its last word. -/
def execWrite (words : List Word) (s : State) : Host.Outcome State Fault Refusal :=
  match currentOp s, s.agent.walk with
  | some (.write ws), some w =>
    if words ≠ [] ∧ (ws.drop w.taken).take words.length = words then
      .next ((writeWords words s).updateWalk Walk.closeWrite)
    else .next s
  | _, _ => .next s

/-- One word of a READ taken at the cursor (R144, R146). -/
def readOne (s : State) : State :=
  match s.agent.walk with
  | none => s
  | some w =>
    match localOffset s.agent.unit w.cursor with
    | some o =>
      let r := readWord s o
      s.updateWalk fun w => { w.noteMine r.2 with data := w.data ++ [r.1] }
    | none => s.updateWalk Walk.noteOther

/-- `n` words of a READ taken in cursor order. -/
def readWords : Nat → State → State
  | 0, s => s
  | n + 1, s => readWords n (readOne s)

/-- The sum that R147 compares with 2048 for a READ of `mine` words that are mine. -/
def Walk.roomSum (w : Walk) (mine : Nat) : Nat := 44 + w.opCount + (w.blocks.map Block.size).sum + (2 + 4 * mine)

/-- Whether a READ about to begin is refused for room (R147). -/
def Walk.noRoom (w : Walk) (unit : BitVec 5) (count : Nat) : Bool :=
  w.taken == 0 && mineCount unit w.cursor count != 0 && decide (2048 < w.roomSum (mineCount unit w.cursor count))

/-- A READ refused for room (R147, R144): NO_ROOM, no block, and the cursor rises by its count; a word of it was mine
(R148). -/
def Walk.refuseRead (w : Walk) (count : Nat) : Walk :=
  { w.finishOp .noRoom with cursor := w.cursor + BitVec.ofNat 24 count, anyMine := true }

/-- READ (R144, R147): the next words of the READ op the Agent stands at. The room is tested before its first word. -/
def execRead (count : Nat) (s : State) : Host.Outcome State Fault Refusal :=
  match currentOp s, s.agent.walk with
  | some (.read n), some w =>
    if count ≠ 0 ∧ w.taken + count ≤ n then
      if w.noRoom s.agent.unit n then .next (s.updateWalk fun w => w.refuseRead n)
      else .next ((readWords count s).updateWalk Walk.closeRead)
    else .next s
  | _, _ => .next s

/-! ## The end of a command (R148) -/

/-- A command walked to its end (R148): its response is queued when one is due, and the command leaves the queue. -/
def endCommand (w : Walk) (s : State) : State :=
  leaveQueue (if w.anyMine || w.rollcall then queueResponse w.port (w.response s.agent.unit false w.statuses) s else s)

/-- COMMAND_END (R148): the Agent stands past the last op of its command. -/
def execCommandEnd (s : State) : Host.Outcome State Fault Refusal :=
  match s.agent.walk with
  | some w => if w.ops = [] then .next (endCommand w s) else .next s
  | none => .next s

end Sys2Proof.Machine
end

