-- ==== Sys2Proof/Machine/Registers.lean ====
section
/-!
DEFINITION. The rows that are writes of one word of the local map. A row presents its word to the word's owner, which acts
by its own rule. When the Agent stands at that very word of a WRITE, the row is the Agent's taking of that word, and the
result is noted in its walk (notes/assumptions/6.md).
-/

namespace Sys2Proof.Machine

/-- Whether the Agent stands at a word of a WRITE that reaches target `t` with a value that satisfies `ok`. -/
def standsAt (s : State) (t : Target) (ok : Word → Bool) : Bool :=
  match wordAtCursor s with
  | some (o, v) => decodeOffset o.toNat == t && ok v
  | none => false

/-- A result noted in the walk for a word that was taken (R146), when `atWord`. -/
def noteTaken (atWord : Bool) (r : WordResult) (s : State) : State :=
  if atWord then s.updateWalk fun w => (w.noteMine r).closeWrite else s

/-- A word presented to its owner: the owner's action, its result, and the walk's note of it. -/
def present (t : Target) (ok : Word → Bool) (owner : State → State × WordResult) (s : State) : State :=
  let r := owner s
  noteTaken (standsAt s t ok) r.2 (r.1.setResult r.2)

/-- A Control word whose op code is `code` (R157). -/
def controlCode (code : Nat) (v : Word) : Bool := field v 0 8 == code

/-- SETTING_WRITE (R156): a word of the local map written, by its offset. -/
def execSettingWrite (offset : BitVec 16) (value : Word) (s : State) : Host.Outcome State Fault Refusal :=
  .next (present (decodeOffset offset.toNat) (· == value) (writeWord offset value) s)

/-- HASH_SEED_WRITE (R44). -/
def execHashSeedWrite (value : Word) (s : State) : Host.Outcome State Fault Refusal :=
  .next (present (.setting .hashSeed) (· == value) (writeSetting .hashSeed value) s)

/-- The word of a ring that holds a configuration field (Table 84). -/
def ringWordIndex : RingField → Nat
  | .baseCell => 0
  | .size => 1

/-- RING_CONFIG_WRITE (R85). -/
def execRingConfigWrite (r : RingId) (field : RingField) (value : Word) (s : State) :
    Host.Outcome State Fault Refusal :=
  .next (present (.ring r (ringWordIndex field)) (· == value) (writeRingConfig r field value) s)

/-- RULE_COMMIT (R27). -/
def execRuleCommit (value : Word) (s : State) : Host.Outcome State Fault Refusal :=
  .next (present .ruleCommit (· == value) (writeRuleCommit value) s)

/-- TEMPLATE_COMMIT (R35). -/
def execTemplateCommit (value : Word) (s : State) : Host.Outcome State Fault Refusal :=
  .next (present .templateCommit (· == value) (writeTemplateCommit value) s)

/-- ENTRY_SELECT (R57). -/
def execEntrySelect (value : Word) (s : State) : Host.Outcome State Fault Refusal :=
  .next (present .entrySelect (· == value) (writeEntrySelect value) s)

/-- CLOSE_ENTRY (R60). -/
def execCloseEntry (value : Word) (s : State) : Host.Outcome State Fault Refusal :=
  .next (present .closeEntry (· == value) (writeCloseEntry value) s)

/-- ACTIVATE (R86). -/
def execActivate (r : RingId) (s : State) : Host.Outcome State Fault Refusal :=
  .next (present (.ring r 2) (fun _ => true) (writeActivate r) s)

/-- DEACTIVATE (R87). -/
def execDeactivate (r : RingId) (s : State) : Host.Outcome State Fault Refusal :=
  .next (present (.ring r 3) (fun _ => true) (writeDeactivate r) s)

/-- SESSION_ENABLE_ON (R120). -/
def execSessionEnableOn (s : State) : Host.Outcome State Fault Refusal :=
  .next (present (.setting .sessionEnable) (· == 1) (writeSetting .sessionEnable 1) s)

/-- SESSION_ENABLE_OFF (R121). -/
def execSessionEnableOff (s : State) : Host.Outcome State Fault Refusal :=
  .next (present (.setting .sessionEnable) (· == 0) (writeSetting .sessionEnable 0) s)

/-- SOFT_RESET (R150). The command that carries it, if one stands at the word, has left the queue. -/
def execSoftReset (s : State) : Host.Outcome State Fault Refusal :=
  .next (present .control (controlCode 1) (fun s => (softReset s, .ok)) s)

/-- SWAP_BANKS (R29). -/
def execSwapBanks (s : State) : Host.Outcome State Fault Refusal :=
  .next (present .control (controlCode 2) (fun s => (s.setCls s.cls.swap, .ok)) s)

/-- Whether a Control word is the Flush of a selector and an argument (R157). -/
def flushWord (selector : BitVec 2) (argument : BitVec 8) (v : Word) : Bool :=
  controlCode 3 v && v.extractLsb' 8 2 == selector && v.extractLsb' 16 8 == argument

/-- FLUSH (R75). -/
def execFlush (selector : BitVec 2) (argument : BitVec 8) (s : State) : Host.Outcome State Fault Refusal :=
  .next (present .control (flushWord selector argument) (startFlush selector argument) s)

/-- CLEAR_TABLE (R79). -/
def execClearTable (s : State) : Host.Outcome State Fault Refusal :=
  .next (present .control (controlCode 4) startClear s)

/-- SESSION_RESTART (R122). -/
def execSessionRestart (s : State) : Host.Outcome State Fault Refusal :=
  .next (present .control (controlCode 5) restartSession s)

/-- REPORT_NOW (R109). -/
def execReportNow (s : State) : Host.Outcome State Fault Refusal :=
  .next (present .control (controlCode 6) reportNow s)

/-- CLEAR_COUNTERS (R158). -/
def execClearCounters (s : State) : Host.Outcome State Fault Refusal :=
  .next (present .control (controlCode 7) (fun s => (clearCounters s, .ok)) s)

end Sys2Proof.Machine
end

