-- ==== Sys2Proof/Machine/Dispatch.lean ====
section
/-!
DEFINITION. The dispatcher: one arm per constructor of Instr, each a direct call of the row's meaning.
-/

namespace Sys2Proof.Machine

/-- The effect of a command on everything but the queue of waiting commands. -/
def exec (i : Instr) (s : State) : Host.Outcome State Fault Refusal :=
  match i with
  | .resetNFall => Sys2Proof.Machine.execResetNFall s
  | .resetNRelease straps => Sys2Proof.Machine.execResetNRelease straps s
  | .uptimeTick => Sys2Proof.Machine.execUptimeTick s
  | .linkDown p => Sys2Proof.Machine.execLinkDown p s
  | .linkUp p => Sys2Proof.Machine.execLinkUp p s
  | .byteArrival p first b => Sys2Proof.Machine.execByteArrival p first b s
  | .frameEnd p aborted => Sys2Proof.Machine.execFrameEnd p aborted s
  | .frameEndUpdate p => Sys2Proof.Machine.execFrameEndUpdate p s
  | .captureCompletion p => Sys2Proof.Machine.execCaptureCompletion p s
  | .egressChoose p => Sys2Proof.Machine.execEgressChoose p s
  | .egressByteSent p => Sys2Proof.Machine.execEgressByteSent p s
  | .insertedFrameDone p => Sys2Proof.Machine.execInsertedFrameDone p s
  | .sweeperVisit => Sys2Proof.Machine.execSweeperVisit s
  | .flushBucketStep => Sys2Proof.Machine.execFlushBucketStep s
  | .flushResume => Sys2Proof.Machine.execFlushResume s
  | .clearBucketStep => Sys2Proof.Machine.execClearBucketStep s
  | .holdTimerExpiry => Sys2Proof.Machine.execHoldTimerExpiry s
  | .retransmitExpiryStarting => Sys2Proof.Machine.execRetransmitExpiryStarting s
  | .retransmitExpiryOpen => Sys2Proof.Machine.execRetransmitExpiryOpen s
  | .ackTaken p => Sys2Proof.Machine.execAckTaken p s
  | .takeCommandCopy p => Sys2Proof.Machine.execTakeCommandCopy p s
  | .beginCommand => Sys2Proof.Machine.execBeginCommand s
  | .setCursor addr => Sys2Proof.Machine.execSetCursor addr s
  | .moveCursor delta => Sys2Proof.Machine.execMoveCursor delta s
  | .write words => Sys2Proof.Machine.execWrite words s
  | .read count => Sys2Proof.Machine.execRead count s
  | .commandEnd => Sys2Proof.Machine.execCommandEnd s
  | .settingWrite offset value => Sys2Proof.Machine.execSettingWrite offset value s
  | .hashSeedWrite value => Sys2Proof.Machine.execHashSeedWrite value s
  | .ringConfigWrite r field value => Sys2Proof.Machine.execRingConfigWrite r field value s
  | .ruleCommit value => Sys2Proof.Machine.execRuleCommit value s
  | .templateCommit value => Sys2Proof.Machine.execTemplateCommit value s
  | .entrySelect value => Sys2Proof.Machine.execEntrySelect value s
  | .closeEntry value => Sys2Proof.Machine.execCloseEntry value s
  | .activate r => Sys2Proof.Machine.execActivate r s
  | .deactivate r => Sys2Proof.Machine.execDeactivate r s
  | .sessionEnableOn => Sys2Proof.Machine.execSessionEnableOn s
  | .sessionEnableOff => Sys2Proof.Machine.execSessionEnableOff s
  | .softReset => Sys2Proof.Machine.execSoftReset s
  | .swapBanks => Sys2Proof.Machine.execSwapBanks s
  | .flush selector argument => Sys2Proof.Machine.execFlush selector argument s
  | .clearTable => Sys2Proof.Machine.execClearTable s
  | .sessionRestart => Sys2Proof.Machine.execSessionRestart s
  | .reportNow => Sys2Proof.Machine.execReportNow s
  | .clearCounters => Sys2Proof.Machine.execClearCounters s

end Sys2Proof.Machine
end

