-- ==== Sys2Proof/Safety.lean ====
section
/-!
DEFINITION. What counts as a safe state of the block, in the terms the statements use: the laws that the manual states of
the whole machine, each a property of one state that every step keeps.
-/

namespace Sys2Proof.Machine

/-- Every step keeps a property of the state. -/
def KeptByStep (inv : State → Prop) : Prop := ∀ s t : State, inv s → step s = .next t → inv t

/-! ## The Record Queue (R103, R134) -/

/-- "The Record Queue holds at most 256 records, and every IN_REPORT record stands before every UNSENT record" (R103): the
zones are counts from the head, so the second part is that no more are IN_REPORT than are held. -/
def RecordQueueHeld (s : State) : Prop := s.rq.count ≤ 256 ∧ s.rq.inReport ≤ s.rq.count ∧ s.rq.head < 256

/-- "Records Appended, taken modulo 2^32, equals the number of records held in the Record Queue plus Records Exported plus
Records Discarded" (R134). -/
def RecordsConserved (s : State) : Prop :=
  s.rep.conservation.appended = word s.rq.count + s.rep.conservation.exported + s.rep.conservation.discarded

/-! ## The rings (R89, R99) -/

/-- The descriptors of a zone: `n` from position `i` on, counted modulo Size, all in state `st` (R89). -/
def Ring.ZoneIs (r : Ring) (i n : Nat) (st : DescState) : Prop := ∀ k, k < n → (r.desc ((i + k) % r.size)).state = st

/-- The captures among the `n` descriptors from position `i` on, one for each First (R88). -/
def Ring.capturesIn (r : Ring) (i n : Nat) : Nat :=
  ((List.range n).filter fun k => (r.desc ((i + k) % r.size)).first).length

/-- A ring's arrangement (R89): when it is active, "the zones IN_REPORT, FILLED, FILLING and FREE lie around the ring in that
order starting at the Release Index", their sizes sum to its Size, FILLING holds at most 4 descriptors, the Send and Fill
indices stand where the zones before them end, and its cells lie in the store; when it is inactive, it holds nothing and
every descriptor is FREE. FILLING belongs to the one capture being copied, whose first descriptor alone has First set, and none of which has Last set
before the capture completes (R90, R92). -/
def RingArranged (r : Ring) : Prop :=
  (r.active = true →
    r.inReport + r.filled + r.filling + r.free = r.size ∧ r.filling ≤ 4 ∧ r.release < r.size
      ∧ r.send = (r.release + r.inReport) % r.size ∧ r.fill = (r.send + r.filled) % r.size
      ∧ r.baseCell + r.size ≤ 2048
      ∧ r.ZoneIs r.release r.inReport .inReport ∧ r.ZoneIs r.send r.filled .filled
      ∧ r.ZoneIs r.fill r.filling .filling ∧ r.ZoneIs (r.fill + r.filling) r.free .free
      ∧ ∀ k, k < r.filling →
          ((r.desc ((r.fill + k) % r.size)).first = true ↔ k = 0) ∧ (r.desc ((r.fill + k) % r.size)).last = false)
    ∧ (r.active = false → r.inReport = 0 ∧ r.filled = 0 ∧ r.filling = 0 ∧ r.free = 0 ∧ r.capture = none
        ∧ ∀ i, (r.desc i).state = .free)
    ∧ (r.filling = match r.capture with
        | some f => descriptorsOf f.slice
        | none => 0)
    ∧ (∀ f, r.capture = some f → 1 ≤ f.slice)
    ∧ 0 < r.size

/-- "Captures Completed equals the captures it holds in FILLED and IN_REPORT, plus Captures Exported, plus Captures
Discarded, modulo 2^32" (R99). The captures held are the Firsts of the two zones, which lie one after the other. -/
def CapturesConserved (r : Ring) : Prop :=
  r.counters.completed = word (r.capturesIn r.release (r.inReport + r.filled)) + r.counters.exported + r.counters.discarded

/-- A frame-end notice on its way is that of a frame of 16 bytes or more (R3, R7). -/
def NoticesAreWhole (s : State) : Prop :=
  ∀ p, (∀ n ∈ (s.port p).flowNotices, 16 ≤ n.length) ∧ ∀ x ∈ (s.port p).captureNotices, 16 ≤ x.1.length

/-- No committed rule has a Capture Slice above 256 (check 3 of Table 16). -/
def SlicesLegal (s : State) : Prop := ∀ i, (s.cls.bank0.rule i).slice ≤ 256 ∧ (s.cls.bank1.rule i).slice ≤ 256

/-- Every ring is arranged as R89 says, and its captures are conserved as R99 says. -/
def RingsArranged (s : State) : Prop :=
  (∀ r, RingArranged (s.ring r) ∧ CapturesConserved (s.ring r)) ∧ SlicesLegal s ∧ NoticesAreWhole s

/-! ## The rule banks (R27) -/

/-- "Every valid rule in either bank names only defined templates and only active capture rings" (R27); rule 64 never
measures (check 2 of Table 16). -/
def RulesNameLiveTargets (s : State) : Prop :=
  ∀ b, (b = s.cls.bank0 ∨ b = s.cls.bank1) → ∀ i, (b.rule i).valid = true →
    ((b.rule i).action = .measure → i ≠ 64 ∧ (s.cls.template (b.rule i).template.toNat).defined = true)
      ∧ ((b.rule i).slice ≠ 0 →
          (b.rule i).ring.toNat < 4 ∧ (s.ring (Fin.ofNat 4 (b.rule i).ring.toNat)).active = true)

/-! ## The Flow Table (R42, R44, R47, R63) -/

/-- "Every ACTIVE flow entry lies in the bucket that its template number, direction field and key hash to under the current
Hash Seed" (R44); no two ACTIVE entries hold one flow (R47); Active Entries "stands at the number of ACTIVE entries"
(R63). -/
def FlowsInPlace (s : State) : Prop :=
  SMap.Sorted s.flow.entries
    ∧ (∀ i e, s.flow.entry i = some e → i / 4 = flowBucket s.flow.seed e.template e.dirField e.key)
    ∧ (∀ i j e f, s.flow.entry i = some e → s.flow.entry j = some f →
        e.template = f.template → e.dirField = f.dirField → e.key = f.key → i = j)
    ∧ s.flow.counters.activeEntries = word s.flow.entries.length

/-! ## The Report Engine (R108, R112, R113, R128) -/

/-- "The Outstanding List never holds more reports than the Window Size. Its sequence numbers are consecutive modulo 65536
from oldest to newest", the newest one below the next sequence (R112), all of the current session; the Report Egress Queue
"holds each report at most once, and holds only QUEUED reports" (R113), and every QUEUED one; in IDLE both are empty
(R106). -/
def ReportsInOrder (s : State) : Prop :=
  s.rep.outstanding.length ≤ s.rep.windowSize ∧ 1 ≤ s.rep.windowSize ∧ s.rep.windowSize ≤ 16
    ∧ (s.rep.session = .idle → s.rep.outstanding = [])
    ∧ (∀ i r, s.rep.outstanding[i]? = some r →
        r.session = s.rep.sessionNumber
          ∧ r.sequence = s.rep.nextSequence - BitVec.ofNat 16 (s.rep.outstanding.length - i)
          ∧ (r.state = .queued ↔ r.sequence ∈ s.rep.queue))
    ∧ s.rep.queue.Nodup
    ∧ (∀ q ∈ s.rep.queue, ∃ r ∈ s.rep.outstanding, r.sequence = q)

/-- "While the timer is RUNNING, the oldest outstanding report is SENT" (R128). -/
def TimerWatchesSent (s : State) : Prop :=
  s.rep.retransmit ≠ none → ∃ r rest, s.rep.outstanding = r :: rest ∧ r.state = .sent

/-- The Hold Timer runs, and a build request stands, only while there is material (R108). -/
def HoldMeansMaterial (s : State) : Prop := (s.rep.hold ≠ none ∨ s.rep.buildPending = true) → hasMaterial s = true

/-! ## Settings, queues, store -/

/-- Every setting word reads a legal value of Table 80. -/
def SettingsLegal (s : State) : Prop := ∀ k : Setting, k.legal (readSetting s k).toNat = true

/-- The Command Queue holds up to 2 commands (R139), each Response Queue up to 4 responses (R149), each Transit Buffer up to
16384 bytes (R10), and a command being executed stands in the Command Queue (R139). -/
def QueuesHeld (s : State) : Prop :=
  s.agent.queue.length ≤ 2 ∧ (∀ p, (s.port p).responses.length ≤ 4) ∧ (∀ p, bufferFill (s.port p).buffer ≤ 16384)
    ∧ (s.agent.walk ≠ none → s.agent.queue ≠ [])

/-- The Capture Store is in its canonical form. -/
def StoreCanonical (s : State) : Prop := Memory.wf s.cap.cells

/-! ## Changes of a ring's descriptors and bytes (R88, R91) -/

/-- From `g` to `h` the descriptors of a zone take a new state, and no descriptor changes otherwise. -/
def ZoneBecomes (g h : Ring) (i n : Nat) (st : DescState) : Prop :=
  (∀ k, k < n → h.desc ((i + k) % g.size) = { g.desc ((i + k) % g.size) with state := st })
    ∧ ∀ j, (∀ k, k < n → j ≠ (i + k) % g.size) → h.desc j = g.desc j

/-- The capture that ring `id` is filling takes received bytes (R91): as many of `bs` as its slice still has room for, each
into the next place of its cells, the Byte Count of the cell's descriptor rising by 1; no other byte of the store and no
other field changes. Stated of a ring whose capture fits it and the store. -/
def CopiesBytes (c d : CaptureEngine) (id : RingId) (bs : List Byte) : Prop :=
  let g := c.rings.get id
  ∀ f, g.capture = some f → f.slice ≤ 256 → 4 ≤ g.size → g.baseCell + g.size ≤ 2048 →
    let k := min bs.length (f.slice - f.copied)
    let cell : Nat → Nat := fun j => (g.fill + (f.copied + j) / 64) % g.size
    let place : Nat → Nat := fun j => 64 * (g.baseCell + cell j) + (f.copied + j) % 64
    (∀ j, j < k → d.readByte (place j) = bs.getD j 0)
      ∧ (∀ a, (∀ j, j < k → a ≠ place j) → d.readByte a = c.readByte a)
      ∧ (∀ i, (d.rings.get id).desc i = { g.desc i with
          byteCount := (g.desc i).byteCount + ((List.range k).filter fun j => cell j = i).length })
      ∧ d = { c with
          cells := d.cells
          rings := c.rings.set id { g with
            capture := some { f with copied := f.copied + k }, descriptors := (d.rings.get id).descriptors } }

/-! ## What follows at an egress (R13, R16) -/

/-- From `s` to `t` egress `p` closes the transit frame it sends, when every held byte of it is sent and its reception is
over (R13): the frame leaves its buffer, the line gets the ending that the reception gives, and the egress is idle. In
every other case nothing happens. -/
def Closes (p : Port) (s t : State) : Prop :=
  let done : HeldFrame → List HeldFrame → Prop := fun f rest =>
    (s.port p).egress = .transit ∧ (s.port p.other).buffer = f :: rest ∧ f.state = .sending ∧ f.held.length ≤ f.sent
      ∧ f.reception ≠ .isOpen
  (∀ f rest, done f rest →
      t = (s.setPort p.other { s.port p.other with buffer := rest }).setPort p { s.port p with
        egress := .idle
        line := (s.port p).line ++ [if f.reception = .endedNormally then .endNormal else .endAbort] })
    ∧ ((∀ f rest, ¬ done f rest) → t = s)

/-- What an egress leaves of the buffer that feeds it, and how many frames entered DISCARDING there (R16): while the link is
DOWN a READY head enters DISCARDING, its held bytes released; a head in DISCARDING leaves once its reception is over. -/
inductive Clears (link : Link) : List HeldFrame → List HeldFrame → Nat → Prop where
  | still {b : List HeldFrame} :
      (∀ f rest, b = f :: rest → (f.state = .ready → link = .up) ∧ (f.state = .discarding → f.reception = .isOpen)) →
      Clears link b b 0
  | discard {f : HeldFrame} {rest c : List HeldFrame} {n : Nat} : link = .down → f.state = .ready →
      Clears link ({ f with held := [], sent := 0, state := .discarding } :: rest) c n → Clears link (f :: rest) c (n + 1)
  | leave {f : HeldFrame} {rest c : List HeldFrame} {n : Nat} : f.state = .discarding → f.reception ≠ .isOpen →
      Clears link rest c n → Clears link (f :: rest) c n

/-- What follows at egress `p`, from `s` to `t`, when its buffer, its frame or its link has changed: it closes the frame that
it has sent whole, and clears the head of its buffer; each frame that enters DISCARDING counts in Egress Down (R13, R16). -/
def EgressSettles (p : Port) (s t : State) : Prop :=
  ∃ u b n, Closes p s u ∧ Clears (u.port p).link (u.port p.other).buffer b n
    ∧ t = (u.setPort p.other { u.port p.other with buffer := b }).setPort p { u.port p with
        counters := { (u.port p).counters with egressDown := (u.port p).counters.egressDown + word n } }

/-! ## A byte of a frame in reception (R4, R10, R12, R91) -/

/-- Ring `id` is filling the capture of the frame `r` that ingress `p` receives (R91). -/
def FillsCapture (s : State) (p : Port) (r : Reception) (id : RingId) : Prop :=
  r.capture = some id ∧ ∃ f, (s.ring id).capture = some f ∧ f.dir = directionIn p ∧ f.serial = r.serial

/-- What byte `b` of the frame `r` in reception makes of port `x`. One of the first 2048 goes to the tail of the frame's held
bytes while the copy is OPEN, in whatever state but DISCARDING; it cuts the copy, counted in Transit Overflow, when the
Transit Buffer is full (R12); and it is not stored when no copy takes it. The 2049th settles OVERSIZE unless an ending is
settled, and closes an OPEN copy (R4, notes/assumptions/11.md); a later one is only counted. -/
def ByteStored (r : Reception) (b : Byte) (x y : PortState) : Prop :=
  let r1 : Reception := { r with count := r.count + 1, bytes := r.bytes ++ [b] }
  (r.count < 2048 →
    (∀ before f, x.buffer = before ++ [f] → f.reception = .isOpen → f.state ≠ .discarding →
      (bufferFill x.buffer < 16384 →
        y = { x with rx := some r1, buffer := before ++ [{ f with held := f.held ++ [b] }] })
      ∧ (16384 ≤ bufferFill x.buffer →
        y = { x with
          rx := some { r1 with overflowed := true }
          buffer := before ++ [{ f with reception := .endedAborted }]
          counters := { x.counters with transitOverflow := x.counters.transitOverflow + 1 } }))
    ∧ ((∀ before f, x.buffer = before ++ [f] → f.reception ≠ .isOpen ∨ f.state = .discarding) →
        y = { x with rx := some r1 }))
  ∧ (r.count = 2048 →
      y = { x with rx := some { r with count := 2049, settled := some (r.settled.getD .oversize) }, buffer := y.buffer }
      ∧ (x.buffer = [] → y.buffer = [])
      ∧ ∀ before f, x.buffer = before ++ [f] →
          y.buffer = before ++ [if f.reception = .isOpen then { f with reception := .endedAborted } else f])
  ∧ (2048 < r.count → y = { x with rx := some { r with count := r.count + 1 } })

/-! ## A decision (R9, R11, R20, R25, R31, R32, R90) -/

/-- The decision at ingress `p` of a frame with all the bytes it is decided on, on state `s`: the Classifier and the Capture
Engine afterwards, the decision that travels with the frame, and the ring that reserved a capture of it. A management frame
is PASS, and so is every frame in BYPASS; nothing moves then. In RUN the chosen rule counts one hit; if it captures, its
sample countdown steps, and at 0 is reloaded and an attempt is made at the rule's ring, which copies the bytes received so
far when it reserves. -/
def Decides (p : Port) (r : Reception) (s : State) (c : Classifier) (e : CaptureEngine) (d : Decision)
    (k : Option RingId) : Prop :=
  (r.kind ≠ none ∨ s.cls.mode = .bypass → c = s.cls ∧ e = s.cap ∧ k = none
    ∧ d = { action := .pass, rule := none, generation := s.cls.generation, template := none })
  ∧ (r.kind = none → s.cls.mode = .run →
    let i := s.cls.active.choose (directionIn p) r.bytes
    let m := s.cls.active.rule i
    let n := SMap.get 0 s.cls.countdowns i - 1
    let g : RingId := Fin.ofNat 4 m.ring.toNat
    let a := (s.ring g).attempt { ring := g, slice := m.slice, rule := i, generation := s.cls.generation,
                                  dir := directionIn p, serial := r.serial, uptime := s.time.uptime }
    d = { action := m.action, rule := some i, generation := s.cls.generation,
          template := if m.action = .measure then some m.template else none }
      ∧ c = { s.cls with hits := c.hits, countdowns := c.countdowns }
      ∧ (∀ j, SMap.get 0 c.hits j = SMap.get 0 s.cls.hits j + if j = i then 1 else 0)
      ∧ (∀ j, SMap.get 0 c.countdowns j
          = if j = i ∧ m.slice ≠ 0 then if n = 0 then m.ratio.toNat else n else SMap.get 0 s.cls.countdowns j)
      ∧ (m.slice = 0 ∨ n ≠ 0 → e = s.cap ∧ k = none)
      ∧ (m.slice ≠ 0 → n = 0 →
          (a.2 = false → k = none ∧ e = { s.cap with rings := s.cap.rings.set g a.1 })
            ∧ (a.2 = true → k = some g ∧ CopiesBytes { s.cap with rings := s.cap.rings.set g a.1 } e g r.bytes)))

/-- The buffer after the decision of the frame whose copy `f` stands behind the frames `before` (R11): the copy is READY, or
is discarded whole when the action is DROP or it holds fewer than 16 bytes. -/
def copyDecided (before : List HeldFrame) (f : HeldFrame) (a : Action) : List HeldFrame :=
  if a = .drop ∨ f.held.length < 16 then before else before ++ [{ f with action := some a, state := .ready }]

/-! ## The end of a frame (R2, R5, R7, R9, R17) -/

/-- The ingress ending of a frame of 16 bytes or more that ends on the line (Table 5). -/
def endingOf (r : Reception) (aborted : Bool) : Ending :=
  match r.settled with
  | some x => x
  | none => if aborted = false ∧ checkCorrect r.bytes = true then .good else .checkFailed

/-- The held copy of a frame that ends on the line (Table 8). -/
def copyEnded (f : HeldFrame) (aborted : Bool) : HeldFrame :=
  if f.reception = .isOpen then { f with reception := if aborted then .endedAborted else .endedNormally } else f

/-- The port when its frame `r` ends with `e`, decided `d`, but for the Transit Buffer: the frame is counted (R17), its notice
is issued (R7, R23), and a COMMAND that came in at an enabled port is copied to the Agent (R9). -/
def portEnded (p : Port) (x : PortState) (r : Reception) (e : Ending) (d : Option Decision) : PortState :=
  { x with
    rx := none
    counters := { x.counters with
      framesIn := x.counters.framesIn + 1, bytesIn := x.counters.bytesIn + word r.count
      oversize := x.counters.oversize + if e = .oversize then 1 else 0
      badCheck := x.counters.badCheck + if e = .checkFailed then 1 else 0
      truncated := x.counters.truncated + if e = .truncated then 1 else 0 }
    flowNotices := x.flowNotices ++
      [{ serial := r.serial, dir := directionIn p, length := r.count, ending := e, overflowed := r.overflowed,
         resetIntervened := r.resetIntervened, management := r.kind.isSome, decision := d, bytes := r.bytes }]
    commandCopies := x.commandCopies ++
      if r.kind = some .command ∧ maskEnables r.mask p = true then
        [{ bytes := r.bytes.take (r.count - 4), length := r.count, envLen := r.envLen, ending := e }]
      else [] }

/-- The frame `r` in reception at ingress `p`, no ACK, ends from `s` to `t` with ending `e`, `aborted` when it ends but by its
normal end. With fewer than 16 bytes it is a fragment: its held bytes are released, it is counted, no notice is issued and
nothing is decided (R3). A longer frame that was decided is counted and noticed, and its copy's reception ends, if a copy is
still held OPEN (R2, R7). One that was not is decided now, on all its bytes (R11). Then the opposite egress closes or clears
what is done. -/
def FrameEnds (p : Port) (r : Reception) (e : Ending) (aborted : Bool) (s t : State) : Prop :=
  let settles : State → Prop := fun u => EgressSettles p.other u t
  (∀ before f, r.count < 16 → (s.port p).buffer = before ++ [f] → f.state = .arriving →
    settles (s.setPort p { s.port p with
      rx := none, buffer := before,
      counters := { (s.port p).counters with
        framesIn := (s.port p).counters.framesIn + 1, bytesIn := (s.port p).counters.bytesIn + word r.count,
        fragments := (s.port p).counters.fragments + 1 } }))
  ∧ (∀ d, 16 ≤ r.count → r.decision = some d → r.kind ≠ some .ack →
    ((∀ f ∈ (s.port p).buffer, f.reception ≠ .isOpen) → settles (s.setPort p (portEnded p (s.port p) r e (some d))))
    ∧ ∀ before f, (s.port p).buffer = before ++ [f] →
        settles (s.setPort p { portEnded p (s.port p) r e (some d) with buffer := before ++ [copyEnded f aborted] }))
  ∧ ∀ before f, 16 ≤ r.count → r.decision = none → r.kind ≠ some .ack → (s.port p).buffer = before ++ [f] →
      f.state = .arriving →
      ∃ c x d k, Decides p r s c x d k ∧ settles (((s.setCls c).setCap x).setPort p
        (let y := portEnded p (s.port p) r e (some d)
        { y with
          buffer := copyDecided before (copyEnded f aborted) d.action
          counters := { y.counters with dropped := y.counters.dropped + if d.action = .drop then 1 else 0 } }))

/-- The ACK `r` in reception at ingress `p` ends from `s` to `t` with ending `e` (R9, R11, R169). When it ends GOOD on an enabled
port, long enough and for this unit, it is taken out of transit and handed to the Report Engine; otherwise it goes on as a
transit frame with action PASS. Either way it is counted, and its notice says that it is a management frame. -/
def AckEnds (p : Port) (r : Reception) (e : Ending) (aborted : Bool) (s t : State) : Prop :=
  ∀ before f, 16 ≤ r.count → r.decision = none → r.kind = some .ack → (s.port p).buffer = before ++ [f] →
    f.state = .arriving →
    let d : Decision := { action := .pass, rule := none, generation := s.cls.generation, template := none }
    let ended := portEnded p (s.port p) r e (some d)
    let consumed := maskEnables r.mask p = true ∧ e = .good ∧ r.envLen + 12 ≤ r.count
      ∧ (byteAt r.bytes (r.envLen + 3)).toNat = s.agent.unit.toNat
    let settles : PortState → Prop := fun x => EgressSettles p.other (s.setPort p x) t
    (consumed → settles { ended with
        buffer := before
        acks := (s.port p).acks ++
          [{ session := byteAt r.bytes (r.envLen + 4) ++ byteAt r.bytes (r.envLen + 5),
             sequence := byteAt r.bytes (r.envLen + 6) ++ byteAt r.bytes (r.envLen + 7) }] })
      ∧ (¬ consumed → settles { ended with buffer := copyDecided before (copyEnded f aborted) .pass })

/-! ## A link DOWN at an egress (R15, R16, R127) -/

/-- From `s` to `t` egress `p`, whose link is DOWN, stops what it sends, with an abort ending on the line. A transit frame is
counted in Egress Down and enters DISCARDING. A response is lost and counted. A report of the list, the oldest or a later one,
goes back to the head of the Report Egress Queue as QUEUED, and the Retransmit Timer is STOPPED when it is the oldest; a report
that has left the list is gone. -/
def CutsEgress (p : Port) (s t : State) : Prop :=
  let cut : PortState := { s.port p with egress := .idle, line := (s.port p).line ++ [.endAbort] }
  ((s.port p).egress = .idle → t = s)
  ∧ (∀ f rest, (s.port p).egress = .transit → (s.port p.other).buffer = f :: rest →
      t = (s.setPort p { cut with counters := { (s.port p).counters with
            egressDown := (s.port p).counters.egressDown + 1 } }).setPort p.other
          { s.port p.other with buffer := { f with held := [], sent := 0, state := .discarding } :: rest })
  ∧ (∀ bytes n, (s.port p).egress = .response bytes n →
      t = (s.setPort p cut).setAgent { s.agent with counters := { s.agent.counters with
        responseLost := s.agent.counters.responseLost + 1 } })
  ∧ ∀ x, (s.port p).egress = .report x →
      (x.gone = true → t = s.setPort p cut)
      ∧ (x.gone = false → ∀ older r newer, s.rep.outstanding = older ++ r :: newer → r.state = .sending →
          (∀ y ∈ older ++ newer, y.state ≠ .sending) →
          t = (s.setPort p cut).setRep { s.rep with
            outstanding := older ++ { r with state := .queued } :: newer, queue := r.sequence :: s.rep.queue
            retransmit := if older = [] then none else s.rep.retransmit })

/-! ## Builds (R107 to R111) -/

/-- The source an item came from. -/
def Item.source : Item → Source
  | .record _ _ => .records
  | .capture r _ _ _ => .ring r

/-- The items of all the material in the order in which the builder meets them (R110): round after round of the five
sources from the Next Start Source, each source giving its next item, a source with nothing left passed over. -/
def roundOrder (s : State) : List Item :=
  (List.range (allMaterial s).length).flatMap fun k => s.rep.nextStart.round.filterMap fun a => (sourceItems s a)[k]?

/-- The items of a report built in `s` (R107, R110): those the builder meets first, together at most the budget, up to the
first that does not fit or to the last there is. -/
def TakesItems (s : State) (items : List Item) : Prop :=
  ∃ left, roundOrder s = items ++ left ∧ (items.map Item.size).sum ≤ s.rep.sizeLimit - 65
    ∧ ∀ it more, left = it :: more → s.rep.sizeLimit - 65 < (items.map Item.size).sum + it.size

/-- One build from `s` to `t` (R111): the records taken become IN_REPORT, the captures taken become IN_REPORT in their rings
(R96), the report joins the Outstanding List and the Report Egress Queue at their tails, QUEUED, with the next sequence,
the Next Start Source moves on, the request is cleared, and the Hold Timer changes as R108 gives for a build. No more
descriptors are taken than are FILLED (notes/assumptions/21.md). -/
def IsBuilt (s t : State) : Prop :=
  ∃ items, TakesItems s items
    ∧ (let n : RingId → Nat := fun g => min (ringDescriptors items g) (s.ring g).filled
      t.rq = { s.rq with inReport := s.rq.inReport + recordItems items }
      ∧ (∀ g, ZoneBecomes (s.ring g) (t.ring g) (s.ring g).send (n g) .inReport
          ∧ t.ring g = { s.ring g with
              send := ((s.ring g).send + n g) % (s.ring g).size, inReport := (s.ring g).inReport + n g,
              filled := (s.ring g).filled - n g, descriptors := (t.ring g).descriptors })
      ∧ t.rep = { s.rep with
          outstanding := s.rep.outstanding ++
            [{ session := s.rep.sessionNumber, sequence := s.rep.nextSequence, start := false, items := items,
               recordCount := recordItems items, captureCount := items.length - recordItems items,
               itemsSize := (items.map Item.size).sum, state := .queued }]
          queue := s.rep.queue ++ [s.rep.nextSequence]
          nextSequence := s.rep.nextSequence + 1
          nextStart := s.rep.nextStart.next
          buildPending := false
          hold := if hasMaterial t then some (s.rep.hold.getD (s.time.uptime + word s.rep.holdTime)) else none }
      ∧ t = { s with rq := t.rq, cap := { s.cap with rings := t.cap.rings }, rep := t.rep })

/-- The Report Engine builds in `s` (R109): a build is allowed, material exists, and the fill condition holds or a build
request is pending. -/
def BuildIsDue (s : State) : Prop :=
  s.rep.session = .opened ∧ s.rep.outstanding.length < s.rep.windowSize ∧ hasMaterial s = true
    ∧ (s.rep.buildPending = true ∨ s.rep.sizeLimit - 65 ≤ ((allMaterial s).map Item.size).sum)

/-- What the Report Engine makes of `s` when it tests R109: report after report while a build is due. -/
inductive Builds : State → State → Prop where
  | still {s : State} : ¬ BuildIsDue s → Builds s s
  | build {s u t : State} : BuildIsDue s → IsBuilt s u → Builds u t → Builds s t

/-- The Hold Timer of `s` after material has come (R108): it starts when there was none, the timer is STOPPED and no build
request is pending. -/
def holdStarted (s : State) : Option Word :=
  if hasMaterial s = false ∧ s.rep.hold = none ∧ s.rep.buildPending = false then
    some (s.time.uptime + word s.rep.holdTime)
  else s.rep.hold

/-- A record appended from `s` to `t` (R104): at the tail of the Record Queue, counted in Records Appended, with what
follows at the Hold Timer and the builder (R108, R109). -/
def Appends (r : FlowRecord) (s t : State) : Prop :=
  Builds { s with
    rq := { s.rq with slots := SMap.insert s.rq.slots ((s.rq.head + s.rq.count) % 256) r, count := s.rq.count + 1 }
    rep := { s.rep with
      conservation := { s.rep.conservation with appended := s.rep.conservation.appended + 1 }
      hold := holdStarted s } } t

/-- The record that an entry leaves (R80). -/
def recordOf (e : FlowEntry) (i : Nat) (reason : Reason) : FlowRecord :=
  { reason := reason, index := i, template := e.template, dirField := e.dirField, key := e.key, rule := e.rule,
    generation := e.generation, firstSeen := e.firstSeen, lastSeen := e.lastSeen, frames := e.frames, bytes := e.bytes,
    saturated := e.saturated, merged := e.merged }

/-- An entry closed from `s` to `t` (R53, R63): it is FREE, Active Entries falls by 1, and its record is appended. -/
def ClosesFlow (i : Nat) (e : FlowEntry) (reason : Reason) (s t : State) : Prop :=
  Appends (recordOf e i reason)
    { s with flow := { s.flow with
        entries := SMap.erase s.flow.entries i
        counters := { s.flow.counters with activeEntries := s.flow.counters.activeEntries - 1 } } } t

/-- One way at a visit of the Sweeper, from `s` to `t` (R70, R71, R72). -/
def VisitsWay (i : Nat) (s t : State) : Prop :=
  (s.flow.entry i = none → t = s)
    ∧ ∀ e, s.flow.entry i = some e →
      let idle := s.sweep.idleTimeout * 1000 ≤ (s.time.uptime - e.lastSeen).toNat
      let long := s.sweep.activeTimeout ≠ 0 ∧ s.sweep.activeTimeout * 1000 ≤ (s.time.uptime - e.firstSeen).toNat
      let c := s.sweep.counters
      let restarted : FlowEntry := { e with frames := 0, bytes := 0, saturated := false, firstSeen := s.time.uptime }
      (idle → s.rq.count < 256 → ∃ u, ClosesFlow i e .idle s u
          ∧ t = { u with sweep := { s.sweep with counters := { c with idleCloses := c.idleCloses + 1 } } })
        ∧ (¬ idle → long → s.rq.count < 256 → ∃ u,
            Appends (recordOf e i .active)
              { s with flow := { s.flow with entries := SMap.insert s.flow.entries i restarted } } u
            ∧ t = { u with sweep := { s.sweep with counters := { c with activeExports := c.activeExports + 1 } } })
        ∧ (idle ∨ long → 256 ≤ s.rq.count →
            t = { s with sweep := { s.sweep with counters := { c with sweepDeferred := c.sweepDeferred + 1 } } })
        ∧ (¬ idle → ¬ long → t = s)

/-- A Flush over the ways of bucket `b` from way `w` on, from `s` to `t` (R76, R77): a matching entry is closed with reason
FLUSHED and counted; with the Record Queue full the walk stalls at its way; past the last way it goes on to the next bucket,
DONE past bucket 4095. -/
inductive Flushes (b : Nat) : Nat → State → State → Prop where
  | past {s : State} : Flushes b 4 s { s with walker := { s.walker with
      way := 0, position := b + 1, state := if b = 4095 then .done else s.walker.state } }
  | pass {w : Nat} {s t : State} : w < 4 →
      (∀ e, s.flow.entry (4 * b + w) = some e → ¬ (s.walker.selector = .all
        ∨ (s.walker.selector = .byRule ∧ e.rule = s.walker.argument)
        ∨ (s.walker.selector = .byTemplate ∧ e.template.toNat = s.walker.argument))) →
      Flushes b (w + 1) s t → Flushes b w s t
  | close {w : Nat} {s u t : State} {e : FlowEntry} : w < 4 → s.flow.entry (4 * b + w) = some e →
      (s.walker.selector = .all ∨ (s.walker.selector = .byRule ∧ e.rule = s.walker.argument)
        ∨ (s.walker.selector = .byTemplate ∧ e.template.toNat = s.walker.argument)) →
      s.rq.count < 256 → ClosesFlow (4 * b + w) e .flushed s u →
      Flushes b (w + 1) { u with
        sweep := { s.sweep with counters := { s.sweep.counters with flushed := s.sweep.counters.flushed + 1 } }
        walker := { s.walker with count := s.walker.count + 1 } } t →
      Flushes b w s t
  | stall {w : Nat} {s : State} {e : FlowEntry} : w < 4 → s.flow.entry (4 * b + w) = some e →
      (s.walker.selector = .all ∨ (s.walker.selector = .byRule ∧ e.rule = s.walker.argument)
        ∨ (s.walker.selector = .byTemplate ∧ e.template.toNat = s.walker.argument)) →
      256 ≤ s.rq.count → Flushes b w s { s with walker := { s.walker with stalled := true, way := w } }

/-! ## The bytes of a report (R67, R114, R115, R166, R170) -/

/-- The next byte `b` of report `x`, sent by egress `p` as symbol `n` of its line, and the bytes of its field still to go: the
rest of the field being sent; else the next byte of the head; else the first of the next field of the items as the stores
now stand; else the next byte of the frame check. An item's field is formed whole (notes/assumptions/26.md). -/
def NextByte (s : State) (p : Port) (n : Nat) (x : ReportTx) (b : Byte) (more : List Byte) : Prop :=
  let k := x.pos - x.head.length
  (∀ c m, x.field = c :: m → b = c ∧ more = m)
    ∧ (x.field = [] →
      (x.pos < x.head.length → b = x.head.getD x.pos 0 ∧ more = [])
        ∧ (x.head.length ≤ x.pos → k < x.report.itemsSize → ∀ pre c m post,
            x.report.items.flatMap (Item.fields s fun j => Config.absentField s.cap.epoch p (n + j))
              = pre ++ (c :: m) :: post →
            pre.flatten.length = k → b = c ∧ more = m)
        ∧ (x.head.length + x.report.itemsSize ≤ x.pos →
            b = (be32 (~~~ x.crc)).getD (k - x.report.itemsSize) 0 ∧ more = []))

/-- The transmission after that byte: every byte before the check enters the frame check register (R166). -/
def byteProduced (x : ReportTx) (b : Byte) (more : List Byte) : ReportTx :=
  { x with
    pos := x.pos + 1
    crc := if x.pos < x.head.length + x.report.itemsSize then crc32 x.crc [b] else x.crc
    field := more }

/-- All the bytes still to go of report `x`, each produced in its turn, the first as symbol `n` of the line. -/
inductive Produces (s : State) (p : Port) : Nat → ReportTx → List Byte → Prop where
  | done {n : Nat} {x : ReportTx} : x.head.length + x.report.itemsSize + 4 ≤ x.pos → Produces s p n x []
  | next {n : Nat} {x : ReportTx} {b : Byte} {more bs : List Byte} :
      x.pos < x.head.length + x.report.itemsSize + 4 → NextByte s p n x b more →
      Produces s p (n + 1) (byteProduced x b more) bs → Produces s p n x (b :: bs)

/-! ## A Release (R97, R105, R125, R126) -/

/-- A port's egress when every report has left the Outstanding List: a report being sent is marked, nothing else. -/
def egressLeftBehind (x : PortState) : PortState :=
  { x with egress := match x.egress with
      | .report t => .report { t with gone := true }
      | e => e }

/-- The `n` oldest reports released from `s` to `t`: their records removed from the head of the Record Queue and counted in
Records Exported, their captures freed at the Release Index of their rings and counted in Captures Exported, those QUEUED
withdrawn; the session is OPEN, Attempts 0, the Retransmit Timer set from the report that is now the oldest. No more is
removed than is IN_REPORT (notes/assumptions/21.md). -/
def Releases (n : Nat) (s t : State) : Prop :=
  let gone := s.rep.outstanding.take n
  let m := min (gone.map Report.recordCount).sum s.rq.inReport
  let k : RingId → Nat := fun g => min (gone.map fun r => ringDescriptors r.items g).sum (s.ring g).inReport
  t.rq = { s.rq with
      head := (s.rq.head + m) % 256, count := s.rq.count - m, inReport := s.rq.inReport - m }
    ∧ (∀ g, ZoneBecomes (s.ring g) (t.ring g) (s.ring g).release (k g) .free
        ∧ t.ring g = { s.ring g with
            release := ((s.ring g).release + k g) % (s.ring g).size, inReport := (s.ring g).inReport - k g,
            free := (s.ring g).free + k g, descriptors := (t.ring g).descriptors,
            counters := { (s.ring g).counters with
              exported := (s.ring g).counters.exported + word ((s.ring g).capturesIn (s.ring g).release (k g)) } })
    ∧ ((∃ r ∈ gone, r.state = .sending) → ∀ p, t.port p = egressLeftBehind (s.port p))
    ∧ ((∀ r ∈ gone, r.state ≠ .sending) → ∀ p, t.port p = s.port p)
    ∧ t.rep = { s.rep with
        session := .opened, outstanding := s.rep.outstanding.drop n, attempts := 0
        queue := s.rep.queue.filter fun q => q ∉ gone.map Report.sequence
        retransmit := match s.rep.outstanding.drop n with
          | x :: _ => if x.state = .sent then some (s.time.uptime + word s.rep.retransmitBase) else none
          | [] => none
        conservation := { s.rep.conservation with exported := s.rep.conservation.exported + word m }
        delivery := { s.rep.delivery with acks := s.rep.delivery.acks + 1 } }
    ∧ t = { s with portA := t.portA, portB := t.portB, rq := t.rq, cap := { s.cap with rings := t.cap.rings },
                   rep := t.rep }

/-! ## The words of a WRITE (R144, R146) -/

/-- The words of a WRITE from address `a` on, each that is mine written at its owner in cursor order, whatever results the
earlier ones had; the words that are not mine are passed over. With the results of the mine words. -/
def wordsWritten (unit : BitVec 5) : BitVec 24 → List Word → State → State × List WordResult
  | _, [], s => (s, [])
  | a, v :: rest, s =>
    match localOffset unit a with
    | none => wordsWritten unit (a + 1) rest s
    | some o =>
      let r := writeWord o v s
      let q := wordsWritten unit (a + 1) rest r.1
      (q.1, r.2 :: q.2)

/-! ## What the words of the local map read (Tables 78, 80, 82 to 84) -/

/-- A Bool as a bit. -/
def bitOf (b : Bool) : Nat := if b then 1 else 0

/-- R156, Table 80: each setting word reads the value stored. -/
def SettingsRead (s : State) : Prop :=
  let reads : BitVec 16 → Setting → Word → Prop := fun o k v =>
    decodeOffset o.toNat = .setting k ∧ readSetting s k = v ∧ readWord s o = (v, .ok)
  reads 0x0004 .mode (if s.cls.mode = .run then 1 else 0) ∧ reads 0x000D .timeOffset s.time.offset
    ∧ reads 0x0010 .hashSeed (s.flow.seed.setWidth 32)
    ∧ reads 0x0011 .evictPolicy (if s.flow.policy = .noEvict then 1 else 0)
    ∧ reads 0x0012 .idleTimeout (word s.sweep.idleTimeout) ∧ reads 0x0013 .activeTimeout (word s.sweep.activeTimeout)
    ∧ reads 0x0014 .sweepPeriod (word s.sweep.sweepPeriod) ∧ reads 0x0020 .highMark (word s.reach.highMark)
    ∧ reads 0x0021 .marker (s.reach.marker.setWidth 32) ∧ reads 0x0022 .envelopeLength (word s.reach.envLen)
    ∧ reads 0x0023 .portMask (s.reach.mask.setWidth 32)
    ∧ reads 0x0030 .sessionEnable (if s.rep.sessionEnable then 1 else 0)
    ∧ reads 0x0031 .reportPort (if s.rep.port = .B then 1 else 0) ∧ reads 0x0032 .windowSize (word s.rep.windowSize)
    ∧ reads 0x0033 .sizeLimit (word s.rep.sizeLimit) ∧ reads 0x0034 .holdTime (word s.rep.holdTime)
    ∧ reads 0x0035 .retransmitBase (word s.rep.retransmitBase) ∧ reads 0x0036 .retryLimit (word s.rep.retryLimit)

/-- R26, R34, R137, R157, R160: a staging or envelope word reads all that is stored in it, a commit word the value last
written to it, and the Control word 0. -/
def StagingRead (s : State) : Prop :=
  (∀ i, i < 16 → readWord s (BitVec.ofNat 16 (0x0200 + i)) = (SMap.get 0 s.cls.ruleStaging i, .ok))
    ∧ (∀ i, i < 4 → readWord s (BitVec.ofNat 16 (0x0211 + i)) = (SMap.get 0 s.cls.templateStaging i, .ok))
    ∧ (∀ i, i < 8 → readWord s (BitVec.ofNat 16 (0x0100 + i)) = (SMap.get 0 s.reach.responseEnvelope i, .ok)
        ∧ readWord s (BitVec.ofNat 16 (0x0108 + i)) = (SMap.get 0 s.reach.reportEnvelope i, .ok))
    ∧ readWord s 0x0210 = (s.cls.ruleCommit, .ok) ∧ readWord s 0x0215 = (s.cls.templateCommit, .ok)
    ∧ readWord s 0x0008 = (0, .ok)

/-- R159, Table 82: the 16 words of a rule record. -/
def RuleReads (m : Rule) (read : Nat → Word) : Prop :=
  read 0 = word (2 ^ 31 * bitOf m.valid + match m.directions with | .ab => 1 | .ba => 2 | .both => 3)
    ∧ read 1 = word (2 ^ 8 * m.template.toNat + match m.action with | .pass => 0 | .measure => 1 | .drop => 2)
    ∧ (m.slice < 512 → read 2 = word (2 ^ 16 * m.ring.toNat + m.slice))
    ∧ read 3 = m.ratio
    ∧ ∀ k, k < 4 → read (4 + 3 * k) = word (2 ^ 31 * bitOf (m.term k).enabled + (m.term k).offset.toNat)
        ∧ read (5 + 3 * k) = (m.term k).mask ∧ read (6 + 3 * k) = (m.term k).value

/-- R159, R161, R162, Table 78: the bank views show the two banks in their present roles, rule 64 apart; the template view the
templates, each segment in its word with the flags in word 0; and the hit counters the rules of the active bank. -/
def ViewsRead (s : State) : Prop :=
  let at_ : Nat → Nat → Word := fun o i => (readWord s (BitVec.ofNat 16 (o + i))).1
  (∀ r, r < 64 → RuleReads (s.cls.active.rule r) (at_ (0x1000 + 16 * r))
      ∧ RuleReads (s.cls.shadow.rule r) (at_ (0x1400 + 16 * r)))
    ∧ RuleReads (s.cls.active.rule 64) (at_ 0x1820) ∧ RuleReads (s.cls.shadow.rule 64) (at_ 0x1830)
    ∧ (∀ t i, t < 8 → i < 4 →
        let m := s.cls.template t
        at_ (0x1800 + 4 * t) i = word ((if i = 0 then 2 ^ 31 * bitOf m.defined + 2 ^ 30 * bitOf m.merge else 0)
          + 2 ^ 16 * (m.seg i).offset.toNat + (m.seg i).length.toNat))
    ∧ (∀ i, i ≤ 64 → at_ 0x1840 i = SMap.get 0 s.cls.hits i)
    ∧ ∀ o, 0x1000 ≤ o → o ≤ 0x1880 → (readWord s (BitVec.ofNat 16 o)).2 = .ok

/-- R57, R58, R163, Table 83: Entry Select reads the index of the snapshot, the Entry View the snapshot, and Close Entry the
value last written to it. -/
def EntryReads (s : State) : Prop :=
  let w := s.flow.view
  let view : Nat → Word → Prop := fun i v => readWord s (BitVec.ofNat 16 (0x2001 + i)) = (v, .ok)
  readWord s 0x2000 = (word w.index, .ok) ∧ readWord s 0x2011 = (s.flow.closeEntry, .ok)
    ∧ view 15 w.time
    ∧ (w.entry = none → view 0 (word w.index) ∧ ∀ i, 1 ≤ i → i < 15 → view i 0)
    ∧ ∀ e, w.entry = some e →
        (w.index < 16384 → e.key.length ≤ 32 →
          view 0 (word (2 ^ 31 + 2 ^ 30 * bitOf e.saturated + 2 ^ 29 * bitOf e.merged
            + 2 ^ 28 * (match e.origin with | .ab => 0 | .ba => 1)
            + 2 ^ 26 * (match e.dirField with | .ab => 0 | .ba => 1 | .merged => 2)
            + 2 ^ 23 * e.template.toNat + 2 ^ 16 * e.key.length + w.index)))
        ∧ (e.rule ≤ 64 → view 1 (word (2 ^ 16 * e.rule + e.generation.toNat)))
        ∧ view 2 e.firstSeen ∧ view 3 e.lastSeen ∧ view 4 e.frames
        ∧ view 5 (word (e.bytes.toNat / 2 ^ 32)) ∧ view 6 (word (e.bytes.toNat % 2 ^ 32))
        ∧ ∀ j, j < 8 → view (7 + j) (e.key.getD (4 * j) 0 ++ e.key.getD (4 * j + 1) 0 ++ e.key.getD (4 * j + 2) 0
            ++ e.key.getD (4 * j + 3) 0)

/-- R164, Table 84: the words of each ring; Activate and Deactivate read 0, word 7 is UNMAPPED, and an inactive ring reads 0 in
words 4 to 6. -/
def RingsRead (s : State) : Prop :=
  ∀ r : RingId,
    let g := s.ring r
    let at_ : Nat → BitVec 16 := fun i => BitVec.ofNat 16 (0x3000 + 8 * r.val + i)
    let reads : Nat → Nat → Prop := fun i n => readWord s (at_ i) = (word n, .ok)
    reads 0 g.baseCell ∧ reads 1 g.size ∧ reads 2 0 ∧ reads 3 0 ∧ readWord s (at_ 7) = (0, .unmapped)
      ∧ (g.active = false → reads 4 0 ∧ reads 5 0 ∧ reads 6 0)
      ∧ (g.active = true → g.filling < 8 → g.free < 2048 → reads 4 (2 ^ 31 + 2 ^ 24 * g.filling + g.free))
      ∧ (g.active = true → g.release < 1024 → g.send < 1024 → g.fill < 1024 →
          reads 5 (2 ^ 20 * g.release + 2 ^ 10 * g.send + g.fill))
      ∧ (g.active = true → g.inReport < 2048 → g.filled < 2048 → reads 6 (2 ^ 16 * g.inReport + g.filled))

/-! ## What a session leaves behind (R98, R105, R113, R121, R123) -/

/-- Between `s` and `t` every outstanding report was discarded: its records removed from the head of the Record Queue, its
captures freed in their rings and counted in Captures Discarded. The descriptors freed keep their other fields, and every
other descriptor stands as it was, FILLED and FILLING captures with theirs (R88, R98). UNSENT records and every block but the
Report Engine stand as they were. The Report Engine is said by the rule that discards. -/
def WorkDiscarded (s t : State) : Prop :=
  t.rq = { s.rq with head := (s.rq.head + s.rq.inReport) % 256, count := s.rq.count - s.rq.inReport, inReport := 0 }
    ∧ (∀ r, ZoneBecomes (s.ring r) (t.ring r) (s.ring r).release (s.ring r).inReport .free
        ∧ t.ring r = { s.ring r with
            release := (s.ring r).send, inReport := 0, free := (s.ring r).free + (s.ring r).inReport,
            descriptors := (t.ring r).descriptors,
            counters := { (s.ring r).counters with
              discarded := (s.ring r).counters.discarded
                + word ((s.ring r).capturesIn (s.ring r).release (s.ring r).inReport) } })
    ∧ (∀ p, t.port p = egressLeftBehind (s.port p))
    ∧ t = { s with portA := t.portA, portB := t.portB, rq := t.rq, cap := { s.cap with rings := t.cap.rings },
                   rep := t.rep }

/-- The Start Report of a session (R120). -/
def IsStartReport (r : Report) (session : BitVec 16) : Prop :=
  r = { session := session, sequence := 0, start := true, items := [], recordCount := 0, captureCount := 0,
        itemsSize := 0, state := .queued }

/-- A session loss (R123). -/
def SessionLost (s t : State) : Prop :=
  WorkDiscarded s t
    ∧ ∃ r, IsStartReport r (s.rep.sessionNumber + 1)
      ∧ t.rep = { s.rep with
          session := .starting, sessionNumber := s.rep.sessionNumber + 1, nextSequence := 1, attempts := 0,
          retransmit := none, outstanding := [r], queue := [0],
          delivery := { s.rep.delivery with sessionsLost := s.rep.delivery.sessionsLost + 1 },
          conservation := { s.rep.conservation with
            discarded := s.rep.conservation.discarded + word s.rq.inReport } }

end Sys2Proof.Machine
end

