-- ==== Sys2Proof/Certificates/Slice0/Obligations.lean ====
section
/-!
DEFINITION. The statements for the provers. A statement of a row gives the whole next state as a record update, so that it
says the row's effect and its frame at once. The rows that write one word of the local map are stated with
`noteTaken (standsAt …)`: what the Agent notes in its walk when it stands at that very word; `WordRowIsTheWriteOp` says
that such a row and the WRITE op's taking of the word are one.
-/

open Sys2Proof Sys2Proof.Machine

/-! ## The step -/

/-- A step runs the command at the front of the queue on the state with the queue's rest; on an empty queue the block
idles. The model's own convention (notes/assumptions/4.md). -/
def Obligations.StepRunsFront : Prop :=
  (∀ (c : Instr) (rest : List Instr) (s : State), step (s.setPending (c :: rest)) = exec c (s.setPending rest))
    ∧ ∀ s : State, s.pending = [] → step s = .next s

/-- Every command, on every state, answers a next state, and leaves the queue of waiting commands as it is. That a row whose
happening cannot happen answers the same state is the model's choice (notes/assumptions/4.md), and so is that every row,
RESET_N_RELEASE included, keeps the waiting commands (notes/assumptions/20.md). -/
def Obligations.EveryCommandCompletes : Prop :=
  ∀ (c : Instr) (s : State), ∃ t, exec c s = .next t ∧ t.pending = s.pending

/-! ## Laws of the whole machine -/

/-- R103 and R134: the Record Queue holds at most 256 records, and every record appended is held, exported or discarded. -/
def Obligations.RecordsAreConserved : Prop := KeptByStep fun s => RecordQueueHeld s ∧ RecordsConserved s

/-- R89, R99, R88: every step keeps the arrangement of every ring, the state of each descriptor in its zone with it, First in
the first descriptor of FILLING alone and Last in none of FILLING, and the conservation of its captures. Along with them stand what they rest on: legal Capture Slices, and no notice of a frame
shorter than 16 bytes. That First is cleared in the later descriptors at the reservation is read from the manual in
notes/assumptions/15.md. -/
def Obligations.RingsStayArranged : Prop := KeptByStep RingsArranged

/-- R44, R47, R63: every step keeps each flow in the bucket of its hash, no flow twice, and Active Entries their number. -/
def Obligations.FlowsStayInPlace : Prop := KeptByStep FlowsInPlace

/-- R112, R113: every step keeps the Outstanding List in its window and in sequence, and the Report Egress Queue its QUEUED
reports. -/
def Obligations.ReportsStayInOrder : Prop := KeptByStep ReportsInOrder

/-- R128, R108: at every step a running Retransmit Timer watches a SENT report, and a running Hold Timer or a pending build
request has material. -/
def Obligations.TimersKeepTheirMeaning : Prop := KeptByStep TimerWatchesSent ∧ KeptByStep HoldMeansMaterial

/-- R27: every step keeps valid rules naming defined templates and active rings only. -/
def Obligations.RulesKeepLiveTargets : Prop := KeptByStep RulesNameLiveTargets

/-- R156: every step keeps every setting inside Table 80. -/
def Obligations.SettingsStayLegal : Prop := KeptByStep SettingsLegal

/-- R10, R139, R149: every step keeps the Transit Buffers, the Command Queue and the Response Queues within their sizes, and
the Capture Store's canonical form. -/
def Obligations.QueuesAndStoreStayHeld : Prop := KeptByStep QueuesHeld ∧ KeptByStep StoreCanonical

/-- The state after reset meets every law above, and so does the block at a release of RESET_N with any straps and any
link states. That State.reset has straps 0 and both links DOWN is the model's choice (notes/assumptions/3.md). -/
def Obligations.ResetMeetsTheLaws : Prop :=
  ∀ s : State, (s = State.reset ∨ ∃ (unit : BitVec 5) (a b : Link) (epoch : Nat), s = State.powerUp unit a b epoch) →
    RecordQueueHeld s ∧ RecordsConserved s ∧ RingsArranged s ∧ RulesNameLiveTargets s ∧ FlowsInPlace s
      ∧ ReportsInOrder s ∧ TimerWatchesSent s ∧ HoldMeansMaterial s ∧ SettingsLegal s ∧ QueuesHeld s
      ∧ StoreCanonical s

/-! ## RESET_N, Uptime, links -/

/-- R18, R1: a fall of RESET_N cuts what each egress sends with an abort ending and abandons what each ingress receives with
no notice; every other piece of state is kept until the release. That a second fall changes nothing is the model's choice
(notes/assumptions/4.md). -/
def Obligations.ResetFallCutsTheLine : Prop :=
  let halted : PortState → PortState := fun x =>
    { x with egress := .idle, rx := none, line := if x.egress = .idle then x.line else x.line ++ [.endAbort] }
  (∀ s : State, s.resetN = true →
      exec .resetNFall s = .next { s with resetN := false, portA := halted s.portA, portB := halted s.portB })
    ∧ ∀ s : State, s.resetN = false → exec .resetNFall s = .next s

/-- R64: the Flow Table at the release of RESET_N. -/
def Obligations.ReleaseStartsTheFlowTable : Prop :=
  ∀ (u : BitVec 5) (s : State), s.resetN = false → ∃ t, exec (.resetNRelease u) s = .next t
    ∧ (∀ i, t.flow.entry i = none) ∧ t.flow.seed = 0xFFFF ∧ t.flow.policy = .evictOldest
    ∧ t.flow.counters = { activeEntries := 0, inserts := 0, evictions := 0, untrackedFull := 0, untrackedQueue := 0,
                          keyShort := 0 }
    ∧ t.flow.view.index = 0 ∧ (∀ i < 16, t.flow.view.viewWord i = 0) ∧ t.flow.closeEntry = 0
    ∧ t.rep.conservation.appended = 0 ∧ t.rq.count = 0

/-- R83: the Time block, the Sweeper and the walker at the release of RESET_N. -/
def Obligations.ReleaseStartsTimeAndWalk : Prop :=
  ∀ (u : BitVec 5) (s : State), s.resetN = false → ∃ t, exec (.resetNRelease u) s = .next t
    ∧ t.time.uptime = 0 ∧ t.time.offset = 0
    ∧ t.sweep.idleTimeout = 30 ∧ t.sweep.activeTimeout = 0 ∧ t.sweep.sweepPeriod = 4
    ∧ t.sweep.position = 0 ∧ t.sweep.passStart = 0 ∧ t.sweep.passLength = 4000 ∧ t.sweep.due t.now = true
    ∧ t.walker = { state := .idle, kind := .none, selector := .all, argument := 0, position := 0, way := 0,
                   stalled := false, count := 0, flushAborted := false }
    ∧ t.sweep.counters = { idleCloses := 0, activeExports := 0, sweepDeferred := 0, sweepPasses := 0, flushed := 0,
                           cleared := 0 }
    ∧ ∀ i, t.flow.entry i = none

/-- R117, R135, R18, R39, R40, R26, R34, R101, R143, R152, R153, the parts that speak of the release of RESET_N: the straps
are sampled, the line's links stand, and the Record Queue, the builder, the session, ports, Classifier with its banks,
countdowns and staging, rings and Agent start. That the row changes nothing with RESET_N high already is the model's choice
(notes/assumptions/4.md), and so is that the waiting commands are kept (notes/assumptions/20.md). -/
def Obligations.ReleaseStartsTheOtherBlocks : Prop :=
  (∀ (u : BitVec 5) (s : State), s.resetN = false → ∃ t, exec (.resetNRelease u) s = .next t
      ∧ t.rq = { slots := [], head := 0, count := 0, inReport := 0 }
      ∧ t.rep = { sessionEnable := false, port := .A, windowSize := 4, sizeLimit := 1024, holdTime := 200,
                  retransmitBase := 100, retryLimit := 5, session := .idle, sessionNumber := 0, nextSequence := 0,
                  attempts := 0, retransmit := none, outstanding := [], queue := [], hold := none, buildPending := false,
                  nextStart := .records,
                  delivery := { reportsSent := 0, retransmissions := 0, acks := 0, staleAcks := 0, badAcks := 0,
                                ackMismatch := 0, sessionsLost := 0 },
                  conservation := { appended := 0, exported := 0, discarded := 0 } }
      ∧ ∀ v, exec .sessionEnableOn t = .next v → v.rep.sessionNumber = 1)
  ∧ (∀ (u : BitVec 5) (s : State), s.resetN = false → ∃ t, exec (.resetNRelease u) s = .next t
        ∧ t.resetN = true ∧ t.agent.unit = u ∧ t.agent.queue = [] ∧ t.agent.walk = none
        ∧ t.agent.counters = { commandsQueued := 0, badCheck := 0, overrun := 0, malformed := 0, responsesQueued := 0,
                               responseLost := 0 }
        ∧ (∀ p, (t.port p).link = (s.port p).link ∧ (t.port p).rx = none ∧ (t.port p).buffer = []
            ∧ (t.port p).egress = .idle ∧ (t.port p).lastKind = .transit ∧ (t.port p).responses = []
            ∧ (t.port p).counters.list = List.replicate 10 0)
        ∧ t.reach = { highMark := 8192, marker := 0xB7C4, envLen := 0, mask := 3, responseEnvelope := [],
                      reportEnvelope := [] }
        ∧ t.cls.mode = .bypass ∧ t.cls.activeBank = false ∧ t.cls.generation = 0
        ∧ (∀ b, (b = t.cls.bank0 ∨ b = t.cls.bank1) →
            let off : Term := { enabled := false, offset := 0, mask := 0, value := 0 }
            (∀ i, i < 64 → b.rule i =
              { valid := false, directions := .both, term0 := off, term1 := off, term2 := off, term3 := off,
                action := .pass, template := 0, slice := 0, ring := 0, ratio := 1 })
              ∧ (b.rule 64).valid = true ∧ (b.rule 64).directions = .both ∧ (∀ k, ((b.rule 64).term k).enabled = false)
              ∧ (b.rule 64).action = .pass ∧ (b.rule 64).slice = 0 ∧ (b.rule 64).ring = 0 ∧ (b.rule 64).ratio = 1)
        ∧ (∀ i, SMap.get 0 t.cls.countdowns i = 0 ∧ SMap.get 0 t.cls.hits i = 0)
        ∧ (∀ i, (t.cls.template i).defined = false ∧ (t.cls.template i).merge = false
            ∧ ∀ k, (t.cls.template i).seg k = { offset := 0, length := 0 })
        ∧ (∀ i, stagingWord t.cls.ruleStaging i = if i = 0 then 3 else if i = 3 then 1 else 0)
        ∧ (∀ i, stagingWord t.cls.templateStaging i = 0)
        ∧ (∀ r : RingId, t.ring r =
            { active := false, baseCell := r.val * 512, size := 512, release := 0, send := 0, fill := 0,
              inReport := 0, filled := 0, filling := 0, free := 0, descriptors := [], capture := none,
              counters := { completed := 0, ringBusy := 0, ringFull := 0, exported := 0, discarded := 0 } })
        ∧ t.pending = s.pending)
      ∧ ∀ (u : BitVec 5) (s : State), s.resetN = true → exec (.resetNRelease u) s = .next s

/-- R66, R1: Uptime advances by 1 modulo 2^32 at a tick; a link UP changes the port's link state. Nothing else changes: that
a tick fires no expiry and no visit is read from the table of steps (notes/assumptions/23.md), and that a link UP makes no
choice of the Egress Merge, where R14 has it choose at that moment, is the model's choice (notes/assumptions/8.md). -/
def Obligations.TickAndLinkUp : Prop :=
  (∀ s : State, exec .uptimeTick s = .next { s with time := { s.time with uptime := s.time.uptime + 1 } })
    ∧ ∀ (p : Port) (s : State), exec (.linkUp p) s = .next (s.setPort p { s.port p with link := .up })

/-- R15, R16, R127, R18: a link DOWN, of a port that receives nothing, stops what its egress sends, with an abort ending on the
line: a transit frame is counted in Egress Down and enters DISCARDING, a response is lost and counted, a report of the list
goes back to the head of the Report Egress Queue. Then READY frames at the head of its buffer enter DISCARDING. While RESET_N
is low only the link state changes; what a port already DOWN does is notes/assumptions/4.md. -/
def Obligations.LinkDownCutsTheEgress : Prop :=
  ∀ (p : Port) (s : State),
    ((s.port p).link = .down → exec (.linkDown p) s = .next s)
    ∧ ((s.port p).link = .up → s.resetN = false →
        exec (.linkDown p) s = .next (s.setPort p { s.port p with link := .down }))
    ∧ (s.resetN = true → (s.port p).link = .up → (s.port p).rx = none →
      ∃ u t, CutsEgress p (s.setPort p { s.port p with link := .down }) u ∧ EgressSettles p u t
        ∧ exec (.linkDown p) s = .next t)

/-- R6, R2, R3, R4, R7, R9, R11, R15, R16, R17: a link DOWN ends the frame that the port receives, whatever its copy is and
whatever stands at either egress. A frame of fewer than 16 bytes is a fragment. A longer one ends as TRUNCATED, unless OVERSIZE
is settled: its copy ENDED ABORTED, the frame counted, its notice issued, a COMMAND copied to the Agent; when it has no decision
it is decided now, on the bytes that arrived; an ACK is not consumed. Then the egress of the port stops and settles as at any
link DOWN. That the frame ends here as OVERSIZE too is read from the manual in notes/assumptions/11.md; the hand-over queues
are the model's (notes/assumptions/5.md). -/
def Obligations.LinkDownTruncates : Prop :=
  ∀ (p : Port) (s : State) (r : Reception),
    s.resetN = true → (s.port p).link = .up → (s.port p).rx = some r →
    let e : Ending := r.settled.getD .truncated
    let down := s.setPort p { s.port p with link := .down }
    ∃ u v t, FrameEnds p r e true down u ∧ AckEnds p r e true down u ∧ CutsEgress p u v ∧ EgressSettles p v t
      ∧ exec (.linkDown p) s = .next t

/-! ## Bytes and frames at an ingress -/

/-- R4, R10, R12: a byte of a frame in reception that is not its decision point and goes into no capture: what `ByteStored`
says it does to its port, and nothing else. Then the opposite egress closes or clears what is done. That an OPEN copy closes at
the 2049th byte is read from the manual in notes/assumptions/11.md; that a byte marked as the first of a frame counts as one
more of the frame in reception is notes/assumptions/10.md. -/
def Obligations.ByteIsStoredOrCuts : Prop :=
  ∀ (p : Port) (first : Bool) (b : Byte) (s : State) (r : Reception),
    s.resetN = true → (s.port p).link = .up → (s.port p).rx = some r → (∀ id, ¬ FillsCapture s p r id) →
    ¬ (r.count = 127 ∧ r.decision = none
      ∧ ({ r with count := 128, bytes := r.bytes ++ [b] } : Reception).kind ≠ some .ack) →
    ∃ x t, ByteStored r b (s.port p) x ∧ EgressSettles p.other (s.setPort p x) t
      ∧ exec (.byteArrival p first b) s = .next t

/-- R10, R8, R12: the first byte of a frame opens its reception, with the reach settings in force at that byte, and its copy
behind the frames that wait in the Transit Buffer: the byte is stored when there is room, and cuts the frame when there is
none, its copy left with 0 bytes. Then the opposite egress closes or clears what is done. While the port is DOWN, while RESET_N
is low, and for a frame already under way when it came UP, bytes are ignored (R1, R18). How a byte says that it begins a frame
is notes/assumptions/10.md. -/
def Obligations.ByteBeginsAFrame : Prop :=
  (∀ (p : Port) (b : Byte) (s : State),
      s.resetN = true → (s.port p).link = .up → (s.port p).rx = none →
      let r : Reception :=
        { serial := (s.port p).serial, bytes := [b], count := 1, envLen := s.reach.envLen, marker := s.reach.marker,
          mask := s.reach.mask, settled := none, overflowed := false, resetIntervened := false, decision := none,
          capture := none }
      let f : HeldFrame := { held := [b], sent := 0, action := none, reception := .isOpen, state := .arriving }
      let settles : PortState → Prop := fun x =>
        ∃ t, exec (.byteArrival p true b) s = .next t ∧ EgressSettles p.other (s.setPort p x) t
      (bufferFill (s.port p).buffer < 16384 → settles { s.port p with
        serial := (s.port p).serial + 1, rx := some r, buffer := (s.port p).buffer ++ [f] })
      ∧ (16384 ≤ bufferFill (s.port p).buffer → settles { s.port p with
        serial := (s.port p).serial + 1
        rx := some { r with overflowed := true }
        buffer := (s.port p).buffer ++ [{ f with held := [], reception := .endedAborted }]
        counters := { (s.port p).counters with transitOverflow := (s.port p).counters.transitOverflow + 1 } })
      ∧ ((s.port p).buffer = [] → exec (.byteArrival p true b) s = .next (s.setPort p { s.port p with
          serial := (s.port p).serial + 1, rx := some r, buffer := [f] })))
    ∧ (∀ (p : Port) (first : Bool) (b : Byte) (s : State),
        s.resetN = false ∨ (s.port p).link = .down → exec (.byteArrival p first b) s = .next s)
    ∧ ∀ (p : Port) (b : Byte) (s : State), (s.port p).rx = none → exec (.byteArrival p false b) s = .next s

/-- R9, R11, R12, R20, R25, R31, R32, R90: at its 128th byte a frame that is no ACK is decided, on all the bytes received: a
management frame is PASS, in BYPASS every frame is PASS with no rule, and in RUN the chosen rule counts its hit, steps its
sample countdown and makes its capture attempt. The byte is stored first, or cuts the frame when it meets a full Transit
Buffer, as any other byte; then the copy is READY, or is discarded whole, DROP counted in Dropped; and the opposite egress
closes or clears what is done. That a byte marked as the first of a frame counts as one more of the frame in reception is
notes/assumptions/10.md. -/
def Obligations.DecisionAtByte128 : Prop :=
  ∀ (p : Port) (first : Bool) (b : Byte) (s : State) (r : Reception) (before : List HeldFrame) (f : HeldFrame),
    s.resetN = true → (s.port p).link = .up → (s.port p).rx = some r → r.count = 127 → r.decision = none →
    r.capture = none → (s.port p).buffer = before ++ [f] → f.state = .arriving →
    let r1 : Reception := { r with count := 128, bytes := r.bytes ++ [b] }
    r1.kind ≠ some .ack →
    ∃ x g c e d k t, ByteStored r b (s.port p) x ∧ x.buffer = before ++ [g] ∧ Decides p r1 s c e d k
      ∧ EgressSettles p.other (((s.setCls c).setCap e).setPort p { x with
          rx := x.rx.map fun y => { y with decision := some d, capture := k }
          buffer := copyDecided before g d.action
          counters := { x.counters with
            dropped := x.counters.dropped + if d.action = .drop then 1 else 0 } }) t
      ∧ exec (.byteArrival p first b) s = .next t

/-- R24, R25: the rule a bank chooses is the matching rule of lowest index, and rule 64 when none of rules 0–63 matches. A rule
matches when it is valid, its Directions include the frame's, and each of its terms matches: a term that is not enabled or
has Mask 0 always does; another does when its four bytes are all among those read and, the first the most significant, agree
with Value under Mask. -/
def Obligations.LowestMatchingRule : Prop :=
  (∀ (b : Bank) (dir : Direction) (bytes : List Byte), SMap.Sorted b.rules → (∀ x ∈ b.rules, x.1 < 64) →
      (∀ i, i < 64 → b.choose dir bytes = i →
        (b.rule i).matchesFrame dir bytes = true ∧ ∀ j, j < i → (b.rule j).matchesFrame dir bytes = false)
      ∧ (b.choose dir bytes = 64 ↔ ∀ j, j < 64 → (b.rule j).matchesFrame dir bytes = false)
      ∧ b.choose dir bytes ≤ 64)
    ∧ ∀ (r : Rule) (dir : Direction) (bytes : List Byte), r.matchesFrame dir bytes = true ↔
        r.valid = true ∧ (r.directions = .both ∨ (r.directions = .ab ∧ dir = .ab) ∨ (r.directions = .ba ∧ dir = .ba))
          ∧ ∀ k, k < 4 → (r.term k).enabled = false ∨ (r.term k).mask = 0
            ∨ ∃ b0 b1 b2 b3 rest, bytes.drop (r.term k).offset.toNat = b0 :: b1 :: b2 :: b3 :: rest
              ∧ (b0 ++ b1 ++ b2 ++ b3) &&& (r.term k).mask = (r.term k).value

/-- R90, R91, R88: the three outcomes of a capture attempt at a ring, by its zone counts. A reservation gives the descriptors
reserved their fields, First in the first of them alone, and leaves every other descriptor as it was. A byte that arrives for a
frame whose capture is FILLING is copied into the capture, up to its slice, whatever becomes of the frame's copy: stored, cut
by that very byte at a full Transit Buffer, cut before, DISCARDING, or gone. That First and the first-only fields of the later
descriptors are cleared at the reservation is read from the manual in notes/assumptions/15.md; that a byte marked as the first
of a frame counts as one more of the frame in reception is notes/assumptions/10.md. -/
def Obligations.CaptureAttemptOutcomes : Prop :=
  (∀ (g : Ring) (q : CaptureRequest),
    (g.filling ≠ 0 →
      g.attempt q = ({ g with counters := { g.counters with ringBusy := g.counters.ringBusy + 1 } }, false))
    ∧ (g.filling = 0 → g.free < (q.slice + 63) / 64 →
      g.attempt q = ({ g with counters := { g.counters with ringFull := g.counters.ringFull + 1 } }, false))
    ∧ (g.filling = 0 → (q.slice + 63) / 64 ≤ g.free → 0 < q.slice → (q.slice + 63) / 64 ≤ g.size → g.fill < g.size →
      ∃ h, g.attempt q = (h, true)
        ∧ h = { g with
            descriptors := h.descriptors, filling := (q.slice + 63) / 64, free := g.free - (q.slice + 63) / 64,
            capture := some { dir := q.dir, serial := q.serial, slice := q.slice, copied := 0 } }
        ∧ h.desc g.fill =
            { state := .filling, first := true, last := false, byteCount := 0,
              info := some { rule := q.rule, generation := q.generation, dir := q.dir, flag := .good,
                             uptime := q.uptime, length := none, entry := none } }
        ∧ (∀ k, 1 ≤ k → k < (q.slice + 63) / 64 → h.desc ((g.fill + k) % g.size)
            = { state := .filling, first := false, last := false, byteCount := 0, info := none })
        ∧ ∀ j, (∀ k, k < (q.slice + 63) / 64 → j ≠ (g.fill + k) % g.size) → h.desc j = g.desc j))
  ∧ ∀ (p : Port) (first : Bool) (b : Byte) (s : State) (r : Reception) (id : RingId),
      s.resetN = true → (s.port p).link = .up → (s.port p).rx = some r → 128 ≤ r.count → FillsCapture s p r id →
      ∃ e x t, CopiesBytes s.cap e id [b] ∧ ByteStored r b (s.port p) x
        ∧ EgressSettles p.other ((s.setCap e).setPort p x) t ∧ exec (.byteArrival p first b) s = .next t

/-- R2, R3, R4, R5, R7, R9, R11, R13, R17: a frame that ends with fewer than 16 bytes is a fragment: its held bytes are
released, it is counted, no notice is issued and nothing is decided. A longer frame that is no ACK ends with the ending that
was settled, OVERSIZE among them, else GOOD or CHECK_FAILED by its end and its check; it is counted by its ending, its notice
is issued, and a COMMAND from an enabled port is copied to the Agent. When it was decided, its copy's reception ends; when it
was not, it is decided now on all its bytes. Then the opposite egress closes or clears what is done. The hand-over queues are
the model's (notes/assumptions/5.md). -/
def Obligations.FrameEndSettlesTheEnding : Prop :=
  ∀ (p : Port) (aborted : Bool) (s : State) (r : Reception), (s.port p).rx = some r →
    ∃ t, exec (.frameEnd p aborted) s = .next t ∧ FrameEnds p r (endingOf r aborted) aborted s t

/-- R9, R11, R169: an ACK of any length is not decided before its end. When it ends GOOD on an enabled port, long enough and
for this unit, it is taken out of transit and handed to the Report Engine; otherwise it goes on as a transit frame with
action PASS. Either way it gets a notice that says it is a management frame. That the decision point of an ACK is its end on
a port that is not enabled too is read from the manual in notes/assumptions/14.md; that a byte marked as the first of a frame
counts as one more of the frame in reception is notes/assumptions/10.md; the hand-over queue is the model's
(notes/assumptions/5.md). -/
def Obligations.AckIsConsumed : Prop :=
  (∀ (p : Port) (first : Bool) (b : Byte) (s : State) (r : Reception) (before : List HeldFrame) (f : HeldFrame),
      s.resetN = true → (s.port p).link = .up → (s.port p).rx = some r → r.count = 127 → r.decision = none →
      r.capture = none → ({ r with count := 128, bytes := r.bytes ++ [b] } : Reception).kind = some .ack →
      (s.port p).buffer = before ++ [f] → f.state = .arriving → f.reception = .isOpen →
      bufferFill (before ++ [f]) < 16384 →
      ∃ t, exec (.byteArrival p first b) s = .next t ∧ EgressSettles p.other (s.setPort p { s.port p with
        rx := some { r with count := 128, bytes := r.bytes ++ [b] }
        buffer := before ++ [{ f with held := f.held ++ [b] }] }) t)
  ∧ ∀ (p : Port) (aborted : Bool) (s : State) (r : Reception), (s.port p).rx = some r →
      ∃ t, exec (.frameEnd p aborted) s = .next t ∧ AckEnds p r (endingOf r aborted) aborted s t

/-- R166: a frame that carries the check of the bytes before it is found correct; and a frame with one byte before the check
changed is not. -/
def Obligations.CheckFindsAChangedByte : Prop :=
  (∀ bytes : List Byte, checkCorrect (bytes ++ frameCheck bytes) = true)
    ∧ ∀ (pre post : List Byte) (x y : Byte), x ≠ y →
      checkCorrect (pre ++ [y] ++ post ++ frameCheck (pre ++ [x] ++ post)) = false

/-! ## Flows -/

/-- R48, R46, R49: a hit counts the frame in the matching entry's Frames and Bytes, saturating, takes Last Seen now,
and sets MERGED when a merged flow sees its other direction; nothing else of the Flow Table changes, and the entry
index is handed on with the notice (R54). The hand-over queue is the model's (notes/assumptions/5.md). -/
def Obligations.HitCountsTheFrame : Prop :=
  ∀ (p : Port) (s : State) (n : Notice) (rest : List Notice) (d : Decision) (t : BitVec 3) (i : Nat) (e : FlowEntry),
    (s.port p).flowNotices = n :: rest → n.fit = true → n.decision = some d → d.template = some t →
    (s.cls.template t.toNat).defined = true → (s.cls.template t.toNat).fits n.length = true →
    let f := directionField (s.cls.template t.toNat) n.dir
    let key := (s.cls.template t.toNat).cut n.bytes
    s.flow.lookup (flowBucket s.flow.seed t f key) t f key = some i → s.flow.entry i = some e →
    exec (.frameEndUpdate p) s = .next
      ((s.setFlow { s.flow with entries := SMap.insert s.flow.entries i { e with
          frames := if e.frames.toNat + 1 < 2 ^ 32 then e.frames + 1 else 0xFFFFFFFF
          bytes := if e.bytes.toNat + n.length < 2 ^ 40 then e.bytes + BitVec.ofNat 40 n.length else 0xFFFFFFFFFF
          lastSeen := s.time.uptime
          saturated := e.saturated || decide (2 ^ 32 ≤ e.frames.toNat + 1) || decide (2 ^ 40 ≤ e.bytes.toNat + n.length)
          merged := e.merged || (decide (e.dirField = .merged) && decide (n.dir ≠ e.origin)) } }).setPort p
        { s.port p with flowNotices := rest, captureNotices := (s.port p).captureNotices ++ [(n, some i)] })

/-- R50, R51, R53, R63: an insert fills the lowest FREE way of the flow's bucket, and raises Inserts and Active Entries by 1.
With no way FREE, under EVICT_OLDEST and with room in the Record Queue, the victim is the entry with the longest time since
its Last Seen, the lowest way among equals: it is closed with reason EVICTED and its record appended, Evictions rises by 1,
and the flow is inserted at its way. The index is handed on (R54). The hand-over queue is the model's
(notes/assumptions/5.md). -/
def Obligations.InsertTakesTheLowestFreeWay : Prop :=
  ∀ (p : Port) (s : State) (n : Notice) (rest : List Notice) (d : Decision) (t : BitVec 3) (i : Nat),
    (s.port p).flowNotices = n :: rest → n.fit = true → n.decision = some d → d.template = some t →
    (s.cls.template t.toNat).defined = true → (s.cls.template t.toNat).fits n.length = true →
    let f := directionField (s.cls.template t.toNat) n.dir
    let key := (s.cls.template t.toNat).cut n.bytes
    let b := flowBucket s.flow.seed t f key
    let fresh : FlowEntry :=
      { template := t, dirField := f, origin := n.dir, key := key, rule := d.rule.getD 0,
        generation := d.generation, firstSeen := s.time.uptime, lastSeen := s.time.uptime, frames := 1,
        bytes := BitVec.ofNat 40 n.length, saturated := false, merged := false }
    s.flow.lookup b t f key = none → i / 4 = b →
    (s.flow.entry i = none → (∀ j, j / 4 = b → j < i → s.flow.entry j ≠ none) →
      exec (.frameEndUpdate p) s = .next
        ((s.setFlow { s.flow with
            entries := SMap.insert s.flow.entries i fresh
            counters := { s.flow.counters with
              inserts := s.flow.counters.inserts + 1, activeEntries := s.flow.counters.activeEntries + 1 } }).setPort p
          { s.port p with flowNotices := rest, captureNotices := (s.port p).captureNotices ++ [(n, some i)] }))
    ∧ ∀ e, (∀ j, j / 4 = b → s.flow.entry j ≠ none) → s.flow.policy = .evictOldest → s.rq.count < 256 →
        s.rq.inReport ≤ s.rq.count → s.flow.entry i = some e →
        (∀ j g, j / 4 = b → s.flow.entry j = some g →
          (s.time.uptime - g.lastSeen).toNat ≤ (s.time.uptime - e.lastSeen).toNat
            ∧ (j < i → (s.time.uptime - g.lastSeen).toNat < (s.time.uptime - e.lastSeen).toNat)) →
        ∃ u, ClosesFlow i e .evicted (s.setPort p { s.port p with flowNotices := rest }) u
          ∧ exec (.frameEndUpdate p) s = .next
            ((u.setFlow { u.flow with
                entries := SMap.insert u.flow.entries i fresh
                counters := { u.flow.counters with
                  evictions := u.flow.counters.evictions + 1, inserts := u.flow.counters.inserts + 1,
                  activeEntries := u.flow.counters.activeEntries + 1 } }).setPort p
              { s.port p with flowNotices := rest, captureNotices := (s.port p).captureNotices ++ [(n, some i)] })

/-- R7, R38, R52: a frame that is not fit leaves the Flow Table as it is; one whose template is undefined or whose
segments do not fit is counted in Key Short; one that meets a full bucket under NO_EVICT, or under EVICT_OLDEST with
the Record Queue full, is counted untracked. No entry changes, and the absence of an index is handed on (R54). The
hand-over queue is the model's (notes/assumptions/5.md). -/
def Obligations.UnmeasuredFramesChangeNoEntry : Prop :=
  ∀ (p : Port) (s : State) (n : Notice) (rest : List Notice), (s.port p).flowNotices = n :: rest →
    let handed : State → State := fun u =>
      u.setPort p { s.port p with flowNotices := rest, captureNotices := (s.port p).captureNotices ++ [(n, none)] }
    let c := s.flow.counters
    (n.fit = false → exec (.frameEndUpdate p) s = .next (handed s))
    ∧ ∀ (d : Decision) (t : BitVec 3), n.fit = true → n.decision = some d → d.template = some t →
      let m := s.cls.template t.toNat
      let f := directionField m n.dir
      let key := m.cut n.bytes
      let b := flowBucket s.flow.seed t f key
      ((m.defined = false ∨ m.fits n.length = false) →
        exec (.frameEndUpdate p) s
          = .next (handed (s.setFlow { s.flow with counters := { c with keyShort := c.keyShort + 1 } })))
      ∧ (m.defined = true → m.fits n.length = true → s.flow.lookup b t f key = none →
          (∀ w, w < 4 → s.flow.entry (4 * b + w) ≠ none) →
          (s.flow.policy = .noEvict →
            exec (.frameEndUpdate p) s
              = .next (handed (s.setFlow { s.flow with counters := { c with untrackedFull := c.untrackedFull + 1 } })))
          ∧ (s.flow.policy = .evictOldest → 256 ≤ s.rq.count →
            exec (.frameEndUpdate p) s
              = .next (handed (s.setFlow { s.flow with
                  counters := { c with untrackedQueue := c.untrackedQueue + 1 } }))))

/-- R60, R53, R63, R104, R108, R109: Close Entry on an ACTIVE entry with room in the Record Queue frees the entry and appends
its record with reason CLOSED at the tail, with what an append does to the Hold Timer and the builder; a FREE entry gets
NOT_ACTIVE, a full queue BUSY, an index out of range BAD_VALUE. What is noted in the walk is the model's choice
(notes/assumptions/6.md). -/
def Obligations.CloseEntryClosesTheEntry : Prop :=
  ∀ (v : Word) (s : State),
    let at_ := standsAt s .closeEntry (· == v)
    let noted : WordResult → State → State := fun r u => noteTaken at_ r { u with lastResult := some r }
    let s0 := s.setFlow { s.flow with closeEntry := v }
    (16383 < v.toNat → exec (.closeEntry v) s = .next (noted (.rejected .badValue) s0))
    ∧ (v.toNat ≤ 16383 → s.flow.entry v.toNat = none →
        exec (.closeEntry v) s = .next (noted (.rejected .notActive) s0))
    ∧ ∀ e, v.toNat ≤ 16383 → s.flow.entry v.toNat = some e →
      (256 ≤ s.rq.count → exec (.closeEntry v) s = .next (noted .busy s0))
      ∧ (s.rq.count < 256 → s.rq.inReport ≤ s.rq.count →
          ∃ u, ClosesFlow v.toNat e .closed s0 u ∧ exec (.closeEntry v) s = .next (noted .ok u))

/-- R57, R58: a write of Entry Select takes a snapshot of the entry, its timestamps with the Time Offset, and the
Snapshot Time; a value above 16383 is refused and changes nothing. What is noted in the walk is the model's choice
(notes/assumptions/6.md). -/
def Obligations.EntrySelectTakesASnapshot : Prop :=
  ∀ (v : Word) (s : State),
    let at_ := standsAt s .entrySelect (· == v)
    (v.toNat ≤ 16383 → exec (.entrySelect v) s = .next (noteTaken at_ .ok
      { s with
        lastResult := some .ok
        flow := { s.flow with view :=
          { index := v.toNat
            entry := (s.flow.entry v.toNat).map fun e =>
              { e with firstSeen := e.firstSeen + s.time.offset, lastSeen := e.lastSeen + s.time.offset }
            time := s.time.uptime + s.time.offset } } }))
    ∧ (16383 < v.toNat → exec (.entrySelect v) s = .next (noteTaken at_ (.rejected .badValue)
      { s with lastResult := some (.rejected .badValue) }))

/-! ## Ageing and the table operations -/

/-- R69, R70, R71, R72: a due visit takes the four ways of its bucket in their order: a flow that is idle is closed, one that
is long-lived is exported and goes on with its counts restarted, each deferred when the Record Queue is full, and every other
is left. Then the sweep position advances; after bucket 4095 the pass ends, and the next starts at the former pass start plus
its length. A visit that is not due changes nothing (notes/assumptions/4.md). When a deadline counts as reached is read from
the manual in notes/assumptions/12.md. -/
def Obligations.SweeperVisitsItsBucket : Prop :=
  ∀ s : State,
    let due := (s.time.uptime - (s.sweep.passStart + word (s.sweep.position * s.sweep.passLength / 4096))).toNat < 2 ^ 31
    (¬ due → exec .sweeperVisit s = .next s)
    ∧ (due → s.rq.inReport ≤ s.rq.count →
      let i := 4 * s.sweep.position
      ∃ u0 u1 u2 u, VisitsWay i s u0 ∧ VisitsWay (i + 1) u0 u1 ∧ VisitsWay (i + 2) u1 u2 ∧ VisitsWay (i + 3) u2 u
        ∧ (s.sweep.position < 4095 →
            exec .sweeperVisit s = .next { u with sweep := { u.sweep with position := s.sweep.position + 1 } })
        ∧ (4095 ≤ s.sweep.position →
            exec .sweeperVisit s = .next { u with sweep := { u.sweep with
              position := 0, passStart := s.sweep.passStart + word s.sweep.passLength,
              passLength := s.sweep.sweepPeriod * 1000,
              counters := { u.sweep.counters with sweepPasses := u.sweep.counters.sweepPasses + 1 } } }))

/-- R75, R79: a Flush starts the walker; a selector or argument out of range is refused first, and a walk that is
RUNNING gives BUSY. Clear Table starts a Clear walk, aborting a Flush that is RUNNING; while a Clear is RUNNING it is
BUSY. What is noted in the walk is the model's choice (notes/assumptions/6.md). -/
def Obligations.TableOpsStartTheWalker : Prop :=
  (∀ (sel : BitVec 2) (a : BitVec 8) (s : State),
      let at_ := standsAt s .control (flushWord sel a)
      let noted : WordResult → State → State := fun r u => noteTaken at_ r { u with lastResult := some r }
      let bad := sel = 3 ∨ (sel = 1 ∧ 64 < a.toNat) ∨ (sel = 2 ∧ 7 < a.toNat)
      (bad → exec (.flush sel a) s = .next (noted (.rejected .badValue) s))
      ∧ (¬ bad → s.walker.state = .running → exec (.flush sel a) s = .next (noted .busy s))
      ∧ (¬ bad → s.walker.state ≠ .running → exec (.flush sel a) s = .next (noted .ok { s with walker :=
          { state := .running, kind := .flush,
            selector := if sel = 0 then .all else if sel = 1 then .byRule else .byTemplate,
            argument := if sel = 0 then 0 else a.toNat, position := 0, way := 0, stalled := false, count := 0,
            flushAborted := false } })))
  ∧ ∀ s : State,
    let at_ := standsAt s .control (controlCode 4)
    (s.walker.state = .running ∧ s.walker.kind = .clear →
      exec .clearTable s = .next (noteTaken at_ .busy { s with lastResult := some .busy }))
    ∧ (¬ (s.walker.state = .running ∧ s.walker.kind = .clear) →
      exec .clearTable s = .next (noteTaken at_ .ok { s with
        lastResult := some .ok
        walker := { state := .running, kind := .clear, selector := .all, argument := 0, position := 0, way := 0,
                    stalled := false, count := 0, flushAborted := decide (s.walker.state = .running) } }))

/-- R76, R77, R78: a Flush bucket step takes the ways of its bucket from the way the walk is at: every matching entry is closed
with reason FLUSHED and counted, and the walk goes on to the next bucket, or stalls at a matching entry with the Record Queue
full. A stalled walk makes no bucket step, and resumes at its way once there is room. -/
def Obligations.FlushClosesAMatchingEntry : Prop :=
  ∀ s : State, s.walker.state = .running → s.walker.kind = .flush → s.walker.position < 4096 →
    s.walker.way < 4 → s.rq.inReport ≤ s.rq.count →
    (s.walker.stalled = false →
      ∃ t, Flushes s.walker.position s.walker.way s t ∧ exec .flushBucketStep s = .next t)
    ∧ (s.walker.stalled = true → exec .flushBucketStep s = .next s)
    ∧ (s.walker.stalled = true → s.rq.count < 256 →
      ∃ t, Flushes s.walker.position s.walker.way { s with walker := { s.walker with stalled := false } } t
        ∧ exec .flushResume s = .next t)
    ∧ (s.walker.stalled = true → 256 ≤ s.rq.count → exec .flushResume s = .next s)

/-- R79: a Clear bucket step frees every ACTIVE entry of its bucket, and of no other, with no record, counting each in Count
and Cleared. -/
def Obligations.ClearFreesTheBucket : Prop :=
  ∀ s : State, s.walker.state = .running → s.walker.kind = .clear → s.walker.position < 4096 →
    let k := ((List.range 4).filter fun w => (s.flow.entry (4 * s.walker.position + w)).isSome).length
    ∃ t, exec .clearBucketStep s = .next t
      ∧ (∀ j, t.flow.entry j = if j / 4 = s.walker.position then none else s.flow.entry j)
      ∧ t.flow = { s.flow with
          entries := t.flow.entries
          counters := { s.flow.counters with activeEntries := s.flow.counters.activeEntries - word k } }
      ∧ t = { s with
          flow := t.flow
          sweep := { s.sweep with counters := { s.sweep.counters with cleared := s.sweep.counters.cleared + word k } }
          walker := { s.walker with
            count := s.walker.count + k, way := 0, position := s.walker.position + 1,
            state := if s.walker.position = 4095 then .done else .running } }

/-! ## Captures -/

/-- R92, R93, R88, R108, R109: a notice completes the FILLING capture of its frame, in whatever ring: the descriptors used become
FILLED, the rest FREE, Fill Index advances, Captures Completed rises by 1. Each descriptor used keeps its First and its Byte
Count; Last is set in the last of them and clear in the others; the first takes the frame length, the flag and the flow entry
index. Those returned to FREE keep their fields, and no other descriptor changes. The Hold Timer and the builder follow. No
other ring and no byte of the store changes by the completion. The hand-over queue is the model's (notes/assumptions/5.md). -/
def Obligations.NoticeCompletesTheCapture : Prop :=
  ∀ (p : Port) (s : State) (n : Notice) (e : Option Nat) (rest : List (Notice × Option Nat)) (id : RingId) (f : Filling),
    (s.port p).captureNotices = (n, e) :: rest → n.resetIntervened = false → 1 ≤ n.length →
    let g := s.ring id
    RingArranged g → g.capture = some f → f.dir = n.dir → f.serial = n.serial →
    (∀ q h, q ≠ id → (s.ring q).capture = some h → h.dir = n.dir → h.serial ≠ n.serial) →
    let u := (min f.slice n.length + 63) / 64
    ∃ h t,
      h = { g with
          fill := (g.fill + u) % g.size, filled := g.filled + u, free := g.free + (g.filling - u), filling := 0,
          capture := none, counters := { g.counters with completed := g.counters.completed + 1 },
          descriptors := h.descriptors }
      ∧ (∀ k, k < u →
          let d := g.desc ((g.fill + k) % g.size)
          h.desc ((g.fill + k) % g.size) = { d with
            state := .filled
            last := decide (k + 1 = u)
            info := if k = 0 then d.info.map fun i => { i with length := some n.length, flag := n.ending, entry := e }
              else d.info })
      ∧ (∀ k, u ≤ k → k < g.filling →
          h.desc ((g.fill + k) % g.size) = { g.desc ((g.fill + k) % g.size) with state := .free })
      ∧ (∀ j, (∀ k, k < g.filling → j ≠ (g.fill + k) % g.size) → h.desc j = g.desc j)
      ∧ exec (.captureCompletion p) s = .next t
      ∧ Builds (((s.setPort p { s.port p with captureNotices := rest }).setRing id h).setRep
          { s.rep with hold := holdStarted s }) t

/-- R94, R88: a notice with Reset intervened abandons the FILLING capture of its frame: all its descriptors FREE with their other
fields kept, no other descriptor changed, Fill Index unmoved, no counter changed; a notice without a FILLING capture of its frame leaves every ring as it is. The
hand-over queue is the model's (notes/assumptions/5.md). -/
def Obligations.NoticeAbandonsTheCapture : Prop :=
  ∀ (p : Port) (s : State) (n : Notice) (e : Option Nat) (rest : List (Notice × Option Nat)),
    (s.port p).captureNotices = (n, e) :: rest →
    let popped := s.setPort p { s.port p with captureNotices := rest }
    ((∀ r f, (s.ring r).capture = some f → f.dir = n.dir → f.serial ≠ n.serial) →
      exec (.captureCompletion p) s = .next popped)
    ∧ ∀ (r : RingId) (f : Filling), n.resetIntervened = true → (s.ring r).capture = some f → f.dir = n.dir →
      f.serial = n.serial →
      (∀ q h, q ≠ r → (s.ring q).capture = some h → h.dir = n.dir → h.serial ≠ n.serial) →
      ∃ t, exec (.captureCompletion p) s = .next t
        ∧ t.ring r = { s.ring r with
            filling := 0, free := (s.ring r).free + (s.ring r).filling, capture := none,
            descriptors := (t.ring r).descriptors }
        ∧ ZoneBecomes (s.ring r) (t.ring r) (s.ring r).fill (s.ring r).filling .free
        ∧ t = popped.setRing r (t.ring r)

/-- R85, R86, R87, R88: a write of Base Cell or Size: BUSY while the ring is active, BAD_VALUE when not legal, else stored.
Activation and its three checks in order; an activated ring is empty, and its counters are not changed. Deactivation
and its conditions in order; a descriptor freed by either keeps its other fields; the FILLED captures of a ring deactivated are counted in Captures Discarded, and no build
follows. What is noted in the walk is the model's choice (notes/assumptions/6.md). -/
def Obligations.RingWordsAreWritten : Prop :=
  (∀ (r : RingId) (k : RingField) (v : Word) (s : State),
      let at_ := standsAt s (.ring r (ringWordIndex k)) (· == v)
      let noted : WordResult → State → State := fun x u => noteTaken at_ x { u with lastResult := some x }
      let legal := match k with
        | .baseCell => v.toNat ≤ 2040 ∧ v.toNat % 8 = 0
        | .size => v.toNat ∈ [8, 16, 32, 64, 128, 256, 512, 1024]
      ((s.ring r).active = true → exec (.ringConfigWrite r k v) s = .next (noted .busy s))
      ∧ ((s.ring r).active = false → ¬ legal →
          exec (.ringConfigWrite r k v) s = .next (noted (.rejected .badValue) s))
      ∧ ((s.ring r).active = false → legal → exec (.ringConfigWrite r k v) s = .next (noted .ok
          (s.setRing r (match k with
            | .baseCell => { s.ring r with baseCell := v.toNat }
            | .size => { s.ring r with size := v.toNat })))))
  ∧ (∀ (r : RingId) (s : State),
      let g := s.ring r
      let at_ := standsAt s (.ring r 2) fun _ => true
      let noted : WordResult → State → State := fun x u => noteTaken at_ x { u with lastResult := some x }
      let overlap := ∃ o, o ≠ r ∧ (s.ring o).active = true ∧ g.baseCell < (s.ring o).baseCell + (s.ring o).size
        ∧ (s.ring o).baseCell < g.baseCell + g.size
      (g.active = true → exec (.activate r) s = .next (noted .busy s))
      ∧ (g.active = false → 2048 < g.baseCell + g.size →
          exec (.activate r) s = .next (noted (.rejected .badValue) s))
      ∧ (g.active = false → g.baseCell + g.size ≤ 2048 → overlap →
          exec (.activate r) s = .next (noted (.rejected .overlap) s))
      ∧ (g.active = false → g.baseCell + g.size ≤ 2048 → ¬ overlap →
          ∃ h : Ring, exec (.activate r) s = .next (noted .ok (s.setRing r h))
            ∧ h = { g with
                active := true, release := 0, send := 0, fill := 0, inReport := 0, filled := 0, filling := 0,
                free := g.size, capture := none, descriptors := h.descriptors }
            ∧ ∀ i, h.desc i = { g.desc i with state := .free }))
  ∧ ∀ (r : RingId) (s : State),
      let g := s.ring r
      let at_ := standsAt s (.ring r 3) fun _ => true
      let noted : WordResult → State → State := fun x u => noteTaken at_ x { u with lastResult := some x }
      let named := s.cls.bank0.namesRing r = true ∨ s.cls.bank1.namesRing r = true
      (g.active = false → exec (.deactivate r) s = .next (noted .ok s))
      ∧ (g.active = true → named → exec (.deactivate r) s = .next (noted (.rejected .inUse) s))
      ∧ (g.active = true → ¬ named → g.filling ≠ 0 ∨ g.inReport ≠ 0 →
          exec (.deactivate r) s = .next (noted .busy s))
      ∧ (g.active = true → ¬ named → g.filling = 0 → g.inReport = 0 →
          ∃ u, exec (.deactivate r) s = .next (noted .ok u)
            ∧ u.ring r = { g with
                active := false, release := 0, send := 0, fill := 0, inReport := 0, filled := 0, filling := 0, free := 0,
                capture := none, descriptors := (u.ring r).descriptors,
                counters := { g.counters with
                  discarded := g.counters.discarded + word ((List.range g.filled).filter fun k =>
                    (g.desc ((g.send + k) % g.size)).first).length } }
            ∧ (∀ i, (u.ring r).desc i = { g.desc i with state := .free })
            ∧ u = { s with cap := u.cap, rep := u.rep } ∧ (∀ q, q ≠ r → u.ring q = s.ring q)
            ∧ u.cap.cells = s.cap.cells
            ∧ u.rep = { s.rep with hold := u.rep.hold, buildPending := u.rep.buildPending }
            ∧ (hasMaterial u = false → u.rep.hold = none ∧ u.rep.buildPending = false)
            ∧ (hasMaterial u = true → hasMaterial s = true → u.rep = s.rep))

/-! ## The egress -/

/-- R14: what an idle egress of an UP port starts, by the cases of Table 9: the head transit frame (cases 1, 2 and 5),
the head response (3), the head report, the oldest of the list or a later one (4; R114: its header is read now, R127: the
Retransmit Timer is STOPPED when it is the oldest), or nothing. A busy or DOWN egress, or one held by RESET_N, chooses
nothing. That the choice is a step of its own is notes/assumptions/8.md, and that a row with nothing to choose changes nothing
notes/assumptions/4.md. -/
def Obligations.EgressChoosesByTable9 : Prop :=
  ∀ (p : Port) (s : State),
    (s.resetN = false ∨ (s.port p).link = .down ∨ (s.port p).egress ≠ .idle → exec (.egressChoose p) s = .next s)
    ∧ (s.resetN = true → (s.port p).link = .up → (s.port p).egress = .idle →
      let b := (s.port p.other).buffer
      let first := s.reach.highMark ≤ bufferFill b ∨ (s.port p).lastKind = .inserted
      let report := s.rep.port = p ∧ s.rep.queue ≠ []
      (∀ f rest, b = f :: rest → f.state = .ready → first ∨ ((s.port p).responses = [] ∧ ¬ report) →
        exec (.egressChoose p) s = .next
          ((s.setPort p.other { s.port p.other with buffer := { f with state := .sending } :: rest }).setPort p
            { s.port p with egress := .transit, lastKind := .transit }))
      ∧ (¬ (first ∧ ∃ f rest, b = f :: rest ∧ f.state = .ready) →
        (∀ r rest, (s.port p).responses = r :: rest →
          exec (.egressChoose p) s = .next (s.setPort p { s.port p with
            responses := rest, egress := .response (r.frame s.reach) 0, lastKind := .inserted }))
        ∧ ∀ q qs older r newer, (s.port p).responses = [] → s.rep.port = p → s.rep.queue = q :: qs →
          s.rep.outstanding = older ++ r :: newer → r.sequence = q → (∀ x ∈ older ++ newer, x.sequence ≠ q) →
          (∀ x ∈ older, x.state ≠ .sending) →
          exec (.egressChoose p) s = .next ((s.setPort p { s.port p with
              lastKind := .inserted
              egress := .report { report := { r with state := .sending }, gone := false, head := reportHead s r, pos := 0,
                                  crc := 0xFFFFFFFF, field := [] } }).setRep
            { s.rep with
              queue := qs, outstanding := older ++ { r with state := .sending } :: newer
              retransmit := if older = [] then none else s.rep.retransmit }))
      ∧ ((∀ f rest, b = f :: rest → f.state ≠ .ready) → (s.port p).responses = [] → ¬ report →
          exec (.egressChoose p) s = .next s))

/-- R13, R15, R67, R114, R115, R166: an egress puts the next byte of the frame it sends on its line: of the head transit frame,
which is then closed and leaves when that was its last byte and its reception is over; of a response; or of a report, produced
now and entered in its frame check. With no byte held that is not sent a transit frame waits. That the row sends inserted
bytes too, all but the last, is notes/assumptions/9.md; that an item's field is formed whole is notes/assumptions/26.md. -/
def Obligations.EgressSendsTheNextByte : Prop :=
  ∀ (p : Port) (s : State),
    (∀ (f : HeldFrame) (rest : List HeldFrame), (s.port p).egress = .transit →
      (s.port p.other).buffer = f :: rest → f.state = .sending →
      (f.sent < f.held.length → ∃ t, exec (.egressByteSent p) s = .next t
        ∧ EgressSettles p ((s.setPort p.other { s.port p.other with buffer := { f with sent := f.sent + 1 } :: rest }).setPort p
            { s.port p with line := (s.port p).line ++ [.byte (f.held.getD f.sent 0)] }) t)
      ∧ (f.held.length ≤ f.sent → exec (.egressByteSent p) s = .next s))
    ∧ (∀ (bytes : List Byte) (n : Nat), (s.port p).egress = .response bytes n → n + 1 < bytes.length →
      exec (.egressByteSent p) s = .next (s.setPort p { s.port p with
        egress := .response bytes (n + 1), line := (s.port p).line ++ [.byte (bytes.getD n 0)] }))
    ∧ ∀ x : ReportTx, (s.port p).egress = .report x → x.pos + 1 < x.head.length + x.report.itemsSize + 4 →
      ∃ b more, NextByte s p (s.port p).line.length x b more
        ∧ exec (.egressByteSent p) s = .next (s.setPort p { s.port p with
            egress := .report (byteProduced x b more), line := (s.port p).line ++ [.byte b] })

/-- R15, R113, R114, R127, R129, R133, R166: an inserted frame sent to its end is closed normally and counted in Inserted
Frames Out. The bytes of a report still to go are each produced in turn; a report sent whole, with no field absent, is its
head, its items as the stores stand, and the frame check over them. When a report of the list ends so, it is SENT, and when it
is the oldest the Retransmit Timer runs for Retransmit Base × 2^Attempts, capped at 16 × Retransmit Base; a later one starts
nothing, and so does one that has left the list. That the row sends all the bytes left is notes/assumptions/9.md; that an
item's field is formed whole is notes/assumptions/26.md. -/
def Obligations.InsertedFrameEnds : Prop :=
  ∀ (p : Port) (s : State),
    let counted : PortCounters :=
      { (s.port p).counters with insertedFramesOut := (s.port p).counters.insertedFramesOut + 1 }
    (∀ (bytes : List Byte) (n : Nat), (s.port p).egress = .response bytes n →
      exec (.insertedFrameDone p) s = .next (s.setPort p { s.port p with
        egress := .idle, line := (s.port p).line ++ (bytes.drop n).map .byte ++ [.endNormal], counters := counted }))
    ∧ ∀ (x : ReportTx), (s.port p).egress = .report x →
      ∃ (t : State) (bs : List Byte), exec (.insertedFrameDone p) s = .next t
        ∧ Produces s p (s.port p).line.length x bs
        ∧ bs.length = x.head.length + x.report.itemsSize + 4 - x.pos
        ∧ (x.pos = 0 → x.field = [] → x.crc = 0xFFFFFFFF → (x.report.items.map Item.size).sum = x.report.itemsSize →
            (∀ it ∈ x.report.items, ∀ u v, it.fields s u = it.fields s v) →
            let body := x.head ++ x.report.items.flatMap fun it => it.bytes s fun _ => 0
            bs = body ++ frameCheck body)
        ∧ t = (s.setPort p { s.port p with
            egress := .idle, line := (s.port p).line ++ bs.map LineSymbol.byte ++ [.endNormal],
            counters := counted }).setRep t.rep
        ∧ (x.gone = true → t.rep = { s.rep with delivery := { s.rep.delivery with
            reportsSent := s.rep.delivery.reportsSent + 1 } })
        ∧ (x.gone = false → ∀ older r newer, s.rep.outstanding = older ++ r :: newer → r.state = .sending →
            (∀ y ∈ older ++ newer, y.state ≠ .sending) →
            t.rep = { s.rep with
              outstanding := older ++ { r with state := .sent } :: newer
              retransmit := if older = [] then
                  some (s.time.uptime + word (s.rep.retransmitBase * min (2 ^ s.rep.attempts) 16))
                else s.rep.retransmit
              delivery := { s.rep.delivery with reportsSent := s.rep.delivery.reportsSent + 1 } })

/-! ## Reports -/

/-- R107, R108, R110, R111: what a build takes and what it does. The items taken are those that the round of the sources from
the Next Start Source meets first, up to the first that does not fit the budget: together they are at most the budget, they
are an unbroken run from the front of every source, there is one at least when there is material and the front item of every
source fits, and the records among them are no more than are UNSENT. The build takes them into a new report and moves the
Record Queue, the rings, the lists, the Next Start Source, the request and the Hold Timer. The rows that build are stated with
`Builds`. No more descriptors are taken than are FILLED (notes/assumptions/21.md). -/
def Obligations.BuildFitsTheBudget : Prop :=
  ∀ s : State, TakesItems s (nextItems s) ∧ IsBuilt s (buildReport s)
    ∧ ((nextItems s).map Item.size).sum ≤ s.rep.sizeLimit - 65
    ∧ (∀ a : Source, ∃ n, ((nextItems s).filter fun i => i.source = a) = (sourceItems s a).take n)
    ∧ (∀ it ∈ nextItems s, it ∈ sourceItems s .records ∨ ∃ r, it ∈ sourceItems s (.ring r))
    ∧ (hasMaterial s = true → (∀ (a : Source) it more, sourceItems s a = it :: more → it.size ≤ s.rep.sizeLimit - 65) →
        nextItems s ≠ [])
    ∧ ((nextItems s).filter fun i => i.source = .records).length ≤ s.rq.count - s.rq.inReport

/-- R100, R107, R114, R115, R138, R168, R170: the layouts of what is produced, and its lengths. The head of a report is the
first E bytes of the Report Envelope, the Marker, the kind and the header of Table 93, E + 29 bytes. A record item is laid out
from its slot as Table 94 says, a capture item from its first descriptor and its cells as Table 95 says, and as 0 when its
ring is inactive; every item has its size of Table 50. A response is laid out as Table 89 says, filled up to 16 bytes, with
its frame check. E is the Envelope Length, at most 32. -/
def Obligations.ProducedLengths : Prop :=
  (∀ (s : State) (u : Nat → Byte) (it : Item), (it.bytes s u).length = it.size)
    ∧ (∀ (m : SMap Word) (n : Nat), n ≤ 32 →
        envelopeBytes m n = (List.range n).map fun i => (be32 (stagingWord m (i / 4))).getD (i % 4) 0)
    ∧ (∀ (s : State) (r : Report), s.reach.envLen ≤ 32 → (reportHead s r).length = s.reach.envLen + 29
        ∧ reportHead s r = envelopeBytes s.reach.reportEnvelope s.reach.envLen ++ be16 s.reach.marker
            ++ [3, BitVec.setWidth 8 s.agent.unit] ++ be16 r.session ++ be16 r.sequence
            ++ [if r.start then 1 else 0, byte r.recordCount, byte r.captureCount] ++ be16 (BitVec.ofNat 16 r.itemsSize)
            ++ be32 (s.time.uptime + s.time.offset) ++ be32 s.rep.conservation.discarded
            ++ be32 ((s.ring 0).counters.discarded + (s.ring 1).counters.discarded + (s.ring 2).counters.discarded
                + (s.ring 3).counters.discarded)
            ++ be32 (s.flow.counters.untrackedFull + s.flow.counters.untrackedQueue))
    ∧ (∀ (s : State) (u : Nat → Byte) (slot k : Nat) (r : FlowRecord), SMap.find s.rq.slots slot = some r →
        (Item.record slot k).bytes s u =
          [1, (match r.reason with | .idle => 1 | .active => 2 | .evicted => 3 | .flushed => 4 | .closed => 5),
            BitVec.setWidth 8 r.template, (match r.dirField with | .ab => 0 | .ba => 1 | .merged => 2), byte k,
            (if r.saturated then 1 else 0) + (if r.merged then 2 else 0), byte r.rule] ++ be16 (BitVec.ofNat 16 r.index)
            ++ be16 r.generation ++ be32 (r.firstSeen + s.time.offset) ++ be32 (r.lastSeen + s.time.offset)
            ++ be32 r.frames ++ be40 r.bytes ++ (List.range k).map fun j => r.key.getD j 0)
    ∧ (∀ (s : State) (u : Nat → Byte) (id : RingId) (first c : Nat) (hasEntry : Bool),
        let g := s.ring id
        let front : Byte → Byte → BitVec 16 → Word → Word → BitVec 16 → List Byte := fun flags rule gen time len entry =>
          [2, byte id.val, flags + (if hasEntry then 0x80 else 0), rule] ++ be16 gen ++ be32 time ++ be32 len
            ++ be16 (BitVec.ofNat 16 c) ++ [byte ((c + 63) / 64)] ++ (if hasEntry then be16 entry else [])
        (∀ i n, g.active = true → (g.desc (first % g.size)).info = some i → i.length = some n →
          (hasEntry = true → i.entry ≠ none) →
          (Item.capture id first c hasEntry).bytes s u =
            front ((match i.flag with | .good => 0 | .checkFailed => 1 | .truncated => 2 | .oversize => 3)
                + (match i.dir with | .ab => 0 | .ba => 16))
              (byte i.rule) i.generation (i.uptime + s.time.offset)
              (if n < 2 ^ 32 then word n else 0xFFFFFFFF) (BitVec.ofNat 16 (i.entry.getD 0))
            ++ (List.range c).map fun j =>
                s.cap.readByte (64 * (g.baseCell + (first + j / 64) % g.size) + j % 64))
          ∧ (g.active = false →
            (Item.capture id first c hasEntry).bytes s u = front 0 0 0 0 0 0 ++ List.replicate c 0))
    ∧ ∀ (g : Reach) (r : Response), g.envLen ≤ 32 →
      (r.frame g).length = max 16 (g.envLen + 12 + r.statuses.length + (r.blocks.map fun b => 2 + 4 * b.data.length).sum)
        ∧ (let laid := envelopeBytes g.responseEnvelope g.envLen ++ be16 g.marker
              ++ [2, BitVec.setWidth 8 r.unit, (if r.malformed then 1 else 0) + (if r.reset then 2 else 0)] ++ be16 r.tag
              ++ [byte r.opCount] ++ r.statuses.map OpStatus.code
              ++ r.blocks.flatMap fun b => byte b.offset :: byte b.data.length :: b.data.flatMap be32
          let filled := laid ++ List.replicate (12 - laid.length) 0
          r.frame g = filled ++ frameCheck filled)

/-- R108, R109: the Hold Timer at its deadline is STOPPED and leaves a build request pending, and the Report Engine builds
while a build is due. Before its deadline, or STOPPED, it changes nothing. When a deadline counts as reached is read from the
manual in notes/assumptions/12.md. That a row that is not due changes nothing is notes/assumptions/4.md. -/
def Obligations.HoldTimerExpires : Prop :=
  ∀ s : State,
    (∀ d, s.rep.hold = some d →
      ((s.time.uptime - d).toNat < 2 ^ 31 → ∃ t, exec .holdTimerExpiry s = .next t
        ∧ Builds { s with rep := { s.rep with hold := none, buildPending := true } } t)
      ∧ (2 ^ 31 ≤ (s.time.uptime - d).toNat → exec .holdTimerExpiry s = .next s))
    ∧ (s.rep.hold = none → exec .holdTimerExpiry s = .next s)

/-- R128, R130, R131: an expiry of the Retransmit Timer requeues every SENT report at the tail, oldest first, and
STOPS the timer: in STARTING the Start Report, Attempts rising to at most 15; in OPEN with Attempts below Retry Limit,
Attempts rising by 1. In OPEN with Attempts at or above Retry Limit the session is lost (R123). Before its deadline, or
STOPPED, nothing happens. When a deadline counts as reached is read from the manual in notes/assumptions/12.md. That a row
that is not due changes nothing is the model's choice (notes/assumptions/4.md). -/
def Obligations.RetransmitExpires : Prop :=
  ∀ s : State,
    let sent := (s.rep.outstanding.filter fun r => r.state == .sent).map fun r => r.sequence
    let requeued : Nat → State := fun attempts => { s with rep := { s.rep with
      attempts := attempts, retransmit := none, queue := s.rep.queue ++ sent
      outstanding := s.rep.outstanding.map fun r => if r.state = .sent then { r with state := .queued } else r
      delivery := { s.rep.delivery with
        retransmissions := s.rep.delivery.retransmissions + word sent.length } } }
    (∀ d, s.rep.retransmit = some d → (s.time.uptime - d).toNat < 2 ^ 31 →
      (s.rep.session = .starting →
        exec .retransmitExpiryStarting s = .next (requeued (if s.rep.attempts < 15 then s.rep.attempts + 1 else 15)))
      ∧ (s.rep.session = .opened → s.rep.attempts < s.rep.retryLimit →
        exec .retransmitExpiryOpen s = .next (requeued (s.rep.attempts + 1)))
      ∧ (s.rep.session = .opened → s.rep.retryLimit ≤ s.rep.attempts →
        ∃ t, exec .retransmitExpiryOpen s = .next t ∧ SessionLost s t))
    ∧ ((s.rep.retransmit = none ∨ ∃ d, s.rep.retransmit = some d ∧ 2 ^ 31 ≤ (s.time.uptime - d).toNat) →
      exec .retransmitExpiryStarting s = .next s ∧ exec .retransmitExpiryOpen s = .next s)
    ∧ (s.rep.session ≠ .starting → exec .retransmitExpiryStarting s = .next s)
    ∧ (s.rep.session ≠ .opened → exec .retransmitExpiryOpen s = .next s)

/-- R124, R125, R126, R97, R105, R109: an ACK taken is classified by session, state and sequence. Mismatch, Stale and Bad only
count. A Release in STARTING is of the Start Report and opens the session; a Release in OPEN is of every report up to the
sequence acknowledged: their records and captures leave and are counted, the session goes on with Attempts 0 and the
Retransmit Timer set from the new oldest report, and the Report Engine builds while a build is due. The hand-over queue is
the model's (notes/assumptions/5.md). That every recognised ACK is taken so is notes/assumptions/14.md, and the bounds on
what is removed notes/assumptions/21.md. -/
def Obligations.AckIsClassified : Prop :=
  ∀ (p : Port) (s : State) (a : Ack) (more : List Ack), (s.port p).acks = a :: more →
    let e := s.rep
    let popped := s.setPort p { s.port p with acks := more }
    let counted : DeliveryCounters → State := fun d => popped.setRep { e with delivery := d }
    let d := e.delivery
    let oldest := match e.outstanding with
      | r :: _ => r.sequence
      | [] => e.nextSequence
    (e.session = .idle ∨ a.session ≠ e.sessionNumber →
      exec (.ackTaken p) s = .next (counted { d with ackMismatch := d.ackMismatch + 1 }))
    ∧ (a.session = e.sessionNumber →
      (e.session = .starting → a.sequence ≠ 0 →
        exec (.ackTaken p) s = .next (counted { d with badAcks := d.badAcks + 1 }))
      ∧ (e.session = .opened → e.outstanding.length ≤ (a.sequence - oldest).toNat →
        ((oldest - 1 - a.sequence).toNat < 32768 →
          exec (.ackTaken p) s = .next (counted { d with staleAcks := d.staleAcks + 1 }))
        ∧ (32768 ≤ (oldest - 1 - a.sequence).toNat →
          exec (.ackTaken p) s = .next (counted { d with badAcks := d.badAcks + 1 })))
      ∧ (e.session = .starting → a.sequence = 0 → e.outstanding ≠ [] →
        ∃ u t, Releases 1 popped u ∧ Builds u t ∧ exec (.ackTaken p) s = .next t)
      ∧ (e.session = .opened → (a.sequence - oldest).toNat < e.outstanding.length →
        ∃ u t, Releases ((a.sequence - oldest).toNat + 1) popped u ∧ Builds u t ∧ exec (.ackTaken p) s = .next t))

/-! ## Commands -/

/-- R139, R140, R142, R144, R149: a COMMAND copy that reaches the Agent is counted in Command Bad Check when its ending is
not GOOD, in Command Overrun when the queue holds 2 commands, else queued and counted. The Agent begins the head
command when none is being executed: a well-formed one with the cursor at 0; a malformed one executes no op, is
counted, and leaves the queue, answered with MALFORMED only when its ROLLCALL is set; the response is queued, or lost and
counted in Response Lost when its Response Queue holds 4. The hand-over queue is the model's (notes/assumptions/5.md). -/
def Obligations.CommandsAreTakenAndBegun : Prop :=
  ∀ s : State,
    (∀ (p : Port) (c : CommandCopy) (rest : List CommandCopy), (s.port p).commandCopies = c :: rest →
      let popped := s.setPort p { s.port p with commandCopies := rest }
      let k := s.agent.counters
      (c.ending ≠ .good → exec (.takeCommandCopy p) s
        = .next (popped.setAgent { s.agent with counters := { k with badCheck := k.badCheck + 1 } }))
      ∧ (c.ending = .good → 2 ≤ s.agent.queue.length → exec (.takeCommandCopy p) s
        = .next (popped.setAgent { s.agent with counters := { k with overrun := k.overrun + 1 } }))
      ∧ (c.ending = .good → s.agent.queue.length < 2 → exec (.takeCommandCopy p) s
        = .next (popped.setAgent { s.agent with
            queue := s.agent.queue ++ [{ bytes := c.bytes, length := c.length, envLen := c.envLen, port := p }]
            counters := { k with commandsQueued := k.commandsQueued + 1 } })))
    ∧ ∀ (c : Command) (rest : List Command), s.agent.walk = none → s.agent.queue = c :: rest →
      let k := s.agent.counters
      let begun : List Op → Walk := fun ops =>
        { tag := c.tag, rollcall := c.rollcall, port := c.port, opCount := ops.length, ops := ops, cursor := 0,
          statuses := [], blocks := [], anyMine := false, taken := 0, firstMine := none, failure := none, data := [] }
      (∀ ops, c.ops = some ops → exec .beginCommand s = .next (s.setAgent { s.agent with walk := some (begun ops) }))
      ∧ (c.ops = none → c.rollcall = false → exec .beginCommand s = .next (s.setAgent { s.agent with
          queue := rest, counters := { k with malformed := k.malformed + 1 } }))
      ∧ (c.ops = none → c.rollcall = true → 4 ≤ (s.port c.port).responses.length →
        exec .beginCommand s = .next (s.setAgent { s.agent with
          queue := rest, counters := { k with malformed := k.malformed + 1, responseLost := k.responseLost + 1 } }))
      ∧ (c.ops = none → c.rollcall = true → (s.port c.port).responses.length < 4 →
        exec .beginCommand s = .next
          ((s.setPort c.port { s.port c.port with responses := (s.port c.port).responses ++
            [{ unit := s.agent.unit, malformed := true, reset := false, tag := c.tag, opCount := 0, statuses := [],
               blocks := [] }] }).setAgent
            { s.agent with
              queue := rest
              counters := { k with malformed := k.malformed + 1, responsesQueued := k.responsesQueued + 1 } }))

/-- R141, R167, R142: a command is well formed exactly when its body, wherever its Envelope Length puts it, is laid out by
Tables 87 and 88: a header with an op count of 1 to 255, that many ops with counts of 1 to 255, and up to 3 bytes of padding.
The Agent then reads back the ops that were laid out; every other body is malformed. The Tag and ROLLCALL are read from any
body that holds them, and ROLLCALL is clear in a body that does not hold the flags. -/
def Obligations.CommandBodyRoundTrip : Prop :=
  (∀ (c : Command) (ops : List Op), c.ops = some ops ↔
      ∃ (head pad : List Byte) (tag : BitVec 16) (flags : Byte),
        1 ≤ ops.length ∧ ops.length ≤ 255 ∧ (∀ o ∈ ops, o.encodable = true) ∧ pad.length ≤ 3
          ∧ head.length = c.envLen + 3
          ∧ c.bytes = head ++ be16 tag ++ [flags, BitVec.ofNat 8 ops.length] ++ ops.flatMap Op.encode ++ pad)
    ∧ (∀ (c : Command) (head rest : List Byte) (tag : BitVec 16) (flags : Byte), head.length = c.envLen + 3 →
        c.bytes = head ++ be16 tag ++ flags :: rest → c.tag = tag ∧ c.rollcall = flags.getLsbD 0)
    ∧ ∀ c : Command, c.bytes.length < c.envLen + 6 → c.rollcall = false ∧ c.ops = none

/-- R143, R145: Table 73. The word at an address is mine to a unit, at local offset `o`, exactly when the address is that of
`o` in the unit's own window or in the All-Units window; in the unowned range it is mine to no unit. At every unit, the words
that are mine in one op of up to 255 words form a single unbroken run. -/
def Obligations.MineWordsFormOneRun : Prop :=
  (∀ (unit : BitVec 5) (a : BitVec 24) (o : BitVec 16), localOffset unit a = some o ↔
      a.toNat = unit.toNat * 0x10000 + o.toNat ∨ a.toNat = 0xFF0000 + o.toNat)
    ∧ (∀ (unit : BitVec 5) (a : BitVec 24), 0x200000 ≤ a.toNat → a.toNat ≤ 0xFEFFFF → localOffset unit a = none)
    ∧ ∀ (unit : BitVec 5) (a : BitVec 24) (n : Nat), n ≤ 255 →
      ∃ i k, i + k ≤ n ∧ ∀ j, j < n →
        ((localOffset unit (a + BitVec.ofNat 24 j)).isSome = true ↔ i ≤ j ∧ j < i + k)

/-- R144, R146, R148, R149: SET_CURSOR and MOVE_CURSOR set the cursor and get OK. Past its last op a command leaves
the queue, with a RESPONSE in the Response Queue of its arrival port when a word was mine or ROLLCALL is set, lost and
counted when that queue holds 4. That a row acts on the op being walked is notes/assumptions/7.md. -/
def Obligations.CursorOpsAndCommandEnd : Prop :=
  ∀ (s : State) (w : Walk), s.agent.walk = some w →
    let ended : OpStatus → BitVec 24 → Walk := fun st a =>
      { w with
        ops := w.ops.tail, statuses := w.statuses ++ [st], cursor := a, taken := 0, firstMine := none, failure := none,
        data := [] }
    (∀ a, w.ops.head? = some (.setCursor a) →
      exec (.setCursor a) s = .next (s.setAgent { s.agent with walk := some (ended (.result .ok) a) }))
    ∧ (∀ d, w.ops.head? = some (.moveCursor d) →
      exec (.moveCursor d) s
        = .next (s.setAgent { s.agent with walk := some (ended (.result .ok) (w.cursor + d.signExtend 24)) }))
    ∧ (w.ops = [] →
      let r : Response :=
        { unit := s.agent.unit, malformed := false, reset := false, tag := w.tag, opCount := w.opCount,
          statuses := w.statuses, blocks := w.blocks }
      let k := s.agent.counters
      let due := w.anyMine = true ∨ w.rollcall = true
      (¬ due → exec .commandEnd s
        = .next (s.setAgent { s.agent with queue := s.agent.queue.tail, walk := none }))
      ∧ (due → (s.port w.port).responses.length < 4 → exec .commandEnd s
        = .next ((s.setPort w.port { s.port w.port with responses := (s.port w.port).responses ++ [r] }).setAgent
            { s.agent with
              queue := s.agent.queue.tail, walk := none,
              counters := { k with responsesQueued := k.responsesQueued + 1 } }))
      ∧ (due → 4 ≤ (s.port w.port).responses.length → exec .commandEnd s
        = .next (s.setAgent { s.agent with
            queue := s.agent.queue.tail, walk := none,
            counters := { k with responseLost := k.responseLost + 1 } })))

/-- R26, R144, R146, R147, R148, R154 to R156, R159 to R165: a READ taken whole changes nothing but the walk; its cursor rises by its count,
mine or not, NO_ROOM or not. It is NO_ROOM, with no block, when it has a word that is mine and the sum of R147 exceeds 2048;
else its status is NOT_MINE with no block when no word is mine; and otherwise its status is the first result of its mine words
that is not OK, OK when there is none, and its block holds the place of its first mine word in the op and the values of all of
them in cursor order. The words of the local map read as their owners hold them, with result OK: the status words of Table 79,
the settings, the staging, envelope, commit and Control words, the bank, template and hit counter views, the Entry View, the
rings, and the counters of Table 85; a word of no owner reads 0, UNMAPPED. That a row acts on the op being walked is
notes/assumptions/7.md. -/
def Obligations.ReadWalksItsWords : Prop :=
  (∀ (n : Nat) (s : State) (w : Walk) (later : List Op), 1 ≤ n →
    s.agent.walk = some w → w.ops = .read n :: later → w.taken = 0 → w.firstMine = none → w.failure = none →
    w.data = [] →
    let m := mineCount s.agent.unit w.cursor n
    let tooLarge := 2048 < 44 + w.opCount + (w.blocks.map fun b => 2 + 4 * b.data.length).sum + (2 + 4 * m)
    let at_ : Nat → Option (BitVec 16) := fun j => localOffset s.agent.unit (w.cursor + BitVec.ofNat 24 j)
    let mine := (List.range n).filterMap at_
    ∃ v, exec (.read n) s = .next (s.setAgent { s.agent with walk := some v })
      ∧ v.cursor = w.cursor + BitVec.ofNat 24 n ∧ v.ops = later ∧ v.anyMine = (w.anyMine || decide (m ≠ 0))
      ∧ m = mine.length
      ∧ (m = 0 → v.statuses = w.statuses ++ [.notMine] ∧ v.blocks = w.blocks)
      ∧ (m ≠ 0 → tooLarge → v.statuses = w.statuses ++ [.noRoom] ∧ v.blocks = w.blocks)
      ∧ (m ≠ 0 → ¬ tooLarge →
          v.statuses = w.statuses ++
            [.result (((mine.map fun o => (readWord s o).2).find? fun x => decide (x ≠ .ok)).getD .ok)]
          ∧ ∃ j, j < n ∧ (at_ j).isSome = true ∧ (∀ i, i < j → at_ i = none)
            ∧ v.blocks = w.blocks ++ [{ offset := j, data := mine.map fun o => (readWord s o).1 }])
      ∧ v.taken = 0 ∧ v.firstMine = none ∧ v.failure = none ∧ v.data = []
      ∧ v.tag = w.tag ∧ v.opCount = w.opCount ∧ v.port = w.port ∧ v.rollcall = w.rollcall)
  ∧ ∀ s : State,
    let bit : Bool → Nat := fun b => if b then 1 else 0
    let reads : BitVec 16 → Nat → Prop := fun o n => readWord s o = (word n, .ok) ∧ n < 2 ^ 32
    let tell : BitVec 16 → List Word → Prop := fun o cs =>
      ∀ i, i < cs.length → readWord s (o + BitVec.ofNat 16 i) = (cs.getD i 0, .ok)
    reads 0x0000 0x06120100 ∧ reads 0x0001 s.agent.unit.toNat
      ∧ reads 0x0002 (2 * bit (s.portA.link = .up) + bit (s.portB.link = .up))
      ∧ (bufferFill s.portA.buffer ≤ 16384 → bufferFill s.portB.buffer ≤ 16384 →
          reads 0x0003 (2 ^ 16 * bufferFill s.portA.buffer + bufferFill s.portB.buffer))
      ∧ reads 0x0005 (2 ^ 16 * bit s.cls.activeBank + s.cls.generation.toNat)
      ∧ (s.walker.argument < 128 →
          reads 0x0009 (2 ^ 30 * (match s.walker.state with | .idle => 0 | .running => 1 | .done => 2)
            + 2 ^ 28 * (match s.walker.kind with | .none => 0 | .flush => 1 | .clear => 2)
            + 2 ^ 24 * (match s.walker.selector with | .all => 0 | .byRule => 1 | .byTemplate => 2)
            + 2 ^ 23 * bit s.walker.stalled + 2 ^ 22 * bit s.walker.flushAborted + s.walker.argument))
      ∧ (s.walker.position ≤ 4096 → s.walker.count ≤ 16384 →
          reads 0x000A (2 ^ 16 * s.walker.position + s.walker.count))
      ∧ reads 0x000C s.time.uptime.toNat
      ∧ (s.sweep.position < 4096 → reads 0x0015 s.sweep.position)
      ∧ (s.agent.queue.length ≤ 2 → s.portA.responses.length ≤ 4 → s.portB.responses.length ≤ 4 →
          reads 0x0024 (2 ^ 16 * s.agent.queue.length + 2 ^ 8 * s.portA.responses.length + s.portB.responses.length))
      ∧ (s.rep.attempts ≤ 15 → s.rep.outstanding.length ≤ 16 →
          reads 0x0038 (2 ^ 30 * (match s.rep.session with | .idle => 0 | .starting => 1 | .opened => 2)
            + 2 ^ 24 * s.rep.attempts + 2 ^ 16 * s.rep.outstanding.length + s.rep.sessionNumber.toNat))
      ∧ reads 0x0039 (2 ^ 16 * (match s.rep.outstanding with
            | r :: _ => r.sequence.toNat
            | [] => s.rep.nextSequence.toNat) + s.rep.nextSequence.toNat)
      ∧ (s.rq.head < 256 → s.rq.count ≤ 256 → s.rq.inReport ≤ s.rq.count →
          reads 0x003A (2 ^ 24 * s.rq.head + 2 ^ 12 * s.rq.count + s.rq.inReport)
          ∧ reads 0x003B (2 ^ 31 * bit s.rep.hold.isSome + 2 ^ 30 * bit s.rep.buildPending
            + 2 ^ 24 * (match s.rep.nextStart with | .records => 0 | .ring r => r.val + 1)
            + (s.rq.count - s.rq.inReport)))
      ∧ (∀ p : Port, let c := (s.port p).counters
          tell (if p = .A then 0x4000 else 0x4010) [c.framesIn, c.bytesIn, c.fragments, c.oversize, c.badCheck, c.truncated,
            c.dropped, c.transitOverflow, c.egressDown, c.insertedFramesOut])
      ∧ (let c := s.flow.counters
        tell 0x4020 [c.activeEntries, c.inserts, c.evictions, c.untrackedFull, c.untrackedQueue, c.keyShort])
      ∧ (let c := s.sweep.counters
        tell 0x4028 [c.idleCloses, c.activeExports, c.sweepDeferred, c.sweepPasses, c.flushed, c.cleared])
      ∧ (∀ r : RingId, let c := (s.ring r).counters
          tell (BitVec.ofNat 16 (0x4030 + 8 * r.val)) [c.completed, c.ringBusy, c.ringFull, c.exported, c.discarded])
      ∧ (let c := s.rep.delivery
        tell 0x4050 [c.reportsSent, c.retransmissions, c.acks, c.staleAcks, c.badAcks, c.ackMismatch, c.sessionsLost])
      ∧ tell 0x4058 [s.rep.conservation.appended, s.rep.conservation.exported, s.rep.conservation.discarded]
      ∧ (let c := s.agent.counters
        tell 0x4060 [c.commandsQueued, c.badCheck, c.overrun, c.malformed, c.responsesQueued, c.responseLost])
      ∧ SettingsRead s ∧ StagingRead s ∧ ViewsRead s ∧ EntryReads s ∧ RingsRead s
      ∧ ∀ o : BitVec 16, decodeOffset o.toNat = .unmapped → readWord s o = (0, .unmapped)

/-- R144, R146, R150: a WRITE taken whole writes each of its words that is mine at its owner, in cursor order, the later ones
after a failure too, and passes over the others. Its cursor rises by its count, mine or not; its status is the first result of
its mine words that is not OK, OK when there is none, and NOT_MINE when no word is mine; nothing but the owners' effects and
the walk changes. A mine word that writes Soft Reset to the Control word ends it: the words before it are taken as above, it
acts as the row SOFT_RESET does with the Agent standing at that word, and the words after it are not executed. That a row acts
on the op being walked is notes/assumptions/7.md; that the result of the last mine word is kept is notes/assumptions/6.md. -/
def Obligations.WriteWalksItsWords : Prop :=
  ∀ (ws : List Word) (s : State) (w : Walk) (later : List Op), ws ≠ [] →
    s.agent.walk = some w → w.ops = .write ws :: later → w.taken = 0 → w.firstMine = none → w.failure = none →
    w.data = [] →
    let at_ : Nat → Option (BitVec 16) := fun j => localOffset s.agent.unit (w.cursor + BitVec.ofNat 24 j)
    let resets : List Word → Prop := fun vs => ∃ j v, vs[j]? = some v ∧ at_ j = some 0x0008 ∧ v.extractLsb' 0 8 = 1
    let failure : List WordResult → Option WordResult := fun rs => rs.find? fun x => decide (x ≠ .ok)
    (¬ resets ws →
      let q := wordsWritten s.agent.unit w.cursor ws s
      (q.2 = [] ↔ ∀ j, j < ws.length → at_ j = none)
      ∧ exec (.write ws) s = .next { q.1 with
          lastResult := q.2.getLast?.or s.lastResult
          agent := { q.1.agent with walk := some { w with
            ops := later
            statuses := w.statuses ++ [if q.2 = [] then .notMine else .result ((failure q.2).getD .ok)]
            cursor := w.cursor + BitVec.ofNat 24 ws.length
            anyMine := w.anyMine || !q.2.isEmpty } } })
    ∧ ∀ pre v post, ws = pre ++ v :: post → ¬ resets pre → at_ pre.length = some 0x0008 → v.extractLsb' 0 8 = 1 →
        let q := wordsWritten s.agent.unit w.cursor pre s
        exec (.write ws) s = exec .softReset { q.1 with
          agent := { q.1.agent with walk := some { w with
            cursor := w.cursor + BitVec.ofNat 24 pre.length
            taken := pre.length
            firstMine := (List.range pre.length).find? fun j => (at_ j).isSome
            failure := failure q.2
            anyMine := w.anyMine || !q.2.isEmpty } } }

/-- R146, R140: the row of a register's word and the WRITE op that takes that word are one happening: where the Agent
stands at a word that is mine, taking that word of the WRITE leaves the same state as the word's own row. What is
noted in the walk is the model's choice (notes/assumptions/6.md). -/
def Obligations.WordRowIsTheWriteOp : Prop :=
  ∀ (s : State) (w : Walk) (ws : List Word) (later : List Op) (o : BitVec 16) (v : Word),
    s.agent.walk = some w → w.ops = .write ws :: later → ws[w.taken]? = some v →
    localOffset s.agent.unit w.cursor = some o →
    let taken := exec (.write [v]) s
    taken = exec (.settingWrite o v) s
    ∧ (o = 0x0010 → taken = exec (.hashSeedWrite v) s)
    ∧ (o = 0x0210 → taken = exec (.ruleCommit v) s) ∧ (o = 0x0215 → taken = exec (.templateCommit v) s)
    ∧ (o = 0x2000 → taken = exec (.entrySelect v) s) ∧ (o = 0x2011 → taken = exec (.closeEntry v) s)
    ∧ (o = 0x0030 → v = 1 → taken = exec .sessionEnableOn s) ∧ (o = 0x0030 → v = 0 → taken = exec .sessionEnableOff s)
    ∧ (∀ r : RingId, (o.toNat = 0x3000 + 8 * r.val → taken = exec (.ringConfigWrite r .baseCell v) s)
        ∧ (o.toNat = 0x3001 + 8 * r.val → taken = exec (.ringConfigWrite r .size v) s)
        ∧ (o.toNat = 0x3002 + 8 * r.val → taken = exec (.activate r) s)
        ∧ (o.toNat = 0x3003 + 8 * r.val → taken = exec (.deactivate r) s))
    ∧ (o = 0x0008 →
        let code := v.extractLsb' 0 8
        (code = 1 → taken = exec .softReset s) ∧ (code = 2 → taken = exec .swapBanks s)
        ∧ (code = 3 → taken = exec (.flush (v.extractLsb' 8 2) (v.extractLsb' 16 8)) s)
        ∧ (code = 4 → taken = exec .clearTable s) ∧ (code = 5 → taken = exec .sessionRestart s)
        ∧ (code = 6 → taken = exec .reportNow s) ∧ (code = 7 → taken = exec .clearCounters s))

/-! ## Registers -/

/-- R156, R106, R44, R26, R34, R137, R146, R154, R157: a setting written. Its state check comes first, its range next; a legal
value is stored and read back, and no other setting changes. Session Enable with a value above 1, and the Control word with a
code that names no op, are BAD_VALUE and change nothing. A word of the Rule Staging or Template Staging record or of an envelope
stores any value. A word that the map marks as read-only is READ_ONLY, one that it does not list UNMAPPED, and neither changes
anything. That a Report Size Limit written makes no build is read from the manual in notes/assumptions/13.md; what is noted in
the walk is the model's choice (notes/assumptions/6.md). -/
def Obligations.SettingsAreWritten : Prop :=
  ∀ (v : Word) (s : State),
    (∀ (o : BitVec 16) (k : Setting), decodeOffset o.toNat = .setting k → k ≠ .hashSeed → k ≠ .sessionEnable →
      let noted : WordResult → State → State := fun r u =>
        noteTaken (standsAt s (.setting k) (· == v)) r { u with lastResult := some r }
      let held := (k = .reportPort ∨ k = .windowSize) ∧ s.rep.session ≠ .idle
      (held → exec (.settingWrite o v) s = .next (noted .busy s))
      ∧ (¬ held → k.legal v.toNat = false → exec (.settingWrite o v) s = .next (noted (.rejected .badValue) s))
      ∧ (¬ held → k.legal v.toNat = true → ∃ t, exec (.settingWrite o v) s = .next (noted .ok t)
          ∧ readSetting t k = v ∧ (∀ j, j ≠ k → readSetting t j = readSetting s j)
          ∧ t.reach.responseEnvelope = s.reach.responseEnvelope ∧ t.reach.reportEnvelope = s.reach.reportEnvelope
          ∧ t = { s with
              reach := t.reach
              cls := { s.cls with mode := t.cls.mode }
              flow := { s.flow with policy := t.flow.policy }
              time := { s.time with offset := t.time.offset }
              sweep := { s.sweep with
                idleTimeout := t.sweep.idleTimeout, activeTimeout := t.sweep.activeTimeout,
                sweepPeriod := t.sweep.sweepPeriod }
              rep := { s.rep with
                port := t.rep.port, windowSize := t.rep.windowSize, sizeLimit := t.rep.sizeLimit,
                holdTime := t.rep.holdTime, retransmitBase := t.rep.retransmitBase,
                retryLimit := t.rep.retryLimit } }))
    ∧ (let noted : WordResult → State → State := fun r u =>
        noteTaken (standsAt s (.setting .hashSeed) (· == v)) r { u with lastResult := some r }
      let busy := s.flow.entries ≠ [] ∨ s.walker.state = .running
      (busy → exec (.hashSeedWrite v) s = .next (noted (.rejected .notEmpty) s))
      ∧ (¬ busy → 0xFFFF < v.toNat → exec (.hashSeedWrite v) s = .next (noted (.rejected .badValue) s))
      ∧ (¬ busy → v.toNat ≤ 0xFFFF → exec (.hashSeedWrite v) s
          = .next (noted .ok { s with flow := { s.flow with seed := v.setWidth 16 } })))
    ∧ (let refused : Target → State := fun g =>
        noteTaken (standsAt s g (· == v)) (.rejected .badValue) { s with lastResult := some (.rejected .badValue) }
      let code := (v.extractLsb' 0 8).toNat
      (1 < v.toNat → exec (.settingWrite 0x0030 v) s = .next (refused (.setting .sessionEnable)))
      ∧ (code = 0 ∨ 7 < code → exec (.settingWrite 0x0008 v) s = .next (refused .control)))
    ∧ (∀ i, i < 16 →
      exec (.settingWrite (BitVec.ofNat 16 (0x0200 + i)) v) s
        = .next (noteTaken (standsAt s (.ruleStaging i) (· == v)) .ok { s with
            lastResult := some .ok
            cls := { s.cls with ruleStaging := SMap.set 0 s.cls.ruleStaging i v } }))
    ∧ (∀ i, i < 4 →
      exec (.settingWrite (BitVec.ofNat 16 (0x0211 + i)) v) s
        = .next (noteTaken (standsAt s (.templateStaging i) (· == v)) .ok { s with
            lastResult := some .ok
            cls := { s.cls with templateStaging := SMap.set 0 s.cls.templateStaging i v } }))
    ∧ (∀ i, i < 8 →
      exec (.settingWrite (BitVec.ofNat 16 (0x0100 + i)) v) s
        = .next (noteTaken (standsAt s (.responseEnvelope i) (· == v)) .ok { s with
            lastResult := some .ok
            reach := { s.reach with responseEnvelope := SMap.set 0 s.reach.responseEnvelope i v } })
      ∧ exec (.settingWrite (BitVec.ofNat 16 (0x0108 + i)) v) s
        = .next (noteTaken (standsAt s (.reportEnvelope i) (· == v)) .ok { s with
            lastResult := some .ok
            reach := { s.reach with reportEnvelope := SMap.set 0 s.reach.reportEnvelope i v } }))
    ∧ ∀ o : BitVec 16,
      let noted : WordResult → State := fun r =>
        noteTaken (standsAt s (decodeOffset o.toNat) (· == v)) r { s with lastResult := some r }
      let n := o.toNat
      let named := n ≤ 0x4009 ∨ (0x4010 ≤ n ∧ n ≤ 0x4019) ∨ (0x4020 ≤ n ∧ n ≤ 0x4025) ∨ (0x4028 ≤ n ∧ n ≤ 0x402D)
        ∨ (0x4030 ≤ n ∧ n < 0x4050 ∧ n % 8 < 5) ∨ (0x4050 ≤ n ∧ n ≤ 0x4056) ∨ (0x4058 ≤ n ∧ n ≤ 0x405A)
        ∨ (0x4060 ≤ n ∧ n ≤ 0x4065)
      (n ∈ [0x00, 0x01, 0x02, 0x03, 0x05, 0x09, 0x0A, 0x0C, 0x15, 0x24, 0x38, 0x39, 0x3A, 0x3B]
          ∨ (0x1000 ≤ n ∧ n ≤ 0x1880) ∨ (0x2001 ≤ n ∧ n ≤ 0x2010)
          ∨ (0x3000 ≤ n ∧ n ≤ 0x301F ∧ 4 ≤ n % 8 ∧ n % 8 ≤ 6) ∨ (0x4000 ≤ n ∧ named) →
        exec (.settingWrite o v) s = .next (noted .readOnly))
      ∧ ((n < 0x0100 ∧ n ∉ [0x00, 0x01, 0x02, 0x03, 0x04, 0x05, 0x08, 0x09, 0x0A, 0x0C, 0x0D, 0x10, 0x11, 0x12, 0x13, 0x14,
              0x15, 0x20, 0x21, 0x22, 0x23, 0x24, 0x30, 0x31, 0x32, 0x33, 0x34, 0x35, 0x36, 0x38, 0x39, 0x3A, 0x3B])
          ∨ (0x0110 ≤ n ∧ n < 0x0200) ∨ (0x0216 ≤ n ∧ n < 0x1000) ∨ (0x1881 ≤ n ∧ n < 0x2000)
          ∨ (0x2012 ≤ n ∧ n < 0x3000) ∨ (0x3000 ≤ n ∧ n ≤ 0x301F ∧ n % 8 = 7) ∨ (0x3020 ≤ n ∧ n < 0x4000)
          ∨ (0x4000 ≤ n ∧ ¬ named) →
        decodeOffset n = .unmapped ∧ exec (.settingWrite o v) s = .next (noted .unmapped))

/-- R27, R28, R160, R159: Rule Commit writes the staged record to the shadow bank at the index written, after the
checks of Table 16 in order; the active bank, generation, countdowns and hit counters stand still, and the shadow view
of a rule 0–63 then reads the fields of the staging words, other bits 0. What is noted in the walk is the model's
choice (notes/assumptions/6.md). -/
def Obligations.RuleCommitWritesTheShadow : Prop :=
  ∀ (v : Word) (s : State),
    let m := s.cls.ruleStaging
    let s0 := s.setCls { s.cls with ruleCommit := v }
    let noted : WordResult → State → State := fun r u =>
      noteTaken (standsAt s .ruleCommit (· == v)) r { u with lastResult := some r }
    let i := v.toNat
    let badValue := 64 < i ∨ commitCheck2 m i = false ∨ commitCheck3 m = false
    (badValue → exec (.ruleCommit v) s = .next (noted (.rejected .badValue) s0))
    ∧ (¬ badValue → commitCheck4 s.cls i = false → exec (.ruleCommit v) s = .next (noted (.rejected .badTemplate) s0))
    ∧ (¬ badValue → commitCheck4 s.cls i = true → commitCheck5 s i = false →
        exec (.ruleCommit v) s = .next (noted (.rejected .badRing) s0))
    ∧ (¬ badValue → commitCheck4 s.cls i = true → commitCheck5 s i = true →
        ∃ t, exec (.ruleCommit v) s = .next (noted .ok t)
          ∧ (∀ j, j ≠ i → t.cls.shadow.rule j = s.cls.shadow.rule j)
          ∧ t.cls.active = s.cls.active
          ∧ (i < 64 → ∀ j, j < 16 → (t.cls.shadow.rule i).viewWord j
              = stagingWord m j &&&
                (if j = 0 then 0x80000003 else if j = 1 then 0x00000F03 else if j = 2 then 0x000701FF
                  else if 4 ≤ j ∧ j % 3 = 1 then 0x800000FF else 0xFFFFFFFF))
          ∧ (i = 64 → (t.cls.shadow.rule 64).viewWord 0 = 0x80000003
              ∧ (t.cls.shadow.rule 64).viewWord 1 = stagingWord m 1 &&& 3
              ∧ (t.cls.shadow.rule 64).viewWord 2 = stagingWord m 2 &&& 0x000701FF
              ∧ (t.cls.shadow.rule 64).viewWord 3 = stagingWord m 3)
          ∧ t = { s with cls := { s.cls with ruleCommit := v, bank0 := t.cls.bank0, bank1 := t.cls.bank1 } })

/-- R35, R36, R160, R161: Template Commit replaces the template at the number written after the checks of Table 18 in
order; its view then reads the fields of the staging words, other bits 0. What is noted in the walk is the model's
choice (notes/assumptions/6.md). -/
def Obligations.TemplateCommitReplaces : Prop :=
  ∀ (v : Word) (s : State),
    let m := s.cls.templateStaging
    let c0 := { s.cls with templateCommit := v }
    let noted : WordResult → State → State := fun r u =>
      noteTaken (standsAt s .templateCommit (· == v)) r { u with lastResult := some r }
    let i := v.toNat
    let lengths := ((List.range 4).map fun k => (stagingWord m k &&& 31).toNat)
    let bad := 7 < i ∨ ((stagingWord m 0).getLsbD 31 = true ∧
      ¬ ((∀ k, k < 4 → (stagingWord m k &&& 31).toNat ≤ 16 ∧ ((stagingWord m k >>> 16) &&& 511).toNat ≤ 255)
          ∧ 1 ≤ lengths.sum ∧ lengths.sum ≤ 32))
    let named := s.cls.bank0.namesTemplate i = true ∨ s.cls.bank1.namesTemplate i = true
    (bad → exec (.templateCommit v) s = .next (noted (.rejected .badValue) (s.setCls c0)))
    ∧ (¬ bad → named → exec (.templateCommit v) s = .next (noted (.rejected .inUse) (s.setCls c0)))
    ∧ (¬ bad → ¬ named → ∃ t, exec (.templateCommit v) s = .next (noted .ok t)
        ∧ (∀ j, j < 4 → (t.cls.template i).viewWord j
            = stagingWord m j &&& (if j = 0 then 0xC1FF001F else 0x01FF001F))
        ∧ (∀ j, j ≠ i → t.cls.template j = s.cls.template j)
        ∧ t = { s with cls := { c0 with templates := t.cls.templates } })

/-- R120, R121, R122, R123: Session Enable on opens a session in IDLE and has no effect otherwise; Session Enable off
ends it with its outstanding work discarded and has no effect in IDLE; Session Restart loses the session, and is
refused with NOT_ACTIVE in IDLE. What is noted in the walk is the model's choice (notes/assumptions/6.md). -/
def Obligations.SessionsOpenAndEnd : Prop :=
  ∀ s : State,
    let noted : Word → WordResult → State → State := fun v r u =>
      noteTaken (standsAt s (.setting .sessionEnable) (· == v)) r { u with lastResult := some r }
    let restarted : WordResult → State → State := fun r u =>
      noteTaken (standsAt s .control (controlCode 5)) r { u with lastResult := some r }
    (s.rep.session = .idle →
      (∃ r, IsStartReport r (s.rep.sessionNumber + 1) ∧ exec .sessionEnableOn s = .next (noted 1 .ok
        { s with rep := { s.rep with
            sessionEnable := true, session := .starting, sessionNumber := s.rep.sessionNumber + 1, nextSequence := 1,
            attempts := 0, retransmit := none, outstanding := [r], queue := s.rep.queue ++ [0] } }))
      ∧ exec .sessionEnableOff s = .next (noted 0 .ok s)
      ∧ exec .sessionRestart s = .next (restarted (.rejected .notActive) s))
    ∧ (s.rep.session ≠ .idle →
      exec .sessionEnableOn s = .next (noted 1 .ok s)
      ∧ (∃ t, exec .sessionEnableOff s = .next (noted 0 .ok t) ∧ WorkDiscarded s t
          ∧ t.rep = { s.rep with
              sessionEnable := false, session := .idle, outstanding := [], queue := [], attempts := 0,
              retransmit := none, buildPending := false,
              conservation := { s.rep.conservation with
                discarded := s.rep.conservation.discarded + word s.rq.inReport } })
      ∧ ∃ t, exec .sessionRestart s = .next (restarted .ok t) ∧ SessionLost s t)

/-- R150, R19, R40, R65, R84, R102, R118, R136, R153: a Soft Reset sets every block as a reset does, and keeps the
links, the Transit Buffers, last kinds and frames in flight, the reach settings, Uptime and Time Offset, the Unit
Number and the session number. Frames in reception will carry Reset intervened. The queues of the Agent are emptied;
the command that carries the Soft Reset, if the Agent stands at its word, is answered with RESET set. What it does
with no command standing at its word, the new epoch of the Capture Store's undefined content, and that what the ingresses
have handed over and no block has taken is kept, are the model's choices (notes/assumptions/6.md, 16.md, 5.md). -/
def Obligations.SoftResetActsOnTheBlocks : Prop :=
  ∀ (u : BitVec 5) (s : State),
    let fresh := State.powerUp u .down .down (s.cap.epoch + 1)
    let port : PortState → List Response → PortState := fun x rs =>
      { egressLeftBehind x with
        responses := rs, counters := fresh.portA.counters,
        rx := x.rx.map fun r => { r with resetIntervened := true } }
    let after : List Response → List Response → State := fun a b =>
      { fresh with
        resetN := s.resetN, portA := port s.portA a, portB := port s.portB b, reach := s.reach, time := s.time,
        sweep := { fresh.sweep with passStart := s.time.uptime },
        rep := { fresh.rep with sessionNumber := s.rep.sessionNumber },
        agent := { fresh.agent with unit := s.agent.unit }, lastResult := some .ok, pending := s.pending }
    (standsAt s .control (controlCode 1) = false → exec .softReset s = .next (after [] []))
    ∧ ∀ w, s.agent.walk = some w → standsAt s .control (controlCode 1) = true →
      let r : Response :=
        { unit := s.agent.unit, malformed := false, reset := true, tag := w.tag, opCount := w.opCount,
          statuses := w.statuses ++ [.result (w.failure.getD .ok)] ++ List.replicate (w.ops.length - 1) .skipped,
          blocks := w.blocks }
      exec .softReset s = .next (match w.port with
        | .A => after [r] []
        | .B => after [] [r])

/-- R29: a swap makes the shadow bank active, copies it to the new shadow, raises the Bank Generation by 1, loads the
countdown of every capturing rule with its Sample Ratio and every other with 0, and zeroes the hit counters. What is
noted in the walk is the model's choice (notes/assumptions/6.md). -/
def Obligations.SwapExchangesTheBanks : Prop :=
  ∀ s : State, SMap.Sorted s.cls.shadow.rules → (∀ x ∈ s.cls.shadow.rules, x.1 < 64) →
    ∃ c, exec .swapBanks s
        = .next (noteTaken (standsAt s .control (controlCode 2)) .ok { s with cls := c, lastResult := some .ok })
      ∧ c.active = s.cls.shadow ∧ c.shadow = s.cls.shadow ∧ c.activeBank = !s.cls.activeBank
      ∧ (∀ i, i ≤ 64 → SMap.get 0 c.countdowns i
          = if (s.cls.shadow.rule i).slice = 0 then 0 else (s.cls.shadow.rule i).ratio.toNat)
      ∧ (∀ i, SMap.get 0 c.hits i = 0)
      ∧ c = { s.cls with
          bank0 := s.cls.shadow, bank1 := s.cls.shadow, activeBank := !s.cls.activeBank,
          generation := s.cls.generation + 1, countdowns := c.countdowns, hits := c.hits }

/-- R109, R158: Report Now with no material has no effect; with material it leaves a build request pending, and the Report
Engine builds while a build is due. Clear Counters zeroes the statistic counters of R158 and leaves every other piece of
state, the conservation counters, Active Entries and the Count of the Table Operation among them. What is noted in the walk
is the model's choice (notes/assumptions/6.md). -/
def Obligations.ReportNowAndClearCounters : Prop :=
  ∀ s : State,
    let noted : Nat → State → State := fun code u =>
      noteTaken (standsAt s .control (controlCode code)) .ok { u with lastResult := some .ok }
    (hasMaterial s = false → exec .reportNow s = .next (noted 6 s))
    ∧ (hasMaterial s = true → ∃ t, Builds { s with rep := { s.rep with buildPending := true } } t
        ∧ exec .reportNow s = .next (noted 6 t))
    ∧ let zero : PortCounters :=
        { framesIn := 0, bytesIn := 0, fragments := 0, oversize := 0, badCheck := 0, truncated := 0, dropped := 0,
          transitOverflow := 0, egressDown := 0, insertedFramesOut := 0 }
      let swept : AgeCounters :=
        { idleCloses := 0, activeExports := 0, sweepDeferred := 0, sweepPasses := 0, flushed := 0, cleared := 0 }
      let delivered : DeliveryCounters :=
        { reportsSent := 0, retransmissions := 0, acks := 0, staleAcks := 0, badAcks := 0, ackMismatch := 0,
          sessionsLost := 0 }
      let agent : AgentCounters :=
        { commandsQueued := 0, badCheck := 0, overrun := 0, malformed := 0, responsesQueued := 0, responseLost := 0 }
      let ring : Ring → Ring := fun g => { g with counters := { g.counters with ringBusy := 0, ringFull := 0 } }
      exec .clearCounters s = .next (noted 7 { s with
        portA := { s.portA with counters := zero }
        portB := { s.portB with counters := zero }
        cls := { s.cls with hits := [] }
        flow := { s.flow with counters := { s.flow.counters with
          inserts := 0, evictions := 0, untrackedFull := 0, untrackedQueue := 0, keyShort := 0 } }
        sweep := { s.sweep with counters := swept }
        cap := { s.cap with rings :=
          { r0 := ring s.cap.rings.r0, r1 := ring s.cap.rings.r1, r2 := ring s.cap.rings.r2,
            r3 := ring s.cap.rings.r3 } }
        rep := { s.rep with delivery := delivered }
        agent := { s.agent with counters := agent } })
end

