-- ==== Sys2Proof/Laws/Sparse.lean ====
section
/-!
SUPPORT. The laws of the sparse stores: reading after a write, and that every write keeps the canonical form.
-/

namespace Sys2Proof.Machine

theorem SMap.find_insert {α : Type} (m : SMap α) (i j : Nat) (v : α) :
    SMap.find (SMap.insert m i v) j = if j = i then some v else SMap.find m j := by
  induction m with
  | nil =>
    by_cases h : j = i
    · simp [SMap.insert, SMap.find, h]
    · simp [SMap.insert, SMap.find, h, Ne.symm h]
  | cons x t ih =>
    obtain ⟨k, w⟩ := x
    simp only [SMap.insert]
    split_ifs with h1 h2
    all_goals simp only [SMap.find, ih]
    all_goals split_ifs <;> first | rfl | omega

theorem SMap.find_erase {α : Type} (m : SMap α) (i j : Nat) :
    SMap.find (SMap.erase m i) j = if j = i then none else SMap.find m j := by
  induction m with
  | nil => simp [SMap.erase, SMap.find]
  | cons x t ih =>
    obtain ⟨k, w⟩ := x
    simp only [SMap.erase]
    split_ifs with h1
    all_goals simp only [SMap.find, ih]
    all_goals split_ifs <;> first | rfl | omega

/-- Reading after a write. -/
@[simp] theorem SMap.get_set {α : Type} [DecidableEq α] (d : α) (m : SMap α) (i j : Nat) (v : α) :
    SMap.get d (SMap.set d m i v) j = if j = i then v else SMap.get d m j := by
  unfold SMap.get SMap.set
  split_ifs with h1 h2 h2
  · simp [SMap.find_erase, h2, h1]
  · simp [SMap.find_erase, h2]
  · simp [SMap.find_insert, h2]
  · simp [SMap.find_insert, h2]

@[simp] theorem SMap.get_nil {α : Type} (d : α) (i : Nat) : SMap.get d ([] : SMap α) i = d := rfl

@[simp] theorem SMap.find_nil {α : Type} (i : Nat) : SMap.find ([] : SMap α) i = none := rfl

theorem SMap.mem_insert {α : Type} {m : SMap α} {i : Nat} {v : α} {x : Nat × α} (h : x ∈ SMap.insert m i v) :
    x = (i, v) ∨ x ∈ m := by
  induction m with
  | nil => simpa [SMap.insert] using h
  | cons y t ih =>
    obtain ⟨k, w⟩ := y
    simp only [SMap.insert] at h
    split_ifs at h with h1 h2
    · simpa using h
    · simp only [List.mem_cons] at h ⊢
      rcases h with h | h
      · exact .inl h
      · exact .inr (.inr h)
    · simp only [List.mem_cons] at h ⊢
      rcases h with h | h
      · exact .inr (.inl h)
      · rcases ih h with h | h
        · exact .inl h
        · exact .inr (.inr h)

theorem SMap.mem_erase {α : Type} {m : SMap α} {i : Nat} {x : Nat × α} (h : x ∈ SMap.erase m i) : x ∈ m ∧ x.1 ≠ i := by
  induction m with
  | nil => simp [SMap.erase] at h
  | cons y t ih =>
    obtain ⟨k, w⟩ := y
    simp only [SMap.erase] at h
    split_ifs at h with h1
    · exact ⟨List.mem_cons_of_mem _ (ih h).1, (ih h).2⟩
    · rcases List.mem_cons.1 h with h | h
      · subst h
        exact ⟨List.mem_cons_self .., h1⟩
      · exact ⟨List.mem_cons_of_mem _ (ih h).1, (ih h).2⟩

theorem SMap.mem_set {α : Type} [DecidableEq α] {d : α} {m : SMap α} {i : Nat} {v : α} {x : Nat × α}
    (h : x ∈ SMap.set d m i v) : x = (i, v) ∧ v ≠ d ∨ x ∈ m := by
  unfold SMap.set at h
  split_ifs at h with h1
  · exact .inr (SMap.mem_erase h).1
  · exact (SMap.mem_insert h).imp_left fun e => ⟨e, h1⟩

theorem SMap.insert_sorted {α : Type} {m : SMap α} (i : Nat) (v : α) (h : SMap.Sorted m) :
    SMap.Sorted (SMap.insert m i v) := by
  induction m with
  | nil => simp [SMap.insert, SMap.Sorted]
  | cons y t ih =>
    obtain ⟨k, w⟩ := y
    simp only [SMap.Sorted, List.pairwise_cons] at h
    simp only [SMap.insert]
    split_ifs with h1 h2
    · simp only [SMap.Sorted, List.pairwise_cons, List.mem_cons]
      refine ⟨?_, h⟩
      rintro x (rfl | hx)
      · exact h1
      · exact Nat.lt_trans h1 (h.1 x hx)
    · subst h2
      simpa only [SMap.Sorted, List.pairwise_cons] using h
    · simp only [SMap.Sorted, List.pairwise_cons]
      refine ⟨?_, ih h.2⟩
      intro x hx
      rcases SMap.mem_insert hx with rfl | hx
      · show k < i
        omega
      · exact h.1 x hx

theorem SMap.erase_sorted {α : Type} {m : SMap α} (i : Nat) (h : SMap.Sorted m) : SMap.Sorted (SMap.erase m i) := by
  induction m with
  | nil => simp [SMap.erase, SMap.Sorted]
  | cons y t ih =>
    obtain ⟨k, w⟩ := y
    simp only [SMap.Sorted, List.pairwise_cons] at h
    simp only [SMap.erase]
    split_ifs with h1
    · exact ih h.2
    · simp only [SMap.Sorted, List.pairwise_cons]
      exact ⟨fun x hx => h.1 x (SMap.mem_erase hx).1, ih h.2⟩

theorem SMap.set_sorted {α : Type} [DecidableEq α] {d : α} {m : SMap α} (i : Nat) (v : α) (h : SMap.Sorted m) :
    SMap.Sorted (SMap.set d m i v) := by
  unfold SMap.set
  split_ifs
  · exact SMap.erase_sorted i h
  · exact SMap.insert_sorted i v h

/-- Every write keeps the canonical form. -/
theorem SMap.set_wf {α : Type} [DecidableEq α] {d : α} {m : SMap α} (i : Nat) (v : α) (h : SMap.Wf d m) :
    SMap.Wf d (SMap.set d m i v) := by
  refine ⟨SMap.set_sorted i v h.1, fun x hx => ?_⟩
  rcases SMap.mem_set hx with ⟨rfl, hv⟩ | hx
  · exact hv
  · exact h.2 x hx

theorem SMap.nil_wf {α : Type} [DecidableEq α] (d : α) : SMap.Wf d ([] : SMap α) := by simp [SMap.Wf, SMap.Sorted]

/-- A number that is not listed has nothing found for it, and the other way about. -/
theorem SMap.find_none_iff {α : Type} (m : SMap α) (i : Nat) : SMap.find m i = none ↔ ∀ x ∈ m, x.1 ≠ i := by
  induction m with
  | nil => simp
  | cons y t ih =>
    obtain ⟨k, w⟩ := y
    simp only [SMap.find, List.mem_cons]
    split_ifs with h
    · simp only [false_iff, not_forall]
      exact ⟨(k, w), .inl rfl, by simpa using h⟩
    · rw [ih]
      constructor
      · rintro h2 x (rfl | hx)
        · exact h
        · exact h2 x hx
      · exact fun h2 x hx => h2 x (.inr hx)

theorem SMap.mem_of_find {α : Type} {m : SMap α} {i : Nat} {v : α} (h : SMap.find m i = some v) : (i, v) ∈ m := by
  induction m with
  | nil => simp at h
  | cons y t ih =>
    obtain ⟨k, w⟩ := y
    simp only [SMap.find] at h
    split_ifs at h with h1
    · simp_all
    · exact List.mem_cons_of_mem _ (ih h)

/-- Listing a new number makes the list one longer. -/
theorem SMap.length_insert_new {α : Type} {m : SMap α} {i : Nat} (v : α) (h : SMap.find m i = none) :
    (SMap.insert m i v).length = m.length + 1 := by
  induction m with
  | nil => rfl
  | cons y t ih =>
    obtain ⟨k, w⟩ := y
    simp only [SMap.find] at h
    simp only [SMap.insert]
    split_ifs at h ⊢ with h1 h2 h3
    · rfl
    · omega
    · simp [ih h]

/-- Listing a number that is listed keeps the length, in a sorted list. -/
theorem SMap.length_insert_old {α : Type} {m : SMap α} {i : Nat} {w : α} (v : α) (hs : SMap.Sorted m)
    (h : SMap.find m i = some w) : (SMap.insert m i v).length = m.length := by
  induction m with
  | nil => simp at h
  | cons y t ih =>
    obtain ⟨k, u⟩ := y
    simp only [SMap.Sorted, List.pairwise_cons] at hs
    simp only [SMap.find] at h
    simp only [SMap.insert]
    by_cases h1 : k = i
    · rw [if_neg (by omega), if_pos h1.symm]
      rfl
    · rw [if_neg h1] at h
      have := hs.1 _ (SMap.mem_of_find h)
      simp only at this
      rw [if_neg (by omega), if_neg (by omega)]
      simp [ih hs.2 h]

/-- Removing a listed number makes a sorted list one shorter. -/
theorem SMap.length_erase_old {α : Type} {m : SMap α} {i : Nat} {w : α} (hs : SMap.Sorted m)
    (h : SMap.find m i = some w) : (SMap.erase m i).length + 1 = m.length := by
  induction m with
  | nil => simp at h
  | cons y t ih =>
    obtain ⟨k, u⟩ := y
    simp only [SMap.Sorted, List.pairwise_cons] at hs
    simp only [SMap.find] at h
    simp only [SMap.erase]
    split_ifs at h ⊢ with h1
    · have : ∀ x ∈ t, x.1 ≠ i := fun x hx => by
        have := hs.1 x hx
        omega
      have : SMap.erase t i = t := by
        clear ih h hs
        induction t with
        | nil => rfl
        | cons z t ih =>
          obtain ⟨a, b⟩ := z
          simp only [SMap.erase]
          rw [if_neg (this (a, b) (List.mem_cons_self ..)), ih fun x hx => this x (List.mem_cons_of_mem _ hx)]
      simp [this]
    · simp [ih hs.2 h]

end Sys2Proof.Machine
end

