-- ==== Sys2Proof/Laws/State.lean ====
section
/-!
SUPPORT. What each update of the state leaves in each field, so that no later proof unfolds a record update.
-/

namespace Sys2Proof.Machine

/-! ## The setters of the blocks -/
@[simp] theorem State.setResetN_resetN (s : State) (x : Bool) : (s.setResetN x).resetN = x := rfl
@[simp] theorem State.setResetN_portA (s : State) (x : Bool) : (s.setResetN x).portA = s.portA := rfl
@[simp] theorem State.setResetN_portB (s : State) (x : Bool) : (s.setResetN x).portB = s.portB := rfl
@[simp] theorem State.setResetN_reach (s : State) (x : Bool) : (s.setResetN x).reach = s.reach := rfl
@[simp] theorem State.setResetN_cls (s : State) (x : Bool) : (s.setResetN x).cls = s.cls := rfl
@[simp] theorem State.setResetN_flow (s : State) (x : Bool) : (s.setResetN x).flow = s.flow := rfl
@[simp] theorem State.setResetN_time (s : State) (x : Bool) : (s.setResetN x).time = s.time := rfl
@[simp] theorem State.setResetN_sweep (s : State) (x : Bool) : (s.setResetN x).sweep = s.sweep := rfl
@[simp] theorem State.setResetN_walker (s : State) (x : Bool) : (s.setResetN x).walker = s.walker := rfl
@[simp] theorem State.setResetN_cap (s : State) (x : Bool) : (s.setResetN x).cap = s.cap := rfl
@[simp] theorem State.setResetN_rq (s : State) (x : Bool) : (s.setResetN x).rq = s.rq := rfl
@[simp] theorem State.setResetN_rep (s : State) (x : Bool) : (s.setResetN x).rep = s.rep := rfl
@[simp] theorem State.setResetN_agent (s : State) (x : Bool) : (s.setResetN x).agent = s.agent := rfl
@[simp] theorem State.setResetN_lastResult (s : State) (x : Bool) : (s.setResetN x).lastResult = s.lastResult := rfl
@[simp] theorem State.setResetN_pending (s : State) (x : Bool) : (s.setResetN x).pending = s.pending := rfl
@[simp] theorem State.setResetN_port (s : State) (x : Bool) (p : Port) : (s.setResetN x).port p = s.port p := by
  cases p <;> rfl
@[simp] theorem State.setResetN_ring (s : State) (x : Bool) (r : RingId) : (s.setResetN x).ring r = s.ring r := rfl
@[simp] theorem State.setResetN_now (s : State) (x : Bool) : (s.setResetN x).now = s.now := rfl

@[simp] theorem State.setReach_resetN (s : State) (x : Reach) : (s.setReach x).resetN = s.resetN := rfl
@[simp] theorem State.setReach_portA (s : State) (x : Reach) : (s.setReach x).portA = s.portA := rfl
@[simp] theorem State.setReach_portB (s : State) (x : Reach) : (s.setReach x).portB = s.portB := rfl
@[simp] theorem State.setReach_reach (s : State) (x : Reach) : (s.setReach x).reach = x := rfl
@[simp] theorem State.setReach_cls (s : State) (x : Reach) : (s.setReach x).cls = s.cls := rfl
@[simp] theorem State.setReach_flow (s : State) (x : Reach) : (s.setReach x).flow = s.flow := rfl
@[simp] theorem State.setReach_time (s : State) (x : Reach) : (s.setReach x).time = s.time := rfl
@[simp] theorem State.setReach_sweep (s : State) (x : Reach) : (s.setReach x).sweep = s.sweep := rfl
@[simp] theorem State.setReach_walker (s : State) (x : Reach) : (s.setReach x).walker = s.walker := rfl
@[simp] theorem State.setReach_cap (s : State) (x : Reach) : (s.setReach x).cap = s.cap := rfl
@[simp] theorem State.setReach_rq (s : State) (x : Reach) : (s.setReach x).rq = s.rq := rfl
@[simp] theorem State.setReach_rep (s : State) (x : Reach) : (s.setReach x).rep = s.rep := rfl
@[simp] theorem State.setReach_agent (s : State) (x : Reach) : (s.setReach x).agent = s.agent := rfl
@[simp] theorem State.setReach_lastResult (s : State) (x : Reach) : (s.setReach x).lastResult = s.lastResult := rfl
@[simp] theorem State.setReach_pending (s : State) (x : Reach) : (s.setReach x).pending = s.pending := rfl
@[simp] theorem State.setReach_port (s : State) (x : Reach) (p : Port) : (s.setReach x).port p = s.port p := by
  cases p <;> rfl
@[simp] theorem State.setReach_ring (s : State) (x : Reach) (r : RingId) : (s.setReach x).ring r = s.ring r := rfl
@[simp] theorem State.setReach_now (s : State) (x : Reach) : (s.setReach x).now = s.now := rfl

@[simp] theorem State.setCls_resetN (s : State) (x : Classifier) : (s.setCls x).resetN = s.resetN := rfl
@[simp] theorem State.setCls_portA (s : State) (x : Classifier) : (s.setCls x).portA = s.portA := rfl
@[simp] theorem State.setCls_portB (s : State) (x : Classifier) : (s.setCls x).portB = s.portB := rfl
@[simp] theorem State.setCls_reach (s : State) (x : Classifier) : (s.setCls x).reach = s.reach := rfl
@[simp] theorem State.setCls_cls (s : State) (x : Classifier) : (s.setCls x).cls = x := rfl
@[simp] theorem State.setCls_flow (s : State) (x : Classifier) : (s.setCls x).flow = s.flow := rfl
@[simp] theorem State.setCls_time (s : State) (x : Classifier) : (s.setCls x).time = s.time := rfl
@[simp] theorem State.setCls_sweep (s : State) (x : Classifier) : (s.setCls x).sweep = s.sweep := rfl
@[simp] theorem State.setCls_walker (s : State) (x : Classifier) : (s.setCls x).walker = s.walker := rfl
@[simp] theorem State.setCls_cap (s : State) (x : Classifier) : (s.setCls x).cap = s.cap := rfl
@[simp] theorem State.setCls_rq (s : State) (x : Classifier) : (s.setCls x).rq = s.rq := rfl
@[simp] theorem State.setCls_rep (s : State) (x : Classifier) : (s.setCls x).rep = s.rep := rfl
@[simp] theorem State.setCls_agent (s : State) (x : Classifier) : (s.setCls x).agent = s.agent := rfl
@[simp] theorem State.setCls_lastResult (s : State) (x : Classifier) : (s.setCls x).lastResult = s.lastResult := rfl
@[simp] theorem State.setCls_pending (s : State) (x : Classifier) : (s.setCls x).pending = s.pending := rfl
@[simp] theorem State.setCls_port (s : State) (x : Classifier) (p : Port) : (s.setCls x).port p = s.port p := by
  cases p <;> rfl
@[simp] theorem State.setCls_ring (s : State) (x : Classifier) (r : RingId) : (s.setCls x).ring r = s.ring r := rfl
@[simp] theorem State.setCls_now (s : State) (x : Classifier) : (s.setCls x).now = s.now := rfl

@[simp] theorem State.setFlow_resetN (s : State) (x : FlowTable) : (s.setFlow x).resetN = s.resetN := rfl
@[simp] theorem State.setFlow_portA (s : State) (x : FlowTable) : (s.setFlow x).portA = s.portA := rfl
@[simp] theorem State.setFlow_portB (s : State) (x : FlowTable) : (s.setFlow x).portB = s.portB := rfl
@[simp] theorem State.setFlow_reach (s : State) (x : FlowTable) : (s.setFlow x).reach = s.reach := rfl
@[simp] theorem State.setFlow_cls (s : State) (x : FlowTable) : (s.setFlow x).cls = s.cls := rfl
@[simp] theorem State.setFlow_flow (s : State) (x : FlowTable) : (s.setFlow x).flow = x := rfl
@[simp] theorem State.setFlow_time (s : State) (x : FlowTable) : (s.setFlow x).time = s.time := rfl
@[simp] theorem State.setFlow_sweep (s : State) (x : FlowTable) : (s.setFlow x).sweep = s.sweep := rfl
@[simp] theorem State.setFlow_walker (s : State) (x : FlowTable) : (s.setFlow x).walker = s.walker := rfl
@[simp] theorem State.setFlow_cap (s : State) (x : FlowTable) : (s.setFlow x).cap = s.cap := rfl
@[simp] theorem State.setFlow_rq (s : State) (x : FlowTable) : (s.setFlow x).rq = s.rq := rfl
@[simp] theorem State.setFlow_rep (s : State) (x : FlowTable) : (s.setFlow x).rep = s.rep := rfl
@[simp] theorem State.setFlow_agent (s : State) (x : FlowTable) : (s.setFlow x).agent = s.agent := rfl
@[simp] theorem State.setFlow_lastResult (s : State) (x : FlowTable) : (s.setFlow x).lastResult = s.lastResult := rfl
@[simp] theorem State.setFlow_pending (s : State) (x : FlowTable) : (s.setFlow x).pending = s.pending := rfl
@[simp] theorem State.setFlow_port (s : State) (x : FlowTable) (p : Port) : (s.setFlow x).port p = s.port p := by
  cases p <;> rfl
@[simp] theorem State.setFlow_ring (s : State) (x : FlowTable) (r : RingId) : (s.setFlow x).ring r = s.ring r := rfl
@[simp] theorem State.setFlow_now (s : State) (x : FlowTable) : (s.setFlow x).now = s.now := rfl

@[simp] theorem State.setTime_resetN (s : State) (x : Time) : (s.setTime x).resetN = s.resetN := rfl
@[simp] theorem State.setTime_portA (s : State) (x : Time) : (s.setTime x).portA = s.portA := rfl
@[simp] theorem State.setTime_portB (s : State) (x : Time) : (s.setTime x).portB = s.portB := rfl
@[simp] theorem State.setTime_reach (s : State) (x : Time) : (s.setTime x).reach = s.reach := rfl
@[simp] theorem State.setTime_cls (s : State) (x : Time) : (s.setTime x).cls = s.cls := rfl
@[simp] theorem State.setTime_flow (s : State) (x : Time) : (s.setTime x).flow = s.flow := rfl
@[simp] theorem State.setTime_time (s : State) (x : Time) : (s.setTime x).time = x := rfl
@[simp] theorem State.setTime_sweep (s : State) (x : Time) : (s.setTime x).sweep = s.sweep := rfl
@[simp] theorem State.setTime_walker (s : State) (x : Time) : (s.setTime x).walker = s.walker := rfl
@[simp] theorem State.setTime_cap (s : State) (x : Time) : (s.setTime x).cap = s.cap := rfl
@[simp] theorem State.setTime_rq (s : State) (x : Time) : (s.setTime x).rq = s.rq := rfl
@[simp] theorem State.setTime_rep (s : State) (x : Time) : (s.setTime x).rep = s.rep := rfl
@[simp] theorem State.setTime_agent (s : State) (x : Time) : (s.setTime x).agent = s.agent := rfl
@[simp] theorem State.setTime_lastResult (s : State) (x : Time) : (s.setTime x).lastResult = s.lastResult := rfl
@[simp] theorem State.setTime_pending (s : State) (x : Time) : (s.setTime x).pending = s.pending := rfl
@[simp] theorem State.setTime_port (s : State) (x : Time) (p : Port) : (s.setTime x).port p = s.port p := by
  cases p <;> rfl
@[simp] theorem State.setTime_ring (s : State) (x : Time) (r : RingId) : (s.setTime x).ring r = s.ring r := rfl

@[simp] theorem State.setSweep_resetN (s : State) (x : Sweeper) : (s.setSweep x).resetN = s.resetN := rfl
@[simp] theorem State.setSweep_portA (s : State) (x : Sweeper) : (s.setSweep x).portA = s.portA := rfl
@[simp] theorem State.setSweep_portB (s : State) (x : Sweeper) : (s.setSweep x).portB = s.portB := rfl
@[simp] theorem State.setSweep_reach (s : State) (x : Sweeper) : (s.setSweep x).reach = s.reach := rfl
@[simp] theorem State.setSweep_cls (s : State) (x : Sweeper) : (s.setSweep x).cls = s.cls := rfl
@[simp] theorem State.setSweep_flow (s : State) (x : Sweeper) : (s.setSweep x).flow = s.flow := rfl
@[simp] theorem State.setSweep_time (s : State) (x : Sweeper) : (s.setSweep x).time = s.time := rfl
@[simp] theorem State.setSweep_sweep (s : State) (x : Sweeper) : (s.setSweep x).sweep = x := rfl
@[simp] theorem State.setSweep_walker (s : State) (x : Sweeper) : (s.setSweep x).walker = s.walker := rfl
@[simp] theorem State.setSweep_cap (s : State) (x : Sweeper) : (s.setSweep x).cap = s.cap := rfl
@[simp] theorem State.setSweep_rq (s : State) (x : Sweeper) : (s.setSweep x).rq = s.rq := rfl
@[simp] theorem State.setSweep_rep (s : State) (x : Sweeper) : (s.setSweep x).rep = s.rep := rfl
@[simp] theorem State.setSweep_agent (s : State) (x : Sweeper) : (s.setSweep x).agent = s.agent := rfl
@[simp] theorem State.setSweep_lastResult (s : State) (x : Sweeper) : (s.setSweep x).lastResult = s.lastResult := rfl
@[simp] theorem State.setSweep_pending (s : State) (x : Sweeper) : (s.setSweep x).pending = s.pending := rfl
@[simp] theorem State.setSweep_port (s : State) (x : Sweeper) (p : Port) : (s.setSweep x).port p = s.port p := by
  cases p <;> rfl
@[simp] theorem State.setSweep_ring (s : State) (x : Sweeper) (r : RingId) : (s.setSweep x).ring r = s.ring r := rfl
@[simp] theorem State.setSweep_now (s : State) (x : Sweeper) : (s.setSweep x).now = s.now := rfl

@[simp] theorem State.setWalker_resetN (s : State) (x : Walker) : (s.setWalker x).resetN = s.resetN := rfl
@[simp] theorem State.setWalker_portA (s : State) (x : Walker) : (s.setWalker x).portA = s.portA := rfl
@[simp] theorem State.setWalker_portB (s : State) (x : Walker) : (s.setWalker x).portB = s.portB := rfl
@[simp] theorem State.setWalker_reach (s : State) (x : Walker) : (s.setWalker x).reach = s.reach := rfl
@[simp] theorem State.setWalker_cls (s : State) (x : Walker) : (s.setWalker x).cls = s.cls := rfl
@[simp] theorem State.setWalker_flow (s : State) (x : Walker) : (s.setWalker x).flow = s.flow := rfl
@[simp] theorem State.setWalker_time (s : State) (x : Walker) : (s.setWalker x).time = s.time := rfl
@[simp] theorem State.setWalker_sweep (s : State) (x : Walker) : (s.setWalker x).sweep = s.sweep := rfl
@[simp] theorem State.setWalker_walker (s : State) (x : Walker) : (s.setWalker x).walker = x := rfl
@[simp] theorem State.setWalker_cap (s : State) (x : Walker) : (s.setWalker x).cap = s.cap := rfl
@[simp] theorem State.setWalker_rq (s : State) (x : Walker) : (s.setWalker x).rq = s.rq := rfl
@[simp] theorem State.setWalker_rep (s : State) (x : Walker) : (s.setWalker x).rep = s.rep := rfl
@[simp] theorem State.setWalker_agent (s : State) (x : Walker) : (s.setWalker x).agent = s.agent := rfl
@[simp] theorem State.setWalker_lastResult (s : State) (x : Walker) : (s.setWalker x).lastResult = s.lastResult := rfl
@[simp] theorem State.setWalker_pending (s : State) (x : Walker) : (s.setWalker x).pending = s.pending := rfl
@[simp] theorem State.setWalker_port (s : State) (x : Walker) (p : Port) : (s.setWalker x).port p = s.port p := by
  cases p <;> rfl
@[simp] theorem State.setWalker_ring (s : State) (x : Walker) (r : RingId) : (s.setWalker x).ring r = s.ring r := rfl
@[simp] theorem State.setWalker_now (s : State) (x : Walker) : (s.setWalker x).now = s.now := rfl

@[simp] theorem State.setCap_resetN (s : State) (x : CaptureEngine) : (s.setCap x).resetN = s.resetN := rfl
@[simp] theorem State.setCap_portA (s : State) (x : CaptureEngine) : (s.setCap x).portA = s.portA := rfl
@[simp] theorem State.setCap_portB (s : State) (x : CaptureEngine) : (s.setCap x).portB = s.portB := rfl
@[simp] theorem State.setCap_reach (s : State) (x : CaptureEngine) : (s.setCap x).reach = s.reach := rfl
@[simp] theorem State.setCap_cls (s : State) (x : CaptureEngine) : (s.setCap x).cls = s.cls := rfl
@[simp] theorem State.setCap_flow (s : State) (x : CaptureEngine) : (s.setCap x).flow = s.flow := rfl
@[simp] theorem State.setCap_time (s : State) (x : CaptureEngine) : (s.setCap x).time = s.time := rfl
@[simp] theorem State.setCap_sweep (s : State) (x : CaptureEngine) : (s.setCap x).sweep = s.sweep := rfl
@[simp] theorem State.setCap_walker (s : State) (x : CaptureEngine) : (s.setCap x).walker = s.walker := rfl
@[simp] theorem State.setCap_cap (s : State) (x : CaptureEngine) : (s.setCap x).cap = x := rfl
@[simp] theorem State.setCap_rq (s : State) (x : CaptureEngine) : (s.setCap x).rq = s.rq := rfl
@[simp] theorem State.setCap_rep (s : State) (x : CaptureEngine) : (s.setCap x).rep = s.rep := rfl
@[simp] theorem State.setCap_agent (s : State) (x : CaptureEngine) : (s.setCap x).agent = s.agent := rfl
@[simp] theorem State.setCap_lastResult (s : State) (x : CaptureEngine) : (s.setCap x).lastResult = s.lastResult := rfl
@[simp] theorem State.setCap_pending (s : State) (x : CaptureEngine) : (s.setCap x).pending = s.pending := rfl
@[simp] theorem State.setCap_port (s : State) (x : CaptureEngine) (p : Port) : (s.setCap x).port p = s.port p := by
  cases p <;> rfl
@[simp] theorem State.setCap_now (s : State) (x : CaptureEngine) : (s.setCap x).now = s.now := rfl

@[simp] theorem State.setRq_resetN (s : State) (x : RecordQueue) : (s.setRq x).resetN = s.resetN := rfl
@[simp] theorem State.setRq_portA (s : State) (x : RecordQueue) : (s.setRq x).portA = s.portA := rfl
@[simp] theorem State.setRq_portB (s : State) (x : RecordQueue) : (s.setRq x).portB = s.portB := rfl
@[simp] theorem State.setRq_reach (s : State) (x : RecordQueue) : (s.setRq x).reach = s.reach := rfl
@[simp] theorem State.setRq_cls (s : State) (x : RecordQueue) : (s.setRq x).cls = s.cls := rfl
@[simp] theorem State.setRq_flow (s : State) (x : RecordQueue) : (s.setRq x).flow = s.flow := rfl
@[simp] theorem State.setRq_time (s : State) (x : RecordQueue) : (s.setRq x).time = s.time := rfl
@[simp] theorem State.setRq_sweep (s : State) (x : RecordQueue) : (s.setRq x).sweep = s.sweep := rfl
@[simp] theorem State.setRq_walker (s : State) (x : RecordQueue) : (s.setRq x).walker = s.walker := rfl
@[simp] theorem State.setRq_cap (s : State) (x : RecordQueue) : (s.setRq x).cap = s.cap := rfl
@[simp] theorem State.setRq_rq (s : State) (x : RecordQueue) : (s.setRq x).rq = x := rfl
@[simp] theorem State.setRq_rep (s : State) (x : RecordQueue) : (s.setRq x).rep = s.rep := rfl
@[simp] theorem State.setRq_agent (s : State) (x : RecordQueue) : (s.setRq x).agent = s.agent := rfl
@[simp] theorem State.setRq_lastResult (s : State) (x : RecordQueue) : (s.setRq x).lastResult = s.lastResult := rfl
@[simp] theorem State.setRq_pending (s : State) (x : RecordQueue) : (s.setRq x).pending = s.pending := rfl
@[simp] theorem State.setRq_port (s : State) (x : RecordQueue) (p : Port) : (s.setRq x).port p = s.port p := by
  cases p <;> rfl
@[simp] theorem State.setRq_ring (s : State) (x : RecordQueue) (r : RingId) : (s.setRq x).ring r = s.ring r := rfl
@[simp] theorem State.setRq_now (s : State) (x : RecordQueue) : (s.setRq x).now = s.now := rfl

@[simp] theorem State.setRep_resetN (s : State) (x : ReportEngine) : (s.setRep x).resetN = s.resetN := rfl
@[simp] theorem State.setRep_portA (s : State) (x : ReportEngine) : (s.setRep x).portA = s.portA := rfl
@[simp] theorem State.setRep_portB (s : State) (x : ReportEngine) : (s.setRep x).portB = s.portB := rfl
@[simp] theorem State.setRep_reach (s : State) (x : ReportEngine) : (s.setRep x).reach = s.reach := rfl
@[simp] theorem State.setRep_cls (s : State) (x : ReportEngine) : (s.setRep x).cls = s.cls := rfl
@[simp] theorem State.setRep_flow (s : State) (x : ReportEngine) : (s.setRep x).flow = s.flow := rfl
@[simp] theorem State.setRep_time (s : State) (x : ReportEngine) : (s.setRep x).time = s.time := rfl
@[simp] theorem State.setRep_sweep (s : State) (x : ReportEngine) : (s.setRep x).sweep = s.sweep := rfl
@[simp] theorem State.setRep_walker (s : State) (x : ReportEngine) : (s.setRep x).walker = s.walker := rfl
@[simp] theorem State.setRep_cap (s : State) (x : ReportEngine) : (s.setRep x).cap = s.cap := rfl
@[simp] theorem State.setRep_rq (s : State) (x : ReportEngine) : (s.setRep x).rq = s.rq := rfl
@[simp] theorem State.setRep_rep (s : State) (x : ReportEngine) : (s.setRep x).rep = x := rfl
@[simp] theorem State.setRep_agent (s : State) (x : ReportEngine) : (s.setRep x).agent = s.agent := rfl
@[simp] theorem State.setRep_lastResult (s : State) (x : ReportEngine) : (s.setRep x).lastResult = s.lastResult := rfl
@[simp] theorem State.setRep_pending (s : State) (x : ReportEngine) : (s.setRep x).pending = s.pending := rfl
@[simp] theorem State.setRep_port (s : State) (x : ReportEngine) (p : Port) : (s.setRep x).port p = s.port p := by
  cases p <;> rfl
@[simp] theorem State.setRep_ring (s : State) (x : ReportEngine) (r : RingId) : (s.setRep x).ring r = s.ring r := rfl
@[simp] theorem State.setRep_now (s : State) (x : ReportEngine) : (s.setRep x).now = s.now := rfl

@[simp] theorem State.setAgent_resetN (s : State) (x : Agent) : (s.setAgent x).resetN = s.resetN := rfl
@[simp] theorem State.setAgent_portA (s : State) (x : Agent) : (s.setAgent x).portA = s.portA := rfl
@[simp] theorem State.setAgent_portB (s : State) (x : Agent) : (s.setAgent x).portB = s.portB := rfl
@[simp] theorem State.setAgent_reach (s : State) (x : Agent) : (s.setAgent x).reach = s.reach := rfl
@[simp] theorem State.setAgent_cls (s : State) (x : Agent) : (s.setAgent x).cls = s.cls := rfl
@[simp] theorem State.setAgent_flow (s : State) (x : Agent) : (s.setAgent x).flow = s.flow := rfl
@[simp] theorem State.setAgent_time (s : State) (x : Agent) : (s.setAgent x).time = s.time := rfl
@[simp] theorem State.setAgent_sweep (s : State) (x : Agent) : (s.setAgent x).sweep = s.sweep := rfl
@[simp] theorem State.setAgent_walker (s : State) (x : Agent) : (s.setAgent x).walker = s.walker := rfl
@[simp] theorem State.setAgent_cap (s : State) (x : Agent) : (s.setAgent x).cap = s.cap := rfl
@[simp] theorem State.setAgent_rq (s : State) (x : Agent) : (s.setAgent x).rq = s.rq := rfl
@[simp] theorem State.setAgent_rep (s : State) (x : Agent) : (s.setAgent x).rep = s.rep := rfl
@[simp] theorem State.setAgent_agent (s : State) (x : Agent) : (s.setAgent x).agent = x := rfl
@[simp] theorem State.setAgent_lastResult (s : State) (x : Agent) : (s.setAgent x).lastResult = s.lastResult := rfl
@[simp] theorem State.setAgent_pending (s : State) (x : Agent) : (s.setAgent x).pending = s.pending := rfl
@[simp] theorem State.setAgent_port (s : State) (x : Agent) (p : Port) : (s.setAgent x).port p = s.port p := by
  cases p <;> rfl
@[simp] theorem State.setAgent_ring (s : State) (x : Agent) (r : RingId) : (s.setAgent x).ring r = s.ring r := rfl
@[simp] theorem State.setAgent_now (s : State) (x : Agent) : (s.setAgent x).now = s.now := rfl

@[simp] theorem State.setResult_resetN (s : State) (x : WordResult) : (s.setResult x).resetN = s.resetN := rfl
@[simp] theorem State.setResult_portA (s : State) (x : WordResult) : (s.setResult x).portA = s.portA := rfl
@[simp] theorem State.setResult_portB (s : State) (x : WordResult) : (s.setResult x).portB = s.portB := rfl
@[simp] theorem State.setResult_reach (s : State) (x : WordResult) : (s.setResult x).reach = s.reach := rfl
@[simp] theorem State.setResult_cls (s : State) (x : WordResult) : (s.setResult x).cls = s.cls := rfl
@[simp] theorem State.setResult_flow (s : State) (x : WordResult) : (s.setResult x).flow = s.flow := rfl
@[simp] theorem State.setResult_time (s : State) (x : WordResult) : (s.setResult x).time = s.time := rfl
@[simp] theorem State.setResult_sweep (s : State) (x : WordResult) : (s.setResult x).sweep = s.sweep := rfl
@[simp] theorem State.setResult_walker (s : State) (x : WordResult) : (s.setResult x).walker = s.walker := rfl
@[simp] theorem State.setResult_cap (s : State) (x : WordResult) : (s.setResult x).cap = s.cap := rfl
@[simp] theorem State.setResult_rq (s : State) (x : WordResult) : (s.setResult x).rq = s.rq := rfl
@[simp] theorem State.setResult_rep (s : State) (x : WordResult) : (s.setResult x).rep = s.rep := rfl
@[simp] theorem State.setResult_agent (s : State) (x : WordResult) : (s.setResult x).agent = s.agent := rfl
@[simp] theorem State.setResult_lastResult (s : State) (x : WordResult) : (s.setResult x).lastResult = some x := rfl
@[simp] theorem State.setResult_pending (s : State) (x : WordResult) : (s.setResult x).pending = s.pending := rfl
@[simp] theorem State.setResult_port (s : State) (x : WordResult) (p : Port) : (s.setResult x).port p = s.port p := by
  cases p <;> rfl
@[simp] theorem State.setResult_ring (s : State) (x : WordResult) (r : RingId) : (s.setResult x).ring r = s.ring r := rfl
@[simp] theorem State.setResult_now (s : State) (x : WordResult) : (s.setResult x).now = s.now := rfl

@[simp] theorem State.setPending_resetN (s : State) (x : List Instr) : (s.setPending x).resetN = s.resetN := rfl
@[simp] theorem State.setPending_portA (s : State) (x : List Instr) : (s.setPending x).portA = s.portA := rfl
@[simp] theorem State.setPending_portB (s : State) (x : List Instr) : (s.setPending x).portB = s.portB := rfl
@[simp] theorem State.setPending_reach (s : State) (x : List Instr) : (s.setPending x).reach = s.reach := rfl
@[simp] theorem State.setPending_cls (s : State) (x : List Instr) : (s.setPending x).cls = s.cls := rfl
@[simp] theorem State.setPending_flow (s : State) (x : List Instr) : (s.setPending x).flow = s.flow := rfl
@[simp] theorem State.setPending_time (s : State) (x : List Instr) : (s.setPending x).time = s.time := rfl
@[simp] theorem State.setPending_sweep (s : State) (x : List Instr) : (s.setPending x).sweep = s.sweep := rfl
@[simp] theorem State.setPending_walker (s : State) (x : List Instr) : (s.setPending x).walker = s.walker := rfl
@[simp] theorem State.setPending_cap (s : State) (x : List Instr) : (s.setPending x).cap = s.cap := rfl
@[simp] theorem State.setPending_rq (s : State) (x : List Instr) : (s.setPending x).rq = s.rq := rfl
@[simp] theorem State.setPending_rep (s : State) (x : List Instr) : (s.setPending x).rep = s.rep := rfl
@[simp] theorem State.setPending_agent (s : State) (x : List Instr) : (s.setPending x).agent = s.agent := rfl
@[simp] theorem State.setPending_lastResult (s : State) (x : List Instr) : (s.setPending x).lastResult = s.lastResult := rfl
@[simp] theorem State.setPending_pending (s : State) (x : List Instr) : (s.setPending x).pending = x := rfl
@[simp] theorem State.setPending_port (s : State) (x : List Instr) (p : Port) : (s.setPending x).port p = s.port p := by
  cases p <;> rfl
@[simp] theorem State.setPending_ring (s : State) (x : List Instr) (r : RingId) : (s.setPending x).ring r = s.ring r := rfl
@[simp] theorem State.setPending_now (s : State) (x : List Instr) : (s.setPending x).now = s.now := rfl

/-! ## One port -/

@[simp] theorem State.setPort_port (s : State) (p q : Port) (x : PortState) :
    (s.setPort p x).port q = if q = p then x else s.port q := by
  cases p <;> cases q <;> rfl

theorem State.setPort_port_same (s : State) (p : Port) (x : PortState) : (s.setPort p x).port p = x := by simp

theorem State.setPort_port_other (s : State) (p : Port) (x : PortState) :
    (s.setPort p x).port p.other = s.port p.other := by
  cases p <;> rfl

@[simp] theorem State.setPort_self (s : State) (p : Port) : s.setPort p (s.port p) = s := by
  cases p <;> rfl

@[simp] theorem State.setPort_setPort (s : State) (p : Port) (x y : PortState) :
    (s.setPort p x).setPort p y = s.setPort p y := by
  cases p <;> rfl

@[simp] theorem Port.other_other (p : Port) : p.other.other = p := by cases p <;> rfl

@[simp] theorem Port.other_ne (p : Port) : p.other ≠ p := by cases p <;> decide

@[simp] theorem Port.ne_other (p : Port) : p ≠ p.other := by cases p <;> decide

@[simp] theorem State.setPort_resetN (s : State) (p : Port) (x : PortState) : (s.setPort p x).resetN = s.resetN := by
  cases p <;> rfl
@[simp] theorem State.setPort_reach (s : State) (p : Port) (x : PortState) : (s.setPort p x).reach = s.reach := by
  cases p <;> rfl
@[simp] theorem State.setPort_cls (s : State) (p : Port) (x : PortState) : (s.setPort p x).cls = s.cls := by
  cases p <;> rfl
@[simp] theorem State.setPort_flow (s : State) (p : Port) (x : PortState) : (s.setPort p x).flow = s.flow := by
  cases p <;> rfl
@[simp] theorem State.setPort_time (s : State) (p : Port) (x : PortState) : (s.setPort p x).time = s.time := by
  cases p <;> rfl
@[simp] theorem State.setPort_sweep (s : State) (p : Port) (x : PortState) : (s.setPort p x).sweep = s.sweep := by
  cases p <;> rfl
@[simp] theorem State.setPort_walker (s : State) (p : Port) (x : PortState) : (s.setPort p x).walker = s.walker := by
  cases p <;> rfl
@[simp] theorem State.setPort_cap (s : State) (p : Port) (x : PortState) : (s.setPort p x).cap = s.cap := by
  cases p <;> rfl
@[simp] theorem State.setPort_rq (s : State) (p : Port) (x : PortState) : (s.setPort p x).rq = s.rq := by
  cases p <;> rfl
@[simp] theorem State.setPort_rep (s : State) (p : Port) (x : PortState) : (s.setPort p x).rep = s.rep := by
  cases p <;> rfl
@[simp] theorem State.setPort_agent (s : State) (p : Port) (x : PortState) : (s.setPort p x).agent = s.agent := by
  cases p <;> rfl
@[simp] theorem State.setPort_lastResult (s : State) (p : Port) (x : PortState) : (s.setPort p x).lastResult = s.lastResult := by
  cases p <;> rfl
@[simp] theorem State.setPort_pending (s : State) (p : Port) (x : PortState) : (s.setPort p x).pending = s.pending := by
  cases p <;> rfl
@[simp] theorem State.setPort_now (s : State) (p : Port) (x : PortState) : (s.setPort p x).now = s.now := by
  cases p <;> rfl
@[simp] theorem State.setPort_ring (s : State) (p : Port) (x : PortState) (r : RingId) :
    (s.setPort p x).ring r = s.ring r := by
  cases p <;> rfl

@[simp] theorem State.port_A (s : State) : s.port .A = s.portA := rfl
@[simp] theorem State.port_B (s : State) : s.port .B = s.portB := rfl
@[simp] theorem State.setPort_A_portA (s : State) (x : PortState) : (s.setPort .A x).portA = x := rfl
@[simp] theorem State.setPort_A_portB (s : State) (x : PortState) : (s.setPort .A x).portB = s.portB := rfl
@[simp] theorem State.setPort_B_portA (s : State) (x : PortState) : (s.setPort .B x).portA = s.portA := rfl
@[simp] theorem State.setPort_B_portB (s : State) (x : PortState) : (s.setPort .B x).portB = x := rfl

/-- Two states with equal fields are equal. -/
theorem State.ext_ports {s t : State} (hr : s.resetN = t.resetN) (hp : ∀ p, s.port p = t.port p)
    (h1 : s.reach = t.reach) (h2 : s.cls = t.cls) (h3 : s.flow = t.flow) (h4 : s.time = t.time)
    (h5 : s.sweep = t.sweep) (h6 : s.walker = t.walker) (h7 : s.cap = t.cap) (h8 : s.rq = t.rq) (h9 : s.rep = t.rep)
    (h10 : s.agent = t.agent) (h11 : s.lastResult = t.lastResult) (h12 : s.pending = t.pending) : s = t := by
  have hA := hp .A
  have hB := hp .B
  cases s
  cases t
  simp_all

/-! ## Rings -/

@[simp] theorem Rings.get_set (g : Rings) (r q : RingId) (x : Ring) :
    (g.set r x).get q = if q = r then x else g.get q := by
  fin_cases r <;> fin_cases q <;> rfl

@[simp] theorem Rings.get_update (g : Rings) (f : RingId → Ring → Ring) (r : RingId) :
    (Rings.get { r0 := f 0 g.r0, r1 := f 1 g.r1, r2 := f 2 g.r2, r3 := f 3 g.r3 } r) = f r (g.get r) := by
  fin_cases r <;> rfl

@[simp] theorem State.setRing_ring (s : State) (r q : RingId) (x : Ring) :
    (s.setRing r x).ring q = if q = r then x else s.ring q := by
  simp [State.setRing, State.ring]

@[simp] theorem State.setRing_resetN (s : State) (r : RingId) (x : Ring) : (s.setRing r x).resetN = s.resetN := rfl
@[simp] theorem State.setRing_portA (s : State) (r : RingId) (x : Ring) : (s.setRing r x).portA = s.portA := rfl
@[simp] theorem State.setRing_portB (s : State) (r : RingId) (x : Ring) : (s.setRing r x).portB = s.portB := rfl
@[simp] theorem State.setRing_reach (s : State) (r : RingId) (x : Ring) : (s.setRing r x).reach = s.reach := rfl
@[simp] theorem State.setRing_cls (s : State) (r : RingId) (x : Ring) : (s.setRing r x).cls = s.cls := rfl
@[simp] theorem State.setRing_flow (s : State) (r : RingId) (x : Ring) : (s.setRing r x).flow = s.flow := rfl
@[simp] theorem State.setRing_time (s : State) (r : RingId) (x : Ring) : (s.setRing r x).time = s.time := rfl
@[simp] theorem State.setRing_sweep (s : State) (r : RingId) (x : Ring) : (s.setRing r x).sweep = s.sweep := rfl
@[simp] theorem State.setRing_walker (s : State) (r : RingId) (x : Ring) : (s.setRing r x).walker = s.walker := rfl
@[simp] theorem State.setRing_rq (s : State) (r : RingId) (x : Ring) : (s.setRing r x).rq = s.rq := rfl
@[simp] theorem State.setRing_rep (s : State) (r : RingId) (x : Ring) : (s.setRing r x).rep = s.rep := rfl
@[simp] theorem State.setRing_agent (s : State) (r : RingId) (x : Ring) : (s.setRing r x).agent = s.agent := rfl
@[simp] theorem State.setRing_lastResult (s : State) (r : RingId) (x : Ring) : (s.setRing r x).lastResult = s.lastResult := rfl
@[simp] theorem State.setRing_pending (s : State) (r : RingId) (x : Ring) : (s.setRing r x).pending = s.pending := rfl
@[simp] theorem State.setRing_now (s : State) (r : RingId) (x : Ring) : (s.setRing r x).now = s.now := rfl
@[simp] theorem State.setRing_port (s : State) (r : RingId) (x : Ring) (p : Port) : (s.setRing r x).port p = s.port p := by
  cases p <;> rfl
@[simp] theorem State.setRing_cells (s : State) (r : RingId) (x : Ring) : (s.setRing r x).cap.cells = s.cap.cells := rfl
@[simp] theorem State.setRing_epoch (s : State) (r : RingId) (x : Ring) : (s.setRing r x).cap.epoch = s.cap.epoch := rfl

/-! ## Counters and the line -/

@[simp] theorem State.setPortCounters_resetN (s : State) (p : Port) (c : PortCounters) : (s.setPortCounters p c).resetN = s.resetN := by
  cases p <;> rfl
@[simp] theorem State.setPortCounters_reach (s : State) (p : Port) (c : PortCounters) : (s.setPortCounters p c).reach = s.reach := by
  cases p <;> rfl
@[simp] theorem State.setPortCounters_cls (s : State) (p : Port) (c : PortCounters) : (s.setPortCounters p c).cls = s.cls := by
  cases p <;> rfl
@[simp] theorem State.setPortCounters_flow (s : State) (p : Port) (c : PortCounters) : (s.setPortCounters p c).flow = s.flow := by
  cases p <;> rfl
@[simp] theorem State.setPortCounters_time (s : State) (p : Port) (c : PortCounters) : (s.setPortCounters p c).time = s.time := by
  cases p <;> rfl
@[simp] theorem State.setPortCounters_sweep (s : State) (p : Port) (c : PortCounters) : (s.setPortCounters p c).sweep = s.sweep := by
  cases p <;> rfl
@[simp] theorem State.setPortCounters_walker (s : State) (p : Port) (c : PortCounters) : (s.setPortCounters p c).walker = s.walker := by
  cases p <;> rfl
@[simp] theorem State.setPortCounters_cap (s : State) (p : Port) (c : PortCounters) : (s.setPortCounters p c).cap = s.cap := by
  cases p <;> rfl
@[simp] theorem State.setPortCounters_rq (s : State) (p : Port) (c : PortCounters) : (s.setPortCounters p c).rq = s.rq := by
  cases p <;> rfl
@[simp] theorem State.setPortCounters_rep (s : State) (p : Port) (c : PortCounters) : (s.setPortCounters p c).rep = s.rep := by
  cases p <;> rfl
@[simp] theorem State.setPortCounters_agent (s : State) (p : Port) (c : PortCounters) : (s.setPortCounters p c).agent = s.agent := by
  cases p <;> rfl
@[simp] theorem State.setPortCounters_lastResult (s : State) (p : Port) (c : PortCounters) : (s.setPortCounters p c).lastResult = s.lastResult := by
  cases p <;> rfl
@[simp] theorem State.setPortCounters_pending (s : State) (p : Port) (c : PortCounters) : (s.setPortCounters p c).pending = s.pending := by
  cases p <;> rfl
@[simp] theorem State.setPortCounters_now (s : State) (p : Port) (c : PortCounters) : (s.setPortCounters p c).now = s.now := by
  cases p <;> rfl
@[simp] theorem State.setPortCounters_ring (s : State) (p : Port) (c : PortCounters) (r : RingId) :
    (s.setPortCounters p c).ring r = s.ring r := by
  cases p <;> rfl
@[simp] theorem State.emit_resetN (s : State) (p : Port) (x : LineSymbol) : (s.emit p x).resetN = s.resetN := by
  cases p <;> rfl
@[simp] theorem State.emit_reach (s : State) (p : Port) (x : LineSymbol) : (s.emit p x).reach = s.reach := by
  cases p <;> rfl
@[simp] theorem State.emit_cls (s : State) (p : Port) (x : LineSymbol) : (s.emit p x).cls = s.cls := by
  cases p <;> rfl
@[simp] theorem State.emit_flow (s : State) (p : Port) (x : LineSymbol) : (s.emit p x).flow = s.flow := by
  cases p <;> rfl
@[simp] theorem State.emit_time (s : State) (p : Port) (x : LineSymbol) : (s.emit p x).time = s.time := by
  cases p <;> rfl
@[simp] theorem State.emit_sweep (s : State) (p : Port) (x : LineSymbol) : (s.emit p x).sweep = s.sweep := by
  cases p <;> rfl
@[simp] theorem State.emit_walker (s : State) (p : Port) (x : LineSymbol) : (s.emit p x).walker = s.walker := by
  cases p <;> rfl
@[simp] theorem State.emit_cap (s : State) (p : Port) (x : LineSymbol) : (s.emit p x).cap = s.cap := by
  cases p <;> rfl
@[simp] theorem State.emit_rq (s : State) (p : Port) (x : LineSymbol) : (s.emit p x).rq = s.rq := by
  cases p <;> rfl
@[simp] theorem State.emit_rep (s : State) (p : Port) (x : LineSymbol) : (s.emit p x).rep = s.rep := by
  cases p <;> rfl
@[simp] theorem State.emit_agent (s : State) (p : Port) (x : LineSymbol) : (s.emit p x).agent = s.agent := by
  cases p <;> rfl
@[simp] theorem State.emit_lastResult (s : State) (p : Port) (x : LineSymbol) : (s.emit p x).lastResult = s.lastResult := by
  cases p <;> rfl
@[simp] theorem State.emit_pending (s : State) (p : Port) (x : LineSymbol) : (s.emit p x).pending = s.pending := by
  cases p <;> rfl
@[simp] theorem State.emit_now (s : State) (p : Port) (x : LineSymbol) : (s.emit p x).now = s.now := by
  cases p <;> rfl
@[simp] theorem State.emit_ring (s : State) (p : Port) (x : LineSymbol) (r : RingId) :
    (s.emit p x).ring r = s.ring r := by
  cases p <;> rfl

@[simp] theorem State.setPortCounters_port (s : State) (p q : Port) (c : PortCounters) :
    (s.setPortCounters p c).port q = if q = p then { s.port p with counters := c } else s.port q := by
  simp [State.setPortCounters]

@[simp] theorem State.emit_port (s : State) (p q : Port) (x : LineSymbol) :
    (s.emit p x).port q = if q = p then { s.port p with line := (s.port p).line ++ [x] } else s.port q := by
  simp [State.emit]

/-- Two states with the same ports and the same blocks are one. -/
theorem State.eq_of_blocks {s t : State} (h : ∀ p, s.port p = t.port p) (h0 : s.resetN = t.resetN) (h1 : s.reach = t.reach)
    (h2 : s.cls = t.cls) (h3 : s.flow = t.flow) (h4 : s.time = t.time) (h5 : s.sweep = t.sweep)
    (h6 : s.walker = t.walker) (h7 : s.cap = t.cap) (h8 : s.rq = t.rq) (h9 : s.rep = t.rep) (h10 : s.agent = t.agent)
    (h11 : s.lastResult = t.lastResult) (h12 : s.pending = t.pending) : s = t := by
  have hA := h .A
  have hB := h .B
  cases s
  cases t
  simp_all [State.port]

end Sys2Proof.Machine
end

