-- ==== Sys2Proof/Laws/Memory.lean ====
section
/-!
SUPPORT. The Capture Store: a byte written is read back, every other byte is left alone, and every operation keeps the
canonical form.
-/

namespace Sys2Proof.Machine

/-- Reading after a write of one byte. -/
theorem CaptureEngine.readByte_writeByte (c : CaptureEngine) (a x : Nat) (b : Byte) (h : a < 2048 * 64) :
    (c.writeByte a b).readByte x = if x = a then b else c.readByte x := by
  unfold CaptureEngine.writeByte CaptureEngine.readByte
  simp only [if_pos h, SMap.find_insert]
  split_ifs <;> rfl

theorem CaptureEngine.writeByte_wf {c : CaptureEngine} (a : Nat) (b : Byte) (h : Memory.wf c.cells) :
    Memory.wf (c.writeByte a b).cells := by
  unfold CaptureEngine.writeByte
  split_ifs with ha
  · refine ⟨SMap.insert_sorted a b h.1, fun x hx => ?_⟩
    rcases SMap.mem_insert hx with rfl | hx
    · exact ha
    · exact h.2 x hx
  · exact h

@[simp] theorem CaptureEngine.writeByte_rings (c : CaptureEngine) (a : Nat) (b : Byte) :
    (c.writeByte a b).rings = c.rings := by
  unfold CaptureEngine.writeByte
  split_ifs <;> rfl

@[simp] theorem CaptureEngine.writeByte_epoch (c : CaptureEngine) (a : Nat) (b : Byte) :
    (c.writeByte a b).epoch = c.epoch := by
  unfold CaptureEngine.writeByte
  split_ifs <;> rfl

theorem CaptureEngine.copyByte_wf {c : CaptureEngine} (id : RingId) (d : Direction) (n : Nat) (b : Byte)
    (h : Memory.wf c.cells) : Memory.wf (c.copyByte id d n b).cells := by
  unfold CaptureEngine.copyByte
  dsimp only
  split
  · exact h
  · split_ifs
    · exact CaptureEngine.writeByte_wf _ _ h
    · exact h

theorem CaptureEngine.copyBytes_wf {c : CaptureEngine} (id : RingId) (d : Direction) (n : Nat) (bs : List Byte)
    (h : Memory.wf c.cells) : Memory.wf (c.copyBytes id d n bs).cells := by
  unfold CaptureEngine.copyBytes
  induction bs generalizing c with
  | nil => exact h
  | cons b bs ih => exact ih (CaptureEngine.copyByte_wf id d n b h)

theorem attemptCapture_wf {q : CaptureRequest} {bs : List Byte} {s : State} (h : Memory.wf s.cap.cells) :
    Memory.wf (attemptCapture q bs s).1.cap.cells := by
  unfold attemptCapture
  dsimp only
  split_ifs
  · exact CaptureEngine.copyBytes_wf _ _ _ _ h
  · exact h

theorem CaptureEngine.reset_wf (n : Nat) : Memory.wf (CaptureEngine.reset n).cells := by
  simp [CaptureEngine.reset, Memory.wf, SMap.Sorted]

/-- The Capture Store after reset has the canonical form. -/
theorem State.reset_memory_wf : Memory.wf State.reset.cap.cells := CaptureEngine.reset_wf 0

end Sys2Proof.Machine
end

