-- ==== Sys2Proof/Laws/Rings.lean ====
section
/-!
SUPPORT. The Capture Rings: what each shared operation over descriptors and captured bytes does, said once for each in the
terms of Safety.
-/

namespace Sys2Proof.Machine

/-! ## Access to the rings and their descriptors -/

theorem Rings.set_set (g : Rings) (r : RingId) (x y : Ring) : (g.set r x).set r y = g.set r y := by
  fin_cases r <;> rfl

theorem Rings.set_get (g : Rings) (r : RingId) : g.set r (g.get r) = g := by
  fin_cases r <;> rfl

theorem Ring.desc_setDesc (r : Ring) (i j : Nat) (x : Descriptor) :
    (r.setDesc i x).desc j = if j = i then x else r.desc j := by
  simp [Ring.setDesc, Ring.desc]

theorem Ring.mem_positions {r : Ring} {i n j : Nat} : j ∈ r.positions i n ↔ ∃ k, k < n ∧ j = (i + k) % r.size := by
  simp only [Ring.positions, List.mem_map, List.mem_range]
  exact ⟨fun ⟨k, hk, e⟩ => ⟨k, hk, e.symm⟩, fun ⟨k, hk, e⟩ => ⟨k, hk, e.symm⟩⟩

/-- Setting states changes the states of the descriptors named, and nothing else of the ring. -/
theorem Ring.setStates_spec (r : Ring) (st : DescState) (ps : List Nat) :
    (∀ j, (r.setStates ps st).desc j = if j ∈ ps then { r.desc j with state := st } else r.desc j)
      ∧ r.setStates ps st = { r with descriptors := (r.setStates ps st).descriptors } := by
  induction ps generalizing r with
  | nil => exact ⟨fun j => by simp [Ring.setStates], rfl⟩
  | cons a ps ih =>
    have step : r.setStates (a :: ps) st = (r.setDesc a { r.desc a with state := st }).setStates ps st := rfl
    obtain ⟨hd, he⟩ := ih (r.setDesc a { r.desc a with state := st })
    rw [step]
    refine ⟨fun j => ?_, by rw [he]; rfl⟩
    rw [hd j, Ring.desc_setDesc]
    by_cases hj : j = a
    · subst hj
      simp
    · simp [hj]

/-- A ring with the descriptors of a zone set to a state, whatever its other fields. -/
theorem zoneBecomes_of_setStates {r h : Ring} {i n : Nat} {st : DescState}
    (hd : h.descriptors = (r.setStates (r.positions i n) st).descriptors) : ZoneBecomes r h i n st := by
  have key : ∀ j, h.desc j = if j ∈ r.positions i n then { r.desc j with state := st } else r.desc j := by
    intro j
    rw [← (r.setStates_spec st (r.positions i n)).1 j]
    unfold Ring.desc
    rw [hd]
  refine ⟨fun k hk => ?_, fun j hj => ?_⟩
  · rw [key, if_pos (Ring.mem_positions.2 ⟨k, hk, rfl⟩)]
  · rw [key, if_neg fun hm => ?_]
    obtain ⟨k, hk, e⟩ := Ring.mem_positions.1 hm
    exact hj k hk e

/-- The captures of a run of descriptors, counted by their Firsts. -/
theorem Ring.countCaptures_eq (r : Ring) (i n : Nat) : r.countCaptures i n = r.capturesIn i n := by
  unfold Ring.countCaptures Ring.capturesIn Ring.positions
  rw [List.filter_map, List.length_map]
  rfl

/-- The captures of two runs that lie one after the other. -/
theorem Ring.capturesIn_add (g : Ring) (i a b : Nat) :
    g.capturesIn i (a + b) = g.capturesIn i a + g.capturesIn (i + a) b := by
  unfold Ring.capturesIn
  rw [List.range_add, List.filter_append, List.length_append, List.filter_map, List.length_map]
  congr 3
  funext k
  simp [Nat.add_assoc]

/-! ## Export (R96, R97) -/

/-- A take moves descriptors of FILLED, no more than are there, to IN_REPORT. -/
theorem Ring.take_spec (g : Ring) (n : Nat) :
    ZoneBecomes g (g.take n) g.send (min n g.filled) .inReport
      ∧ g.take n = { g with
          send := (g.send + min n g.filled) % g.size, inReport := g.inReport + min n g.filled,
          filled := g.filled - min n g.filled, descriptors := (g.take n).descriptors } := by
  refine ⟨zoneBecomes_of_setStates rfl, ?_⟩
  have h := (g.setStates_spec .inReport (g.positions g.send (min n g.filled))).2
  unfold Ring.take
  dsimp only
  rw [h]

/-- A release moves descriptors of IN_REPORT, no more than are there, to FREE, and counts their captures. -/
theorem Ring.releaseCaptures_spec (g : Ring) (n : Nat) :
    ZoneBecomes g (g.releaseCaptures n) g.release (min n g.inReport) .free
      ∧ g.releaseCaptures n = { g with
          release := (g.release + min n g.inReport) % g.size, inReport := g.inReport - min n g.inReport,
          free := g.free + min n g.inReport, descriptors := (g.releaseCaptures n).descriptors,
          counters := { g.counters with
            exported := g.counters.exported + word (g.capturesIn g.release (min n g.inReport)) } } := by
  refine ⟨zoneBecomes_of_setStates rfl, ?_⟩
  have h := (g.setStates_spec .free (g.positions g.release (min n g.inReport))).2
  unfold Ring.releaseCaptures
  dsimp only
  rw [g.countCaptures_eq, h]

/-- A discard moves every descriptor of IN_REPORT to FREE, and counts their captures (R98). -/
theorem Ring.discardInReport_spec (g : Ring) :
    ZoneBecomes g g.discardInReport g.release g.inReport .free
      ∧ g.discardInReport = { g with
          release := g.send, inReport := 0, free := g.free + g.inReport, descriptors := g.discardInReport.descriptors,
          counters := { g.counters with
            discarded := g.counters.discarded + word (g.capturesIn g.release g.inReport) } } := by
  refine ⟨zoneBecomes_of_setStates rfl, ?_⟩
  have h := (g.setStates_spec .free (g.positions g.release g.inReport)).2
  unfold Ring.discardInReport
  rw [g.countCaptures_eq, h]

/-! ## The end of a capture (R92, R94), activation and deactivation (R86, R87) -/

/-- An abandonment moves every descriptor of FILLING to FREE. -/
theorem Ring.abandon_spec (g : Ring) :
    ZoneBecomes g g.abandon g.fill g.filling .free
      ∧ g.abandon = { g with
          filling := 0, free := g.free + g.filling, capture := none, descriptors := g.abandon.descriptors } := by
  refine ⟨zoneBecomes_of_setStates rfl, ?_⟩
  have h := (g.setStates_spec .free (g.positions g.fill g.filling)).2
  unfold Ring.abandon
  rw [h]

/-- A completion, by its descriptors: those unused FREE, those used FILLED, the last of these with Last set, and the first with
what the frame end settles (R92, R93). -/
theorem Ring.complete_spec (g : Ring) (f : Filling) (length : Nat) (ending : Ending) (entry : Option Nat) :
    let u := descriptorsOf (min f.slice length)
    (∀ j, (g.complete f length ending entry).desc j = { g.desc j with
        state := if j ∈ g.positions (g.fill + u) (g.filling - u) then .free
          else if j ∈ g.positions g.fill u then .filled else (g.desc j).state
        last := if j = (g.fill + u - 1) % g.size then true else (g.desc j).last
        info := if j = g.fill % g.size then (g.desc j).info.map fun i =>
          { i with length := some length, flag := ending, entry := entry } else (g.desc j).info })
      ∧ g.complete f length ending entry = { g with
          fill := (g.fill + u) % g.size, filled := g.filled + u, free := g.free + (g.filling - u), filling := 0,
          capture := none, counters := { g.counters with completed := g.counters.completed + 1 },
          descriptors := (g.complete f length ending entry).descriptors } := by
  intro u
  obtain ⟨d1, e1⟩ := g.setStates_spec .filled (g.positions g.fill u)
  obtain ⟨d2, e2⟩ := (g.setStates (g.positions g.fill u) .filled).setStates_spec .free
    (g.positions (g.fill + u) (g.filling - u))
  have hdesc : ∀ j, ((g.setStates (g.positions g.fill u) .filled).setStates
      (g.positions (g.fill + u) (g.filling - u)) .free).desc j
        = { g.desc j with
            state := if j ∈ g.positions (g.fill + u) (g.filling - u) then .free
              else if j ∈ g.positions g.fill u then .filled else (g.desc j).state } := fun j => by
    rw [d2, d1]
    split_ifs <;> rfl
  generalize hr : (g.setStates (g.positions g.fill u) .filled).setStates (g.positions (g.fill + u) (g.filling - u)) .free
    = r1 at hdesc e2
  have he1 : r1 = { g with descriptors := r1.descriptors } := by
    conv_lhs => rw [e2, e1]
  refine ⟨fun j => ?_, ?_⟩
  · have whole : (g.complete f length ending entry).desc j =
        (let firstD := r1.desc (g.fill % g.size)
        let r2 := r1.setDesc (g.fill % g.size) { firstD with
          info := firstD.info.map fun i => { i with length := some length, flag := ending, entry := entry } }
        let lastAt := (g.fill + u - 1) % g.size
        (r2.setDesc lastAt { r2.desc lastAt with last := true }).desc j) := by
      rw [← hr]
      rfl
    rw [whole]
    dsimp only
    simp only [Ring.desc_setDesc]
    generalize (g.fill + u - 1) % g.size = y
    generalize g.fill % g.size = x
    by_cases hy : j = y
    · subst hy
      by_cases hx : j = x
      · subst hx
        simp only [if_true, hdesc]
      · simp only [if_true, if_neg hx, hdesc]
    · by_cases hx : j = x
      · subst hx
        simp only [if_true, if_neg hy, hdesc]
      · simp only [if_neg hy, if_neg hx, hdesc]
  · unfold Ring.complete
    dsimp only [Ring.setDesc]
    rw [show descriptorsOf (min f.slice length) = u from rfl, hr, he1]

/-- Every descriptor FREE, its other fields kept. -/
theorem Ring.freeAll_spec (r : Ring) :
    (∀ j, r.freeAll.desc j = { r.desc j with state := .free }) ∧ r.freeAll = { r with descriptors := r.freeAll.descriptors } := by
  obtain ⟨hd, he⟩ := r.setStates_spec .free (r.descriptors.map (·.1))
  refine ⟨fun j => (hd j).trans ?_, he⟩
  split_ifs with hj
  · rfl
  · have : SMap.find r.descriptors j = none :=
      (SMap.find_none_iff _ _).2 fun x hx e => hj (List.mem_map.2 ⟨x, hx, e⟩)
    simp [Ring.desc, SMap.get, this, Descriptor.reset]

/-! ## Reservation and copy (R90, R91) -/

/-- An attempt that reserves leaves the ring filling a capture of the frame, none of it copied. -/
theorem Ring.attempt_capture {r : Ring} {q : CaptureRequest} (h : (r.attempt q).2 = true) :
    (r.attempt q).1.capture = some { dir := q.dir, serial := q.serial, slice := q.slice, copied := 0 } := by
  unfold Ring.attempt at h ⊢
  dsimp only at h ⊢
  split_ifs with h1 h2
  · simp [h1] at h
  · simp [h1, h2] at h
  · rfl

/-- One more byte of the frame: nothing once the slice is held, else one byte written, one Byte Count raised. -/
theorem CaptureEngine.copyByte_eq {c : CaptureEngine} {id : RingId} {dir : Direction} {serial : Nat} {b : Byte} {f : Filling}
    (hc : (c.rings.get id).capture = some f) (hd : f.dir = dir) (hs : f.serial = serial) :
    c.copyByte id dir serial b = if f.copied < f.slice then
      (let r := c.rings.get id
      let i := (r.fill + f.copied / 64) % r.size
      { c.writeByte (r.cellAddress r.fill f.copied) b with
        rings := c.rings.set id { r.setDesc i { r.desc i with byteCount := (r.desc i).byteCount + 1 } with
          capture := some { f with copied := f.copied + 1 } } })
      else c := by
  have hf : (c.rings.get id).fillingFor dir serial = true := by
    unfold Ring.fillingFor
    simp [hc, hd, hs]
  unfold CaptureEngine.copyByte
  simp only [hc, hf, Bool.true_and, decide_eq_true_eq]

/-- Two bytes of one capture of at most 256 bytes, in a ring of 4 cells or more, lie in different places. -/
theorem place_injective {base fill size m n : Nat} (hm : m < n) (hn : n < 256) (h4 : 4 ≤ size) :
    64 * (base + (fill + m / 64) % size) + m % 64 ≠ 64 * (base + (fill + n / 64) % size) + n % 64 := by
  intro h
  have hc : (fill + m / 64) % size = (fill + n / 64) % size := by omega
  have hq : m / 64 % size = n / 64 % size := Nat.ModEq.add_left_cancel' fill hc
  rw [Nat.mod_eq_of_lt (by omega), Nat.mod_eq_of_lt (by omega)] at hq
  omega

/-- Received bytes go into the capture as R91 says. -/
theorem CaptureEngine.copyBytes_spec (c : CaptureEngine) (id : RingId) (dir : Direction) (serial : Nat) (bs : List Byte)
    (f0 : Filling) (h0 : (c.rings.get id).capture = some f0) (hd : f0.dir = dir) (hs : f0.serial = serial) :
    CopiesBytes c (c.copyBytes id dir serial bs) id bs := by
  unfold CopiesBytes
  dsimp only
  intro f hf h256 h4 hst
  obtain rfl : f0 = f := Option.some.inj (h0.symm.trans hf)
  induction bs using List.reverseRecOn with
  | nil =>
    refine ⟨by simp, by simp [CaptureEngine.copyBytes], by simp [CaptureEngine.copyBytes], ?_⟩
    have same : ({ c.rings.get id with
        capture := some { f0 with copied := f0.copied }, descriptors := (c.rings.get id).descriptors } : Ring)
          = c.rings.get id := by
      rw [show ({ f0 with copied := f0.copied } : Filling) = f0 from rfl, ← h0]
    simp only [CaptureEngine.copyBytes, List.foldl_nil, List.length_nil, Nat.zero_min, Nat.add_zero]
    rw [same, Rings.set_get]
  | append_singleton bs b ih =>
    obtain ⟨hread, hother, hcount, hwhole⟩ := ih
    have e : c.copyBytes id dir serial (bs ++ [b]) = (c.copyBytes id dir serial bs).copyByte id dir serial b := by
      simp [CaptureEngine.copyBytes]
    rw [e]
    generalize c.copyBytes id dir serial bs = d at *
    set g := c.rings.get id with hg
    have hring : d.rings.get id = { g with
        capture := some { f0 with copied := f0.copied + min bs.length (f0.slice - f0.copied) }
        descriptors := (d.rings.get id).descriptors } := by
      conv_lhs => rw [hwhole]
      simp
    have hcap : (d.rings.get id).capture
        = some { f0 with copied := f0.copied + min bs.length (f0.slice - f0.copied) } := by rw [hring]
    rw [CaptureEngine.copyByte_eq hcap hd hs]
    have hlen : (bs ++ [b]).length = bs.length + 1 := List.length_append
    dsimp only
    by_cases hfull : f0.copied + bs.length < f0.slice
    · have hk : min bs.length (f0.slice - f0.copied) = bs.length := by omega
      have hk' : min (bs ++ [b]).length (f0.slice - f0.copied) = bs.length + 1 := by omega
      rw [hk] at hread hother hcount hwhole hring hcap
      rw [hk, hk', if_pos hfull]
      have haddr : (d.rings.get id).cellAddress (d.rings.get id).fill (f0.copied + bs.length)
          = 64 * (g.baseCell + (g.fill + (f0.copied + bs.length) / 64) % g.size) + (f0.copied + bs.length) % 64 := by
        unfold Ring.cellAddress
        rw [hring]
      have hidx : ((d.rings.get id).fill + (f0.copied + bs.length) / 64) % (d.rings.get id).size
          = (g.fill + (f0.copied + bs.length) / 64) % g.size := by rw [hring]
      rw [haddr, hidx]
      have hlt : 64 * (g.baseCell + (g.fill + (f0.copied + bs.length) / 64) % g.size) + (f0.copied + bs.length) % 64
          < 2048 * 64 := by
        have := Nat.mod_lt (g.fill + (f0.copied + bs.length) / 64) (show 0 < g.size by omega)
        have := Nat.mod_lt (f0.copied + bs.length) (show 0 < 64 by omega)
        omega
      refine ⟨fun j hj => ?_, fun a ha => ?_, fun i => ?_, ?_⟩
      · refine (CaptureEngine.readByte_writeByte d _ _ b hlt).trans ?_
        rcases Nat.lt_succ_iff_lt_or_eq.1 hj with hj | rfl
        · rw [if_neg (place_injective (by omega) (by omega) h4), hread j hj]
          simp [List.getD, List.getElem?_append, hj]
        · simp [List.getD]
      · refine (CaptureEngine.readByte_writeByte d _ _ b hlt).trans ?_
        rw [if_neg (ha bs.length (by omega))]
        exact hother a fun j hj => ha j (by omega)
      · simp only [Rings.get_set, if_true]
        refine (Ring.desc_setDesc _ _ _ _).trans ?_
        rw [List.range_succ, List.filter_append]
        by_cases hi : i = (g.fill + (f0.copied + bs.length) / 64) % g.size
        · subst hi
          rw [if_pos rfl, hcount]
          simp [Nat.add_assoc]
        · rw [if_neg hi, hcount]
          simp [Ne.symm hi]
      · have hepoch := CaptureEngine.writeByte_epoch d
          (64 * (g.baseCell + (g.fill + (f0.copied + bs.length) / 64) % g.size) + (f0.copied + bs.length) % 64) b
        have hset : ∀ x, d.rings.set id x = c.rings.set id x := by
          intro x
          conv_lhs => rw [hwhole]
          exact Rings.set_set _ _ _ _
        refine (CaptureEngine.mk.injEq ..).mpr ⟨?_, rfl, hepoch.trans (by rw [hwhole])⟩
        rw [hset]
        simp only [Rings.get_set, if_true]
        congr 1
        generalize d.rings.get id = q at hring
        clear_value g
        cases q
        cases g
        simp only [Ring.mk.injEq] at hring
        simp [Ring.setDesc, hring, Nat.add_assoc]
    · have hk : min bs.length (f0.slice - f0.copied) = f0.slice - f0.copied := by omega
      have hk' : min (bs ++ [b]).length (f0.slice - f0.copied) = f0.slice - f0.copied := by omega
      rw [hk, if_neg (by omega), hk']
      rw [hk] at hread hother hcount hwhole
      refine ⟨fun j hj => ?_, hother, hcount, hwhole⟩
      rw [hread j hj]
      have : j < bs.length := by omega
      simp [List.getD, List.getElem?_append, this]

end Sys2Proof.Machine
end

