-- ==== Sys2Proof/Laws/Arranged.lean ====
section
/-!
SUPPORT. Every operation on a Capture Ring keeps its arrangement (R89) and the conservation of its captures (R99). The
arrangement is read by the distance of a descriptor from the Release Index, where the four zones lie one after the other.
-/

namespace Sys2Proof.Machine

/-- A ring arranged as R89 says whose captures are conserved as R99 says. -/
def RingHeld (r : Ring) : Prop := RingArranged r ∧ CapturesConserved r

/-! ## Places by their distance from the Release Index -/

theorem place_unique {b n j k : Nat} (hj : j < n) (hk : k < n) (h : (b + j) % n = (b + k) % n) : j = k := by
  have h' : j % n = k % n := Nat.ModEq.add_left_cancel' b h
  rwa [Nat.mod_eq_of_lt hj, Nat.mod_eq_of_lt hk] at h'

/-- The state of the descriptor at distance `j` when the zones have the sizes given. -/
def stateAt (inReport filled filling j : Nat) : DescState :=
  if j < inReport then .inReport
  else if j < inReport + filled then .filled
  else if j < inReport + filled + filling then .filling
  else .free

/-- The arrangement of an active ring, by distance. -/
structure Ring.Zoned (r : Ring) : Prop where
  sum : r.inReport + r.filled + r.filling + r.free = r.size
  few : r.filling ≤ 4
  release : r.release < r.size
  send : r.send = (r.release + r.inReport) % r.size
  fill : r.fill = (r.release + (r.inReport + r.filled)) % r.size
  cells : r.baseCell + r.size ≤ 2048
  states : ∀ j, j < r.size → (r.desc ((r.release + j) % r.size)).state = stateAt r.inReport r.filled r.filling j
  marks : ∀ k, k < r.filling →
    ((r.desc ((r.release + (r.inReport + r.filled + k)) % r.size)).first = true ↔ k = 0)
      ∧ (r.desc ((r.release + (r.inReport + r.filled + k)) % r.size)).last = false

/-- What holds of the capture being filled, active or not. -/
def Ring.FillingOwned (r : Ring) : Prop :=
  (r.filling = match r.capture with
    | some f => descriptorsOf f.slice
    | none => 0) ∧ (∀ f, r.capture = some f → 1 ≤ f.slice) ∧ 0 < r.size

theorem Ring.Zoned.of_arranged {r : Ring} (h : RingArranged r) (ha : r.active = true) : r.Zoned := by
  obtain ⟨h1, -⟩ := h
  obtain ⟨hsum, hfew, hrel, hsend, hfill, hcells, z1, z2, z3, z4, hf⟩ := h1 ha
  have hfill' : r.fill = (r.release + (r.inReport + r.filled)) % r.size := by
    rw [hfill, hsend, Nat.mod_add_mod, Nat.add_assoc]
  refine ⟨hsum, hfew, hrel, hsend, hfill', hcells, fun j hj => ?_, fun k hk => ?_⟩
  · unfold stateAt
    split_ifs with c1 c2 c3
    · exact z1 j c1
    · have := z2 (j - r.inReport) (by omega)
      rwa [hsend, Nat.mod_add_mod, show r.release + r.inReport + (j - r.inReport) = r.release + j by omega] at this
    · have := z3 (j - (r.inReport + r.filled)) (by omega)
      rwa [hfill', Nat.mod_add_mod,
        show r.release + (r.inReport + r.filled) + (j - (r.inReport + r.filled)) = r.release + j by omega] at this
    · have := z4 (j - (r.inReport + r.filled + r.filling)) (by omega)
      rwa [hfill', Nat.add_assoc, Nat.mod_add_mod,
        show r.release + (r.inReport + r.filled) + (r.filling + (j - (r.inReport + r.filled + r.filling)))
          = r.release + j by omega] at this
  · have := hf k hk
    rwa [hfill', Nat.mod_add_mod,
      show r.release + (r.inReport + r.filled) + k = r.release + (r.inReport + r.filled + k) by omega] at this

theorem Ring.Zoned.arranged {r : Ring} (z : r.Zoned) (ha : r.active = true) (ho : r.FillingOwned) : RingArranged r := by
  have hs := z.sum
  refine ⟨fun _ => ⟨z.sum, z.few, z.release, z.send, ?_, z.cells, fun k hk => ?_, fun k hk => ?_, fun k hk => ?_,
    fun k hk => ?_, fun k hk => ?_⟩, fun h => absurd (ha.symm.trans h) (by decide), ho.1, ho.2.1, ho.2.2⟩
  · rw [z.fill, z.send, Nat.mod_add_mod, Nat.add_assoc]
  · rw [z.states k (by omega), stateAt, if_pos hk]
  · rw [z.send, Nat.mod_add_mod, Nat.add_assoc, z.states _ (by omega), stateAt, if_neg (by omega), if_pos (by omega)]
  · rw [z.fill, Nat.mod_add_mod, Nat.add_assoc, z.states _ (by omega), stateAt, if_neg (by omega), if_neg (by omega),
      if_pos (by omega)]
  · rw [z.fill, Nat.add_assoc, Nat.mod_add_mod, Nat.add_assoc, z.states _ (by omega), stateAt, if_neg (by omega),
      if_neg (by omega), if_neg (by omega)]
  · rw [z.fill, Nat.mod_add_mod, show r.release + (r.inReport + r.filled) + k = r.release + (r.inReport + r.filled + k) by omega]
    exact z.marks k hk

theorem RingArranged.owned {r : Ring} (h : RingArranged r) : r.FillingOwned := ⟨h.2.2.1, h.2.2.2.1, h.2.2.2.2⟩

/-- Descriptors of a zone at distance `x` that take a new state, by distance. -/
theorem ZoneBecomes.states {g h : Ring} {i n x : Nat} {st : DescState} (z : ZoneBecomes g h i n st)
    (hi : ∀ k, (i + k) % g.size = (g.release + (x + k)) % g.size) (hx : x + n ≤ g.size) {j : Nat} (hj : j < g.size) :
    (h.desc ((g.release + j) % g.size)).state
      = if x ≤ j ∧ j < x + n then st else (g.desc ((g.release + j) % g.size)).state := by
  split_ifs with c
  · have := z.1 (j - x) (by omega)
    rw [hi, show x + (j - x) = j by omega] at this
    rw [this]
  · rw [z.2]
    intro k hk e
    rw [hi] at e
    exact c (by have := place_unique hj (by omega) e; omega)

theorem ZoneBecomes.first {g h : Ring} {i n : Nat} {st : DescState} (z : ZoneBecomes g h i n st) (j : Nat) :
    (h.desc j).first = (g.desc j).first := by
  by_cases hj : ∃ k, k < n ∧ j = (i + k) % g.size
  · obtain ⟨k, hk, rfl⟩ := hj
    rw [z.1 k hk]
  · rw [z.2 j fun k hk e => hj ⟨k, hk, e⟩]

theorem ZoneBecomes.last {g h : Ring} {i n : Nat} {st : DescState} (z : ZoneBecomes g h i n st) (j : Nat) :
    (h.desc j).last = (g.desc j).last := by
  by_cases hj : ∃ k, k < n ∧ j = (i + k) % g.size
  · obtain ⟨k, hk, rfl⟩ := hj
    rw [z.1 k hk]
  · rw [z.2 j fun k hk e => hj ⟨k, hk, e⟩]

/-- Rings of one size whose descriptors agree in First hold the same captures in the same run. -/
theorem Ring.capturesIn_congr {g h : Ring} {i n : Nat} (hs : h.size = g.size)
    (hf : ∀ k, k < n → (h.desc ((i + k) % g.size)).first = (g.desc ((i + k) % g.size)).first) :
    h.capturesIn i n = g.capturesIn i n := by
  unfold Ring.capturesIn
  congr 1
  refine List.filter_congr fun k hk => ?_
  rw [hs, hf k (List.mem_range.1 hk)]

/-- A run counts from any index of the same place. -/
theorem Ring.capturesIn_mod (g : Ring) (i n : Nat) : g.capturesIn (i % g.size) n = g.capturesIn i n := by
  unfold Ring.capturesIn
  simp only [Nat.mod_add_mod]

/-! ## Export (R96, R97, R98) -/

theorem word_add (a b : Nat) : word (a + b) = word a + word b := by simp [word, BitVec.ofNat_add]

theorem RingHeld.take {g : Ring} (h : RingHeld g) (n : Nat) : RingHeld (g.take n) := by
  obtain ⟨hz, he⟩ := g.take_spec n
  generalize g.take n = t at hz he
  have hcap : t.capturesIn t.release (t.inReport + t.filled) = g.capturesIn g.release (g.inReport + g.filled) := by
    rw [show t.release = g.release by rw [he], show t.inReport + t.filled = g.inReport + g.filled by rw [he]; dsimp only; omega]
    exact Ring.capturesIn_congr (by rw [he]) fun k _ => hz.first _
  refine ⟨?_, by unfold CapturesConserved; rw [hcap, show t.counters = g.counters by rw [he]]; exact h.2⟩
  have ho : t.FillingOwned := by
    have := h.1.owned
    unfold Ring.FillingOwned at this ⊢
    rw [he]
    exact this
  cases ha : g.active with
  | false =>
    obtain ⟨h1, h2, h3, h4, h5, h6⟩ := h.1.2.1 ha
    refine ⟨fun hc => ?_, fun _ => ?_, ho⟩
    · rw [he] at hc
      exact absurd (ha.symm.trans hc) (by decide)
    · have hd : ∀ j, t.desc j = g.desc j := fun j => hz.2 j fun k hk => by omega
      rw [he]
      refine ⟨by dsimp only; omega, by dsimp only; omega, h3, h4, h5, fun i => ?_⟩
      have := hd i
      rw [he] at this
      rw [this]
      exact h6 i
  | true =>
    have z := Ring.Zoned.of_arranged h.1 ha
    have hs := z.sum
    have hstates : ∀ j, j < g.size → _ := fun j hj => hz.states (x := g.inReport)
      (fun k => by rw [z.send, Nat.mod_add_mod, Nat.add_assoc]) (by omega) hj
    refine Ring.Zoned.arranged ?_ (by rw [he]; exact ha) ho
    have e1 : t.size = g.size := by rw [he]
    have e2 : t.release = g.release := by rw [he]
    have e3 : t.inReport = g.inReport + min n g.filled := by rw [he]
    have e4 : t.filled = g.filled - min n g.filled := by rw [he]
    have e5 : t.filling = g.filling := by rw [he]
    have e6 : t.send = (g.send + min n g.filled) % g.size := by rw [he]
    have e7 : t.fill = g.fill := by rw [he]
    have e8 : t.free = g.free := by rw [he]
    have e9 : t.baseCell = g.baseCell := by rw [he]
    refine ⟨by omega, by have := z.few; omega, by rw [e1, e2]; exact z.release, ?_, ?_, by rw [e1, e9]; exact z.cells,
      fun j hj => ?_, fun k hk => ?_⟩
    · rw [e6, e1, e2, e3, z.send, Nat.mod_add_mod, Nat.add_assoc]
    · rw [e7, e1, e2, e3, e4, z.fill]
      congr 2
      omega
    · rw [e1] at hj
      rw [e1, e2, e3, e4, e5, hstates j hj, z.states j hj]
      unfold stateAt
      split_ifs <;> first | rfl | omega
    · rw [e5] at hk
      rw [e1, e2, hz.first, hz.last, show t.inReport + t.filled + k = g.inReport + g.filled + k by omega]
      exact z.marks k hk

theorem Ring.capturesIn_zero (g : Ring) (i : Nat) : g.capturesIn i 0 = 0 := rfl

/-- The first `m` descriptors of IN_REPORT freed, the Release Index moved past them and their captures counted out. -/
theorem RingHeld.free_front {g t : Ring} {m : Nat} (h : RingHeld g) (hm : m ≤ g.inReport)
    (hz : ZoneBecomes g t g.release m .free)
    (he : t = { g with
      release := t.release, inReport := g.inReport - m, free := g.free + m, descriptors := t.descriptors,
      counters := t.counters })
    (hr : g.active = true → t.release = (g.release + m) % g.size)
    (hc : t.counters.completed = g.counters.completed)
    (hn : t.counters.exported + t.counters.discarded
      = g.counters.exported + g.counters.discarded + word (g.capturesIn g.release m)) : RingHeld t := by
  have e1 : t.size = g.size := by rw [he]
  have e3 : t.inReport = g.inReport - m := by rw [he]
  have e4 : t.filled = g.filled := by rw [he]
  have e5 : t.filling = g.filling := by rw [he]
  have ho : t.FillingOwned := by
    have := h.1.owned
    unfold Ring.FillingOwned at this ⊢
    rw [he]
    exact this
  have conserved : g.capturesIn g.release (g.inReport + g.filled)
      = g.capturesIn g.release m + t.capturesIn t.release (t.inReport + t.filled) → CapturesConserved t := by
    intro hsplit
    have hg := h.2
    unfold CapturesConserved at hg ⊢
    rw [hsplit, word_add] at hg
    rw [hc, hg, BitVec.add_assoc (word (t.capturesIn t.release (t.inReport + t.filled))), hn]
    ac_rfl
  cases ha : g.active with
  | false =>
    obtain ⟨h1, h2, h3, h4, h5, h6⟩ := h.1.2.1 ha
    have hm0 : m = 0 := by omega
    subst hm0
    refine ⟨⟨fun hb => ?_, fun _ => ?_, ho⟩, conserved ?_⟩
    · rw [he] at hb
      exact absurd (ha.symm.trans hb) (by decide)
    · have hd : ∀ j, t.desc j = g.desc j := fun j => hz.2 j fun k hk => by omega
      refine ⟨by omega, by omega, by omega, by rw [he]; exact h4, by rw [he]; exact h5, fun i => ?_⟩
      rw [hd i]
      exact h6 i
    · rw [h1, h2, e3, e4, h1, h2]
      rfl
  | true =>
    have z := Ring.Zoned.of_arranged h.1 ha
    have hs := z.sum
    have e2 := hr ha
    have e6 : t.send = g.send := by rw [he]
    have e7 : t.fill = g.fill := by rw [he]
    have e8 : t.free = g.free + m := by rw [he]
    have e9 : t.baseCell = g.baseCell := by rw [he]
    have hstates : ∀ j, j < g.size → _ := fun j hj => hz.states (x := 0)
      (fun k => by rw [Nat.zero_add]) (by omega) hj
    have place : ∀ j, (t.release + j) % g.size = (g.release + (m + j)) % g.size := fun j => by
      rw [e2, Nat.mod_add_mod, Nat.add_assoc]
    refine ⟨Ring.Zoned.arranged ⟨by omega, by have := z.few; omega, ?_, ?_, ?_, by rw [e1, e9]; exact z.cells,
      fun j hj => ?_, fun k hk => ?_⟩ (by rw [he]; exact ha) ho, conserved ?_⟩
    · rw [e1, e2]
      exact Nat.mod_lt _ (e1 ▸ ho.2.2)
    · rw [e1, e6, place, e3, z.send]
      congr 2
      omega
    · rw [e1, e7, place, e3, e4, z.fill]
      congr 2
      omega
    · rw [e1] at hj
      rw [e1, place, e3, e4, e5]
      rcases Nat.lt_or_ge (m + j) g.size with hlt | hge
      · rw [hstates _ hlt, z.states _ hlt]
        unfold stateAt
        split_ifs <;> first | rfl | omega
      · have wrap : (g.release + (m + j)) % g.size = (g.release + (m + j - g.size)) % g.size := by
          rw [show g.release + (m + j) = g.release + (m + j - g.size) + g.size by omega, Nat.add_mod_right]
        rw [wrap, hstates _ (by omega), if_pos (by omega)]
        unfold stateAt
        split_ifs <;> first | rfl | omega
    · rw [e5] at hk
      rw [e1, place, hz.first, hz.last, show m + (t.inReport + t.filled + k) = g.inReport + g.filled + k by omega]
      exact z.marks k hk
    · rw [show g.inReport + g.filled = m + (t.inReport + t.filled) by omega, Ring.capturesIn_add]
      congr 1
      rw [Ring.capturesIn_congr (g := g) e1 fun k _ => hz.first _, e2, Ring.capturesIn_mod]

theorem RingHeld.releaseCaptures {g : Ring} (h : RingHeld g) (n : Nat) : RingHeld (g.releaseCaptures n) := by
  obtain ⟨hz, he⟩ := g.releaseCaptures_spec n
  refine h.free_front (Nat.min_le_right n g.inReport) hz ?_ (fun _ => by rw [he]) (by rw [he]) ?_
  · conv_lhs => rw [he]
    conv_rhs => rw [he]
  · rw [he]
    dsimp only
    ac_rfl

theorem RingHeld.discardInReport {g : Ring} (h : RingHeld g) : RingHeld g.discardInReport := by
  obtain ⟨hz, he⟩ := g.discardInReport_spec
  refine h.free_front (Nat.le_refl g.inReport) hz ?_ (fun ha => ?_) (by rw [he]) ?_
  · conv_lhs => rw [he]
    rw [Nat.sub_self]
    conv_rhs => rw [he]
  · rw [show g.discardInReport.release = g.send by rw [he]]
    exact (Ring.Zoned.of_arranged h.1 ha).send
  · rw [he]
    dsimp only
    ac_rfl

/-! ## Capture (R90, R91, R92, R94) -/

/-- A change that leaves the states, the Firsts and Lasts, the indices, the counts and the conservation counters alone. -/
theorem RingHeld.same_marks {g t : Ring} (h : RingHeld g)
    (hd : ∀ j, (t.desc j).state = (g.desc j).state ∧ (t.desc j).first = (g.desc j).first
      ∧ (t.desc j).last = (g.desc j).last)
    (he : t = { g with descriptors := t.descriptors, capture := t.capture, counters := t.counters })
    (ho : t.FillingOwned) (hnone : g.capture = none → t.capture = none)
    (hc : t.counters.completed = g.counters.completed ∧ t.counters.exported = g.counters.exported
      ∧ t.counters.discarded = g.counters.discarded) : RingHeld t := by
  refine ⟨⟨fun ha => ?_, fun ha => ?_, ho⟩, ?_⟩
  · have hg := h.1.1 (by rw [he] at ha; exact ha)
    rw [he]
    obtain ⟨a1, a2, a3, a4, a5, a6, z1, z2, z3, z4, a7⟩ := hg
    rw [he] at hd
    exact ⟨a1, a2, a3, a4, a5, a6, fun k hk => (hd _).1.trans (z1 k hk), fun k hk => (hd _).1.trans (z2 k hk),
      fun k hk => (hd _).1.trans (z3 k hk), fun k hk => (hd _).1.trans (z4 k hk),
      fun k hk => by rw [(hd _).2.1, (hd _).2.2]; exact a7 k hk⟩
  · obtain ⟨a1, a2, a3, a4, a5, a6⟩ := h.1.2.1 (by rw [he] at ha; exact ha)
    refine ⟨by rw [he]; exact a1, by rw [he]; exact a2, by rw [he]; exact a3, by rw [he]; exact a4, hnone a5, fun i => ?_⟩
    rw [(hd i).1]
    exact a6 i
  · have hg := h.2
    unfold CapturesConserved at hg ⊢
    rw [hc.1, hc.2.1, hc.2.2, Ring.capturesIn_congr (g := g) (by rw [he]) fun k _ => (hd _).2.1,
      show t.release = g.release by rw [he], show t.inReport = g.inReport by rw [he], show t.filled = g.filled by rw [he]]
    exact hg

theorem Ring.desc_setDescs (r : Ring) (x : Descriptor) (ps : List Nat) :
    (∀ j, (ps.foldl (fun r i => r.setDesc i x) r).desc j = if j ∈ ps then x else r.desc j)
      ∧ ps.foldl (fun r i => r.setDesc i x) r = { r with
          descriptors := (ps.foldl (fun r i => r.setDesc i x) r).descriptors } := by
  induction ps generalizing r with
  | nil => exact ⟨fun j => by simp, rfl⟩
  | cons a ps ih =>
    obtain ⟨hd, he⟩ := ih (r.setDesc a x)
    rw [List.foldl_cons]
    refine ⟨fun j => ?_, by rw [he]; rfl⟩
    rw [hd j, Ring.desc_setDesc]
    by_cases hj : j = a <;> simp [hj]

/-- A reservation, by its descriptors (R90). -/
theorem Ring.attempt_reserves {g : Ring} {q : CaptureRequest} (hb : g.filling = 0) (hf : descriptorsOf q.slice ≤ g.free) :
    (∀ j, (g.attempt q).1.desc j = if j = g.fill % g.size then q.firstDescriptor
        else if j ∈ g.positions (g.fill + 1) (descriptorsOf q.slice - 1) then .later else g.desc j)
      ∧ (g.attempt q).1 = { g with
          filling := descriptorsOf q.slice, free := g.free - descriptorsOf q.slice,
          capture := some { dir := q.dir, serial := q.serial, slice := q.slice, copied := 0 },
          descriptors := (g.attempt q).1.descriptors } := by
  obtain ⟨hd, he⟩ := g.desc_setDescs .later (g.positions (g.fill + 1) (descriptorsOf q.slice - 1))
  unfold Ring.attempt
  dsimp only
  rw [if_neg (by omega), if_neg (by omega)]
  generalize (g.positions (g.fill + 1) (descriptorsOf q.slice - 1)).foldl (fun r i => r.setDesc i .later) g = r1 at hd he ⊢
  refine ⟨fun j => (Ring.desc_setDesc r1 (g.fill % g.size) j q.firstDescriptor).trans (by rw [hd]), ?_⟩
  dsimp only [Ring.setDesc]
  rw [he]

theorem RingHeld.attempt {g : Ring} {q : CaptureRequest} (h : RingHeld g) (h1 : 1 ≤ q.slice) (h256 : q.slice ≤ 256) :
    RingHeld (g.attempt q).1 := by
  have missed : ∀ c : RingCounters, c.completed = g.counters.completed → c.exported = g.counters.exported →
      c.discarded = g.counters.discarded → RingHeld { g with counters := c } := fun c a b d =>
    h.same_marks (fun _ => ⟨rfl, rfl, rfl⟩) rfl h.1.owned id ⟨a, b, d⟩
  by_cases hb : g.filling = 0
  swap
  · unfold Ring.attempt
    rw [if_pos hb]
    exact missed _ rfl rfl rfl
  by_cases hf : g.free < descriptorsOf q.slice
  · unfold Ring.attempt
    dsimp only
    rw [if_neg (by omega), if_pos hf]
    exact missed _ rfl rfl rfl
  have hd1 : 1 ≤ descriptorsOf q.slice ∧ descriptorsOf q.slice ≤ 4 := by
    unfold descriptorsOf ceilDiv
    omega
  have ha : g.active = true := by
    by_contra hn
    have := (h.1.2.1 (by simpa using hn)).2.2.2.1
    omega
  have z := Ring.Zoned.of_arranged h.1 ha
  have hs := z.sum
  obtain ⟨hd, he⟩ := Ring.attempt_reserves hb (Nat.le_of_not_lt hf)
  generalize (g.attempt q).1 = t at hd he
  have hsize := h.1.owned.2.2
  have place : ∀ k, (g.fill + k) % g.size = (g.release + (g.inReport + g.filled + k)) % g.size := fun k => by
    rw [z.fill, Nat.mod_add_mod, Nat.add_assoc]
  have hmem : ∀ j, j < g.size → ((g.release + j) % g.size ∈ g.positions (g.fill + 1) (descriptorsOf q.slice - 1)
      ↔ g.inReport + g.filled + 1 ≤ j ∧ j < g.inReport + g.filled + descriptorsOf q.slice) := by
    intro j hj
    rw [Ring.mem_positions]
    constructor
    · rintro ⟨k, hk, e⟩
      rw [Nat.add_assoc, place] at e
      have := place_unique hj (by omega) e
      omega
    · rintro ⟨c1, c2⟩
      refine ⟨j - (g.inReport + g.filled + 1), by omega, ?_⟩
      rw [Nat.add_assoc, place]
      congr 2
      omega
  have hfirst : ∀ j, j < g.size → ((g.release + j) % g.size = g.fill % g.size ↔ j = g.inReport + g.filled) := by
    intro j hj
    have := place 0
    rw [Nat.add_zero, Nat.add_zero] at this
    rw [this]
    exact ⟨fun e => place_unique hj (by omega) e, fun e => by rw [e]⟩
  have hdesc : ∀ j, j < g.size → t.desc ((g.release + j) % g.size) =
      if j = g.inReport + g.filled then q.firstDescriptor
      else if g.inReport + g.filled + 1 ≤ j ∧ j < g.inReport + g.filled + descriptorsOf q.slice then .later
      else g.desc ((g.release + j) % g.size) := by
    intro j hj
    rw [hd]
    simp only [hfirst j hj, hmem j hj]
  have e1 : t.size = g.size := by rw [he]
  have e2 : t.release = g.release := by rw [he]
  have e3 : t.inReport = g.inReport := by rw [he]
  have e4 : t.filled = g.filled := by rw [he]
  have e5 : t.filling = descriptorsOf q.slice := by rw [he]
  have e6 : t.free = g.free - descriptorsOf q.slice := by rw [he]
  have ho : t.FillingOwned := by
    rw [he]
    refine ⟨rfl, fun f hf => ?_, hsize⟩
    obtain rfl : { dir := q.dir, serial := q.serial, slice := q.slice, copied := 0 } = f := Option.some.inj hf
    exact h1
  refine ⟨Ring.Zoned.arranged ⟨by omega, by omega, by rw [e1, e2]; exact z.release, ?_, ?_, ?_, fun j hj => ?_,
    fun k hk => ?_⟩ (by rw [he]; exact ha) ho, ?_⟩
  · rw [e1, e2, e3, show t.send = g.send by rw [he]]
    exact z.send
  · rw [e1, e2, e3, e4, show t.fill = g.fill by rw [he]]
    exact z.fill
  · rw [e1, show t.baseCell = g.baseCell by rw [he]]
    exact z.cells
  · rw [e1] at hj
    rw [e1, e2, e3, e4, e5, hdesc j hj]
    have old := z.states j hj
    unfold stateAt at old ⊢
    split_ifs at old ⊢ <;> first | rfl | assumption | omega
  · rw [e5] at hk
    rw [e1, e2, e3, e4, hdesc _ (by omega)]
    split_ifs with c1 c2
    · exact ⟨⟨fun _ => by omega, fun _ => rfl⟩, rfl⟩
    · exact ⟨⟨fun hf => absurd hf (by decide), fun hz => by omega⟩, rfl⟩
    · omega
  · have hg := h.2
    unfold CapturesConserved at hg ⊢
    rw [e2, e3, e4, show t.counters = g.counters by rw [he], Ring.capturesIn_congr (g := g) e1 fun k hk => ?_]
    · exact hg
    · rw [hdesc k (by omega), if_neg (by omega), if_neg (by omega)]

/-- One more byte counted to a descriptor and to the capture. -/
theorem RingHeld.copied {g : Ring} {f : Filling} (h : RingHeld g) (hc : g.capture = some f) (i : Nat) :
    RingHeld { g.setDesc i { g.desc i with byteCount := (g.desc i).byteCount + 1 } with
      capture := some { f with copied := f.copied + 1 } } := by
  have ho := h.1.owned
  refine h.same_marks (fun j => ?_) rfl ⟨?_, fun x hx => ?_, ho.2.2⟩ (fun hn => absurd (hc.symm.trans hn) (by simp))
    ⟨rfl, rfl, rfl⟩
  · have : Ring.desc { g.setDesc i { g.desc i with byteCount := (g.desc i).byteCount + 1 } with
        capture := some { f with copied := f.copied + 1 } } j
          = if j = i then { g.desc i with byteCount := (g.desc i).byteCount + 1 } else g.desc j := Ring.desc_setDesc ..
    rw [this]
    split_ifs with hj
    · subst hj
      exact ⟨rfl, rfl, rfl⟩
    · exact ⟨rfl, rfl, rfl⟩
  · have := ho.1
    rw [hc] at this
    exact this
  · obtain rfl : { f with copied := f.copied + 1 } = x := Option.some.inj hx
    exact ho.2.1 f hc

/-- The FILLING descriptors given up: the first `u` to FILLED, as one capture that is counted, the others to FREE. -/
theorem RingHeld.settle_filling {g t : Ring} {u : Nat} (h : RingHeld g) (ha : g.active = true) (hu : u ≤ g.filling)
    (hst : ∀ j, j < g.size → (t.desc ((g.release + j) % g.size)).state =
      if g.inReport + g.filled ≤ j ∧ j < g.inReport + g.filled + g.filling then
        if j < g.inReport + g.filled + u then .filled else .free
      else (g.desc ((g.release + j) % g.size)).state)
    (hfirst : ∀ j, (t.desc j).first = (g.desc j).first)
    (he : t = { g with
      fill := t.fill, filled := g.filled + u, filling := 0, free := g.free + (g.filling - u), capture := none,
      descriptors := t.descriptors, counters := t.counters })
    (hfill : t.fill = (g.fill + u) % g.size)
    (hc : t.counters.exported = g.counters.exported ∧ t.counters.discarded = g.counters.discarded
      ∧ t.counters.completed = g.counters.completed + if u = 0 then 0 else 1) : RingHeld t := by
  have z := Ring.Zoned.of_arranged h.1 ha
  have hs := z.sum
  have e1 : t.size = g.size := by rw [he]
  have e2 : t.release = g.release := by rw [he]
  have e3 : t.inReport = g.inReport := by rw [he]
  have e4 : t.filled = g.filled + u := by rw [he]
  have e5 : t.filling = 0 := by rw [he]
  have e6 : t.free = g.free + (g.filling - u) := by rw [he]
  have ho : t.FillingOwned := by
    rw [he]
    exact ⟨rfl, fun f hf => absurd hf.symm (by simp), h.1.owned.2.2⟩
  refine ⟨Ring.Zoned.arranged ⟨by omega, by omega, by rw [e1, e2]; exact z.release, ?_, ?_, ?_, fun j hj => ?_,
    fun k hk => by omega⟩ (by rw [he]; exact ha) ho, ?_⟩
  · rw [e1, e2, e3, show t.send = g.send by rw [he]]
    exact z.send
  · rw [e1, e2, e3, e4, hfill, z.fill, Nat.mod_add_mod]
    congr 1
    omega
  · rw [e1, show t.baseCell = g.baseCell by rw [he]]
    exact z.cells
  · rw [e1] at hj
    rw [e1, e2, e3, e4, e5, hst j hj]
    have old := z.states j hj
    unfold stateAt at old ⊢
    split_ifs at old ⊢ <;> first | rfl | assumption | omega
  · have hg := h.2
    unfold CapturesConserved at hg ⊢
    have hone : g.capturesIn (g.release + (g.inReport + g.filled)) u = if u = 0 then 0 else 1 := by
      split_ifs with hu0
      · rw [hu0]
        rfl
      · obtain ⟨v, rfl⟩ : ∃ v, u = v + 1 := ⟨u - 1, by omega⟩
        unfold Ring.capturesIn
        rw [List.range_succ_eq_map, List.filter_cons, List.filter_map]
        have h0 := (z.marks 0 (by omega)).1
        have hlater : (List.range v).filter
            ((fun k => (g.desc ((g.release + (g.inReport + g.filled) + k) % g.size)).first) ∘ Nat.succ) = [] := by
          rw [List.filter_eq_nil_iff]
          intro k hk
          have := (z.marks (k + 1) (by have := List.mem_range.1 hk; omega)).1
          simp only [Function.comp, Nat.succ_eq_add_one, Nat.add_assoc]
          rw [Nat.add_assoc g.inReport] at this
          exact fun hf => absurd (this.1 hf) (by omega)
        rw [hlater, if_pos]
        · rfl
        · exact h0.2 rfl
    rw [hc.1, hc.2.1, hc.2.2, hg, e2, e3, e4, Ring.capturesIn_congr (g := g) e1 fun k _ => hfirst _, ← Nat.add_assoc,
      Ring.capturesIn_add g g.release (g.inReport + g.filled) u, hone, word_add]
    split_ifs
    · rw [show word 0 = 0 from rfl]
      simp
    · rw [show word 1 = 1 from rfl]
      ac_rfl

/-- A ring with a capture being filled is active. -/
theorem RingHeld.active_of_capture {g : Ring} {f : Filling} (h : RingHeld g) (hc : g.capture = some f) : g.active = true := by
  by_contra hn
  exact absurd ((h.1.2.1 (by simpa using hn)).2.2.2.2.1.symm.trans hc) (by simp)

/-- Membership in a run of the FILLING zone, by distance. -/
theorem Ring.Zoned.mem_filling {g : Ring} (z : g.Zoned) {x n j : Nat} (hx : x + n ≤ g.filling) (hj : j < g.size) :
    (g.release + j) % g.size ∈ g.positions (g.fill + x) n
      ↔ g.inReport + g.filled + x ≤ j ∧ j < g.inReport + g.filled + x + n := by
  have hs := z.sum
  rw [Ring.mem_positions]
  have place : ∀ k, (g.fill + x + k) % g.size = (g.release + (g.inReport + g.filled + x + k)) % g.size := fun k => by
    rw [z.fill, Nat.add_assoc, Nat.mod_add_mod, Nat.add_assoc, Nat.add_assoc _ x k]
  constructor
  · rintro ⟨k, hk, e⟩
    rw [place] at e
    have := place_unique hj (by omega) e
    omega
  · rintro ⟨c1, c2⟩
    refine ⟨j - (g.inReport + g.filled + x), by omega, ?_⟩
    rw [place]
    congr 2
    omega

theorem RingHeld.abandon {g : Ring} {f : Filling} (h : RingHeld g) (hc : g.capture = some f) : RingHeld g.abandon := by
  have ha := h.active_of_capture hc
  have z := Ring.Zoned.of_arranged h.1 ha
  have hs := z.sum
  obtain ⟨hz, he⟩ := g.abandon_spec
  refine h.settle_filling (u := 0) ha (Nat.zero_le _) (fun j hj => ?_) hz.first ?_ ?_ ?_
  · rw [hz.states (x := g.inReport + g.filled) (fun k => by rw [z.fill, Nat.mod_add_mod, Nat.add_assoc]) (by omega) hj]
    split_ifs <;> first | rfl | omega
  · conv_lhs => rw [he]
    conv_rhs => rw [he]
    rfl
  · rw [he]
    exact (Nat.mod_eq_of_lt (by rw [z.fill]; exact Nat.mod_lt _ h.1.owned.2.2)).symm
  · rw [he]
    exact ⟨rfl, rfl, by simp⟩

theorem RingHeld.complete {g : Ring} {f : Filling} (h : RingHeld g) (hc : g.capture = some f) {length : Nat}
    (hl : 1 ≤ length) (ending : Ending) (entry : Option Nat) : RingHeld (g.complete f length ending entry) := by
  have ha := h.active_of_capture hc
  have z := Ring.Zoned.of_arranged h.1 ha
  have hfilling : g.filling = descriptorsOf f.slice := by
    have := h.1.owned.1
    rwa [hc] at this
  have hslice := h.1.owned.2.1 f hc
  set u := descriptorsOf (min f.slice length) with hu
  have hu1 : 1 ≤ u ∧ u ≤ g.filling := by
    rw [hu, hfilling]
    unfold descriptorsOf ceilDiv
    omega
  obtain ⟨hd, hwhole⟩ := g.complete_spec f length ending entry
  rw [← hu] at hd hwhole
  refine h.settle_filling (u := u) ha hu1.2 (fun j hj => ?_) (fun j => by rw [hd]) ?_ ?_ ?_
  · have hm1 := z.mem_filling (x := 0) (n := u) (by omega) hj
    have hm2 := z.mem_filling (x := u) (n := g.filling - u) (by omega) hj
    rw [Nat.add_zero, Nat.add_zero] at hm1
    rw [hd]
    simp only [hm1, hm2]
    split_ifs <;> first | rfl | omega
  · conv_lhs => rw [hwhole]
    conv_rhs => rw [hwhole]
  · rw [hwhole]
  · rw [hwhole]
    exact ⟨rfl, rfl, by rw [if_neg (by omega)]⟩

/-! ## Activation, deactivation, configuration, reset (R85, R86, R87, R101) -/

/-- An inactive ring that holds nothing is held when its counters balance. -/
theorem RingHeld.of_inactive {r : Ring} (ha : r.active = false) (h0 : r.inReport = 0 ∧ r.filled = 0 ∧ r.filling = 0 ∧ r.free = 0)
    (hc : r.capture = none) (hd : ∀ i, (r.desc i).state = .free) (hs : 0 < r.size)
    (hn : r.counters.completed = r.counters.exported + r.counters.discarded) : RingHeld r := by
  obtain ⟨h1, h2, h3, h4⟩ := h0
  refine ⟨⟨fun h => absurd (ha.symm.trans h) (by decide), fun _ => ⟨h1, h2, h3, h4, hc, hd⟩, by rw [hc]; exact h3,
    fun f hf => absurd (hc.symm.trans hf) (by simp), hs⟩, ?_⟩
  unfold CapturesConserved
  rw [h1, h2, Ring.capturesIn_zero, hn, show word 0 = 0 from rfl]
  simp

theorem RingHeld.balance {r : Ring} (h : RingHeld r) (h1 : r.inReport = 0) (h2 : r.filled = 0) :
    r.counters.completed = r.counters.exported + r.counters.discarded := by
  have := h.2
  unfold CapturesConserved at this
  rw [h1, h2, Ring.capturesIn_zero, show word 0 = 0 from rfl] at this
  simpa using this

/-- A write of a configuration word of an inactive ring. -/
theorem RingHeld.configured {r : Ring} (h : RingHeld r) (ha : r.active = false) {base size : Nat} (hs : 0 < size) :
    RingHeld { r with baseCell := base, size := size } := by
  obtain ⟨h1, h2, h3, h4, h5, h6⟩ := h.1.2.1 ha
  exact .of_inactive ha ⟨h1, h2, h3, h4⟩ h5 h6 hs (h.balance h1 h2)

theorem RingHeld.deactivated {r : Ring} (h : RingHeld r) (hin : r.inReport = 0) : RingHeld r.deactivated := by
  obtain ⟨hd, he⟩ := r.freeAll_spec
  have hwhole : r.deactivated = { r with
      active := false, release := 0, send := 0, fill := 0, inReport := 0, filled := 0, filling := 0, free := 0,
      capture := none, descriptors := r.freeAll.descriptors,
      counters := { r.counters with
        discarded := r.counters.discarded + word (r.capturesIn r.send r.filled) } } := by
    unfold Ring.deactivated
    rw [he, r.countCaptures_eq]
  have hdesc : ∀ i, r.deactivated.desc i = r.freeAll.desc i := fun _ => rfl
  refine .of_inactive rfl ⟨rfl, rfl, rfl, rfl⟩ rfl (fun i => by rw [hdesc, hd]) (by rw [hwhole]; exact h.1.owned.2.2) ?_
  have hg := h.2
  unfold CapturesConserved at hg
  rw [hwhole]
  dsimp only
  rw [hg, hin, Nat.zero_add]
  cases ha : r.active with
  | false =>
    rw [(h.1.2.1 ha).2.1]
    simp only [Ring.capturesIn_zero]
    ac_rfl
  | true =>
    have z := Ring.Zoned.of_arranged h.1 ha
    rw [z.send, hin, Nat.add_zero, Ring.capturesIn_mod]
    ac_rfl

theorem RingHeld.activated {r : Ring} (h : RingHeld r) (ha : r.active = false) (hb : r.baseCell + r.size ≤ 2048) :
    RingHeld r.activated := by
  obtain ⟨h1, h2, h3, h4, h5, h6⟩ := h.1.2.1 ha
  have hs := h.1.owned.2.2
  obtain ⟨hd, he⟩ := r.freeAll_spec
  have hwhole : r.activated = { r with
      active := true, release := 0, send := 0, fill := 0, inReport := 0, filled := 0, filling := 0, free := r.size,
      capture := none, descriptors := r.freeAll.descriptors } := by
    unfold Ring.activated
    rw [he]
  have hdesc : ∀ i, r.activated.desc i = r.freeAll.desc i := fun _ => rfl
  refine ⟨Ring.Zoned.arranged ?_ rfl ⟨rfl, fun f hf => absurd hf (by rw [hwhole]; simp), by rw [hwhole]; exact hs⟩, ?_⟩
  · rw [hwhole]
    refine ⟨by simp, by simp, hs, ?_, ?_, hb, fun j _ => ?_, fun k hk => absurd hk (Nat.not_lt_zero k)⟩
    · exact (Nat.zero_mod _).symm
    · exact (Nat.zero_mod _).symm
    · have : stateAt 0 0 0 j = .free := by simp [stateAt]
      exact (congrArg Descriptor.state (hd _)).trans this.symm
  · unfold CapturesConserved
    rw [hwhole]
    dsimp only
    rw [Nat.add_zero, Ring.capturesIn_zero, h.balance h1 h2, show word 0 = 0 from rfl]
    simp

theorem RingHeld.reset (r : RingId) : RingHeld (Ring.reset r) :=
  .of_inactive rfl ⟨rfl, rfl, rfl, rfl⟩ rfl (fun _ => rfl) (by decide : 0 < 512) rfl

end Sys2Proof.Machine
end

