-- ==== Sys2Proof/Laws/Body.lean ====
section
/-!
SUPPORT. What the Agent's reading of a COMMAND body can answer: the ops it reads are those that Table 88 lays out in the bytes
read, and nothing else is well formed.
-/

namespace Sys2Proof.Machine

/-! ## Byte order -/

theorem extract_last {n : Nat} (a : BitVec n) (b : Byte) : (a ++ b : BitVec (n + 8)).extractLsb' 0 8 = b := by
  rw [BitVec.extractLsb'_append_eq_of_add_le (by omega)]
  simp

theorem extract_before {n k : Nat} (a : BitVec n) (b : Byte) :
    (a ++ b : BitVec (n + 8)).extractLsb' (k + 8) 8 = a.extractLsb' k 8 := by
  rw [BitVec.extractLsb'_append_eq_of_le (by omega)]
  simp

theorem be16_word16 (a b : Byte) : be16 (word16 a b) = [a, b] := by
  show [(a ++ b : BitVec (8 + 8)).extractLsb' (0 + 8) 8, (a ++ b : BitVec (8 + 8)).extractLsb' 0 8] = _
  rw [extract_last, extract_before]
  simp

theorem be32_word32 (a b c d : Byte) : be32 (word32 a b c d) = [a, b, c, d] := by
  let x : BitVec (8 + 8 + 8 + 8) := a ++ b ++ c ++ d
  show [x.extractLsb' (0 + 8 + 8 + 8) 8, x.extractLsb' (0 + 8 + 8) 8, x.extractLsb' (0 + 8) 8, x.extractLsb' 0 8] = _
  simp only [x, extract_last, extract_before]
  simp

/-! ## The ops of a body (R141, R167) -/

/-- The words read are those laid out. -/
theorem takeWords_inv : ∀ (n : Nat) (b : List Byte) (ws : List Word) (r : List Byte), takeWords n b = some (ws, r) →
    ws.length = n ∧ b = ws.flatMap be32 ++ r := by
  intro n
  induction n with
  | zero =>
    intro b ws r h
    simp only [takeWords, Option.some.injEq, Prod.mk.injEq] at h
    obtain ⟨rfl, rfl⟩ := h
    simp
  | succ n ih =>
    intro b ws r h
    match b, h with
    | a :: b :: c :: d :: rest, h =>
      simp only [takeWords] at h
      split at h
      · rename_i ws' r' h'
        simp only [Option.some.injEq, Prod.mk.injEq] at h
        obtain ⟨rfl, rfl⟩ := h
        obtain ⟨h1, h2⟩ := ih _ _ _ h'
        simp [h1, h2, be32_word32]
      · cases h

theorem count_pos {n : Byte} (h : n ≠ 0) : 1 ≤ n.toNat ∧ n.toNat ≤ 255 := by
  have := n.isLt
  have : n.toNat ≠ 0 := fun e => h (BitVec.eq_of_toNat_eq e)
  omega

/-- An op read is one that Table 88 can encode, and the bytes read are its encoding. -/
theorem parseOp_inv (b : List Byte) (op : Op) (r : List Byte) (h : parseOp b = some (op, r)) :
    op.encodable = true ∧ b = op.encode ++ r := by
  match b, h with
  | k :: rest, h =>
    simp only [parseOp] at h
    split_ifs at h with h1 h2 h3 h4
    · subst h1
      match rest, h with
      | a :: b :: c :: r', h =>
        simp only [Option.some.injEq, Prod.mk.injEq] at h
        obtain ⟨rfl, rfl⟩ := h
        let x : BitVec (8 + 8 + 8) := a ++ b ++ c
        refine ⟨rfl, ?_⟩
        show 0x10 :: a :: b :: c :: r'
          = 0x10 :: x.extractLsb' (0 + 8 + 8) 8 :: x.extractLsb' (0 + 8) 8 :: x.extractLsb' 0 8 :: r'
        simp only [x, extract_last, extract_before]
        simp
    · subst h2
      match rest, h with
      | a :: b :: r', h =>
        simp only [Option.some.injEq, Prod.mk.injEq] at h
        obtain ⟨rfl, rfl⟩ := h
        exact ⟨rfl, by simp [Op.encode, be16_word16]⟩
    · subst h3
      match rest, h with
      | n :: r', h =>
        dsimp only at h
        split_ifs at h with hn
        split at h
        · rename_i ws' r'' h'
          simp only [Option.some.injEq, Prod.mk.injEq] at h
          obtain ⟨rfl, rfl⟩ := h
          obtain ⟨h1, h2⟩ := takeWords_inv _ _ _ _ h'
          exact ⟨by simpa [Op.encodable, h1] using count_pos hn, by simp [Op.encode, h1, h2, byte]⟩
        · cases h
    · subst h4
      match rest, h with
      | n :: r', h =>
        dsimp only at h
        split_ifs at h with hn
        simp only [Option.some.injEq, Prod.mk.injEq] at h
        obtain ⟨rfl, rfl⟩ := h
        exact ⟨by simpa [Op.encodable] using count_pos hn, by simp [Op.encode, byte]⟩

/-- The ops read are as many as were asked for, each one that Table 88 can encode, and the bytes read are their encodings with
at most 3 bytes of padding after them. -/
theorem parseOps_inv : ∀ (n : Nat) (b : List Byte) (ops : List Op), parseOps n b = some ops →
    ops.length = n ∧ (∀ o ∈ ops, o.encodable = true) ∧ ∃ pad, pad.length ≤ 3 ∧ b = ops.flatMap Op.encode ++ pad := by
  intro n
  induction n with
  | zero =>
    intro b ops h
    simp only [parseOps] at h
    split_ifs at h with h1
    obtain rfl := Option.some.inj h
    exact ⟨rfl, by simp, b, h1, by simp⟩
  | succ n ih =>
    intro b ops h
    simp only [parseOps] at h
    split at h
    · rename_i op r hop
      split at h
      · rename_i ops' hops
        obtain rfl := Option.some.inj h
        obtain ⟨h1, h2, pad, h3, h4⟩ := ih _ _ hops
        obtain ⟨g1, g2⟩ := parseOp_inv _ _ _ hop
        exact ⟨by simp [h1], by simpa using ⟨g1, h2⟩, pad, h3, by rw [g2, h4]; simp⟩
      · cases h
    · cases h

end Sys2Proof.Machine
end

