-- ==== Sys2Proof/Laws/Frames.lean ====
section
/-!
SUPPORT. What the shared operations touch, said once for each: which blocks of the state an operation can change, all
others standing as they were.
-/

namespace Sys2Proof.Machine

/-! ## Only the ports -/

/-- Only the two ports differ. -/
def PortsOnly (s t : State) : Prop := t = { s with portA := t.portA, portB := t.portB }

theorem PortsOnly.refl (s : State) : PortsOnly s s := rfl

theorem PortsOnly.trans {s t u : State} (h : PortsOnly s t) (k : PortsOnly t u) : PortsOnly s u := by
  unfold PortsOnly at *
  rw [k, h]

theorem PortsOnly.setPort (s : State) (p : Port) (x : PortState) : PortsOnly s (s.setPort p x) := by
  cases p <;> rfl

theorem PortsOnly.step {s t : State} (h : PortsOnly s t) (p : Port) (x : PortState) : PortsOnly s (t.setPort p x) :=
  h.trans (.setPort t p x)

theorem closeSent_only (p : Port) (s : State) : PortsOnly s (closeSent p s) := by
  unfold closeSent
  split
  · dsimp only
    split_ifs
    · exact ((PortsOnly.setPort s _ _).step _ _).step _ _
    · exact ((PortsOnly.setPort s _ _).step _ _).step _ _
    · exact .refl s
  · exact .refl s

theorem settleEgress_only (p : Port) (s : State) : PortsOnly s (settleEgress p s) := by
  unfold settleEgress
  dsimp only
  split
  · exact (closeSent_only p s).step _ _
  · exact ((closeSent_only p s).step _ _).step _ _

theorem cutOversize_only (q : Port) (r : Reception) (s : State) : PortsOnly s (cutOversize q r s) := by
  unfold cutOversize
  split_ifs
  · exact .setPort s _ _
  · exact .refl s

theorem storeByte_only (q : Port) (r : Reception) (b : Byte) (s : State) : PortsOnly s (storeByte q r b s).1 := by
  unfold storeByte
  dsimp only
  split
  · exact .refl s
  · split_ifs
    · exact (PortsOnly.setPort s _ _).step _ _
    · exact .setPort s _ _
    · exact .refl s

theorem markGone_only (s : State) : PortsOnly s (markGone s) := by
  unfold markGone
  exact (PortsOnly.setPort s _ _).step _ _

/-! ## What an ingress can touch -/

/-- Only the ports, the Classifier and the Capture Engine differ. -/
def IngressOnly (s t : State) : Prop :=
  t = { s with portA := t.portA, portB := t.portB, cls := t.cls, cap := t.cap }

theorem IngressOnly.refl (s : State) : IngressOnly s s := rfl

theorem IngressOnly.trans {s t u : State} (h : IngressOnly s t) (k : IngressOnly t u) : IngressOnly s u := by
  unfold IngressOnly at *
  rw [k, h]

theorem PortsOnly.ingress {s t : State} (h : PortsOnly s t) : IngressOnly s t := by
  unfold PortsOnly at h
  unfold IngressOnly
  rw [h]

theorem IngressOnly.setCls (s : State) (c : Classifier) : IngressOnly s (s.setCls c) := rfl

theorem IngressOnly.setCap (s : State) (c : CaptureEngine) : IngressOnly s (s.setCap c) := rfl

theorem captureByte_only (q : Port) (r : Reception) (b : Byte) (s : State) : IngressOnly s (captureByte q r b s) := by
  unfold captureByte
  split
  · exact .setCap s _
  · exact .refl s

theorem attemptCapture_only (q : CaptureRequest) (bs : List Byte) (s : State) :
    IngressOnly s (attemptCapture q bs s).1 := by
  unfold attemptCapture
  dsimp only
  split_ifs <;> rfl

theorem classify_only (d : Direction) (n : Nat) (bs : List Byte) (s : State) : IngressOnly s (classify d n bs s).1 := by
  unfold classify
  split
  · exact .refl s
  · dsimp only
    split_ifs
    · exact (IngressOnly.setCls s _).trans (attemptCapture_only _ _ _)
    · exact (IngressOnly.setCls s _).trans (attemptCapture_only _ _ _)
    · exact .setCls s _

theorem decideFrame_only (q : Port) (r : Reception) (s : State) : IngressOnly s (decideFrame q r s).1 := by
  have key : ∀ c : State × Decision × Option RingId, IngressOnly s c.1 →
      IngressOnly s ((if c.2.1.action = .drop then
          c.1.setPortCounters q { (c.1.port q).counters with dropped := (c.1.port q).counters.dropped + 1 }
        else c.1).setBuffer q (applyAction c.2.1.action ((if c.2.1.action = .drop then
          c.1.setPortCounters q { (c.1.port q).counters with dropped := (c.1.port q).counters.dropped + 1 }
        else c.1).port q).buffer)) := by
    intro c h
    refine h.trans (PortsOnly.ingress ?_)
    split_ifs
    · exact (PortsOnly.setPort c.1 _ _).step _ _
    · exact .setPort c.1 _ _
  unfold decideFrame
  apply key
  split_ifs
  · exact .refl s
  · exact classify_only _ _ _ _

theorem receiveByte_only (q : Port) (b : Byte) (r : Reception) (s : State) : IngressOnly s (receiveByte q b r s) := by
  unfold receiveByte
  dsimp only
  have h : IngressOnly s (captureByte q (r.receive b).settleOversize b
      (storeByte q (r.receive b).settleOversize b (cutOversize q (r.receive b).settleOversize s)).1) :=
    ((cutOversize_only _ _ _).trans (storeByte_only _ _ _ _)).ingress.trans (captureByte_only _ _ _ _)
  refine IngressOnly.trans ?_ (settleEgress_only _ _).ingress
  refine IngressOnly.trans ?_ (PortsOnly.setPort _ _ _).ingress
  split_ifs
  · exact h.trans (decideFrame_only _ _ _)
  · exact h

theorem endFrame_only (q : Port) (r : Reception) (e : LineEnd) (s : State) : IngressOnly s (endFrame q r e s) := by
  unfold endFrame
  dsimp only
  split_ifs
  · unfold endFragment
    exact ((((PortsOnly.setPort s _ _).step _ _).step _ _).trans (settleEgress_only _ _)).ingress
  · refine (PortsOnly.setPort s q { s.port q with rx := none }).ingress.trans ?_
    generalize s.setPort q { s.port q with rx := none } = u
    unfold endWhole
    dsimp only
    split_ifs
    all_goals
      refine IngressOnly.trans ?_ (settleEgress_only _ _).ingress
      refine IngressOnly.trans ?_ (PortsOnly.setPort _ _ _).ingress
      first
        | exact ((PortsOnly.setPort u _ _).step _ _).ingress
        | exact (PortsOnly.setPort u _ _).ingress
        | exact (PortsOnly.setPort u _ _).ingress.trans (decideFrame_only _ _ _)

/-! ## What the Report Engine can touch -/

/-- Only the Record Queue, the rings and the Report Engine differ. -/
def ExportOnly (s t : State) : Prop :=
  t = { s with rq := t.rq, cap := { s.cap with rings := t.cap.rings }, rep := t.rep }

theorem ExportOnly.refl (s : State) : ExportOnly s s := rfl

theorem ExportOnly.trans {s t u : State} (h : ExportOnly s t) (k : ExportOnly t u) : ExportOnly s u := by
  unfold ExportOnly at *
  rw [k, h]

theorem ExportOnly.setRq (s : State) (x : RecordQueue) : ExportOnly s (s.setRq x) := rfl

theorem ExportOnly.setRep (s : State) (x : ReportEngine) : ExportOnly s (s.setRep x) := rfl

theorem ExportOnly.setRings (s : State) (x : Rings) : ExportOnly s (s.setCap { s.cap with rings := x }) := rfl

/-- What the Hold Timer's rule leaves: it may start or stop the timer and drop the request, nothing else. -/
theorem holdAfterMaterial_frame (had : Bool) (s : State) :
    ∃ h b, holdAfterMaterial had s = s.setRep { s.rep with hold := h, buildPending := b } := by
  unfold holdAfterMaterial
  split_ifs
  · exact ⟨_, s.rep.buildPending, rfl⟩
  · exact ⟨s.rep.hold, s.rep.buildPending, rfl⟩
  · exact ⟨_, _, rfl⟩

theorem holdAfterBuild_frame (s : State) :
    ∃ h b, holdAfterBuild s = s.setRep { s.rep with hold := h, buildPending := b } := by
  unfold holdAfterBuild
  split_ifs
  · exact ⟨_, s.rep.buildPending, rfl⟩
  · exact ⟨s.rep.hold, s.rep.buildPending, rfl⟩
  · exact ⟨_, _, rfl⟩

/-- All that one build can do: a report of the next items joins the Outstanding List and the queue; its records and captures
are taken. -/
theorem buildReport_eq (s : State) :
    ∃ r h b, r.session = s.rep.sessionNumber ∧ r.sequence = s.rep.nextSequence ∧ r.items = nextItems s
      ∧ r.recordCount = recordItems (nextItems s) ∧ r.state = .queued
      ∧ buildReport s = ((s.setRq (s.rq.take (recordItems (nextItems s)))).setCap
          { s.cap with rings := s.cap.rings.update fun id g => g.take (ringDescriptors (nextItems s) id) }).setRep
          { s.rep with
            outstanding := s.rep.outstanding ++ [r], queue := s.rep.queue ++ [r.sequence]
            nextSequence := s.rep.nextSequence + 1, nextStart := s.rep.nextStart.next, hold := h, buildPending := b } := by
  unfold buildReport
  dsimp only
  obtain ⟨h, b, e⟩ := holdAfterBuild_frame (((s.setRq (s.rq.take (recordItems (nextItems s)))).setCap
    { s.cap with rings := s.cap.rings.update fun id g => g.take (ringDescriptors (nextItems s) id) }).setRep
    { s.rep with
      outstanding := s.rep.outstanding ++ [
        { session := s.rep.sessionNumber, sequence := s.rep.nextSequence, start := false, items := nextItems s,
          recordCount := recordItems (nextItems s), captureCount := (nextItems s).length - recordItems (nextItems s),
          itemsSize := itemsSize (nextItems s), state := .queued }]
      queue := s.rep.queue ++ [s.rep.nextSequence]
      nextSequence := s.rep.nextSequence + 1, nextStart := s.rep.nextStart.next, buildPending := false })
  exact ⟨_, h, b, rfl, rfl, rfl, rfl, rfl, e⟩

/-- What every build keeps, the pump keeps. -/
theorem pump_induction {P : State → Prop} (hb : ∀ u, P u → buildDue u = true → P (buildReport u)) {s : State} (h : P s) :
    P (pump s) := by
  have key : ∀ n u, P u → P (buildWhileDue n u) := by
    intro n
    induction n with
    | zero => exact fun u hu => hu
    | succ n ih =>
      intro u hu
      unfold buildWhileDue
      split_ifs with hd
      · exact ih _ (hb u hu hd)
      · exact hu
  exact key _ s h

theorem buildReport_only (s : State) : ExportOnly s (buildReport s) := by
  obtain ⟨r, h, b, -, -, -, -, -, e⟩ := buildReport_eq s
  rw [e]
  rfl

theorem pump_only (s : State) : ExportOnly s (pump s) :=
  pump_induction (P := ExportOnly s) (fun u h _ => h.trans (buildReport_only u)) (.refl s)

/-- With no build allowed, the builder stands still. -/
theorem pump_still {s : State} (h : buildDue s = false) : pump s = s := by
  unfold pump
  cases s.rep.windowSize - s.rep.outstanding.length <;> simp [buildWhileDue, h]

theorem buildDue_closed {s : State} (h : s.rep.session ≠ .opened) : buildDue s = false := by
  simp [buildDue, buildAllowed, h]

theorem holdAfterMaterial_only (had : Bool) (s : State) : ExportOnly s (holdAfterMaterial had s) := by
  obtain ⟨h, b, e⟩ := holdAfterMaterial_frame had s
  rw [e]
  rfl

/-- An append while no build is allowed: the record at the tail, counted, and the Hold Timer. -/
theorem appendRecord_closed (r : FlowRecord) {s : State} (h : s.rep.session ≠ .opened) :
    ∃ x b, appendRecord r s = (s.setRq (s.rq.append r)).setRep
      { s.rep with
        hold := x, buildPending := b
        conservation := { s.rep.conservation with appended := s.rep.conservation.appended + 1 } } := by
  obtain ⟨x, b, e⟩ := holdAfterMaterial_frame (hasMaterial s) ((s.setRq (s.rq.append r)).setRep
    { s.rep with conservation := { s.rep.conservation with appended := s.rep.conservation.appended + 1 } })
  refine ⟨x, b, ?_⟩
  unfold appendRecord
  rw [pump_still]
  · exact e
  · apply buildDue_closed
    simp only [State.setRq_rep, e]
    exact h

theorem appendRecord_only (r : FlowRecord) (s : State) : ExportOnly s (appendRecord r s) := by
  unfold appendRecord
  exact (((ExportOnly.setRq s _).trans (.setRep _ _)).trans (holdAfterMaterial_only _ _)).trans (pump_only _)

/-! ## What an export that ends a transmission can touch -/

/-- Only the ports, the Record Queue, the rings and the Report Engine differ. -/
def DeliveryOnly (s t : State) : Prop :=
  t = { s with portA := t.portA, portB := t.portB, rq := t.rq, cap := { s.cap with rings := t.cap.rings }, rep := t.rep }

theorem DeliveryOnly.refl (s : State) : DeliveryOnly s s := rfl

theorem DeliveryOnly.trans {s t u : State} (h : DeliveryOnly s t) (k : DeliveryOnly t u) : DeliveryOnly s u := by
  unfold DeliveryOnly at *
  rw [k, h]

theorem PortsOnly.delivery {s t : State} (h : PortsOnly s t) : DeliveryOnly s t := by
  unfold PortsOnly at h
  unfold DeliveryOnly
  rw [h]

theorem ExportOnly.delivery {s t : State} (h : ExportOnly s t) : DeliveryOnly s t := by
  unfold ExportOnly at h
  unfold DeliveryOnly
  rw [h]

theorem releaseReport_only (s : State) (r : Report) : DeliveryOnly s (releaseReport s r) := by
  unfold releaseReport
  dsimp only
  split_ifs
  · exact (((ExportOnly.setRq s _).trans (.setRings _ _)).trans (.setRep _ _)).delivery.trans (markGone_only _).delivery
  · exact (((ExportOnly.setRq s _).trans (.setRings _ _)).trans (.setRep _ _)).delivery

theorem discardOutstanding_only (s : State) : DeliveryOnly s (discardOutstanding s) := by
  unfold discardOutstanding
  dsimp only
  exact (((ExportOnly.setRq s _).trans (.setRings _ _)).trans (.setRep _ _)).delivery.trans (markGone_only _).delivery

theorem loseSession_only (s : State) : DeliveryOnly s (loseSession s) := by
  unfold loseSession
  exact (discardOutstanding_only s).trans (ExportOnly.setRep _ _).delivery

theorem releaseOldest_only (n : Nat) (s : State) : DeliveryOnly s (releaseOldest n s) := by
  have key : ∀ (l : List Report) (u : State), DeliveryOnly s u → DeliveryOnly s (l.foldl releaseReport u) := by
    intro l
    induction l with
    | nil => exact fun u hu => hu
    | cons r l ih => exact fun u hu => ih _ (hu.trans (releaseReport_only u r))
  unfold releaseOldest
  dsimp only
  exact ((key _ s (.refl s)).trans (ExportOnly.setRep _ _).delivery).trans (pump_only _).delivery

end Sys2Proof.Machine
end

