-- ==== Sys2Proof/Laws/Export.lean ====
section
/-!
SUPPORT. The Report Engine: what the builder's loop, an append, a close and the production of one byte do, each said once in
the terms of Safety. That one build is as `IsBuilt` says is the statement BuildFitsTheBudget; the lemmas that need it take it
as a premise.
-/

namespace Sys2Proof.Machine

/-! ## The builder (R109) -/

theorem buildDue_iff (s : State) : buildDue s = true ↔ BuildIsDue s := by
  unfold buildDue BuildIsDue buildAllowed fillCondition budget itemsSize
  simp only [Bool.and_eq_true, beq_iff_eq, decide_eq_true_eq, Bool.or_eq_true]
  tauto

theorem buildReport_outstanding (s : State) :
    (buildReport s).rep.outstanding.length = s.rep.outstanding.length + 1
      ∧ (buildReport s).rep.windowSize = s.rep.windowSize := by
  obtain ⟨r, h, b, -, -, -, -, -, e⟩ := buildReport_eq s
  simp [e]

/-- The builder's loop builds while a build is due. -/
theorem pump_builds (build : ∀ s, IsBuilt s (buildReport s)) (s : State) : Builds s (pump s) := by
  have key : ∀ n u, u.rep.windowSize - u.rep.outstanding.length = n → Builds u (buildWhileDue n u) := by
    intro n
    induction n with
    | zero => exact fun u h => .still fun hd => by have := hd.2.1; omega
    | succ n ih =>
      intro u h
      unfold buildWhileDue
      split_ifs with hd
      · have := buildReport_outstanding u
        exact .build ((buildDue_iff u).1 hd) (build u) (ih _ (by omega))
      · exact .still fun h => hd ((buildDue_iff u).2 h)
  exact key _ s rfl

/-! ## No more records are IN_REPORT than are held (R103) -/

theorem buildReport_held {s : State} (h : s.rq.inReport ≤ s.rq.count) :
    (buildReport s).rq.inReport ≤ (buildReport s).rq.count := by
  obtain ⟨r, x, b, -, -, -, -, -, e⟩ := buildReport_eq s
  simp [e, RecordQueue.take, RecordQueue.unsent]
  omega

theorem pump_held {s : State} (h : s.rq.inReport ≤ s.rq.count) : (pump s).rq.inReport ≤ (pump s).rq.count :=
  pump_induction (P := fun s => s.rq.inReport ≤ s.rq.count) (fun _ hu _ => buildReport_held hu) h

theorem appendRecord_held (r : FlowRecord) {s : State} (h : s.rq.inReport ≤ s.rq.count) :
    (appendRecord r s).rq.inReport ≤ (appendRecord r s).rq.count := by
  unfold appendRecord
  dsimp only
  apply pump_held
  obtain ⟨x, b, e⟩ := holdAfterMaterial_frame (hasMaterial s) ((s.setRq (s.rq.append r)).setRep
    { s.rep with conservation := { s.rep.conservation with appended := s.rep.conservation.appended + 1 } })
  simp only [State.setRq_rep, e]
  simp [RecordQueue.append]
  omega

/-! ## Appends and closes (R53, R104, R108) -/

theorem hasMaterial_of_unsent {s : State} (h : s.rq.unsent ≠ 0) : hasMaterial s = true := by
  simp [hasMaterial, h]

theorem appendRecord_spec (build : ∀ s, IsBuilt s (buildReport s)) (r : FlowRecord) {s : State}
    (h : s.rq.inReport ≤ s.rq.count) : Appends r s (appendRecord r s) := by
  unfold Appends appendRecord
  dsimp only
  refine (fun u v (e : u = v) => e ▸ pump_builds build v : ∀ u v, u = v → Builds u (pump v)) _ _ ?_
  have hm : hasMaterial ((s.setRq (s.rq.append r)).setRep { (s.setRq (s.rq.append r)).rep with
      conservation := { (s.setRq (s.rq.append r)).rep.conservation with
        appended := (s.setRq (s.rq.append r)).rep.conservation.appended + 1 } }) = true := by
    apply hasMaterial_of_unsent
    simp only [State.setRep_rq, State.setRq_rq, RecordQueue.append, RecordQueue.unsent]
    omega
  unfold holdAfterMaterial holdStarted
  rw [hm]
  cases hasMaterial s <;> cases hh : s.rep.hold <;> cases hb : s.rep.buildPending <;>
    simp [hh, hb, State.now, RecordQueue.append, State.setRq, State.setRep]

theorem closeFlow_spec (build : ∀ s, IsBuilt s (buildReport s)) (i : Nat) (e : FlowEntry) (reason : Reason) {s : State}
    (h : s.rq.inReport ≤ s.rq.count) : ClosesFlow i e reason s (closeFlow i e reason s) := by
  unfold ClosesFlow closeFlow
  exact appendRecord_spec build _ h

/-! ## The next byte of a report (R114, R115) -/

/-- The field found at the place where a field begins is that field. -/
theorem fieldFrom_begin (pre post : List (List Byte)) (c : Byte) (m : List Byte) :
    fieldFrom (pre ++ (c :: m) :: post) pre.flatten.length = c :: m := by
  induction pre with
  | nil => simp [fieldFrom]
  | cons f pre ih =>
    simp only [List.cons_append, fieldFrom, List.flatten_cons, List.length_append]
    rw [if_neg (by omega), show f.length + pre.flatten.length - f.length = pre.flatten.length by omega, ih]

/-- What a report in transmission has to go, byte and rest, is as R114 and R115 say. -/
theorem toGo_spec (s : State) (p : Port) (n : Nat) (x : ReportTx) :
    let f := x.toGo s fun j => Config.absentField s.cap.epoch p (n + j)
    NextByte s p n x (byteAt f 0) f.tail := by
  unfold NextByte ReportTx.toGo
  refine ⟨fun c m h => by simp [h, byteAt], fun h => ⟨fun h1 => by simp [h, byteAt, h1], fun h1 h2 pre c m post h3 h4 => ?_,
    fun h1 => ?_⟩⟩
  · have h5 : ¬ x.pos < x.head.length := by omega
    have h6 : x.pos < x.head.length + x.report.itemsSize := by omega
    simp only [h, ne_eq, not_true, if_false, h5, h6, if_true, h3, ← h4, fieldFrom_begin]
    simp [byteAt]
  · have h5 : ¬ x.pos < x.head.length := by omega
    have h6 : ¬ x.pos < x.head.length + x.report.itemsSize := by omega
    simp [h, byteAt, h5, h6]

theorem advance_eq (x : ReportTx) (b : Byte) (more : List Byte) : x.advance b more = byteProduced x b more := rfl

end Sys2Proof.Machine
end

