-- ==== Sys2Proof/Laws/Line.lean ====
section
/-!
SUPPORT. The Line Interfaces, the Transit Buffers and the egress: when the shared operations leave the state alone, and what
they leave of it when they do not.
-/

namespace Sys2Proof.Machine

@[simp] theorem State.setBuffer_eq (s : State) (q : Port) (b : List HeldFrame) :
    s.setBuffer q b = s.setPort q { s.port q with buffer := b } := rfl

@[simp] theorem State.setBuffer_self (s : State) (q : Port) :
    s.setPort q { s.port q with buffer := (s.port q).buffer } = s := State.setPort_self s q

@[simp] theorem HeldFrame.fill_mk (h : List Byte) (n : Nat) (a : Option Action) (r : CopyReception) (c : CopyState) :
    (HeldFrame.fill { held := h, sent := n, action := a, reception := r, state := c }) = h.length - n := rfl

@[simp] theorem bufferFill_nil : bufferFill [] = 0 := rfl

@[simp] theorem bufferFill_cons (f : HeldFrame) (b : List HeldFrame) : bufferFill (f :: b) = f.fill + bufferFill b := by
  simp [bufferFill]

/-- The egress closes nothing when the head of the buffer that feeds it is not a sent frame whose reception is over. -/
theorem closeSent_still {p : Port} {s : State}
    (h : ∀ f rest, (s.port p.other).buffer = f :: rest →
      f.state ≠ .sending ∨ f.sent < f.held.length ∨ f.reception = .isOpen) : closeSent p s = s := by
  unfold closeSent
  split
  · rename_i f rest _ hb
    rw [if_neg]
    rintro ⟨h1, h2, h3⟩
    rcases h f rest hb with h | h | h
    · exact h h1
    · omega
    · exact h3 h
  · rfl

theorem dropDiscarded_still {b : List HeldFrame} (h : ∀ f rest, b = f :: rest → f.state ≠ .discarding) :
    dropDiscarded b = b := by
  cases b with
  | nil => rfl
  | cons f rest => simp [dropDiscarded, h f rest rfl]

/-- An UP egress changes nothing when its head frame stays: it is not done and is not a discarded one. -/
theorem settleEgress_up_still {p : Port} {s : State} (hl : (s.port p).link = .up)
    (h : ∀ f rest, (s.port p.other).buffer = f :: rest →
      f.state ≠ .discarding ∧ (f.state ≠ .sending ∨ f.sent < f.held.length ∨ f.reception = .isOpen)) :
    settleEgress p s = s := by
  have hc : closeSent p s = s := closeSent_still fun f rest hb => (h f rest hb).2
  unfold settleEgress
  rw [hc]
  simp only [hl, State.setBuffer_eq]
  rw [dropDiscarded_still fun f rest hb => (h f rest hb).1, State.setBuffer_self]

/-- Any egress changes nothing while the buffer that feeds it is empty, or its head is ARRIVING. -/
theorem settleEgress_still {p : Port} {s : State}
    (h : ∀ f rest, (s.port p.other).buffer = f :: rest → f.state = .arriving) : settleEgress p s = s := by
  have hc : closeSent p s = s := closeSent_still fun f rest hb => .inl (by rw [h f rest hb]; decide)
  have hd : drainFrames (s.port p.other).buffer = ((s.port p.other).buffer, 0) := by
    cases hb : (s.port p.other).buffer with
    | nil => rfl
    | cons f rest => simp [drainFrames, h f rest hb]
  unfold settleEgress
  rw [hc]
  dsimp only
  split
  · simp only [State.setBuffer_eq]
    rw [dropDiscarded_still fun f rest hb => by rw [h f rest hb]; decide, State.setBuffer_self]
  · simp only [hd, State.setBuffer_eq, State.setBuffer_self, State.setPortCounters]
    rw [show (s.port p).counters.egressDown + word 0 = (s.port p).counters.egressDown from BitVec.add_zero _]
    exact State.setPort_self s p

end Sys2Proof.Machine
end

