-- ==== Sys2Proof/Laws/Ingress.lean ====
section
/-!
SUPPORT. What follows at an egress when its buffer, its frame or its link has changed, and what a decision does: the shared
operations of the line and the Classifier, each said once in the terms of Safety.
-/

namespace Sys2Proof.Machine

/-! ## The egress settles (R13, R16) -/

theorem updateLast_append {α : Type} (f : α → α) (l : List α) (x : α) : updateLast f (l ++ [x]) = l ++ [f x] := by
  induction l with
  | nil => rfl
  | cons a l ih =>
    cases hl : l ++ [x] with
    | nil => simp at hl
    | cons b m =>
      rw [hl] at ih
      simp only [List.cons_append, hl, updateLast, ih]

theorem closeSent_spec (p : Port) (s : State) : Closes p s (closeSent p s) := by
  unfold Closes closeSent
  refine ⟨?_, fun h => ?_⟩
  · rintro f rest ⟨h1, h2, h3, h4, h5⟩
    rw [h1, h2]
    simp only [h3, h4, h5, true_and, ne_eq, not_false_iff, if_true]
    cases p <;> rfl
  · split
    · rename_i f rest h1 h2
      rw [if_neg]
      rintro ⟨h3, h4, h5⟩
      exact h f rest ⟨h1, h2, h3, h4, h5⟩
    · rfl

/-- A buffer stays as it is when its head is not to be discarded and is not done. -/
theorem Clears.still_of_head {l : Link} {f : HeldFrame} {rest : List HeldFrame}
    (h : (f.state = .ready → l = .up) ∧ (f.state = .discarding → f.reception = .isOpen)) :
    Clears l (f :: rest) (f :: rest) 0 := by
  refine .still fun g more e => ?_
  injection e with e1
  subst e1
  exact h

theorem clears_up (b : List HeldFrame) : Clears .up b (dropDiscarded b) 0 := by
  induction b with
  | nil => exact .still (by simp)
  | cons f rest ih =>
    unfold dropDiscarded
    split_ifs with h
    · exact .leave h.1 h.2 ih
    · exact .still_of_head ⟨fun _ => rfl, fun hd => by_contra fun ho => h ⟨hd, ho⟩⟩

theorem clears_down (b : List HeldFrame) : Clears .down b (drainFrames b).1 (drainFrames b).2 := by
  induction b with
  | nil => exact .still (by simp)
  | cons f rest ih =>
    unfold drainFrames
    split
    · rename_i h
      split_ifs with ho
      · exact .discard rfl h (.still_of_head ⟨by simp, fun _ => ho⟩)
      · exact .discard rfl h (.leave rfl ho ih)
    · rename_i h
      split_ifs with ho
      · exact .still_of_head ⟨by simp [h], fun _ => ho⟩
      · exact .leave h ho ih
    all_goals
      rename_i h
      exact .still_of_head (by simp [h])

/-- The buffer that `Clears` allows is one alone, and so is its count. -/
theorem Clears.unique {l : Link} {b c d : List HeldFrame} {n m : Nat} (h : Clears l b c n) (k : Clears l b d m) :
    c = d ∧ n = m := by
  induction h generalizing d m with
  | still hs =>
    cases k with
    | still => exact ⟨rfl, rfl⟩
    | discard h1 h2 _ => exact absurd ((hs _ _ rfl).1 h2) (by simp [h1])
    | leave h1 h2 _ => exact absurd ((hs _ _ rfl).2 h1) h2
  | discard h1 h2 _ ih =>
    cases k with
    | still hs => exact absurd ((hs _ _ rfl).1 h2) (by simp [h1])
    | discard _ _ k3 =>
      obtain ⟨e, e'⟩ := ih k3
      exact ⟨e, by omega⟩
    | leave k1 _ _ => exact absurd k1 (by simp [h2])
  | leave h1 h2 _ ih =>
    cases k with
    | still hs => exact absurd ((hs _ _ rfl).2 h1) h2
    | discard _ k2 _ => exact absurd k2 (by simp [h1])
    | leave _ _ k3 => exact ih k3

/-- All that the settling of an egress does. -/
theorem settleEgress_spec (p : Port) (s : State) : EgressSettles p s (settleEgress p s) := by
  unfold EgressSettles settleEgress
  refine ⟨closeSent p s, ?_⟩
  cases hl : ((closeSent p s).port p).link with
  | up =>
    refine ⟨_, 0, closeSent_spec p s, clears_up _, ?_⟩
    simp only [hl, show word 0 = 0 from rfl]
    generalize closeSent p s = u at hl ⊢
    cases p <;> simp only [State.setBuffer, State.setPort, State.port, Port.other] at hl ⊢ <;> rw [← hl] <;> simp
  | down =>
    refine ⟨_, _, closeSent_spec p s, clears_down _, ?_⟩
    generalize closeSent p s = u at hl ⊢
    cases p <;> simp only [State.setBuffer, State.setPort, State.port, Port.other, State.setPortCounters] at hl ⊢ <;>
      simp only [hl]

/-! ## The decision (R11, R20, R31, R32, R90) -/

/-- The hit count of the chosen rule alone rises. -/
theorem Classifier.hits_countHit (c : Classifier) (i j : Nat) :
    SMap.get 0 (c.countHit i).hits j = SMap.get 0 c.hits j + if j = i then 1 else 0 := by
  simp only [Classifier.countHit, SMap.get_set]
  by_cases h : j = i <;> simp [h]

/-- The sample countdown of a decision: whether a capture is asked for, and the Classifier afterwards. -/
theorem Classifier.sample_eq (c : Classifier) (i : Nat) (m : Rule) :
    c.sample i m = if m.slice = 0 then (c, false)
      else if SMap.get 0 c.countdowns i - 1 = 0 then
        ({ c with countdowns := SMap.set 0 c.countdowns i m.ratio.toNat }, true)
      else ({ c with countdowns := SMap.set 0 c.countdowns i (SMap.get 0 c.countdowns i - 1) }, false) := by
  unfold Classifier.sample
  split_ifs <;> simp_all

/-- The classification of a frame that is no management frame, as a decision. -/
theorem classify_spec (p : Port) (r : Reception) (s : State) (hk : r.kind = none) :
    ∃ c e d k, Decides p r s c e d k
      ∧ classify (directionIn p) r.serial r.bytes s = ((s.setCls c).setCap e, d, k) := by
  unfold classify
  cases hm : s.cls.mode with
  | bypass =>
    refine ⟨s.cls, s.cap, passDecision s.cls, none, ⟨fun _ => ⟨rfl, rfl, rfl, rfl⟩, fun _ h => ?_⟩, rfl⟩
    exact absurd (hm.symm.trans h) (by decide)
  | run =>
    dsimp only
    rw [Classifier.sample_eq]
    set i := s.cls.active.choose (directionIn p) r.bytes with hi
    set m := s.cls.active.rule i with hmm
    have hrun : ¬ (r.kind ≠ none ∨ s.cls.mode = .bypass) := by simp [hk, hm]
    have hcount : ∀ x j, SMap.get 0 (SMap.set 0 (s.cls.countHit i).countdowns i x) j
        = if j = i then x else SMap.get 0 s.cls.countdowns j := fun x j => SMap.get_set ..
    by_cases hs : m.slice = 0
    · refine ⟨s.cls.countHit i, s.cap, ruleDecision s.cls i m, none, ⟨fun h => absurd h hrun, fun _ _ => ?_⟩, ?_⟩
      · dsimp only
        rw [← hi, ← hmm]
        exact ⟨rfl, rfl, Classifier.hits_countHit _ _, fun j => by simp [Classifier.countHit, hs], fun _ => ⟨rfl, rfl⟩,
          fun h => absurd hs h⟩
      · simp only [hs, if_true]
        rfl
    by_cases hn : SMap.get 0 s.cls.countdowns i - 1 = 0
    · have hn' : SMap.get 0 (s.cls.countHit i).countdowns i - 1 = 0 := hn
      simp only [hs, hn', if_true, if_false]
      set g : RingId := Fin.ofNat 4 m.ring.toNat with hg
      set q : CaptureRequest :=
        { ring := g, slice := m.slice, rule := i, generation := (ruleDecision s.cls i m).generation, dir := directionIn p,
          serial := r.serial, uptime := s.now } with hq
      set c1 : Classifier :=
        { s.cls.countHit i with countdowns := SMap.set 0 (s.cls.countHit i).countdowns i m.ratio.toNat } with hc1
      set a := (s.ring g).attempt q with ha
      have hatt : attemptCapture q r.bytes (s.setCls c1) =
          if a.2 then
            (((s.setCls c1).setRing g a.1).setCap
              (((s.setCls c1).setRing g a.1).cap.copyBytes g (directionIn p) r.serial r.bytes), true)
          else ((s.setCls c1).setRing g a.1, false) := rfl
      refine ⟨c1, (attemptCapture q r.bytes (s.setCls c1)).1.cap, ruleDecision s.cls i m,
        if (attemptCapture q r.bytes (s.setCls c1)).2 then some g else none, ⟨fun h => absurd h hrun, fun _ _ => ?_⟩, ?_⟩
      · dsimp only
        rw [← hi, ← hmm]
        refine ⟨rfl, rfl, Classifier.hits_countHit _ _, fun j => ?_, fun h => ?_, fun _ _ => ⟨fun h => ?_, fun h => ?_⟩⟩
        · refine (hcount _ _).trans ?_
          by_cases hj : j = i <;> simp [hj, hs, hn]
        · exact absurd h (by simp [hs, hn])
        · rw [hatt, show a.2 = false from h]
          exact ⟨rfl, rfl⟩
        · have h' : a.2 = true := h
          rw [hatt, h']
          have hget : (((s.setCls c1).setRing g a.1).cap.rings.get g) = a.1 := by simp [State.setRing]
          exact ⟨rfl, CaptureEngine.copyBytes_spec _ _ _ _ _ _ ((congrArg _ hget).trans (Ring.attempt_capture h')) rfl rfl⟩
      · rw [hatt]
        split_ifs <;> rfl
    · have hn' : ¬ SMap.get 0 (s.cls.countHit i).countdowns i - 1 = 0 := hn
      simp only [hs, hn', if_false]
      refine ⟨{ s.cls.countHit i with
          countdowns := SMap.set 0 (s.cls.countHit i).countdowns i (SMap.get 0 s.cls.countdowns i - 1) },
        s.cap, ruleDecision s.cls i m, none, ⟨fun h => absurd h hrun, fun _ _ => ?_⟩, rfl⟩
      dsimp only
      rw [← hi, ← hmm]
      refine ⟨rfl, rfl, Classifier.hits_countHit _ _, fun j => ?_, fun _ => ⟨rfl, rfl⟩, fun _ h => absurd h hn⟩
      refine (hcount _ _).trans ?_
      by_cases hj : j = i <;> simp [hj, hs, hn]

/-- All that a decision at an ingress does: the Classifier and the Capture Engine as `Decides` says, the action applied to the
arriving copy, DROP counted, and the decision kept with the frame. -/
theorem decideFrame_spec (q : Port) (r : Reception) (s : State) :
    ∃ c e d k, Decides q r s c e d k ∧ decideFrame q r s =
      (((s.setCls c).setCap e).setPort q { s.port q with
          buffer := applyAction d.action (s.port q).buffer
          counters := { (s.port q).counters with
            dropped := (s.port q).counters.dropped + if d.action = .drop then 1 else 0 } },
        { r with decision := some d, capture := k }) := by
  unfold decideFrame
  by_cases hk : r.kind = none
  · obtain ⟨c, e, d, k, h1, h2⟩ := classify_spec q r s hk
    refine ⟨c, e, d, k, h1, ?_⟩
    simp only [hk, Option.isSome_none, Bool.false_eq_true, if_false, h2]
    split_ifs <;> cases q <;>
      simp [State.setBuffer, State.setPort, State.port, State.setPortCounters, State.setCls, State.setCap]
  · have hm : r.kind.isSome = true := Option.isSome_iff_ne_none.2 hk
    refine ⟨s.cls, s.cap, passDecision s.cls, none, ⟨fun _ => ⟨rfl, rfl, rfl, rfl⟩, fun h => absurd h hk⟩, ?_⟩
    have hp : ¬ (passDecision s.cls).action = .drop := by simp [passDecision]
    simp only [hm, if_true, hp, if_false]
    cases q <;> simp [State.setBuffer, State.setPort, State.port, State.setCls, State.setCap]

/-! ## A byte at the Transit Buffer (R4, R10, R12) -/

/-- What the reception of a frame notes of one more byte. -/
theorem Reception.receive_eq (r : Reception) (b : Byte) :
    (r.receive b).settleOversize =
      if r.count < 2048 then { r with count := r.count + 1, bytes := r.bytes ++ [b] }
      else if r.count = 2048 then { r with count := 2049, settled := some (r.settled.getD .oversize) }
      else { r with count := r.count + 1 } := by
  unfold Reception.receive Reception.settleOversize
  rcases Nat.lt_trichotomy r.count 2048 with h | h | h
  · simp [h, show r.count ≠ 2048 by omega]
  · cases hs : r.settled <;> simp [h]
  · simp [show ¬ r.count < 2048 by omega, show r.count ≠ 2048 by omega]

theorem append_singleton_inj {α : Type} {l m : List α} {x y : α} (h : l ++ [x] = m ++ [y]) : l = m ∧ x = y := by
  obtain ⟨h1, h2⟩ := List.append_inj' h rfl
  exact ⟨h1, by simpa using h2⟩

/-- All that a received byte does to its port: nothing outside it, `ByteStored` inside it, and to the reception no more than
what `Reception.receive_eq` says and Overflowed. -/
theorem storeByte_spec (q : Port) (r : Reception) (b : Byte) (s : State) :
    let r1 := (r.receive b).settleOversize
    let a := storeByte q r1 b (cutOversize q r1 s)
    a.1 = s.setPort q (a.1.port q) ∧ (∃ o, a.2 = { r1 with overflowed := o })
      ∧ ByteStored r b (s.port q) { a.1.port q with rx := some a.2 } := by
  dsimp only
  rw [Reception.receive_eq]
  rcases List.eq_nil_or_concat (s.port q).buffer with hb | ⟨l, f, hb⟩
  · have keep : ∀ r1 : Reception, storeByte q r1 b (cutOversize q r1 s) = (s, r1) := by
      intro r1
      have hc : cutOversize q r1 s = s := by
        unfold cutOversize
        split_ifs
        · rw [hb]
          show s.setPort q { s.port q with buffer := [] } = s
          rw [← hb, State.setPort_self]
        · rfl
      rw [hc]
      unfold storeByte
      rw [hb]
      rfl
    rw [keep]
    refine ⟨by simp, ⟨_, rfl⟩, fun h => ⟨fun before f e => ?_, fun _ => ?_⟩, fun h => ⟨?_, fun _ => hb, fun before f e => ?_⟩,
      fun h => ?_⟩
    · simp [hb] at e
    · simp [h]
    · simp [h]
    · simp [hb] at e
    · have h1 : ¬ r.count < 2048 := by omega
      have h2 : ¬ r.count = 2048 := by omega
      simp [h1, h2]
  · simp only [List.concat_eq_append] at hb
    by_cases h1 : r.count < 2048
    · simp only [h1, if_true]
      set r1 : Reception := { r with count := r.count + 1, bytes := r.bytes ++ [b] } with hr1
      have hc : cutOversize q r1 s = s := by
        unfold cutOversize
        rw [if_neg (show ¬ r.count + 1 = 2049 by omega)]
      rw [hc]
      have hn : r1.count ≤ 2048 := by
        show r.count + 1 ≤ 2048
        omega
      by_cases ht : f.takesBytes = true
      · have hto : f.reception = .isOpen ∧ f.state ≠ .discarding := by simpa [HeldFrame.takesBytes] using ht
        by_cases hf : 16384 ≤ bufferFill (l ++ [f])
        · have e : storeByte q r1 b s = (s.setPort q { s.port q with
              buffer := l ++ [{ f with reception := .endedAborted }]
              counters := { (s.port q).counters with transitOverflow := (s.port q).counters.transitOverflow + 1 } },
              { r1 with overflowed := true }) := by
            unfold storeByte
            simp [hb, ht, hn, hf, updateLast_append, HeldFrame.cut, hto.1, State.setPortCounters]
          rw [e]
          refine ⟨by simp, ⟨_, rfl⟩, fun _ => ⟨fun before g eg _ _ => ⟨fun h => ?_, fun _ => ?_⟩, fun h => ?_⟩,
            fun h => by omega, fun h => by omega⟩
          · rw [hb] at h
            omega
          · obtain ⟨rfl, rfl⟩ := append_singleton_inj (hb.symm.trans eg)
            simp [hr1]
          · exact absurd (h l f hb) (by simp [hto])
        · have e : storeByte q r1 b s = (s.setPort q { s.port q with buffer := l ++ [{ f with held := f.held ++ [b] }] }, r1) := by
            unfold storeByte
            simp [hb, ht, hn, hf, updateLast_append]
          rw [e]
          refine ⟨by simp, ⟨_, rfl⟩, fun _ => ⟨fun before g eg _ _ => ⟨fun _ => ?_, fun h => ?_⟩, fun h => ?_⟩,
            fun h => by omega, fun h => by omega⟩
          · obtain ⟨rfl, rfl⟩ := append_singleton_inj (hb.symm.trans eg)
            simp [hr1]
          · rw [hb] at h
            omega
          · exact absurd (h l f hb) (by simp [hto])
      · have e : storeByte q r1 b s = (s, r1) := by
          unfold storeByte
          simp [hb, ht]
        rw [e]
        refine ⟨by simp, ⟨_, rfl⟩, fun _ => ⟨fun before g eg ho hd => ?_, fun _ => rfl⟩, fun h => by omega, fun h => by omega⟩
        obtain ⟨rfl, rfl⟩ := append_singleton_inj (hb.symm.trans eg)
        exact absurd (by simp [HeldFrame.takesBytes, ho, hd]) ht
    · have past : ∀ (r1 : Reception) (u : State), 2048 < r1.count → storeByte q r1 b u = (u, r1) := by
        intro r1 u h
        unfold storeByte
        have : ¬ r1.count ≤ 2048 := by omega
        dsimp only
        split <;> simp [this]
      by_cases h2 : r.count = 2048
      · simp only [show ¬ r.count < 2048 from h1, if_pos h2, if_false]
        rw [past _ _ (by simp)]
        have hc : cutOversize q { r with count := 2049, settled := some (r.settled.getD .oversize) } s
            = s.setPort q { s.port q with
                buffer := l ++ [if f.reception = .isOpen then { f with reception := .endedAborted } else f] } := by
          unfold cutOversize
          rw [if_pos rfl]
          simp [hb, updateLast_append, HeldFrame.cut]
        rw [hc]
        refine ⟨by simp, ⟨_, rfl⟩, fun h => by omega, fun _ => ⟨by simp, fun e => ?_, fun before g eg => ?_⟩, fun h => by omega⟩
        · simp [hb] at e
        · obtain ⟨rfl, rfl⟩ := append_singleton_inj (hb.symm.trans eg)
          simp
      · simp only [h1, h2, if_false]
        have hc : cutOversize q { r with count := r.count + 1 } s = s := by
          unfold cutOversize
          rw [if_neg (show ¬ r.count + 1 = 2049 by omega)]
        rw [hc, past _ _ (show 2048 < r.count + 1 by omega)]
        exact ⟨by simp, ⟨_, rfl⟩, fun h => by omega, fun h => by omega, fun _ => rfl⟩

/-- A byte copied into the capture of its frame: as `CopiesBytes` says when a ring fills that capture, and else nothing. -/
theorem captureByte_spec (q : Port) (r : Reception) (b : Byte) (s : State) :
    (∀ id, FillsCapture s q r id → ∃ e, CopiesBytes s.cap e id [b] ∧ captureByte q r b s = s.setCap e)
      ∧ ((∀ id, ¬ FillsCapture s q r id) → captureByte q r b s = s) := by
  unfold captureByte
  refine ⟨fun id h => ?_, fun h => ?_⟩
  · obtain ⟨h1, f, h2, h3, h4⟩ := h
    rw [h1]
    exact ⟨_, CaptureEngine.copyBytes_spec s.cap id (directionIn q) r.serial [b] f h2 h3 h4, rfl⟩
  · cases hr : r.capture with
    | none => rfl
    | some id =>
      show s.setCap (s.cap.copyByte id (directionIn q) r.serial b) = s
      have : s.cap.copyByte id (directionIn q) r.serial b = s.cap := by
        unfold CaptureEngine.copyByte
        cases hf : (s.cap.rings.get id).capture with
        | none => simp [hf]
        | some f =>
          have : (s.cap.rings.get id).fillingFor (directionIn q) r.serial = false := by
            unfold Ring.fillingFor
            rw [hf, Bool.eq_false_iff]
            intro hh
            simp only [Bool.and_eq_true, beq_iff_eq] at hh
            exact h id ⟨hr, f, hf, hh⟩
          simp [hf, this]
      rw [this]
      rfl

/-! ## The end of a frame (R2, R3, R7, R9, R11, R17) -/

theorem dropArriving_append {before : List HeldFrame} {f : HeldFrame} (h : f.state = .arriving) :
    dropArriving (before ++ [f]) = before := by simp [dropArriving, h]

theorem applyAction_append {before : List HeldFrame} {f : HeldFrame} (a : Action) (h : f.state = .arriving) :
    applyAction a (before ++ [f]) = copyDecided before f a := by
  unfold applyAction copyDecided
  simp [h, updateLast_append]

theorem copyEnded_state (f : HeldFrame) (aborted : Bool) : (copyEnded f aborted).state = f.state := by
  unfold copyEnded
  split_ifs <;> rfl

theorem HeldFrame.ended_eq (f : HeldFrame) (e : LineEnd) : f.ended e = copyEnded f (e != .normal) := by
  unfold HeldFrame.ended copyEnded
  cases e <;> simp

theorem updateLast_of_forall {α : Type} {f : α → α} {l : List α} (h : ∀ x ∈ l, f x = x) : updateLast f l = l := by
  induction l using List.reverseRecOn with
  | nil => rfl
  | append_singleton l x _ => rw [updateLast_append, h x (by simp)]

/-- The counters of a frame of 16 bytes or more at its end (R17). -/
theorem PortCounters.countEnding_eq (c : PortCounters) (e : Ending) (n : Nat) :
    (c.countFrame n).countEnding e = { c with
      framesIn := c.framesIn + 1, bytesIn := c.bytesIn + word n
      oversize := c.oversize + if e = .oversize then 1 else 0
      badCheck := c.badCheck + if e = .checkFailed then 1 else 0
      truncated := c.truncated + if e = .truncated then 1 else 0 } := by
  cases e <;> simp [PortCounters.countFrame, PortCounters.countEnding]

/-- A decision does not look at the ports. -/
theorem Decides.setPort {p : Port} {r : Reception} {s : State} {c e d k} (x : PortState)
    (h : Decides p r (s.setPort p x) c e d k) : Decides p r s c e d k := by
  unfold Decides at *
  simpa using h

theorem ackConsumed_setPort (s : State) (p q : Port) (x : PortState) (r : Reception) (e : Ending) :
    ackConsumed (s.setPort q x) p r e = ackConsumed s p r e := by cases q <;> rfl

theorem ackConsumed_iff (s : State) (p : Port) (r : Reception) (e : Ending) :
    ackConsumed s p r e = true ↔ maskEnables r.mask p = true ∧ e = .good ∧ r.envLen + 12 ≤ r.count
      ∧ (byteAt r.bytes (r.envLen + 3)).toNat = s.agent.unit.toNat := by
  simp [ackConsumed, and_assoc]

theorem Reception.kind_decided (r : Reception) (d : Option Decision) (k : Option RingId) :
    ({ r with decision := d, capture := k } : Reception).kind = r.kind := rfl

/-- All that the end of a frame does that is no ACK. -/
theorem endFrame_spec (q : Port) (r : Reception) (e : LineEnd) (s : State) :
    FrameEnds q r (settleEnding r.settled e (checkCorrect r.bytes)) (e != .normal) s (endFrame q r e s) := by
  unfold FrameEnds
  dsimp only
  have fin : ∀ u : State, endFrame q r e s = settleEgress q.other u → EgressSettles q.other u (endFrame q r e s) :=
    fun u h => h ▸ settleEgress_spec _ _
  have notAck : r.kind ≠ some .ack → ∀ u x, (r.kind == some Kind.ack && ackConsumed u q r x) = false := by
    intro hk u x
    rw [show (r.kind == some Kind.ack) = false by simpa using hk]
    rfl
  refine ⟨fun before f hc hb ha => fin _ ?_, fun d hc hd hk => ?_, fun before f hc hd hk hb ha => ?_⟩
  · unfold endFrame endFragment
    simp [hc, hb, dropArriving_append ha, State.setPortCounters, PortCounters.countFrame]
  · have main : ∀ buf, updateLast (fun f => f.ended e) (s.port q).buffer = buf →
        endFrame q r e s = settleEgress q.other (s.setPort q
          { portEnded q (s.port q) r (settleEnding r.settled e (checkCorrect r.bytes)) (some d) with buffer := buf }) := by
      intro buf hbuf
      unfold endFrame endWhole
      rw [if_neg (by omega)]
      simp only [notAck hk, hd, if_false, State.setBuffer_eq, State.setPort_port_same, State.setPort_setPort, hbuf,
        PortCounters.countEnding_eq, reduceCtorEq, Bool.false_eq_true]
      congr 2
      simp only [portEnded, Reception.notice, Reception.commandCopy, hd]
      split_ifs <;> simp
    refine ⟨fun hf => fin _ ?_, fun before f hb => fin _ (main _ ?_)⟩
    · rw [main (s.port q).buffer (updateLast_of_forall fun x hx => by simp [HeldFrame.ended, hf x hx])]
      rfl
    · rw [hb, updateLast_append, HeldFrame.ended_eq]
  · obtain ⟨c, x, d, k, hdd, he⟩ := decideFrame_spec q r
      (s.setPort q { s.port q with rx := none, buffer := before ++ [copyEnded f (e != .normal)] })
    refine ⟨c, x, d, k, hdd.setPort, fin _ ?_⟩
    unfold endFrame endWhole
    rw [if_neg (by omega)]
    simp only [notAck hk, hd, if_true, if_false, State.setBuffer_eq, State.setPort_port_same, State.setPort_setPort, hb,
      updateLast_append, HeldFrame.ended_eq, he, Bool.false_eq_true]
    cases q <;>
      simp only [State.setPort, State.port, State.setCls, State.setCap, PortCounters.countEnding_eq,
        applyAction_append _ ((copyEnded_state f _).trans ha), portEnded, Reception.notice, Reception.commandCopy,
        Reception.kind_decided] <;>
      congr 2 <;> split_ifs <;> simp

/-- All that the end of an ACK does. -/
theorem endFrame_ack (q : Port) (r : Reception) (e : LineEnd) (s : State) :
    AckEnds q r (settleEnding r.settled e (checkCorrect r.bytes)) (e != .normal) s (endFrame q r e s) := by
  intro before f hc hd hk hb ha
  dsimp only
  have hs := (copyEnded_state f (e != .normal)).trans ha
  have fin : ∀ u : State, endFrame q r e s = settleEgress q.other u → EgressSettles q.other u (endFrame q r e s) :=
    fun u h => h ▸ settleEgress_spec _ _
  have hbeq : ∀ c : Bool, (r.kind == some Kind.ack && c) = c := by simp [hk]
  refine ⟨fun h => fin _ ?_, fun h => fin _ ?_⟩
  · have hcon := (ackConsumed_iff ..).2 h
    unfold endFrame endWhole
    rw [if_neg (by omega)]
    simp only [State.setBuffer_eq, State.setPort_port_same, State.setPort_setPort, hb, updateLast_append, HeldFrame.ended_eq, hbeq,
      ackConsumed_setPort, hcon, hd, if_true, dropArriving_append hs, PortCounters.countEnding_eq]
    congr 2
    have hk' : ∀ d, ({ r with decision := d } : Reception).kind = some .ack := fun _ => hk
    simp [portEnded, Reception.notice, passDecision, Reception.ackFields, word16, hk, hk']
  · have hcon : ackConsumed s q r (settleEnding r.settled e (checkCorrect r.bytes)) = false :=
      Bool.eq_false_iff.2 fun hh => h ((ackConsumed_iff ..).1 hh)
    have hk' : r.kind.isSome = true := by rw [hk]; rfl
    unfold endFrame endWhole
    rw [if_neg (by omega)]
    simp only [State.setBuffer_eq, State.setPort_port_same, State.setPort_setPort, hb, updateLast_append, HeldFrame.ended_eq, hbeq,
      ackConsumed_setPort, hcon, hd, if_true, Bool.false_eq_true, if_false, PortCounters.countEnding_eq, decideFrame, hk']
    have hp : ∀ c, ¬ (passDecision c).action = .drop := by simp [passDecision]
    simp only [hp, if_false, State.setPort_port_same, State.setPort_setPort]
    congr 2
    simp [portEnded, Reception.notice, passDecision, Reception.kind_decided, hk, applyAction_append _ hs]

/-! ## A link DOWN at an egress (R15, R16, R127) -/

/-- A transmission of a report of the list cut: which one it was does not matter but for the Retransmit Timer. -/
theorem cutTransmission_eq {e : ReportEngine} {older newer : List Report} {r : Report}
    (h : e.outstanding = older ++ r :: newer) (hr : r.state = .sending) (hn : ∀ y ∈ older ++ newer, y.state ≠ .sending) :
    cutTransmission e = { e with
      outstanding := older ++ { r with state := .queued } :: newer, queue := r.sequence :: e.queue
      retransmit := if older = [] then none else e.retransmit } := by
  have sent : ∀ l : List Report, (∀ y ∈ l, y.state ≠ .sending) → (l.filter fun r => r.state == .sending) = [] := by
    intro l hl
    rw [List.filter_eq_nil_iff]
    intro a ha
    simpa using hl a ha
  have same : ∀ l : List Report, (∀ y ∈ l, y.state ≠ .sending) →
      (l.map fun r => if r.state = .sending then { r with state := .queued } else r) = l := by
    intro l hl
    conv_rhs => rw [← List.map_id l]
    exact List.map_congr_left fun a ha => by simp [hl a ha]
  have ho : ∀ y ∈ older, y.state ≠ .sending := fun y hy => hn y (by simp [hy])
  have hw : ∀ y ∈ newer, y.state ≠ .sending := fun y hy => hn y (by simp [hy])
  unfold cutTransmission oldestSending
  rw [h]
  simp only [List.filter_append, List.filter_cons, hr, sent _ ho, sent _ hw, List.map_append, List.map_cons, same _ ho,
    same _ hw]
  cases older with
  | nil => simp [hr]
  | cons a l => simp [show a.state ≠ .sending from ho a (by simp)]

/-- All that a link DOWN does to what an egress sends. -/
theorem cutEgress_spec (p : Port) (s : State) : CutsEgress p s (cutEgress p s) := by
  unfold CutsEgress cutEgress
  dsimp only
  refine ⟨fun h => by rw [h], fun f rest h hb => ?_, fun bytes n h => ?_, fun x h => ⟨fun hg => ?_, fun hg older r newer ho hr hn => ?_⟩⟩
  · have : ∀ x, (s.setPort p x).port p.other = s.port p.other := by intro x; cases p <;> rfl
    simp only [h, State.emit, State.setPort_port_same, State.setPort_setPort, this, hb]
    cases p <;> rfl
  · simp only [h, State.emit, State.setPort_port_same, State.setPort_setPort]
    cases p <;> rfl
  · simp only [h, hg, State.emit, State.setPort_port_same, State.setPort_setPort, if_true]
  · simp only [h, hg, State.emit, State.setPort_port_same, State.setPort_setPort, Bool.false_eq_true, if_false, State.setPort_rep,
      cutTransmission_eq ho hr hn]

end Sys2Proof.Machine
end

