-- ==== Sys2Proof/Laws/Walk.lean ====
section
/-!
SUPPORT. The owners of the words do not look at the walk of the command that writes them, at the last result or at the unit
number: what a written word does, other than a Soft Reset, is the same whatever these are, and leaves them alone.
-/

namespace Sys2Proof.Machine

/-- A state with another last result, another walk and another unit number. -/
def State.setWalk (s : State) (l : Option WordResult) (w : Option Walk) (u : BitVec 5) : State :=
  { s with lastResult := l, agent := { s.agent with walk := w, unit := u } }

@[simp] theorem State.setWalk_setWalk (s : State) (l m : Option WordResult) (w v : Option Walk) (u z : BitVec 5) :
    (s.setWalk l w u).setWalk m v z = s.setWalk m v z := rfl

@[simp] theorem State.setWalk_walk (s : State) (l : Option WordResult) (w : Option Walk) (u : BitVec 5) :
    (s.setWalk l w u).agent.walk = w := rfl

@[simp] theorem State.setWalk_unit (s : State) (l : Option WordResult) (w : Option Walk) (u : BitVec 5) :
    (s.setWalk l w u).agent.unit = u := rfl

@[simp] theorem State.setWalk_lastResult (s : State) (l : Option WordResult) (w : Option Walk) (u : BitVec 5) :
    (s.setWalk l w u).lastResult = l := rfl

theorem State.setWalk_self (s : State) : s.setWalk s.lastResult s.agent.walk s.agent.unit = s := rfl

/-- A written word's outcome with another last result, another walk and another unit number. -/
def outcomeWalk (l : Option WordResult) (w : Option Walk) (u : BitVec 5) (x : State × WordResult) :
    State × WordResult :=
  (x.1.setWalk l w u, x.2)

section
variable (l : Option WordResult) (w : Option Walk) (u : BitVec 5)

theorem holdAfterMaterial_setWalk (had : Bool) (s : State) :
    holdAfterMaterial had (s.setWalk l w u) = (holdAfterMaterial had s).setWalk l w u := by
  unfold holdAfterMaterial
  rw [apply_ite (State.setWalk · l w u), apply_ite (State.setWalk · l w u)]
  rfl

theorem buildReport_setWalk (s : State) : buildReport (s.setWalk l w u) = (buildReport s).setWalk l w u := by
  unfold buildReport holdAfterBuild
  dsimp only
  rw [apply_ite (State.setWalk · l w u), apply_ite (State.setWalk · l w u)]
  rfl

theorem pump_setWalk (s : State) : pump (s.setWalk l w u) = (pump s).setWalk l w u := by
  have key : ∀ n t, buildWhileDue n (t.setWalk l w u) = (buildWhileDue n t).setWalk l w u := by
    intro n
    induction n with
    | zero => exact fun _ => rfl
    | succ n ih =>
      intro t
      unfold buildWhileDue
      rw [apply_ite (State.setWalk · l w u), buildReport_setWalk, ih]
      rfl
  exact key _ s

theorem closeFlow_setWalk (i : Nat) (e : FlowEntry) (reason : Reason) (s : State) :
    closeFlow i e reason (s.setWalk l w u) = (closeFlow i e reason s).setWalk l w u := by
  unfold closeFlow appendRecord
  dsimp only
  rw [← pump_setWalk, ← holdAfterMaterial_setWalk]
  rfl

theorem writeSetting_setWalk (k : Setting) (v : Word) (s : State) :
    writeSetting k v (s.setWalk l w u) = outcomeWalk l w u (writeSetting k v s) := by
  have store : storeSetting k v (s.setWalk l w u) = (storeSetting k v s).setWalk l w u := by
    cases k
    case sessionEnable =>
      unfold storeSetting enableSession disableSession
      dsimp only
      rw [apply_ite (State.setWalk · l w u), apply_ite (State.setWalk · l w u), apply_ite (State.setWalk · l w u)]
      rfl
    all_goals rfl
  unfold writeSetting
  rw [show k.stateCheck (s.setWalk l w u) = k.stateCheck s by cases k <;> rfl]
  cases k.stateCheck s with
  | some r => rfl
  | none =>
    dsimp only
    rw [apply_ite (outcomeWalk l w u), store]
    rfl

theorem writeControl_setWalk (v : Word) (s : State) (h : v.extractLsb' 0 8 ≠ 1) :
    writeControl v (s.setWalk l w u) = outcomeWalk l w u (writeControl v s) := by
  unfold writeControl
  split
  · rename_i h1
    exact absurd (BitVec.eq_of_toNat_eq (show (v.extractLsb' 0 8).toNat = (1 : BitVec 8).toNat from h1)) h
  · rfl
  · unfold startFlush
    cases selectorOf (v.extractLsb' 8 2) with
    | none => rfl
    | some k =>
      dsimp only
      rw [apply_ite (outcomeWalk l w u), apply_ite (outcomeWalk l w u)]
      rfl
  · unfold startClear
    rw [apply_ite (outcomeWalk l w u)]
    rfl
  · unfold restartSession
    rw [apply_ite (outcomeWalk l w u)]
    rfl
  · unfold reportNow outcomeWalk
    dsimp only
    rw [apply_ite (State.setWalk · l w u), ← pump_setWalk]
    rfl
  · rfl
  · rfl

theorem writeRingWord_setWalk (r : RingId) (i : Nat) (v : Word) (s : State) :
    writeRingWord r i v (s.setWalk l w u) = outcomeWalk l w u (writeRingWord r i v s) := by
  unfold writeRingWord
  split
  · unfold writeRingConfig
    dsimp only
    rw [apply_ite (outcomeWalk l w u), apply_ite (outcomeWalk l w u)]
    rfl
  · unfold writeRingConfig
    dsimp only
    rw [apply_ite (outcomeWalk l w u), apply_ite (outcomeWalk l w u)]
    rfl
  · unfold writeActivate
    dsimp only
    rw [apply_ite (outcomeWalk l w u), apply_ite (outcomeWalk l w u), apply_ite (outcomeWalk l w u)]
    rfl
  · unfold writeDeactivate
    dsimp only
    rw [apply_ite (outcomeWalk l w u), apply_ite (outcomeWalk l w u), apply_ite (outcomeWalk l w u)]
    unfold outcomeWalk
    dsimp only
    rw [← holdAfterMaterial_setWalk]
    rfl
  · rfl

theorem writeCloseEntry_setWalk (v : Word) (s : State) :
    writeCloseEntry v (s.setWalk l w u) = outcomeWalk l w u (writeCloseEntry v s) := by
  show closeSelected v ((s.setFlow { s.flow with closeEntry := v }).setWalk l w u)
    = outcomeWalk l w u (closeSelected v (s.setFlow { s.flow with closeEntry := v }))
  generalize s.setFlow { s.flow with closeEntry := v } = t
  unfold closeSelected
  rw [apply_ite (outcomeWalk l w u), show (t.setWalk l w u).flow = t.flow from rfl]
  cases t.flow.entry v.toNat with
  | none => rfl
  | some e =>
    dsimp only
    rw [apply_ite (outcomeWalk l w u), closeFlow_setWalk]
    rfl

theorem writeRuleCommit_setWalk (v : Word) (s : State) :
    writeRuleCommit v (s.setWalk l w u) = outcomeWalk l w u (writeRuleCommit v s) := by
  unfold writeRuleCommit commitRule
  dsimp only
  rw [apply_ite (outcomeWalk l w u), apply_ite (outcomeWalk l w u), apply_ite (outcomeWalk l w u), apply_ite (outcomeWalk l w u),
    apply_ite (outcomeWalk l w u)]
  rfl

theorem writeTemplateCommit_setWalk (v : Word) (s : State) :
    writeTemplateCommit v (s.setWalk l w u) = outcomeWalk l w u (writeTemplateCommit v s) := by
  unfold writeTemplateCommit commitTemplate
  dsimp only
  rw [apply_ite (outcomeWalk l w u), apply_ite (outcomeWalk l w u), apply_ite (outcomeWalk l w u)]
  rfl

/-- The Control word is the word at offset 0x0008 (Table 78). -/
theorem control_offset {o : BitVec 16} (h : decodeOffset o.toNat = .control) : o = 0x0008 := by
  have low : ∀ n < 0x0100, lowTarget n = .control → n = 8 := by decide +kernel
  refine BitVec.eq_of_toNat_eq ?_
  unfold decodeOffset at h
  by_cases h1 : o.toNat < 0x0100
  · exact low _ h1 (by rwa [if_pos h1] at h)
  · rw [if_neg h1] at h
    have other {c : Prop} [Decidable c] {x y : Target} (hx : x ≠ .control) (hy : y ≠ .control) :
        (if c then x else y) ≠ .control := by
      split
      · exact hx
      · exact hy
    refine absurd h ?_
    repeat' refine other ?_ ?_
    all_goals exact fun e => nomatch e

/-- A written word that is no Soft Reset acts alike whatever the walk and the last result are, and leaves both alone. -/
theorem writeWord_setWalk (o : BitVec 16) (v : Word) (s : State) (h : ¬ (o = 0x0008 ∧ v.extractLsb' 0 8 = 1)) :
    writeWord o v (s.setWalk l w u) = outcomeWalk l w u (writeWord o v s) := by
  unfold writeWord
  by_cases hc : decodeOffset o.toNat = .control
  · rw [hc]
    exact writeControl_setWalk l w u v s fun hv => h ⟨control_offset hc, hv⟩
  · cases ht : decodeOffset o.toNat with
    | control => exact absurd ht hc
    | setting k => exact writeSetting_setWalk l w u k v s
    | ruleCommit => exact writeRuleCommit_setWalk l w u v s
    | templateCommit => exact writeTemplateCommit_setWalk l w u v s
    | entrySelect =>
      show writeEntrySelect v (s.setWalk l w u) = outcomeWalk l w u (writeEntrySelect v s)
      unfold writeEntrySelect
      rw [apply_ite (outcomeWalk l w u)]
      rfl
    | closeEntry => exact writeCloseEntry_setWalk l w u v s
    | ring r i => exact writeRingWord_setWalk l w u r i v s
    | _ => rfl

end

/-- A written word that is no Soft Reset leaves the walk, the unit number and the last result alone. -/
theorem writeWord_keeps (o : BitVec 16) (v : Word) (s : State) (h : ¬ (o = 0x0008 ∧ v.extractLsb' 0 8 = 1)) :
    (writeWord o v s).1.agent.walk = s.agent.walk ∧ (writeWord o v s).1.agent.unit = s.agent.unit
      ∧ (writeWord o v s).1.lastResult = s.lastResult := by
  have e := congrArg Prod.fst (writeWord_setWalk s.lastResult s.agent.walk s.agent.unit o v s h)
  rw [State.setWalk_self] at e
  exact ⟨congrArg (·.agent.walk) e, congrArg (·.agent.unit) e, congrArg (·.lastResult) e⟩

/-! ## The words of a WRITE -/

/-- None of the words taken from address `a` on writes Soft Reset to the Control word. -/
def NoReset (unit : BitVec 5) (a : BitVec 24) (ws : List Word) : Prop :=
  ¬ ∃ j v, ws[j]? = some v ∧ localOffset unit (a + BitVec.ofNat 24 j) = some 0x0008 ∧ v.extractLsb' 0 8 = 1

theorem NoReset.head {unit : BitVec 5} {a : BitVec 24} {v : Word} {ws : List Word} (h : NoReset unit a (v :: ws))
    {o : BitVec 16} (ho : localOffset unit a = some o) : ¬ (o = 0x0008 ∧ v.extractLsb' 0 8 = 1) := by
  rintro ⟨rfl, hv⟩
  exact h ⟨0, v, rfl, by simpa using ho, hv⟩

theorem NoReset.tail {unit : BitVec 5} {a : BitVec 24} {v : Word} {ws : List Word} (h : NoReset unit a (v :: ws)) :
    NoReset unit (a + 1) ws := by
  rintro ⟨j, x, hx, ho, hv⟩
  refine h ⟨j + 1, x, hx, ?_, hv⟩
  rw [← ho, show a + BitVec.ofNat 24 (j + 1) = a + 1 + BitVec.ofNat 24 j by
    apply BitVec.eq_of_toNat_eq
    simp [BitVec.toNat_add, BitVec.toNat_ofNat]
    omega]

/-- The words of a WRITE act alike whatever the walk, the unit number held and the last result are. -/
theorem wordsWritten_setWalk (l : Option WordResult) (w : Option Walk) (u unit : BitVec 5) (ws : List Word) :
    ∀ (a : BitVec 24) (s : State), NoReset unit a ws →
      wordsWritten unit a ws (s.setWalk l w u)
        = ((wordsWritten unit a ws s).1.setWalk l w u, (wordsWritten unit a ws s).2) := by
  induction ws with
  | nil => exact fun _ _ _ => rfl
  | cons v ws ih =>
    intro a s h
    unfold wordsWritten
    cases ho : localOffset unit a with
    | none => exact ih _ _ h.tail
    | some o =>
      dsimp only
      rw [writeWord_setWalk l w u o v s (h.head ho)]
      dsimp only [outcomeWalk]
      rw [ih _ _ h.tail]

/-- The words of a WRITE leave the walk, the unit number and the last result to the executor. -/
theorem wordsWritten_keeps (unit : BitVec 5) (a : BitVec 24) (ws : List Word) (s : State) (h : NoReset unit a ws) :
    (wordsWritten unit a ws s).1.agent.walk = s.agent.walk ∧ (wordsWritten unit a ws s).1.agent.unit = s.agent.unit
      ∧ (wordsWritten unit a ws s).1.lastResult = s.lastResult := by
  have e := congrArg Prod.fst (wordsWritten_setWalk s.lastResult s.agent.walk s.agent.unit unit ws a s h)
  rw [State.setWalk_self] at e
  exact ⟨congrArg (·.agent.walk) e, congrArg (·.agent.unit) e, congrArg (·.lastResult) e⟩

theorem writeWords_append (ws vs : List Word) : ∀ s : State, writeWords (ws ++ vs) s = writeWords vs (writeWords ws s) := by
  induction ws with
  | nil => exact fun _ => rfl
  | cons v ws ih => exact fun s => ih _

/-- Without a walk no word of a WRITE is taken. -/
theorem writeWords_idle (ws : List Word) : ∀ s : State, s.agent.walk = none → writeWords ws s = s := by
  induction ws with
  | nil => exact fun _ _ => rfl
  | cons v ws ih =>
    intro s h
    unfold writeWords writeOne
    rw [h]
    exact ih s h

/-! ## A Soft Reset ends the walk -/

theorem queueResponse_walk (p : Port) (r : Response) (s : State) : (queueResponse p r s).agent.walk = s.agent.walk := by
  unfold queueResponse
  split_ifs <;> cases p <;> rfl

/-- No command is being executed after a Soft Reset (R150). -/
theorem softReset_walk (s : State) : (softReset s).agent.walk = none := by
  show ((match s.agent.walk with
    | some w => if standsAtReset s then queueResponse w.port (resetResponse s.agent.unit w) (emptyQueues s) else emptyQueues s
    | none => emptyQueues s : State)).agent.walk = none
  split
  · split
    · rw [queueResponse_walk]
      rfl
    · rfl
  · rfl

end Sys2Proof.Machine
end

