-- ==== Sys2Proof/WellFormed.lean ====
section
/-!
DEFINITION. Which commands are well formed. Most operands are legal by their type; what is left are the counts of the
WRITE and READ ops (Table 72: "a count 1–255") and the offsets that the row SETTING_WRITE covers (Table 78, Table 80).
-/

namespace Sys2Proof

/-- The local offsets of the setting and staging words with no row of their own: every Setting and Staging word of
Table 78 but the Hash Seed (0x0010) and Session Enable (0x0030). -/
def plainSettingOffset (o : Nat) : Bool :=
  o == 0x0004 || o == 0x000D || (0x0011 ≤ o && o ≤ 0x0014) || (0x0020 ≤ o && o ≤ 0x0023)
    || (0x0031 ≤ o && o ≤ 0x0036) || (0x0100 ≤ o && o ≤ 0x010F) || (0x0200 ≤ o && o ≤ 0x020F)
    || (0x0211 ≤ o && o ≤ 0x0214)

/-- Well-formedness of a command. -/
def Instr.wellFormed : Instr → Bool
  | .write ws => 1 ≤ ws.length && ws.length ≤ 255
  | .read n => 1 ≤ n && n ≤ 255
  | .settingWrite o _ => plainSettingOffset o.toNat
  | .resetNFall | .resetNRelease _ | .uptimeTick | .linkDown _ | .linkUp _ | .byteArrival _ _ _ | .frameEnd _ _
  | .frameEndUpdate _ | .captureCompletion _ | .egressChoose _ | .egressByteSent _ | .insertedFrameDone _
  | .sweeperVisit | .flushBucketStep | .flushResume | .clearBucketStep | .holdTimerExpiry
  | .retransmitExpiryStarting | .retransmitExpiryOpen | .ackTaken _ | .takeCommandCopy _ | .beginCommand
  | .setCursor _ | .moveCursor _ | .commandEnd | .hashSeedWrite _ | .ringConfigWrite _ _ _ | .ruleCommit _
  | .templateCommit _ | .entrySelect _ | .closeEntry _ | .activate _ | .deactivate _ | .sessionEnableOn
  | .sessionEnableOff | .softReset | .swapBanks | .flush _ _ | .clearTable | .sessionRestart | .reportNow
  | .clearCounters => true

end Sys2Proof
end

