-- ==== Sys2Proof/Tests/Slice0.lean ====
section
/-!
SUPPORT. Tests. The `test_` theorems check single steps and operations against the manual's own tables and worked examples,
or figures worked by hand from its rules; each says where its expected result comes from. The `witness_` theorems show, for
each statement with hypotheses, a concrete state and operands that meet all of them together, clause by clause.
-/

namespace Sys2Proof.Tests

open Sys2Proof Sys2Proof.Machine

-- One theorem at a time: a thread for each would not fit the memory the check allows.
set_option Elab.async false

/-! ## Small states -/

/-- The state a command leaves. -/
def after (c : Instr) (s : State) : State :=
  match exec c s with
  | .next t => t
  | .fault _ => s
  | .refused _ => s

/-- Unit 3 just released, both links UP. -/
def live : State := State.powerUp 3 .up .up 0

/-- Port `p` of a state changed. -/
def onPort (p : Port) (f : PortState → PortState) (s : State) : State := s.setPort p (f (s.port p))

/-- A held frame of `n` zero bytes. -/
def frameOf (n : Nat) (st : CopyState) : HeldFrame :=
  { held := List.replicate n 0, sent := 0, action := none, reception := .isOpen, state := st }

/-- A reception of the bytes given. -/
def receptionOf (bytes : List Byte) (d : Option Decision) : Reception :=
  { serial := 0, bytes := bytes, count := bytes.length, envLen := 0, marker := 0xB7C4, mask := 3, settled := none,
    overflowed := false, resetIntervened := false, decision := d, capture := none }

/-- A decision to measure under template 2, by rule 1. -/
def measured : Decision := { action := .measure, rule := some 1, generation := 1, template := some 2 }

/-- Template 2 of the manual's example (2.8): bytes 26–33, 34–37 and 23. -/
def template2 : Template :=
  { Template.reset with
    defined := true, seg0 := { offset := 26, length := 8 }, seg1 := { offset := 34, length := 4 }
    seg3 := { offset := 23, length := 1 } }

/-- A GOOD notice of a measured frame of `n` zero bytes. -/
def noticeOf (dir : Direction) (n : Nat) : Notice :=
  { serial := 0, dir := dir, length := n, ending := .good, overflowed := false, resetIntervened := false,
    management := false, decision := some measured, bytes := List.replicate n 0 }

/-- A flow of template 2. -/
def flowOf (last : Word) (frames : BitVec 32) (key : List Byte) : FlowEntry :=
  { template := 2, dirField := .ab, origin := .ab, key := key, rule := 1, generation := 1, firstSeen := 0,
    lastSeen := last, frames := frames, bytes := 100, saturated := false, merged := false }

/-- A state whose template 2 is that of the example. -/
def withTemplate2 (s : State) : State := s.setCls { s.cls with templates := [(2, template2)] }

/-- The flow entries replaced, Active Entries with them. -/
def withEntries (es : SMap FlowEntry) (s : State) : State :=
  s.setFlow { s.flow with entries := es, counters := { s.flow.counters with activeEntries := word es.length } }

/-- A Record Queue of `n` records, the first `r` IN_REPORT. -/
def withRecords (n r : Nat) (s : State) : State := s.setRq { s.rq with count := n, inReport := r }

/-- A report of `n` records. -/
def reportOf (session sequence : BitVec 16) (n : Nat) (st : TxState) : Report :=
  { session := session, sequence := sequence, start := false,
    items := (List.range n).map fun k => .record k 13, recordCount := n, captureCount := 0, itemsSize := 41 * n,
    state := st }

/-- The walk of a command at its first op. -/
def walkOf (ops : List Op) (cursor : BitVec 24) : Walk :=
  { tag := 0x42, rollcall := false, port := .A, opCount := ops.length, ops := ops, cursor := cursor, statuses := [],
    blocks := [], anyMine := false, taken := 0, firstMine := none, failure := none, data := [] }

/-- A state with the Agent executing a command. -/
def walking (w : Walk) (s : State) : State :=
  s.setAgent { s.agent with
    queue := [{ bytes := [], length := 0, envLen := 0, port := .A }], walk := some w }

/-! ## WellFormed: an ill-formed term for each check -/

theorem test_wellFormed_write_empty : (Instr.write []).wellFormed = false := by decide

theorem test_wellFormed_write_too_long : (Instr.write (List.replicate 256 0)).wellFormed = false := by decide +kernel

theorem test_wellFormed_read_zero : (Instr.read 0).wellFormed = false := by decide

theorem test_wellFormed_read_too_long : (Instr.read 256).wellFormed = false := by decide

theorem test_wellFormed_setting_offset : (Instr.settingWrite 0x0000 1).wellFormed = false := by decide

theorem test_wellFormed_setting_own_row : (Instr.settingWrite 0x0010 1).wellFormed = false := by decide

/-! ## Checks and formats -/

/-- The ASCII bytes "123456789". -/
def digits : List Byte := [0x31, 0x32, 0x33, 0x34, 0x35, 0x36, 0x37, 0x38, 0x39]

/-- R166. The published check value of the 32-bit check with this polynomial, start value, bit order and inversion. -/
theorem test_frame_check_of_digits : frameCheck digits = [0xFC, 0x89, 0x19, 0x18] := by decide +kernel

/-- R43. The published check value of the 16-bit check with polynomial 0x1021 and start value 0xFFFF. -/
theorem test_hash_of_digits : hash16 0xFFFF digits = 0x29B1 := by decide +kernel

/-- 10.3: "one with op count 1 and no block, 13 bytes with Envelope Length 0, ends with filler … up to 16". -/
theorem test_short_response_is_filled :
    let r : Response :=
      { unit := 3, malformed := false, reset := false, tag := 1, opCount := 1, statuses := [.notMine], blocks := [] }
    (r.frame .powerUp).length = 16 := by decide +kernel

/-- Table 76: the responses of units 1 and 2 are 32 bytes. -/
theorem test_response_of_two_reads :
    let r : Response :=
      { unit := 1, malformed := false, reset := false, tag := 0x42, opCount := 4
        statuses := [.result .ok, .result .unmapped, .result .ok, .result .ok]
        blocks := [{ offset := 0, data := [0, 0] }, { offset := 0, data := [0x06120100] }] }
    (r.frame .powerUp).length = 32 := by
  decide +kernel

/-- 8.5: READ 255 twice gives 1069, then 2091 (refused); 244 words give 2047, 245 give 2051. -/
theorem test_room_in_one_response :
    (walkOf [.setCursor 0, .read 255, .read 255] 0).roomSum 255 = 1069
      ∧ ({ walkOf [.setCursor 0, .read 255, .read 255] 0 with
            blocks := [{ offset := 0, data := List.replicate 255 0 }] } : Walk).roomSum 255 = 2091
      ∧ ({ walkOf [.setCursor 0, .read 255, .read 255] 0 with
            blocks := [{ offset := 0, data := List.replicate 255 0 }] } : Walk).roomSum 244 = 2047
      ∧ ({ walkOf [.setCursor 0, .read 255, .read 255] 0 with
            blocks := [{ offset := 0, data := List.replicate 255 0 }] } : Walk).roomSum 245 = 2051 := by
  decide +kernel

/-- 10.5, the sizing example: a record of key length 13 is 41 bytes, a capture of 90 bytes with an entry index 109. -/
theorem test_item_sizes : (Item.record 0 13).size = 41 ∧ (Item.capture 0 0 90 true).size = 109 := by decide

/-- R167, 11.5: the COMMAND of six ops has a body of 26 bytes in a frame of 33, and the ops of Table 100. -/
def command6 : Command :=
  let ops : List Op := [.setCursor 0xFF4058, .read 3, .setCursor 0x04FFFF, .read 3, .setCursor 0x060004, .write [1]]
  { bytes := [0xB7, 0xC4, 1] ++ [0x00, 0x77, 0, 6] ++ ops.flatMap Op.encode, length := 33, envLen := 0, port := .A }

theorem test_command_of_table_100 :
    command6.body.length = 26 ∧ command6.tag = 0x0077
      ∧ command6.body = [0x00, 0x77, 0, 6, 0x10, 0xFF, 0x40, 0x58, 0x13, 3, 0x10, 0x04, 0xFF, 0xFF, 0x13, 3,
          0x10, 0x06, 0x00, 0x04, 0x12, 1, 0, 0, 0, 1]
      ∧ (command6.ops.map List.length) = some 6 := by decide +kernel

/-! ## Classification -/

/-- Bytes 12–13 as given and byte 123, in a frame of 128 received bytes. -/
def exampleFrame (b12 b13 b123 : Byte) (n : Nat) : List Byte :=
  (List.replicate 12 0 ++ [b12, b13] ++ List.replicate 109 0 ++ [b123] ++ List.replicate 4 0).take n

/-- The rules of Table 14. -/
def bank14 : Bank :=
  { rules :=
      [(0, { Rule.reset with
          valid := true, action := .drop
          term0 := { enabled := true, offset := 12, mask := 0xFFFF0000, value := 0x91000000 } }),
       (1, { Rule.reset with
          valid := true, directions := .ab, action := .measure, template := 2
          term0 := { enabled := true, offset := 12, mask := 0xFFFF0000, value := 0x4D2A0000 }
          term1 := { enabled := true, offset := 120, mask := 0x000000FF, value := 0x00000011 } })]
    last := { Rule.resetDefault with slice := 64, ratio := 3 } }

/-- Table 15: frames F1 to F4. -/
theorem test_first_match :
    bank14.choose .ab (exampleFrame 0x4D 0x2A 0x11 128) = 1 ∧ bank14.choose .ab (exampleFrame 0x4D 0x2A 0x11 100) = 64
      ∧ bank14.choose .ba (exampleFrame 0x4D 0x2A 0x11 128) = 64
      ∧ bank14.choose .ba (exampleFrame 0x91 0x00 0x00 128) = 0 := by decide +kernel

/-- R32 with Table 14: the countdown of rule 64 goes 3, 2, 1, then makes a request and is reloaded to 3. -/
theorem test_sample_countdown :
    let c0 := { Classifier.reset with countdowns := [(64, 3)] }
    let c1 := c0.sample 64 bank14.last
    let c2 := c1.1.sample 64 bank14.last
    let c3 := c2.1.sample 64 bank14.last
    c1.2 = false ∧ SMap.get 0 c1.1.countdowns 64 = 2 ∧ c2.2 = false ∧ SMap.get 0 c2.1.countdowns 64 = 1 ∧ c3.2 = true
      ∧ SMap.get 0 c3.1.countdowns 64 = 3 := by decide +kernel

/-- Table 19: 40 and 38 bytes are Key Short under template 2, 42 bytes are not; the key length is 13. -/
theorem test_key_short :
    template2.fits 40 = false ∧ template2.fits 38 = false ∧ template2.fits 42 = true ∧ template2.keyLength = 13 := by
  decide

/-- Table 96, last op: after Swap Banks from reset, Bank Status reads 0x00010001. -/
theorem test_bank_status_after_swap : readStatus (after .swapBanks live) .bankStatus = 0x00010001 := by decide +kernel

/-- R159: after reset Rule Staging word 0 reads 3, word 3 reads 1. -/
theorem test_staging_after_reset :
    (readWord live 0x0200).1 = 3 ∧ (readWord live 0x0203).1 = 1 ∧ (readWord live 0x0201).1 = 0 := by decide +kernel

/-- Table 16, check 3, and R27: a slice of 17 is BAD_VALUE; Rule Commit 65 is BAD_VALUE. -/
theorem test_rule_commit_refused :
    (after (.ruleCommit 64) (after (.settingWrite 0x0202 17) live)).lastResult = some (.rejected .badValue)
      ∧ (after (.ruleCommit 65) live).lastResult = some (.rejected .badValue) := by decide +kernel

/-- 11.1: with Ring 0 inactive, Rule Commit 64 with a capture is BAD_RING; after Activate it is OK. -/
theorem test_ring_before_rule_64 :
    let staged := after (.settingWrite 0x0202 64) live
    (after (.ruleCommit 64) staged).lastResult = some (.rejected .badRing)
      ∧ (after (.ruleCommit 64) (after (.activate 0) staged)).lastResult = some .ok := by decide +kernel

/-- Table 18 and R161: template 2 of the example is committed and reads back. -/
theorem test_template_commit :
    let t := after (.templateCommit 2) (after (.settingWrite 0x0211 0x801A0008) live)
    t.lastResult = some .ok ∧ (readWord t 0x1808).1 = 0x801A0008 := by decide +kernel

/-! ## Flows -/

/-- The four flows of Table 25 in bucket 2620. -/
def bucket25 : State :=
  { withEntries [(10480, flowOf 49000 12 [1]), (10481, flowOf 20000 3 [2]), (10482, flowOf 20000 7 [3]),
      (10483, flowOf 49990 40 [4])] live with time := { uptime := 50000, offset := 0 } }

/-- 3.7: ways 1 and 2 tie at an age of 30000, so the victim is way 1. -/
theorem test_victim : bucket25.flow.victim 50000 2620 = 10481 := by decide +kernel

/-- 3.7: Close Entry 10482 with the Record Queue full is BUSY, and K3 stays. -/
theorem test_close_entry_busy :
    let t := after (.closeEntry 10482) (withRecords 256 0 bucket25)
    t.lastResult = some .busy ∧ (t.flow.entry 10482).isSome = true := by decide +kernel

/-- R46: Frames at its maximum stays there and SATURATED is set. -/
theorem test_hit_saturates :
    ((flowOf 0 0xFFFFFFFF []).hit .ab 60 7).frames = 0xFFFFFFFF ∧ ((flowOf 0 0xFFFFFFFF []).hit .ab 60 7).saturated = true
      ∧ ((flowOf 0 0xFFFFFFFF []).hit .ab 60 7).bytes = 160 := by decide +kernel

/-- Table 27: AB of 100 bytes, then BA of 60: Frames 2, Bytes 160, MERGED set. -/
theorem test_merged_flow :
    let m := (({ flowOf 7000 1 [] with dirField := .merged } : FlowEntry).hit .ba 60 7000)
    m.frames = 2 ∧ m.bytes = 160 ∧ m.merged = true ∧ m.origin = .ab := by decide +kernel

/-- R58, Table 83: the View of an ACTIVE entry. -/
theorem test_entry_view :
    let t := after (.entrySelect 10481) bucket25
    (readWord t 0x2001).1 = 0x810128F1 ∧ (readWord t 0x2004).1 = 20000 ∧ (readWord t 0x2005).1 = 3
      ∧ (readWord t 0x2010).1 = 50000 := by decide +kernel

/-- The state of Table 31: bucket 900 due at Uptime 1,200,000, Active Timeout 60, 255 records held. -/
def bucket900 : State :=
  let aged (first last : Word) (n : BitVec 32) : FlowEntry := { flowOf last n [1] with firstSeen := first }
  { withRecords 255 255 (withEntries
      [(3600, aged 1100000 1199500 800), (3601, aged 1150000 1160000 9), (3603, aged 1195000 1196000 2)] live) with
    time := { uptime := 1200000, offset := 0 }
    sweep := { live.sweep with activeTimeout := 60, position := 900, passStart := 1199000 } }

/-- Table 31: an active export takes the last place, the idle close is deferred, the third flow is left. -/
theorem test_one_visit :
    let t := after .sweeperVisit bucket900
    t.rq.count = 256 ∧ t.sweep.counters.activeExports = 1 ∧ t.sweep.counters.sweepDeferred = 1
      ∧ t.sweep.counters.idleCloses = 0 ∧ t.flow.counters.activeEntries = 3
      ∧ (t.flow.entry 3600).map (fun e => (e.firstSeen, e.lastSeen, e.frames)) = some (1200000, 1199500, 0) := by
  decide +kernel

/-- Table 38: a Flush step over bucket 10 closes the flow of template 2 and leaves the flow of template 5. -/
theorem test_flush_bucket_10 :
    let s0 := withRecords 254 0 (withEntries [(40, flowOf 0 1 [1]), (41, { flowOf 0 1 [2] with template := 5 })] live)
    let s1 := after (.flush 2 2) s0
    let t := after .flushBucketStep { s1 with walker := { s1.walker with position := 10 } }
    t.rq.count = 255 ∧ t.walker.position = 11 ∧ t.walker.count = 1 ∧ (t.flow.entry 41).isSome = true
      ∧ (t.flow.entry 40).isSome = false := by decide +kernel

/-- Table 38: Clear Table aborts the running Flush; R75: a Flush while a walk runs is BUSY. -/
theorem test_clear_aborts_flush :
    let s1 := after (.flush 2 2) live
    (after .clearTable s1).walker.flushAborted = true ∧ (after (.flush 0 0) s1).lastResult = some .busy := by
  decide +kernel

/-- R79: a Clear step frees the flows of its bucket and appends no record. -/
theorem test_clear_bucket :
    let s1 := after .clearTable (withEntries [(0, flowOf 0 1 [1]), (3, flowOf 0 1 [2]), (4, flowOf 0 1 [3])] live)
    let t := after .clearBucketStep s1
    t.flow.entries.length = 1 ∧ t.walker.count = 2 ∧ t.rq.count = 0 := by decide +kernel

/-- R66: Uptime wraps to 0. -/
theorem test_uptime_wraps :
    (after .uptimeTick { live with time := { uptime := 0xFFFFFFFF, offset := 0 } }).time.uptime = 0 := by decide +kernel

/-! ## Captures -/

/-- Ring 1 of Table 46, activated with Base Cell 64 and Size 8. -/
def ring1 : State :=
  after (.activate 1) (after (.ringConfigWrite 1 .size 8) (after (.ringConfigWrite 1 .baseCell 64) live))

/-- A capture request of a slice for ring 1. -/
def requestOf (slice serial : Nat) : CaptureRequest :=
  { ring := 1, slice := slice, rule := 1, generation := 1, dir := .ab, serial := serial, uptime := 0 }

/-- The zones as Table 46 prints them: indices, then In Report, Filled, Filling and Free Counts. -/
def zones (g : Ring) : List Nat := [g.release, g.send, g.fill, g.inReport, g.filled, g.filling, g.free]

/-- Table 46, frames X, Y and X's end: D = 2 of Size 8; Y finds Ring Busy; at the end 2 are FILLED. -/
theorem test_ring_x :
    let x := ((ring1.ring 1).attempt (requestOf 128 1))
    zones x.1 = [0, 0, 0, 0, 0, 2, 6] ∧ x.2 = true ∧ (x.1.attempt (requestOf 64 2)).1.counters.ringBusy = 1
      ∧ zones (x.1.complete { dir := .ab, serial := 1, slice := 128, copied := 128 } 300 .good (some 10481))
          = [0, 0, 2, 0, 2, 0, 6] := by decide +kernel

/-- Table 46, frame Z: 90 bytes of a slice of 256 take 4 descriptors and keep 2; then the builder takes X. -/
theorem test_ring_z :
    let x := ((ring1.ring 1).attempt (requestOf 128 1)).1.complete
      { dir := .ab, serial := 1, slice := 128, copied := 128 } 300 .good (some 10481)
    let z := (x.attempt (requestOf 256 2)).1.complete { dir := .ab, serial := 2, slice := 256, copied := 90 } 90
      .checkFailed none
    zones z = [0, 0, 4, 0, 4, 0, 4] ∧ zones (z.take 2) = [0, 2, 4, 2, 2, 0, 4]
      ∧ zones ((z.take 2).releaseCaptures 2) = [2, 2, 4, 0, 2, 0, 6] := by decide +kernel

/-- R88, R90, R92: the descriptors 2 to 5 of frame Z as reserved, as completed, and the one before them: First, Last and state. -/
theorem test_descriptors_of_z :
    let x := ((ring1.ring 1).attempt (requestOf 128 1)).1.complete
      { dir := .ab, serial := 1, slice := 128, copied := 128 } 300 .good (some 10481)
    let r := (x.attempt (requestOf 256 2)).1
    let z := r.complete { dir := .ab, serial := 2, slice := 256, copied := 90 } 90 .checkFailed none
    let marks (g : Ring) := [1, 2, 3, 4, 5].map fun i => ((g.desc i).first, (g.desc i).last, (g.desc i).state)
    marks r = [(false, true, .filled), (true, false, .filling), (false, false, .filling), (false, false, .filling),
        (false, false, .filling)]
      ∧ marks z = [(false, true, .filled), (true, false, .filled), (false, true, .filled), (false, false, .free),
        (false, false, .free)] := by decide +kernel

/-- Table 40: an Activate over cells of an active ring is OVERLAP; one past cell 2047 is BAD_VALUE. -/
theorem test_activate_refused :
    (after (.activate 1) (after (.ringConfigWrite 1 .baseCell 0) (after (.activate 0) live))).lastResult
        = some (.rejected .overlap)
      ∧ (after (.activate 3) (after (.ringConfigWrite 3 .baseCell 1544) live)).lastResult = some (.rejected .badValue) := by
  decide +kernel

/-- R87: a Deactivate of an active ring that nothing names is OK; of a ring with a capture in report it is BUSY. -/
theorem test_deactivate :
    (after (.deactivate 1) ring1).lastResult = some .ok ∧ ((after (.deactivate 1) ring1).ring 1).active = false
      ∧ (after (.deactivate 1) (ring1.setRing 1 { ring1.ring 1 with inReport := 1, free := 7 })).lastResult
          = some .busy := by decide +kernel

/-! ## Reports -/

/-- A record of key length `k`. -/
def recordOf (k : Nat) : FlowRecord := (flowOf 0 1 (List.replicate k 0)).record 0 .idle

/-- The FILLED captures of an active ring of Size 8: each a list of byte counts, and whether it names an entry. -/
def filledRing (cs : List (List Nat × Bool)) : Ring :=
  let ds := cs.flatMap fun c => (List.range c.1.length).map fun k =>
    ({ state := .filled, first := k == 0, last := k + 1 == c.1.length, byteCount := c.1.getD k 0
       info := if k = 0 then some { rule := 1, generation := 1, dir := .ab, flag := .good, uptime := 0, length := some 300,
                                    entry := if c.2 then some 7 else none } else none } : Descriptor)
  { Ring.reset 0 with
    active := true, size := 8, filled := ds.length, free := 8 - ds.length, fill := ds.length % 8
    descriptors := (List.range ds.length).map fun i => (i, ds.getD i .reset) }

/-- The material of Table 56: R1, R2 (key length 13), R3 (32), R4 (13); a in Ring 0, b and c in Ring 1, d in Ring 3; the Next
Start Source is Ring 1. -/
def build56 : State :=
  { live with
    rq := { slots := [(0, recordOf 13), (1, recordOf 13), (2, recordOf 32), (3, recordOf 13)], head := 0, count := 4,
            inReport := 0 }
    cap := { live.cap with rings :=
      { r0 := filledRing [([64, 64], true)], r1 := filledRing [([64, 64, 64, 64], true), ([64, 64, 64, 64], false)]
        r2 := filledRing [], r3 := filledRing [([64], true)] } }
    rep := { live.rep with session := .opened, nextStart := .ring 1 } }

/-- Table 56: the report carries b, d, R1, a, c, R2, R3, 920 bytes in all. -/
theorem test_one_build :
    nextItems build56 = [.capture 1 0 256 true, .capture 3 0 64 true, .record 0 13, .capture 0 0 128 true,
        .capture 1 4 256 false, .record 1 13, .record 2 32]
      ∧ itemsSize (nextItems build56) = 920 ∧ fillCondition build56 = true := by decide +kernel

/-- After Table 56: R1 to R3 IN_REPORT, R4 UNSENT, the Next Start Source Ring 2, and the Hold Timer RUNNING for R4. -/
theorem test_after_one_build :
    let t := buildReport build56
    t.rq.inReport = 3 ∧ t.rq.unsent = 1 ∧ t.rep.nextStart = .ring 2 ∧ (t.ring 0).send = 2 ∧ (t.ring 1).inReport = 8
      ∧ t.rep.hold = some 200 := by decide +kernel

/-- The session of Table 63: OPEN with reports 65534, 65535 and 0 outstanding. -/
def session63 : ReportEngine :=
  { live.rep with
    session := .opened, sessionNumber := 7, nextSequence := 1
    outstanding := [reportOf 7 65534 1 .sent, reportOf 7 65535 1 .sent, reportOf 7 0 1 .sent] }

/-- Table 63. -/
theorem test_ack_outcomes :
    classifyAck session63 ⟨7, 65534⟩ = .release 1 ∧ classifyAck session63 ⟨7, 0⟩ = .release 3
      ∧ classifyAck session63 ⟨7, 65533⟩ = .stale ∧ classifyAck session63 ⟨7, 40000⟩ = .stale
      ∧ classifyAck session63 ⟨7, 5⟩ = .bad ∧ classifyAck session63 ⟨6, 0⟩ = .mismatch := by decide +kernel

/-- R129, 11.4: intervals of 100, 200, 400, 800, 1600 and 1600 ms for Attempts 0 to 5. -/
theorem test_retransmit_intervals :
    [0, 1, 2, 3, 4, 5].map (fun a => retransmitInterval { live.rep with attempts := a })
      = [100, 200, 400, 800, 1600, 1600] := by decide +kernel

/-- Table 69 at Uptime 1150, before its expiry: reports 11 and 12 SENT, 2 and 3 records IN_REPORT. -/
def session69 : State :=
  { withRecords 5 5 live with
    time := { uptime := 1150, offset := 0 }
    rep := { live.rep with
      session := .opened, sessionNumber := 7, nextSequence := 13, windowSize := 3, retryLimit := 2, retransmit := some 1150
      outstanding := [reportOf 7 11 2 .sent, reportOf 7 12 3 .sent] } }

/-- Table 69 at 1150: both requeued, Attempts 1, the timer STOPPED, Retransmissions 2. -/
theorem test_expiry_requeues :
    let t := after .retransmitExpiryOpen session69
    t.rep.queue = [11, 12] ∧ t.rep.attempts = 1 ∧ t.rep.retransmit = none ∧ t.rep.delivery.retransmissions = 2 := by
  decide +kernel

/-- Table 69 at 1754: with Attempts at Retry Limit the session is lost; session 8, STARTING, 5 records discarded. -/
theorem test_expiry_loses :
    let t := after .retransmitExpiryOpen { session69 with rep := { session69.rep with attempts := 2 } }
    t.rep.session = .starting ∧ t.rep.sessionNumber = 8 ∧ t.rep.queue = [0] ∧ t.rep.nextSequence = 1
      ∧ t.rep.conservation.discarded = 5 ∧ t.rq.count = 0 ∧ t.rep.delivery.sessionsLost = 1 := by decide +kernel

/-- Table 98 at 5101: an expiry in STARTING requeues the Start Report, Attempts 1. -/
theorem test_expiry_starting :
    let s0 := after .sessionEnableOn live
    let s1 := { s0 with rep := { s0.rep with
      queue := [], outstanding := [{ startReport 1 with state := .sent }], retransmit := some 0 } }
    let t := after .retransmitExpiryStarting s1
    t.rep.queue = [0] ∧ t.rep.attempts = 1 ∧ t.rep.delivery.retransmissions = 1 := by decide +kernel

/-- Table 69 at 1050: ACK (7, 10) releases 4 records; the timer restarts at 1150. -/
theorem test_ack_releases :
    let s := onPort .A (fun x => { x with acks := [⟨7, 10⟩] })
      { withRecords 9 9 live with
        time := { uptime := 1050, offset := 0 }
        rep := { session69.rep with
          retransmit := some 1102
          outstanding := [reportOf 7 10 4 .sent, reportOf 7 11 2 .sent, reportOf 7 12 3 .sent] } }
    let t := after (.ackTaken .A) s
    t.rq.count = 5 ∧ t.rep.conservation.exported = 4 ∧ t.rep.retransmit = some 1150 ∧ t.rep.delivery.acks = 1 := by
  decide +kernel

/-- Table 98 at 5120 and 5320: an append starts the Hold Timer for 200 ms; its expiry builds the report. -/
theorem test_hold_expiry_builds :
    let s := { withRecords 3 0 live with
      time := { uptime := 5320, offset := 0 }
      rep := { live.rep with session := .opened, sessionNumber := 1, nextSequence := 1, hold := some 5320 } }
    let t := after .holdTimerExpiry s
    t.rq.inReport = 3 ∧ t.rep.queue = [1] ∧ t.rep.hold = none ∧ t.rep.buildPending = false := by decide +kernel

/-! ## The line -/

/-- The start of Table 10: T1 READY at the head of the AB buffer, P1 queued at Port B, Q1 in the Report Egress Queue. -/
def egressB : State :=
  let s0 := onPort .A (fun x => { x with buffer := [frameOf 64 .ready] }) live
  let s1 := onPort .B (fun x => { x with responses :=
    [{ unit := 3, malformed := false, reset := false, tag := 1, opCount := 1, statuses := [.notMine], blocks := [] }] }) s0
  { s1 with rep := { s1.rep with port := .B, queue := [5], outstanding := [reportOf 7 5 1 .queued] } }

/-- Table 10: P1 first (case 3); with last kind INSERTED the transit frame (case 2); then Q1 (case 4); with the fill at High
Mark case 1 sends transit first. -/
theorem test_merge_choices :
    mergeChoice .B egressB = .response
      ∧ mergeChoice .B (onPort .B (fun x => { x with responses := [], lastKind := .inserted }) egressB) = .transit
      ∧ mergeChoice .B (onPort .B (fun x => { x with responses := [] }) egressB) = .report
      ∧ mergeChoice .B { egressB with reach := { egressB.reach with highMark := 64 } } = .transit := by decide +kernel

/-- R4, 1.1: a frame past byte 2048 is OVERSIZE whatever happens later; a link that goes DOWN first gives TRUNCATED. -/
theorem test_endings :
    settleEnding (some .oversize) .linkDown true = .oversize ∧ settleEnding none .linkDown true = .truncated
      ∧ settleEnding none .aborted true = .checkFailed ∧ settleEnding none .normal false = .checkFailed := by decide

/-- R3: a frame of 15 bytes is a fragment; R2: one of 16 with a bad check is CHECK_FAILED, and is decided at its end. -/
theorem test_fragment_and_bad_check :
    let s (n : Nat) := onPort .A (fun x =>
      { x with rx := some (receptionOf (List.replicate n 0) none), buffer := [frameOf n .arriving] }) live
    (after (.frameEnd .A false) (s 15)).portA.counters.fragments = 1
      ∧ (after (.frameEnd .A false) (s 15)).portA.flowNotices = []
      ∧ (after (.frameEnd .A false) (s 16)).portA.counters.badCheck = 1
      ∧ (after (.frameEnd .A false) (s 16)).portA.buffer.map (·.state) = [.ready] := by decide +kernel

/-- R18, R64: the release samples the straps. -/
theorem test_release_samples_straps :
    (after (.resetNRelease 17) { live with resetN := false }).agent.unit = 17 := by decide +kernel

/-- R18: a fall of RESET_N closes the frame being sent with an abort ending. -/
theorem test_reset_fall_aborts :
    (after .resetNFall (onPort .B (fun x => { x with egress := .response [1, 2] 1 }) live)).portB.line = [.endAbort] := by
  decide +kernel

/-! ## Commands -/

/-- Table 76: at unit 1 the two words 0x01FFFE and 0x01FFFF are mine, at unit 2 the next two, at unit 5 none. -/
theorem test_mine_counts :
    mineCount 1 0x01FFFE 4 = 2 ∧ mineCount 2 0x01FFFE 4 = 2 ∧ mineCount 5 0x01FFFE 4 = 0
      ∧ localOffset 5 0xFF0000 = some 0 := by decide +kernel

/-- Table 100 at unit 5: READ 3 from 0x04FFFF gives a block at offset 1 with the words 0x06120100 and 5. -/
theorem test_read_straddles :
    let s := walking (walkOf [.read 3] 0x04FFFF) { live with agent := { live.agent with unit := 5 } }
    ((after (.read 3) s).agent.walk.map (·.blocks)) = some [{ offset := 1, data := [0x06120100, 5] }]
      ∧ ((after (.read 3) s).agent.walk.map (·.statuses)) = some [.result .ok] := by decide +kernel

/-- Table 100 at unit 6 and at unit 4: WRITE 1 of value 1 at 0x060004 sets Mode RUN at unit 6; at unit 4 it is NOT_MINE. -/
theorem test_write_mode :
    let s (u : BitVec 5) := walking (walkOf [.write [1]] 0x060004) { live with agent := { live.agent with unit := u } }
    (after (.write [1]) (s 6)).cls.mode = .run ∧ (after (.write [1]) (s 4)).cls.mode = .bypass
      ∧ ((after (.write [1]) (s 4)).agent.walk.map (·.statuses)) = some [.notMine]
      ∧ ((after (.write [1]) (s 6)).agent.walk.map (·.cursor)) = some 0x060005 := by decide +kernel

/-- R144: a MOVE_CURSOR of −1 from 0 gives 0xFFFFFF. -/
theorem test_move_cursor_wraps : moveBy 0 0xFFFF = 0xFFFFFF := by decide

/-- R139: a third command is an overrun; R140: the first is begun with cursor 0. -/
theorem test_commands_queue :
    let s := onPort .A (fun x => { x with commandCopies :=
      [{ bytes := command6.bytes, length := 33, envLen := 0, ending := .good }] }) live
    let t := after (.takeCommandCopy .A) s
    t.agent.queue.length = 1 ∧ ((after .beginCommand t).agent.walk.map (·.opCount)) = some 6
      ∧ (after (.takeCommandCopy .A)
          { s with agent := { s.agent with queue := [command6, command6] } }).agent.counters.overrun = 1 := by
  decide +kernel

/-- R148: a command with no word mine and ROLLCALL clear ends in silence; with ROLLCALL set it is answered. -/
theorem test_command_end :
    (after .commandEnd (walking (walkOf [] 0) live)).portA.responses = []
      ∧ (after .commandEnd (walking { walkOf [] 0 with rollcall := true } live)).portA.responses.length = 1 := by
  decide +kernel

/-- R154, Table 78: the identity word reads 0x06120100, offset 0x0006 is UNMAPPED, a write to Uptime is READ_ONLY. -/
theorem test_window_words :
    readWord live 0x0000 = (0x06120100, .ok) ∧ readWord live 0x0006 = (0, .unmapped)
      ∧ (writeWord 0x000C 1 live).2 = .readOnly ∧ (readWord live 0x0001).1 = 3 := by decide +kernel

/-- Table 80: High Mark 2047 and 8193 are BAD_VALUE, 14336 is OK; Window Size outside IDLE is BUSY. -/
theorem test_setting_checks :
    (after (.settingWrite 0x0020 2047) live).lastResult = some (.rejected .badValue)
      ∧ (after (.settingWrite 0x0020 8193) live).lastResult = some (.rejected .badValue)
      ∧ (after (.settingWrite 0x0020 14336) live).reach.highMark = 14336
      ∧ (after (.settingWrite 0x0032 8) (after .sessionEnableOn live)).lastResult = some .busy := by decide +kernel

/-- R44: Hash Seed is refused with NOT_EMPTY while an entry is ACTIVE, stored otherwise. -/
theorem test_hash_seed :
    (after (.hashSeedWrite 0x1234) bucket25).lastResult = some (.rejected .notEmpty)
      ∧ (after (.hashSeedWrite 0x1234) live).flow.seed = 0x1234 := by decide +kernel

/-- R120, R121, R122: session 1 opens with its Start Report queued; Session Restart in IDLE is NOT_ACTIVE, in STARTING it opens
session 2; Session Enable off returns to IDLE. -/
theorem test_sessions :
    let s1 := after .sessionEnableOn live
    s1.rep.session = .starting ∧ s1.rep.sessionNumber = 1 ∧ s1.rep.queue = [0] ∧ s1.rep.nextSequence = 1
      ∧ (after .sessionRestart live).lastResult = some (.rejected .notActive)
      ∧ (after .sessionRestart s1).rep.sessionNumber = 2 ∧ (after .sessionEnableOff s1).rep.session = .idle := by
  decide +kernel

/-- R109: Report Now with no material leaves no request. R158: Clear Counters keeps Active Entries. -/
theorem test_report_now_and_clear_counters :
    (after .reportNow live).rep.buildPending = false ∧ (after .reportNow (withRecords 1 0 live)).rep.buildPending = true
      ∧ (after .clearCounters bucket25).flow.counters.activeEntries = 4
      ∧ (after .clearCounters { live with cls := { live.cls with hits := [(1, 5)] } }).cls.hits = [] := by decide +kernel

/-- R150: a Soft Reset keeps Uptime, the Time Offset and the Unit Number, and sets the Mode to BYPASS. -/
theorem test_soft_reset :
    let t := after .softReset { live with
      time := { uptime := 9, offset := 5 }, cls := { live.cls with mode := .run } }
    t.time = { uptime := 9, offset := 5 } ∧ t.agent.unit = 3 ∧ t.cls.mode = .bypass ∧ t.sweep.passStart = 9 := by
  decide +kernel

/-! ## Witnesses for the statements

Each shows operands and a state that meet the hypotheses of one clause together, at a boundary value where it has one. -/

/-- `live` with a tick waiting: it meets the laws and takes a step. -/
def ticking : State := live.setPending [.uptimeTick]

theorem witness_laws_step : ∃ t, step ticking = .next t := ⟨_, rfl⟩

theorem witness_RecordsAreConserved :
    RecordQueueHeld (withRecords 256 256 ticking) ∧ RecordsConserved
      { withRecords 256 256 ticking with
        rep := { live.rep with conservation := { appended := 256, exported := 0, discarded := 0 } } } := by
  unfold RecordQueueHeld RecordsConserved
  decide +kernel

/-- Ring 1 of Size 8 with a capture of 2 descriptors IN_REPORT, one of 1 FILLED, and one of slice 256 FILLING. -/
def mixed1 : State :=
  let x := ((ring1.ring 1).attempt (requestOf 128 1)).1.complete { dir := .ab, serial := 1, slice := 128, copied := 128 } 300
    .good (some 10481)
  let y := (x.take 2).attempt (requestOf 64 2)
  let z := (y.1.complete { dir := .ab, serial := 2, slice := 64, copied := 64 } 64 .good none).attempt (requestOf 256 3)
  ring1.setRing 1 z.1

theorem test_zones_of_four_captures :
    zones (mixed1.ring 1) = [0, 2, 3, 2, 1, 4, 1] ∧ (mixed1.ring 1).capturesIn 0 3 = 2 := by decide +kernel

/-- The capture that Ring 1 of `mixed1` is filling. -/
def filling1 : Filling := { dir := .ab, serial := 3, slice := 256, copied := 0 }

theorem mixed1_arranged : RingArranged (mixed1.ring 1) := by
  have hc : (mixed1.ring 1).capture = some filling1 := by decide +kernel
  refine ⟨fun _ => ?_, fun h => absurd h (by decide +kernel), by rw [hc]; decide +kernel, fun f hf => ?_, by decide +kernel⟩
  · unfold Ring.ZoneIs
    decide +kernel
  · rw [hc] at hf
    cases hf
    decide

/-- A ring as a reset leaves it is arranged, and its captures are conserved. -/
theorem reset_ring_arranged (r : RingId) : RingArranged (Ring.reset r) ∧ CapturesConserved (Ring.reset r) :=
  ⟨⟨fun h => absurd h Bool.false_ne_true, fun _ => ⟨rfl, rfl, rfl, rfl, rfl, fun _ => rfl⟩, rfl,
    fun _ h => (Option.some_ne_none _ h.symm).elim, (by decide : 0 < 512)⟩, rfl⟩

theorem witness_RingsStayArranged : RingsArranged (mixed1.setPending [.uptimeTick]) := by
  have h1 : ∀ r : RingId, r ≠ 1 → mixed1.ring r = .reset r := by decide +kernel
  have hb : mixed1.cls.bank0 = .reset ∧ mixed1.cls.bank1 = .reset := by decide +kernel
  have hn : ∀ p, (mixed1.port p).flowNotices = [] ∧ (mixed1.port p).captureNotices = [] := by
    intro p
    cases p <;> decide +kernel
  refine ⟨fun r => ?_, fun i => ?_, fun p => ⟨fun n h => ?_, fun n h => ?_⟩⟩
  · show RingArranged (mixed1.ring r) ∧ CapturesConserved (mixed1.ring r)
    by_cases hr : r = 1
    · subst hr
      exact ⟨mixed1_arranged, by unfold CapturesConserved; decide +kernel⟩
    · rw [h1 r hr]
      exact reset_ring_arranged r
  · show ((mixed1.cls.bank0.rule i).slice ≤ 256 ∧ (mixed1.cls.bank1.rule i).slice ≤ 256)
    rw [hb.1, hb.2]
    unfold Bank.rule
    split_ifs <;> exact ⟨Nat.zero_le _, Nat.zero_le _⟩
  · exact absurd (show n ∈ (mixed1.port p).flowNotices from h) (by simp [(hn p).1])
  · exact absurd (show n ∈ (mixed1.port p).captureNotices from h) (by simp [(hn p).2])

theorem witness_FlowsStayInPlace : FlowsInPlace ticking := by
  refine ⟨by decide, fun i e h => ?_, fun i j e f h => ?_, rfl⟩ <;> cases h

theorem witness_ReportsStayInOrder : ReportsInOrder ticking := by
  refine ⟨by decide, by decide, by decide, fun _ => rfl, fun i r h => ?_, by decide, fun q h => ?_⟩
  · simp [ticking, live, State.powerUp, State.setPending, ReportEngine.reset] at h
  · simp [ticking, live, State.powerUp, State.setPending, ReportEngine.reset] at h

theorem witness_TimersKeepTheirMeaning :
    TimerWatchesSent session69 ∧ HoldMeansMaterial
      { withRecords 1 0 live with rep := { live.rep with hold := some 200 } } := by
  refine ⟨fun _ => ⟨_, _, rfl, rfl⟩, fun _ => by decide +kernel⟩

theorem witness_RulesKeepLiveTargets : RulesNameLiveTargets ticking := by
  have h : ∀ i, ((Bank.reset).rule i).action = .pass ∧ ((Bank.reset).rule i).slice = 0 := by
    intro i
    unfold Bank.rule
    split_ifs <;> exact ⟨rfl, rfl⟩
  intro b hb i _
  have hb' : b = Bank.reset := by rcases hb with rfl | rfl <;> rfl
  subst hb'
  exact ⟨fun ha => absurd ((h i).1.symm.trans ha) (by decide), fun hs => absurd (h i).2 hs⟩

theorem witness_SettingsStayLegal : SettingsLegal ticking := by
  intro k
  cases k <;> decide +kernel

theorem witness_QueuesAndStoreStayHeld : QueuesHeld ticking ∧ StoreCanonical ticking := by
  refine ⟨⟨by decide, fun p => ?_, fun p => ?_, by decide⟩, (by decide : Memory.wf [])⟩ <;> cases p <;> decide

theorem witness_ResetMeetsTheLaws :
    ∃ (unit : BitVec 5) (a b : Link) (epoch : Nat), State.powerUp 31 .up .up 7 = State.powerUp unit a b epoch :=
  ⟨_, _, _, _, rfl⟩

/-- `live` with RESET_N low. -/
def inReset : State := { live with resetN := false }

theorem witness_ResetFall : live.resetN = true ∧ inReset.resetN = false := by decide

theorem witness_Release : inReset.resetN = false ∧ live.resetN = true := by decide

/-- An egress of Port A that sends. -/
def sendingA (e : Egress) (b : List HeldFrame) : State :=
  onPort .B (fun x => { x with buffer := b }) (onPort .A (fun x => { x with egress := e }) live)

/-- A report in transmission. -/
def txOf (r : Report) : ReportTx := { report := r, gone := false, head := [1, 2], pos := 0, crc := crcStart, field := [] }

/-- Port A sends report `r`, which stands in the Outstanding List between the others given. -/
def reportingA (older : List Report) (r : Report) (newer : List Report) : State :=
  { sendingA (.report (txOf r)) [] with rep := { live.rep with
      session := .opened, sessionNumber := 7, retransmit := some 100, outstanding := older ++ r :: newer } }

theorem witness_LinkDownCutsTheEgress :
    ((State.reset.port .A).link = .down) ∧ ((inReset.port .A).link = .up ∧ inReset.resetN = false)
    ∧ (let s := sendingA .idle [frameOf 64 .ready];
      s.resetN = true ∧ (s.port .A).link = .up ∧ (s.port .A).rx = none ∧ (s.port .A).egress = .idle)
    ∧ (let f : HeldFrame := { frameOf 1 .sending with reception := .endedNormally };
      let s := sendingA .transit [f, frameOf 16 .ready];
      s.resetN = true ∧ (s.port .A).link = .up ∧ (s.port .A).rx = none ∧ (s.port .A).egress = .transit
        ∧ (s.port Port.A.other).buffer = [f, frameOf 16 .ready])
    ∧ (let s := sendingA (.response [1, 2] 1) [];
      s.resetN = true ∧ (s.port .A).link = .up ∧ (s.port .A).rx = none ∧ (s.port .A).egress = .response [1, 2] 1)
    ∧ (let x : ReportTx := { txOf (reportOf 7 5 1 .sending) with gone := true };
      let s := sendingA (.report x) [];
      s.resetN = true ∧ (s.port .A).link = .up ∧ (s.port .A).rx = none ∧ (s.port .A).egress = .report x ∧ x.gone = true)
    ∧ ∀ older ∈ ([[], [reportOf 7 4 1 .sent]] : List (List Report)),
      let r := reportOf 7 5 1 .sending
      let newer := [reportOf 7 6 1 .queued]
      let s := reportingA older r newer
      s.resetN = true ∧ (s.port .A).link = .up ∧ (s.port .A).rx = none ∧ (s.port .A).egress = .report (txOf r)
        ∧ (txOf r).gone = false ∧ s.rep.outstanding = older ++ r :: newer ∧ r.state = .sending
        ∧ ∀ y ∈ older ++ newer, y.state ≠ .sending := by decide +kernel

/-- R127: a link DOWN that cuts the oldest report STOPS the Retransmit Timer; one that cuts a later report does not. -/
theorem test_link_down_requeues_the_report :
    let t (older : List Report) := after (.linkDown .A) (reportingA older (reportOf 7 5 1 .sending) [])
    (t []).rep.retransmit = none ∧ (t []).rep.queue = [5] ∧ (t [reportOf 7 4 1 .sent]).rep.retransmit = some 100
      ∧ (t [reportOf 7 4 1 .sent]).rep.queue = [5] := by decide +kernel

/-- A decision of BYPASS. -/
def passed : Decision := { action := .pass, rule := none, generation := 0, template := none }

/-- Port A receives a frame whose copy is held. -/
def receivingA (r : Reception) (b : List HeldFrame) : State :=
  onPort .A (fun x => { x with rx := some r, buffer := b }) live

/-- An ACK of 16 bytes for unit 3, session 7, sequence 10. -/
def ackFrame : List Byte :=
  let b : List Byte := [0xB7, 0xC4, 4, 3, 0, 7, 0, 10, 0, 0, 0, 0]
  b ++ frameCheck b

/-- An ACK frame of `n` bytes under way, no check yet. -/
def ackBytes (n : Nat) : List Byte := ([0xB7, 0xC4, 4, 3, 0, 7, 0, 10] : List Byte) ++ List.replicate (n - 8) 0

/-- A COMMAND of `n` bytes under way. -/
def commandBytes (n : Nat) : List Byte := ([0xB7, 0xC4, 1] : List Byte) ++ List.replicate (n - 3) 0

/-- The frames that a link DOWN can meet at Port A: a fragment, an undecided frame at each end of 16 to 127 bytes, an undecided
COMMAND, an ACK, and a decided frame, TRUNCATED or OVERSIZE, whose copy is READY, SENDING, DISCARDING or gone. The ways an egress
is cut are those of `witness_LinkDownCutsTheEgress`. -/
theorem witness_LinkDownTruncates :
    (∀ n ∈ [1, 15, 16, 127], ∀ bytes ∈ [List.replicate n 0, (commandBytes n).take n, (ackBytes n).take n],
      let r := receptionOf bytes none
      let b := [frameOf 16 .ready] ++ [frameOf n .arriving]
      let s := receivingA r b
      s.resetN = true ∧ (s.port .A).link = .up ∧ (s.port .A).rx = some r ∧ (r.count < 16 ∨ 16 ≤ r.count)
        ∧ r.decision = none ∧ (s.port .A).buffer = b ∧ (frameOf n .arriving).state = .arriving)
    ∧ (receptionOf (ackBytes 16) none).kind = some .ack ∧ (receptionOf (commandBytes 16) none).kind = some .command
    ∧ (receptionOf (List.replicate 16 0) none).kind = none
    ∧ ∀ r ∈ [receptionOf (List.replicate 128 0) (some passed), receptionOf (commandBytes 128) (some passed),
        { receptionOf [] (some passed) with count := 2049, settled := some .oversize }],
      let gone : HeldFrame := { frameOf 60 .sending with reception := .endedAborted }
      ∀ b ∈ [[], [gone], [frameOf 128 .ready], [frameOf 128 .sending], [frameOf 0 .discarding]],
        let s := receivingA r b
        s.resetN = true ∧ (s.port .A).link = .up ∧ (s.port .A).rx = some r ∧ 16 ≤ r.count ∧ r.decision = some passed
          ∧ r.kind ≠ some .ack ∧ (s.port .A).buffer = b ∧ gone.reception ≠ .isOpen := by decide +kernel

/-- R3, R2, R4, R11, R9: what a link DOWN makes of a frame of 15 bytes, a fragment; of one of 2049, OVERSIZE; of a COMMAND of 16
undecided bytes, truncated, decided PASS and copied to the Agent as such; and of an ACK of 16 with a good check, not consumed.
Only the fragment has no notice. -/
theorem test_link_down_ends_the_frame :
    let t (r : Reception) (f : HeldFrame) := (after (.linkDown .A) (receivingA r [f])).portA
    let fragment := t (receptionOf (List.replicate 15 0) none) (frameOf 15 .arriving)
    let long := t { receptionOf [] (some passed) with count := 2049, settled := some .oversize }
      { frameOf 16 .ready with reception := .endedAborted }
    let command := t (receptionOf (commandBytes 16) none) (frameOf 16 .arriving)
    let ack := t (receptionOf ackFrame none) (frameOf 16 .arriving)
    fragment.counters.fragments = 1 ∧ fragment.counters.truncated = 0 ∧ fragment.flowNotices = []
      ∧ long.counters.oversize = 1 ∧ long.counters.truncated = 0 ∧ long.flowNotices.map (·.ending) = [.oversize]
      ∧ command.counters.truncated = 1 ∧ command.commandCopies.map (·.ending) = [.truncated]
      ∧ (command.flowNotices.map fun n => n.decision.map (·.action)) = [some .pass]
      ∧ ack.acks = [] ∧ ack.counters.truncated = 1 ∧ ack.flowNotices.map (·.management) = [true] := by decide +kernel

/-- The counts at which a byte is stored and is no decision point: below the 128th, the 128th of an ACK, and up to the
2048th of a frame that is decided; the copy OPEN in whatever state, cut, or DISCARDING. -/
theorem witness_ByteIsStoredOrCuts :
    (∀ (s : State) (p : Port) (r : Reception) (id : RingId), r.capture = none → ¬ FillsCapture s p r id)
    ∧ (∀ r ∈ [receptionOf (List.replicate 126 0) none, receptionOf (ackBytes 127) none,
        { receptionOf (List.replicate 9 0) (some passed) with count := 2047 }],
      let f := frameOf 126 .arriving
      let s := receivingA r [frameOf 16 .sending, f]
      let r1 : Reception := { r with count := r.count + 1, bytes := r.bytes ++ [0] }
      s.resetN = true ∧ (s.port .A).link = .up ∧ (s.port .A).rx = some r ∧ r.capture = none
        ∧ (s.port .A).buffer = [frameOf 16 .sending] ++ [f] ∧ r.count < 2048
        ∧ ¬ (r.count = 127 ∧ r.decision = none ∧ r1.kind ≠ some .ack)
        ∧ f.reception = .isOpen ∧ f.state ≠ .discarding ∧ bufferFill ([frameOf 16 .sending] ++ [f]) < 16384)
    ∧ ({ frameOf 126 .sending with reception := .endedAborted } : HeldFrame).reception ≠ .isOpen
    ∧ (frameOf 0 .discarding).state = .discarding
    ∧ ({ receptionOf [] (some passed) with count := 2048 } : Reception).count = 2048
    ∧ 2048 < ({ receptionOf [] (some passed) with count := 2049 } : Reception).count := by
  refine ⟨fun _ _ r id h k => ?_, by decide +kernel⟩
  have := k.1
  rw [h] at this
  cases this

/-- A Transit Buffer one byte short of full, and full. -/
theorem witness_ByteCuts :
    let f := frameOf 126 .arriving
    let g (n : Nat) : HeldFrame := { frameOf n .sending with sent := 1 }
    f.reception = .isOpen ∧ f.state ≠ .discarding ∧ bufferFill ([g 16258] ++ [f]) = 16383
      ∧ bufferFill ([g 16259] ++ [f]) = 16384 := by
  refine ⟨rfl, by decide, ?_, ?_⟩ <;>
    simp only [List.singleton_append, frameOf, bufferFill, HeldFrame.fill, List.length_replicate, List.map, List.sum_cons,
      List.sum_nil] <;>
    omega

/-- R4: the 2049th byte settles OVERSIZE. -/
theorem test_byte_2049_is_oversize :
    let r : Reception := { receptionOf [] (some passed) with count := 2048 }
    ((after (.byteArrival .A false 0) (receivingA r [frameOf 16 .ready])).portA.rx.map (·.settled))
      = some (some .oversize) := by decide +kernel

/-- Frames that fill a Transit Buffer: 128 of 128 bytes. -/
def fullBuffer : List HeldFrame := List.replicate 128 (frameOf 128 .ready)

/-- An empty Transit Buffer, one with frames that wait, and a full one. -/
theorem witness_ByteBeginsAFrame :
    (∀ b ∈ [[], [frameOf 16 .sending, frameOf 64 .ready], fullBuffer],
      let s := onPort .A (fun x => { x with buffer := b }) live
      s.resetN = true ∧ (s.port .A).link = .up ∧ (s.port .A).rx = none ∧ (s.port .A).buffer = b)
    ∧ bufferFill [frameOf 16 .sending, frameOf 64 .ready] < 16384 ∧ 16384 ≤ bufferFill fullBuffer
    ∧ inReset.resetN = false ∧ (State.reset.port .B).link = .down := by decide +kernel

/-- R12, R10: a first byte that meets a full Transit Buffer leaves a copy of 0 bytes behind the frames that wait, cut and
counted. -/
theorem test_first_byte_meets_a_full_buffer :
    let t := (after (.byteArrival .A true 7) (onPort .A (fun x => { x with buffer := fullBuffer }) live)).portA
    ((t.buffer.drop 128).map fun f => (f.held.length, f.reception)) = [(0, .endedAborted)]
      ∧ t.counters.transitOverflow = 1 ∧ (t.rx.map fun r => (r.count, r.overflowed)) = some (1, true) := by decide +kernel

/-- A bank whose rule 63 takes AB frames and does what is given, and whose rule 64 drops. -/
def bankOf (a : Action) (slice ratio : Nat) : Bank :=
  { rules := [(63, { Rule.reset with
      valid := true, directions := .ab, action := a, template := 2, slice := slice, ring := 1, ratio := ratio })]
    last := { Rule.resetDefault with action := .drop } }

/-- Port A receives the 128th byte of a frame in RUN, with the bank given, Ring 1 active and countdown `n` at rule 63. -/
def decidingA (r : Reception) (f : HeldFrame) (b : Bank) (n : Nat) : State :=
  let s := onPort .A (fun x => { x with rx := some r, buffer := [f] }) ring1
  s.setCls { s.cls with mode := .run, bank0 := b, countdowns := [(63, n)], templates := [(2, template2)] }

theorem witness_DecisionAtByte128 :
    ∀ r ∈ [receptionOf (List.replicate 127 0) none,
        receptionOf (([0xB7, 0xC4, 1] : List Byte) ++ List.replicate 124 0) none],
      ∀ f ∈ [frameOf 127 .arriving, { frameOf 60 .arriving with reception := .endedAborted }],
      let r1 : Reception := { r with count := 128, bytes := r.bytes ++ [0] }
      ∀ s ∈ [receivingA r [f], decidingA r f (bankOf .measure 64 3) 1, decidingA r f (bankOf .drop 0 1) 0],
        s.resetN = true ∧ (s.port .A).link = .up ∧ (s.port .A).rx = some r ∧ r.count = 127 ∧ r.decision = none
          ∧ r.capture = none ∧ (s.port .A).buffer = [] ++ [f] ∧ f.state = .arriving
          ∧ r1.kind ≠ some .ack ∧ 16384 ≤ bufferFill (fullBuffer ++ [f]) := by decide +kernel

/-- R12, R11: a 128th byte that meets a full Transit Buffer cuts its frame, which is decided on all 128 bytes received and goes
on READY with the 127 held. -/
theorem test_byte_128_overflows :
    let s := receivingA (receptionOf (List.replicate 127 0) none) (fullBuffer ++ [frameOf 127 .arriving])
    let t := (after (.byteArrival .A false 0) s).portA
    ((t.buffer.drop 128).map fun f => (f.held.length, f.reception, f.state)) = [(127, .endedAborted, .ready)]
      ∧ t.counters.transitOverflow = 1 ∧ (t.rx.map fun r => (r.bytes.length, r.decision.isSome)) = some (128, true) := by
  decide +kernel

/-- R31, R32, R90: the 128th byte of a frame that rule 63 captures: with countdown 1 the attempt is made and the countdown is
reloaded; with countdown 2 it only steps. -/
theorem test_decision_captures :
    let t (n : Nat) := after (.byteArrival .A false 0)
      (decidingA (receptionOf (List.replicate 127 0) none) (frameOf 127 .arriving) (bankOf .measure 64 3) n)
    SMap.get 0 (t 1).cls.hits 63 = 1 ∧ SMap.get 0 (t 1).cls.countdowns 63 = 3 ∧ ((t 1).ring 1).filling = 1
      ∧ (((t 1).ring 1).desc 0).byteCount = 64 ∧ ((t 2).ring 1).filling = 0 ∧ SMap.get 0 (t 2).cls.countdowns 63 = 1 := by
  decide +kernel

theorem witness_LowestMatchingRule :
    let b := bankOf .pass 0 1
    SMap.Sorted b.rules ∧ (∀ x ∈ b.rules, x.1 < 64) ∧ b.choose .ab [] = 63 ∧ b.choose .ba [] = 64 := by
  decide +kernel

/-- R24: a term needs all four of its bytes received. -/
theorem test_term_beyond_the_bytes :
    let m : Rule := { Rule.reset with
      valid := true, term0 := { enabled := true, offset := 1, mask := 0x000000FF, value := 5 } }
    m.matchesFrame .ab [0, 1, 2, 3, 5] = true ∧ m.matchesFrame .ab [0, 1, 2, 3] = false
      ∧ m.matchesFrame .ab [5, 1, 2, 3, 4] = false := by decide +kernel

/-- Port A receives a frame whose capture Ring 1 of `mixed1` is filling. -/
def copyingA (b : List HeldFrame) : State :=
  let r : Reception := { receptionOf (List.replicate 128 0) (some passed) with serial := 3, capture := some 1 }
  onPort .A (fun x => { x with buffer := b, rx := some r }) mixed1

theorem witness_CaptureAttemptOutcomes :
    (let g := ring1.ring 1;
      ({ g with filling := 1 } : Ring).filling ≠ 0 ∧ g.filling = 0 ∧ ({ g with free := 3 } : Ring).free < (256 + 63) / 64
        ∧ (256 + 63) / 64 ≤ ({ g with free := 4 } : Ring).free ∧ (256 + 63) / 64 ≤ g.size
        ∧ ({ g with fill := 7 } : Ring).fill < g.size)
    ∧ (let r : Reception := { receptionOf (List.replicate 128 0) (some passed) with serial := 3, capture := some 1 };
      let cut : HeldFrame := { frameOf 60 .ready with reception := .endedAborted };
      (∀ b ∈ [[], [cut], [cut] ++ [frameOf 128 .ready], [frameOf 0 .discarding], fullBuffer ++ [frameOf 128 .ready]],
        let s := copyingA b
        s.resetN = true ∧ (s.port .A).link = .up ∧ (s.port .A).rx = some r ∧ 128 ≤ r.count ∧ r.count < 2048
          ∧ r.capture = some 1 ∧ (s.ring 1).capture = some filling1 ∧ filling1.dir = directionIn .A
          ∧ filling1.serial = r.serial ∧ (s.port .A).buffer = b)
        ∧ (∀ f ∈ [cut], f.reception ≠ .isOpen)
        ∧ (frameOf 128 .ready).reception = .isOpen ∧ (frameOf 128 .ready).state ≠ .discarding
        ∧ bufferFill ([cut] ++ [frameOf 128 .ready]) < 16384
        ∧ 16384 ≤ bufferFill (fullBuffer ++ [frameOf 128 .ready]))
    ∧ filling1.slice ≤ 256 ∧ 4 ≤ (mixed1.ring 1).size ∧ (mixed1.ring 1).baseCell + (mixed1.ring 1).size ≤ 2048 := by
  decide +kernel

/-- R91, R12, R16: a byte of the frame goes to the first place of the capture's cells, and its descriptor counts it: with no copy
held, with a copy that this byte cuts, and with one that is DISCARDING. -/
theorem test_captured_byte_is_copied :
    (∀ b ∈ [[], fullBuffer ++ [frameOf 128 .ready], [frameOf 0 .discarding]],
      let t := after (.byteArrival .A false 0xAB) (copyingA b)
      t.cap.readByte (64 * (64 + 3)) = 0xAB ∧ ((t.ring 1).desc 3).byteCount = 1)
    ∧ (after (.byteArrival .A false 0xAB) (copyingA (fullBuffer ++ [frameOf 128 .ready]))).portA.counters.transitOverflow = 1 := by
  decide +kernel

theorem witness_FrameEndSettlesTheEnding :
    (let r := receptionOf (List.replicate 15 0) none;
      let s := receivingA r ([frameOf 16 .ready] ++ [frameOf 15 .arriving]);
      (s.port .A).rx = some r ∧ r.count < 16 ∧ (s.port .A).buffer = [frameOf 16 .ready] ++ [frameOf 15 .arriving]
        ∧ (frameOf 15 .arriving).state = .arriving)
    ∧ (∀ r ∈ [receptionOf (List.replicate 128 0) (some passed), receptionOf (commandBytes 128) (some passed),
          { receptionOf [] (some passed) with count := 2049, settled := some .oversize }],
      16 ≤ r.count ∧ r.decision = some passed ∧ r.kind ≠ some .ack
        ∧ (let f : HeldFrame := { frameOf 60 .sending with reception := .endedAborted };
          ∀ b ∈ [[], [f], [frameOf 128 .ready]], ((receivingA r b).port .A).rx = some r ∧ ((receivingA r b).port .A).buffer = b
            ∧ f.reception ≠ .isOpen))
    ∧ ∀ n ∈ [16, 127], ∀ r ∈ [receptionOf (List.replicate n 0) none, receptionOf (commandBytes n) none],
      let f := frameOf n .arriving
      let s := receivingA r [f]
      (s.port .A).rx = some r ∧ 16 ≤ r.count ∧ r.decision = none ∧ r.kind ≠ some .ack ∧ (s.port .A).buffer = [] ++ [f]
        ∧ f.state = .arriving := by decide +kernel

/-- R9: a COMMAND that ends on an enabled port is copied to the Agent, less its check; on a port that the mask leaves out it is
not. R4: a frame of 2049 bytes or more ends OVERSIZE. -/
theorem test_command_and_oversize_end :
    let r := receptionOf (commandBytes 33) none
    let t (r : Reception) (b : List HeldFrame) := (after (.frameEnd .A false) (receivingA r b)).portA
    ((t r [frameOf 33 .arriving]).commandCopies.map fun c => (c.bytes.length, c.length)) = [(29, 33)]
      ∧ (t { r with mask := 2 } [frameOf 33 .arriving]).commandCopies = []
      ∧ (t { receptionOf [] (some passed) with count := 2049, settled := some .oversize } []).counters.oversize = 1 := by
  decide +kernel

theorem witness_AckIsConsumed :
    (let r := receptionOf (ackBytes 127) none;
      let f := frameOf 127 .arriving;
      let s := receivingA r [f];
      s.resetN = true ∧ (s.port .A).link = .up ∧ (s.port .A).rx = some r ∧ r.count = 127 ∧ r.decision = none
        ∧ r.capture = none ∧ ({ r with count := 128, bytes := r.bytes ++ [0] } : Reception).kind = some .ack
        ∧ (s.port .A).buffer = [] ++ [f] ∧ f.state = .arriving ∧ f.reception = .isOpen ∧ bufferFill ([] ++ [f]) < 16384)
    ∧ (let good := receptionOf ackFrame none;
      let consumed : Reception → Prop := fun r => maskEnables r.mask .A = true ∧ endingOf r false = .good
        ∧ r.envLen + 12 ≤ r.count ∧ (byteAt r.bytes (r.envLen + 3)).toNat = live.agent.unit.toNat;
      (∀ r ∈ [good, { good with mask := 2 }, receptionOf (ackBytes 16) none],
        let f := frameOf 16 .arriving
        let s := receivingA r [f]
        (s.port .A).rx = some r ∧ 16 ≤ r.count ∧ r.decision = none ∧ r.kind = some .ack ∧ (s.port .A).buffer = [] ++ [f]
          ∧ f.state = .arriving)
        ∧ consumed good ∧ ¬ maskEnables ({ good with mask := 2 } : Reception).mask .A = true
        ∧ ¬ endingOf (receptionOf (ackBytes 16) none) false = .good) := by decide +kernel

/-- R9: the consumed ACK is handed on with its session and sequence and leaves transit; a disabled port lets it pass. -/
theorem test_ack_leaves_transit :
    let t (m : BitVec 2) := (after (.frameEnd .A false)
      (receivingA { receptionOf ackFrame none with mask := m } [frameOf 16 .arriving])).portA
    (t 3).acks = [⟨7, 10⟩] ∧ (t 3).buffer = [] ∧ (t 2).acks = [] ∧ (t 2).buffer.map (·.state) = [.ready] := by
  decide +kernel

theorem witness_CheckFindsAChangedByte : (1 : Byte) ≠ 2 := by decide

/-- The key of a zero frame under template 2, and its bucket under the reset seed. -/
def key0 : List Byte := List.replicate 13 0

/-- The bucket of the zero frame's flow. -/
def bucket0 : Nat := flowBucket 0xFFFF 2 .ab key0

/-- Port A has a notice for the Flow Table. -/
def noticed (n : Notice) (es : SMap FlowEntry) : State :=
  onPort .A (fun x => { x with flowNotices := [n] }) (withEntries es (withTemplate2 live))

theorem witness_HitCountsTheFrame :
    let n := noticeOf .ab 42
    let i := entryIndex bucket0 3
    let e := flowOf 0 0xFFFFFFFF key0
    let s := noticed n [(i, e)]
    (s.port .A).flowNotices = [n] ∧ n.fit = true ∧ n.decision = some measured ∧ measured.template = some 2
      ∧ (s.cls.template 2).defined = true ∧ (s.cls.template 2).fits n.length = true
      ∧ directionField (s.cls.template 2) n.dir = .ab ∧ (s.cls.template 2).cut n.bytes = key0
      ∧ s.flow.lookup (flowBucket s.flow.seed 2 .ab key0) 2 .ab key0 = some i ∧ s.flow.entry i = some e := by
  decide +kernel

/-- A bucket whose four ways hold other flows, the oldest in ways 1 and 3. -/
def fullBucket : SMap FlowEntry :=
  (List.range 4).map fun w => (entryIndex bucket0 w, flowOf (if w % 2 = 1 then 5 else 9) 1 [byte w])

theorem exists_way {j b : Nat} (h : j / 4 = b) : ∃ w, w < 4 ∧ j = 4 * b + w := ⟨j % 4, by omega, by omega⟩

theorem witness_InsertTakesTheLowestFreeWay :
    let n := noticeOf .ab 42
    (n.fit = true ∧ n.decision = some measured ∧ measured.template = some 2
      ∧ ∀ es ∈ [[], fullBucket],
        let s := noticed n es
        (s.port .A).flowNotices = [n] ∧ (s.cls.template 2).defined = true ∧ (s.cls.template 2).fits n.length = true
          ∧ (s.cls.template 2).cut n.bytes = key0 ∧ flowBucket s.flow.seed 2 .ab key0 = bucket0
          ∧ s.flow.lookup bucket0 2 .ab key0 = none)
    ∧ (let s := noticed n [];
      let i := 4 * bucket0;
      i / 4 = bucket0 ∧ s.flow.entry i = none ∧ ∀ j, j / 4 = bucket0 → j < i → s.flow.entry j ≠ none)
    ∧ (let s := withRecords 255 255 (noticed n fullBucket);
      let i := 4 * bucket0 + 1;
      let e := flowOf 5 1 [1];
      i / 4 = bucket0 ∧ (∀ j, j / 4 = bucket0 → s.flow.entry j ≠ none) ∧ s.flow.policy = .evictOldest ∧ s.rq.count < 256
        ∧ s.rq.inReport ≤ s.rq.count ∧ s.flow.entry i = some e
        ∧ ∀ j g, j / 4 = bucket0 → s.flow.entry j = some g →
          (s.time.uptime - g.lastSeen).toNat ≤ (s.time.uptime - e.lastSeen).toNat
            ∧ (j < i → (s.time.uptime - g.lastSeen).toNat < (s.time.uptime - e.lastSeen).toNat)) := by
  intro n
  refine ⟨by decide +kernel, ⟨by omega, by decide +kernel, fun j h hj => by omega⟩, by decide +kernel, fun j hj => ?_,
    by decide, by decide, by decide, by decide +kernel, fun j g hj hg => ?_⟩
  · obtain ⟨w, hw, h⟩ := exists_way hj
    rw [h]
    clear h hj
    revert w
    decide +kernel
  · obtain ⟨w, hw, h⟩ := exists_way hj
    rw [h] at hg ⊢
    have hg' : g = flowOf (if w % 2 = 1 then 5 else 9) 1 [byte w] := by
      refine Option.some.inj (hg.symm.trans ?_)
      clear hg hj h
      revert w
      decide +kernel
    rw [hg']
    clear hg' hg hj h
    revert w
    decide +kernel

/-- R51: with ways 1 and 3 oldest the victim is way 1; its record is appended with reason EVICTED and the flow takes its way. -/
theorem test_eviction :
    let t := after (.frameEndUpdate .A) (withRecords 255 255 (noticed (noticeOf .ab 42) fullBucket))
    t.rq.count = 256 ∧ (SMap.find t.rq.slots 255).map (fun r => (r.reason, r.key)) = some (.evicted, [1])
      ∧ t.flow.counters.evictions = 1 ∧ t.flow.counters.inserts = 1 ∧ t.flow.counters.activeEntries = 4
      ∧ (t.flow.entry (4 * bucket0 + 1)).map (·.key) = some key0 := by decide +kernel

theorem witness_UnmeasuredFramesChangeNoEntry :
    ({ noticeOf .ab 42 with ending := .checkFailed } : Notice).fit = false ∧ (noticeOf .ab 41).fit = true
      ∧ (template2.fits 41 = false) ∧ (noticed (noticeOf .ab 42) fullBucket).flow.lookup bucket0 2 .ab key0 = none
      ∧ (∀ w, w < 4 → (noticed (noticeOf .ab 42) fullBucket).flow.entry (4 * bucket0 + w) ≠ none)
      ∧ (noticed (noticeOf .ab 42) fullBucket).flow.policy = .evictOldest
      ∧ 256 ≤ (withRecords 256 0 (noticed (noticeOf .ab 42) fullBucket)).rq.count := by decide +kernel

theorem witness_CloseEntryClosesTheEntry :
    let e := flowOf 0 1 [1]
    let s := withRecords 255 255 (withEntries [(16383, e)] live)
    16383 < (16384 : Word).toNat ∧ (16383 : Word).toNat ≤ 16383
      ∧ s.flow.entry (16382 : Word).toNat = none ∧ s.flow.entry (16383 : Word).toNat = some e
      ∧ 256 ≤ (withRecords 256 256 s).rq.count ∧ s.rq.count < 256 ∧ s.rq.inReport ≤ s.rq.count := by decide +kernel

/-- R104, R109: in an OPEN session, with a request pending, the record that a close appends is built into a report at once. -/
theorem test_close_then_build :
    let s := withEntries [(16383, flowOf 0 1 [1])] live
    let t := after (.closeEntry 16383) { s with rep := { s.rep with session := .opened, buildPending := true } }
    t.rq.count = 1 ∧ t.rq.inReport = 1 ∧ t.rep.outstanding.length = 1 ∧ t.rep.buildPending = false := by decide +kernel

theorem witness_EntrySelectTakesASnapshot : (16383 : Word).toNat ≤ 16383 ∧ 16383 < (16384 : Word).toNat := by decide

/-- The Sweeper at a bucket of a pass that began at Uptime 0. -/
def sweeping (position : Nat) (now : Word) (es : SMap FlowEntry) : State :=
  { withEntries es live with
    time := { uptime := now, offset := 0 }, sweep := { live.sweep with position := position, activeTimeout := 60 } }

/-- Bucket b is due at b × 4000 / 4096 rounded down: bucket 4095 at 3999 ms, bucket 4094 at 3998. The ways: one idle at its
deadline, one long-lived, one neither; with room for a record and with none. -/
theorem witness_SweeperVisitsItsBucket :
    let deadline (s : State) := s.sweep.passStart + word (s.sweep.position * s.sweep.passLength / 4096)
    let late (s : State) := (s.time.uptime - deadline s).toNat
    ¬ late (sweeping 4095 3998 []) < 2 ^ 31 ∧ late (sweeping 4095 3999 []) < 2 ^ 31 ∧ late (sweeping 4094 3998 []) < 2 ^ 31
      ∧ (sweeping 4095 3999 []).rq.inReport ≤ (sweeping 4095 3999 []).rq.count
      ∧ (let e := flowOf 0 1 [1];
        let s := sweeping 0 30000 [(0, e)];
        late s < 2 ^ 31 ∧ s.sweep.position < 4095 ∧ s.flow.entry 0 = some e ∧ s.flow.entry 1 = none
          ∧ s.sweep.idleTimeout * 1000 ≤ (s.time.uptime - e.lastSeen).toNat ∧ s.rq.count < 256
          ∧ 256 ≤ (withRecords 256 0 s).rq.count)
      ∧ (let e := flowOf 60000 1 [1];
        let s := sweeping 0 60000 [(0, e)];
        ¬ s.sweep.idleTimeout * 1000 ≤ (s.time.uptime - e.lastSeen).toNat ∧ s.sweep.activeTimeout ≠ 0
          ∧ s.sweep.activeTimeout * 1000 ≤ (s.time.uptime - e.firstSeen).toNat)
      ∧ (let e := flowOf 1 1 [1];
        let s := sweeping 0 30000 [(0, e)];
        ¬ s.sweep.idleTimeout * 1000 ≤ (s.time.uptime - e.lastSeen).toNat
          ∧ ¬ s.sweep.activeTimeout * 1000 ≤ (s.time.uptime - e.firstSeen).toNat) := by decide +kernel

theorem witness_TableOpsStartTheWalker :
    64 < (65 : BitVec 8).toNat ∧ 7 < (8 : BitVec 8).toNat ∧ ¬ 64 < (64 : BitVec 8).toNat ∧ ¬ 7 < (7 : BitVec 8).toNat
      ∧ (after (.flush 0 0) live).walker.state = .running ∧ live.walker.state ≠ .running
      ∧ (after .clearTable live).walker.state = .running ∧ (after .clearTable live).walker.kind = .clear
      ∧ ¬ ((after (.flush 0 0) live).walker.state = .running ∧ (after (.flush 0 0) live).walker.kind = .clear) := by
  decide +kernel

/-- A Flush walk at a way of a bucket. -/
def flushing (position way : Nat) (stalled : Bool) (es : SMap FlowEntry) : State :=
  let s := after (.flush 2 2) (withEntries es live)
  { s with walker := { s.walker with position := position, way := way, stalled := stalled } }

theorem witness_FlushClosesAMatchingEntry :
    let e := flowOf 0 1 [1]
    ∀ stalled ∈ [false, true], ∀ way ∈ [0, 3], ∀ n ∈ [255, 256],
      let s := withRecords n 0 (flushing 4095 way stalled [(16380, e), (16383, e)])
      s.walker.state = .running ∧ s.walker.kind = .flush ∧ s.walker.position < 4096 ∧ s.walker.way < 4
        ∧ s.rq.inReport ≤ s.rq.count ∧ s.walker.stalled = stalled ∧ s.rq.count = n
        ∧ s.flow.entry (4 * s.walker.position + s.walker.way) = some e ∧ s.walker.selector = .byTemplate
        ∧ e.template.toNat = s.walker.argument := by decide +kernel

/-- R76: one bucket step closes both matching ways; with one place left the second stalls the walk at its way. -/
theorem test_flush_two_ways :
    let t (n : Nat) := after .flushBucketStep (withRecords n 0 (flushing 4095 0 false
      [(16380, flowOf 0 1 [1]), (16383, flowOf 0 1 [2])]))
    (t 254).walker.count = 2 ∧ (t 254).walker.state = .done ∧ (t 254).rq.count = 256
      ∧ (t 255).walker.count = 1 ∧ (t 255).walker.stalled = true ∧ (t 255).walker.way = 3 := by decide +kernel

theorem witness_ClearFreesTheBucket :
    let s := after .clearTable live
    let t := { s with walker := { s.walker with position := 4095 } }
    t.walker.state = .running ∧ t.walker.kind = .clear ∧ t.walker.position < 4096 := by decide +kernel

/-- A notice for the capture that Ring 1 of `mixed1` is filling, waiting at Port A. -/
def completing1 (n : Notice) : State := onPort .A (fun x => { x with captureNotices := [(n, some 7)] }) mixed1

theorem witness_NoticeCompletesTheCapture :
    let n : Notice := { noticeOf .ab 65 with serial := 3 }
    let s := completing1 n
    ((s.port .A).captureNotices = [(n, some 7)] ∧ n.resetIntervened = false ∧ 1 ≤ n.length
      ∧ (s.ring 1).capture = some filling1 ∧ filling1.dir = n.dir ∧ filling1.serial = n.serial)
    ∧ RingArranged (s.ring 1)
    ∧ ∀ q h, q ≠ 1 → (s.ring q).capture = some h → h.dir = n.dir → h.serial ≠ n.serial := by
  have h2 : ∀ q, q ≠ 1 → (mixed1.ring q).capture = none := by decide +kernel
  refine ⟨by decide +kernel, mixed1_arranged, fun q h hq hc => ?_⟩
  exact absurd ((show (mixed1.ring q).capture = some h from hc).symm.trans (h2 q hq)) (Option.some_ne_none h)

/-- R92: of the 4 descriptors FILLING, a frame of 65 bytes keeps 2. -/
theorem test_completion_keeps_two :
    zones ((after (.captureCompletion .A) (completing1 { noticeOf .ab 65 with serial := 3 })).ring 1) = [0, 2, 5, 2, 3, 0, 3] := by
  decide +kernel

theorem witness_NoticeAbandonsTheCapture :
    (∀ r f, (live.ring r).capture = some f → f.dir = .ab → f.serial ≠ 0)
    ∧ (let n : Notice := { noticeOf .ab 65 with serial := 3, resetIntervened := true };
      n.resetIntervened = true ∧ (mixed1.ring 1).capture = some filling1 ∧ filling1.dir = n.dir
        ∧ filling1.serial = n.serial)
    ∧ ∀ q h, q ≠ 1 → (mixed1.ring q).capture = some h → h.dir = .ab → h.serial ≠ 3 := by
  have h1 : ∀ r, (live.ring r).capture = none := by decide
  have h2 : ∀ q, q ≠ 1 → (mixed1.ring q).capture = none := by decide +kernel
  refine ⟨fun r f h => ?_, by decide +kernel, fun q f hq h => ?_⟩
  · rw [h1] at h
    cases h
  · rw [h2 q hq] at h
    cases h

/-- R88, R98: the descriptors that a discard frees keep their First, and the FILLED one stands. -/
theorem test_discard_keeps_the_fields :
    let g := (mixed1.ring 1).discardInReport
    ([0, 1, 2, 3].map fun i => ((g.desc i).first, (g.desc i).state))
      = [(true, .free), (false, .free), (true, .filled), (true, .filling)] := by decide +kernel

theorem witness_RingWordsAreWritten :
    (ring1.ring 1).active = true ∧ (live.ring 1).active = false ∧ ¬ (2041 ≤ 2040 ∧ 2041 % 8 = 0) ∧ 2040 % 8 = 0
      ∧ 1024 ∈ [8, 16, 32, 64, 128, 256, 512, 1024] ∧ 9 ∉ [8, 16, 32, 64, 128, 256, 512, 1024]
      ∧ 2048 < ((live.setRing 3 { live.ring 3 with baseCell := 1544 }).ring 3).baseCell + 512
      ∧ (live.ring 3).baseCell + (live.ring 3).size = 2048
      ∧ (let s := after (.ringConfigWrite 2 .baseCell 56) ring1;
        (s.ring 1).active = true ∧ (s.ring 2).active = false ∧ (s.ring 2).baseCell < (s.ring 1).baseCell + (s.ring 1).size
          ∧ (s.ring 1).baseCell < (s.ring 2).baseCell + (s.ring 2).size)
      ∧ (ring1.cls.bank0.namesRing 1 = false ∧ ring1.cls.bank1.namesRing 1 = false)
      ∧ ({ Bank.reset with last := { Rule.resetDefault with slice := 16, ring := 1 } } : Bank).namesRing 1 = true
      ∧ (ring1.ring 1).filling = 0 ∧ (ring1.ring 1).inReport = 0 ∧ (mixed1.ring 1).filling ≠ 0 := by decide +kernel

/-- The last report of the Outstanding List heads the Report Egress Queue of Port B, no response before it. -/
def laterReportB : State :=
  let s := onPort .B (fun x => { x with responses := [] }) egressB
  { s with rep := { s.rep with
      queue := [5, 6], outstanding := [reportOf 7 4 1 .sent] ++ reportOf 7 5 1 .queued :: [reportOf 7 6 1 .queued] } }

theorem witness_EgressChoosesByTable9 :
    inReset.resetN = false
      ∧ (live.resetN = true ∧ (live.port .B).link = .up ∧ (live.port .B).egress = .idle)
      ∧ ((egressB.port Port.B.other).buffer = [frameOf 64 .ready] ∧ (frameOf 64 .ready).state = .ready)
      ∧ ((onPort .B (fun x => { x with lastKind := .inserted }) egressB).port .B).lastKind = .inserted
      ∧ (¬ egressB.reach.highMark ≤ bufferFill (egressB.port Port.B.other).buffer ∧ (egressB.port .B).lastKind ≠ .inserted)
      ∧ (egressB.port .B).responses ≠ []
      ∧ (let s := onPort .B (fun x => { x with responses := [] }) egressB;
        (s.port .B).responses = [] ∧ s.rep.port = .B ∧ s.rep.queue = [5] ∧ s.rep.outstanding = [reportOf 7 5 1 .queued]
          ∧ (reportOf 7 5 1 .queued).sequence = 5)
      ∧ (let s := laterReportB;
        (s.port .B).responses = [] ∧ s.rep.port = .B ∧ s.rep.queue = 5 :: [6]
          ∧ (∀ x ∈ [reportOf 7 4 1 .sent] ++ [reportOf 7 6 1 .queued], x.sequence ≠ 5)
          ∧ (∀ x ∈ [reportOf 7 4 1 .sent], x.state ≠ .sending)
          ∧ (s.port .B).lastKind ≠ .inserted ∧ ¬ s.reach.highMark ≤ bufferFill (s.port Port.B.other).buffer)
      ∧ (live.port Port.B.other).buffer = [] ∧ (live.port .B).responses = [] ∧ live.rep.port = .A ∧ live.rep.queue = [] := by
  decide +kernel

/-- A report of one capture of 2 bytes of an inactive ring and one record, in transmission with `n` bytes sent. -/
def txAt (n : Nat) (field : List Byte) : ReportTx :=
  { report := { reportOf 7 5 1 .sending with items := [.capture 0 0 2 false, .record 0 13], itemsSize := 60 }
    gone := false, head := [1, 2], pos := n, crc := crcStart, field := field }

theorem witness_EgressSendsTheNextByte :
    (let f := frameOf 2 .sending;
      let s := sendingA .transit [f];
      (s.port .A).egress = .transit ∧ (s.port Port.A.other).buffer = [f] ∧ f.state = .sending ∧ f.sent < f.held.length)
    ∧ (let f : HeldFrame := { frameOf 1 .sending with reception := .endedNormally, sent := 1 };
      ((sendingA .transit [f]).port Port.A.other).buffer = [f] ∧ f.held.length ≤ f.sent)
    ∧ (((sendingA (.response [1, 2] 0) []).port .A).egress = .response [1, 2] 0 ∧ 0 + 1 < ([1, 2] : List Byte).length)
    ∧ ∀ x ∈ [txAt 0 [], txAt 1 [], txAt 2 [], txAt 9 [7], txAt 61 [], txAt 62 [], txAt 64 []],
      ((sendingA (.report x) []).port .A).egress = .report x ∧ x.pos + 1 < x.head.length + x.report.itemsSize + 4 := by
  decide +kernel

/-- R67: First Seen of a record stands at bytes 11 to 14 of its item (Table 94); a write of the Time Offset between two of its bytes does
not change the rest of that field, and does change the next (assumption 26). -/
theorem test_field_is_formed_whole :
    let s0 := { sendingA (.report { txOf { reportOf 7 5 1 .sending with itemsSize := 41 } with head := [], pos := 11 }) [] with
      rq := { live.rq with slots := [(0, recordOf 13)], count := 1, inReport := 1 } }
    let send := after (.egressByteSent .A)
    let s1 := after (.settingWrite 0x000D 0x01020304) (send s0)
    (send (send (send (send (send (send (send s1))))))).portA.line
      = [.byte 0, .byte 0, .byte 0, .byte 0, .byte 1, .byte 2, .byte 3, .byte 4] := by decide +kernel

/-- Port A sends a report of two records whose slots stand, whole from its first byte. -/
def wholeReportA (older newer : List Report) : State :=
  let r := reportOf 7 5 2 .sending
  { reportingA older r newer with
    rq := { slots := [(0, recordOf 13), (1, recordOf 13)], head := 0, count := 2, inReport := 2 } }

theorem witness_InsertedFrameEnds :
    ((sendingA (.response [1, 2] 1) []).port .A).egress = .response [1, 2] 1
      ∧ (let x := txOf (reportOf 7 5 2 .sending);
        let s := wholeReportA [] [];
        (s.port .A).egress = .report x ∧ x.pos = 0 ∧ x.field = [] ∧ x.crc = 0xFFFFFFFF
          ∧ (x.report.items.map Item.size).sum = x.report.itemsSize
          ∧ ∀ it ∈ x.report.items, ∀ u v, it.fields s u = it.fields s v)
      ∧ (let x : ReportTx := { txOf (reportOf 7 5 1 .sending) with gone := true };
        ((sendingA (.report x) []).port .A).egress = .report x ∧ x.gone = true)
      ∧ ∀ older ∈ ([[], [reportOf 7 4 1 .sent]] : List (List Report)),
        let r := reportOf 7 5 2 .sending
        let newer := [reportOf 7 6 1 .queued]
        let s := wholeReportA older newer
        (s.port .A).egress = .report (txOf r) ∧ (txOf r).gone = false ∧ s.rep.outstanding = older ++ r :: newer
          ∧ r.state = .sending ∧ ∀ y ∈ older ++ newer, y.state ≠ .sending := by
  refine ⟨rfl, ⟨rfl, rfl, rfl, rfl, by decide, fun it h u v => ?_⟩, ⟨rfl, rfl⟩, by decide +kernel⟩
  obtain rfl | rfl : it = .record 0 13 ∨ it = .record 1 13 := by
    simpa [txOf, reportOf, List.range_succ] using h
  all_goals rfl

/-- R15, R127, R129: the oldest report sent to its end is SENT and starts the Retransmit Timer; a later one leaves it. -/
theorem test_report_sent_whole :
    let t (older : List Report) := after (.insertedFrameDone .A) (wholeReportA older [])
    (t []).portA.line.length = 2 + 82 + 4 + 1 ∧ (t []).rep.retransmit = some 100
      ∧ (t []).rep.outstanding.map (·.state) = [.sent]
      ∧ (t [reportOf 7 4 1 .sent]).rep.delivery.reportsSent = 1 := by decide +kernel

theorem witness_BuildFitsTheBudget :
    hasMaterial build56 = true
      ∧ ∀ (a : Source) it more, sourceItems build56 a = it :: more → it.size ≤ build56.rep.sizeLimit - 65 := by
  have fronts : ∀ r : RingId, ((sourceItems build56 (.ring r)).head?.map Item.size).getD 0 ≤ 959 := by decide +kernel
  have records : ((sourceItems build56 .records).head?.map Item.size).getD 0 ≤ 959 := by decide +kernel
  refine ⟨by decide +kernel, fun a it more h => ?_⟩
  show it.size ≤ 959
  cases a with
  | records => simpa [h] using records
  | ring r => simpa [h] using fronts r

/-- A build is due in the state of Table 56 (R109). -/
theorem witness_BuildIsDue : BuildIsDue build56 := by
  unfold BuildIsDue
  decide +kernel

theorem witness_ProducedLengths :
    ({ Reach.powerUp with envLen := 32 } : Reach).envLen ≤ 32 ∧ live.reach.envLen ≤ 32 ∧ 32 ≤ 32
      ∧ SMap.find build56.rq.slots 3 = some (recordOf 13)
      ∧ (let g := build56.ring 1;
        let i : CaptureInfo := { rule := 1, generation := 1, dir := .ab, flag := .good, uptime := 0, length := some 300,
                                 entry := some 7 };
        g.active = true ∧ (g.desc (8 % g.size)).info = some i ∧ i.length = some 300 ∧ i.entry ≠ none)
      ∧ (live.ring 1).active = false := by decide +kernel

/-- An expiry 2^31 − 1 ms past its deadline is late; 2^31 ms past it, it is not due yet. -/
theorem witness_HoldTimerExpires :
    let s (now : Nat) : State := { live with
      time := { uptime := word now, offset := 0 }, rep := { live.rep with hold := some 200 } }
    (∀ now ∈ [200, 201, 200 + 0x7FFFFFFF],
        (s now).rep.hold = some 200 ∧ ((s now).time.uptime - 200).toNat < 2 ^ 31)
      ∧ (∀ now ∈ [199, 200 + 0x80000000],
        (s now).rep.hold = some 200 ∧ 2 ^ 31 ≤ ((s now).time.uptime - 200).toNat)
      ∧ live.rep.hold = none := by decide +kernel

/-- R108: an expiry taken late still leaves the request, and in IDLE the request stands. -/
theorem test_late_hold_expiry :
    let s : State := { withRecords 1 0 live with
      time := { uptime := 205, offset := 0 }, rep := { live.rep with hold := some 200 } }
    (after .holdTimerExpiry s).rep.buildPending = true ∧ (after .holdTimerExpiry s).rep.hold = none := by decide +kernel

theorem witness_RetransmitExpires :
    (∀ now ∈ [1150, 1151, 1150 + 0x7FFFFFFF], (word now - 1150).toNat < 2 ^ 31)
      ∧ (∀ now ∈ [1149, 1150 + 0x80000000], 2 ^ 31 ≤ (word now - 1150).toNat)
      ∧ session69.rep.retransmit = some 1150 ∧ session69.rep.session = .opened
      ∧ session69.rep.attempts < session69.rep.retryLimit
      ∧ ({ session69.rep with attempts := 2 } : ReportEngine).retryLimit ≤ 2
      ∧ ({ session69.rep with session := .starting } : ReportEngine).session = .starting ∧ live.rep.retransmit = none := by
  decide +kernel

/-- Port A has an ACK for the Report Engine. -/
def acked (a : Ack) (e : ReportEngine) (n : Nat) : State :=
  onPort .A (fun x => { x with acks := [a] }) { withRecords n n live with rep := e }

theorem witness_AckIsClassified :
    ((acked ⟨7, 5⟩ session63 3).port .A).acks = [⟨7, 5⟩] ∧ live.rep.session = .idle ∧ (6 : BitVec 16) ≠ session63.sessionNumber
      ∧ (let e : ReportEngine := { live.rep with session := .starting, sessionNumber := 1, outstanding := [startReport 1] };
        e.session = .starting ∧ (1 : BitVec 16) = e.sessionNumber ∧ (1 : BitVec 16) ≠ 0 ∧ e.outstanding ≠ [])
      ∧ (session63.outstanding.length ≤ ((65533 : BitVec 16) - 65534).toNat
        ∧ ((65534 : BitVec 16) - 1 - 65533).toNat < 32768)
      ∧ (session63.outstanding.length ≤ ((1 : BitVec 16) - 65534).toNat
        ∧ 32768 ≤ ((65534 : BitVec 16) - 1 - 1).toNat)
      ∧ ∀ n ∈ [65534, 0],
        let q := BitVec.ofNat 16 n
        let s := acked ⟨7, q⟩ session63 3
        (s.port .A).acks = [⟨7, q⟩] ∧ s.rep.session = .opened ∧ (7 : BitVec 16) = s.rep.sessionNumber
          ∧ (q - 65534).toNat < s.rep.outstanding.length := by decide +kernel

/-- R125, R126: ACK (7, 0) in Table 63 releases all three reports; the Start Report's ACK opens the session. -/
theorem test_release_of_three :
    let t := after (.ackTaken .A) (acked ⟨7, 0⟩ session63 3)
    let u := after (.ackTaken .A) (onPort .A (fun x => { x with acks := [⟨1, 0⟩] }) (after .sessionEnableOn live))
    t.rep.outstanding = [] ∧ t.rep.conservation.exported = 3 ∧ t.rq.count = 0 ∧ u.rep.session = .opened
      ∧ u.rep.outstanding = [] ∧ u.rep.queue = [] := by decide +kernel

/-- Four responses wait at Port A. -/
def fourQueued : State := onPort .A (fun x => { x with responses := List.replicate 4 (malformedResponse 3 command6) }) live

theorem witness_CommandsAreTakenAndBegun :
    (Ending.checkFailed ≠ .good ∧ 2 ≤ [command6, command6].length ∧ [command6].length < 2)
      ∧ live.agent.walk = none ∧ (command6.ops.isSome = true)
      ∧ (let c : Command := { bytes := [0xB7, 0xC4, 1, 0, 1, 0], length := 10, envLen := 0, port := .A };
        c.ops = none ∧ c.rollcall = false)
      ∧ (let c : Command := { bytes := [0xB7, 0xC4, 1, 0, 1, 1], length := 10, envLen := 0, port := .A };
        c.ops = none ∧ c.rollcall = true ∧ (live.port c.port).responses.length < 4
          ∧ 4 ≤ ((fourQueued.port c.port).responses.length)) := by decide +kernel

/-- R142, R149: a malformed command with ROLLCALL set that finds its Response Queue holding 4 leaves the queue, counted malformed
and its response lost. -/
theorem test_malformed_response_lost :
    let c : Command := { bytes := [0xB7, 0xC4, 1, 0, 1, 1], length := 10, envLen := 0, port := .A }
    let t := after .beginCommand (fourQueued.setAgent { fourQueued.agent with queue := [c] })
    t.agent.queue = [] ∧ t.agent.counters.malformed = 1 ∧ t.agent.counters.responseLost = 1
      ∧ t.portA.responses.length = 4 := by decide +kernel

/-- A body laid out with each kind of op at the ends of its range, and one too short for its flags. -/
theorem witness_CommandBodyRoundTrip :
    (let ops : List Op := [.setCursor 0xFF4058, .moveCursor 0xFFFF, .write (List.replicate 255 1), .read 255];
      1 ≤ ops.length ∧ ops.length ≤ 255 ∧ (∀ o ∈ ops, o.encodable = true) ∧ [0, 0, (0 : Byte)].length ≤ 3
        ∧ ([0xB7, 0xC4, 1] : List Byte).length = 0 + 3)
    ∧ command6.ops.isSome = true
    ∧ ([0xB7, 0xC4, 1, 0, 1] : List Byte).length < 0 + 6 := by decide +kernel

/-- A command whose body is the one given. -/
def bodyOf (b : List Byte) : Command := { bytes := [0xB7, 0xC4, 1] ++ b, length := b.length + 7, envLen := 0, port := .A }

/-- R141, one body for each condition: no whole header; op count 0; a byte that is no op kind; a WRITE and a READ with a count of
0; each op reaching past the end; an op missing; four bytes left. Three bytes left are padding. -/
theorem test_malformed_bodies :
    (∀ b ∈ ([[0, 1, 0], [0, 1, 0, 0], [0, 1, 0, 1, 0x14, 1], [0, 1, 0, 1, 0x0F, 1], [0, 1, 0, 1, 0x12, 0], [0, 1, 0, 1, 0x13, 0],
        [0, 1, 0, 1, 0x10, 0, 0], [0, 1, 0, 1, 0x11, 0], [0, 1, 0, 1, 0x12, 1, 0, 0, 0], [0, 1, 0, 1, 0x13],
        [0, 1, 0, 2, 0x13, 1], [0, 1, 0, 1, 0x13, 1, 0, 0, 0, 0]] : List (List Byte)), (bodyOf b).ops = none)
    ∧ (bodyOf [0, 1, 0, 1, 0x13, 1, 0, 0, 0]).ops = some [.read 1] := by decide +kernel

/-- The unowned range at its two ends, and ops of 255 words. -/
theorem witness_MineWordsFormOneRun :
    (0x200000 ≤ (0x200000 : BitVec 24).toNat ∧ (0xFEFFFF : BitVec 24).toNat ≤ 0xFEFFFF) ∧ 255 ≤ 255
      ∧ (localOffset 0 0xFFFFFF).isSome = true ∧ (localOffset 0 0).isSome = true ∧ (localOffset 5 0).isSome = false := by
  decide +kernel

/-- Table 73: unit 31 at each end of its own window and of the All-Units window, and at the addresses beside them. -/
theorem test_windows :
    (([0x1EFFFF, 0x1F0000, 0x1FFFFF, 0x200000, 0xFEFFFF, 0xFF0000, 0xFFFFFF, 0x000000] : List (BitVec 24)).map (localOffset 31))
      = [none, some 0, some 0xFFFF, none, none, some 0, some 0xFFFF, none] := by decide +kernel

theorem witness_CursorOpsAndCommandEnd :
    (let w := walkOf [.setCursor 5] 0;
      (walking w live).agent.walk = some w ∧ w.ops.head? = some (.setCursor 5))
    ∧ (let w := walkOf [.moveCursor 0xFFFF] 0;
      (walking w live).agent.walk = some w ∧ w.ops.head? = some (.moveCursor 0xFFFF))
    ∧ (let w := { walkOf [] 0 with rollcall := true };
      (walking w live).agent.walk = some w ∧ w.ops = [] ∧ ((walking w live).port w.port).responses.length < 4)
    ∧ (walkOf [] 0).anyMine = false ∧ (walkOf [] 0).rollcall = false
    ∧ 4 ≤ (List.replicate 4 (malformedResponse 3 command6)).length := by decide +kernel

/-- A READ of 255 mine words, of words none of which is mine, and of words of which the last is mine; the sum of R147 at 2048
and above. -/
theorem witness_ReadWalksItsWords :
    (∀ a ∈ [0x030000, 0x050000, 0x02FF02],
      let w := walkOf [.read 255] (BitVec.ofNat 24 a)
      1 ≤ 255 ∧ (walking w live).agent.walk = some w ∧ w.ops = .read 255 :: [] ∧ w.taken = 0 ∧ w.firstMine = none
        ∧ w.failure = none ∧ w.data = [])
    ∧ mineCount 3 0x030000 255 = 255 ∧ mineCount 3 0x050000 255 = 0 ∧ mineCount 3 0x02FF02 255 = 1
    ∧ 2048 < 44 + 3 + 1022 + (2 + 4 * 245) ∧ ¬ 2048 < 44 + 3 + 1022 + (2 + 4 * 244)
    ∧ bufferFill live.portA.buffer ≤ 16384 ∧ bufferFill live.portB.buffer ≤ 16384 ∧ live.walker.argument < 128
    ∧ live.walker.position ≤ 4096 ∧ live.walker.count ≤ 16384 ∧ live.sweep.position < 4096 ∧ live.agent.queue.length ≤ 2
    ∧ live.portA.responses.length ≤ 4 ∧ live.portB.responses.length ≤ 4 ∧ live.rep.attempts ≤ 15
    ∧ live.rep.outstanding.length ≤ 16 ∧ live.rq.head < 256 ∧ live.rq.count ≤ 256 ∧ live.rq.inReport ≤ live.rq.count
    ∧ decodeOffset 0x0006 = .unmapped
    ∧ Rule.reset.slice < 512 ∧ live.flow.view.entry = none
    ∧ (let v := (after (.entrySelect 10481) bucket25).flow.view;
      v.index < 16384 ∧ ∃ e ∈ v.entry, e.key.length ≤ 32 ∧ e.rule ≤ 64)
    ∧ (live.ring 0).active = false
    ∧ (let g := ring1.ring 1;
      g.active = true ∧ g.filling < 8 ∧ g.free < 2048 ∧ g.release < 1024 ∧ g.send < 1024 ∧ g.fill < 1024
        ∧ g.inReport < 2048 ∧ g.filled < 2048) := by decide +kernel

/-- R156, Table 80: the defaults of the 18 settings, read at their offsets. -/
theorem test_settings_after_release :
    (([0x0004, 0x000D, 0x0010, 0x0011, 0x0012, 0x0013, 0x0014, 0x0020, 0x0021, 0x0022, 0x0023, 0x0030, 0x0031, 0x0032,
        0x0033, 0x0034, 0x0035, 0x0036] : List (BitVec 16)).map fun o => (readWord live o).1)
      = [0, 0, 0xFFFF, 0, 30, 0, 4, 8192, 0xB7C4, 0, 3, 0, 0, 4, 1024, 200, 100, 5] := by decide +kernel

/-- R164, Table 84: Ring 1 active with a capture of two descriptors being filled; Ring 0 inactive. -/
theorem test_ring_words :
    let s := ring1.setRing 1 ((ring1.ring 1).attempt (requestOf 128 1)).1
    ((List.range 8).map fun i => (readWord s (BitVec.ofNat 16 (0x3008 + i))).1) = [64, 8, 0, 0, 0x82000006, 0, 0, 0]
      ∧ (readWord s 0x300F).2 = .unmapped ∧ (readWord s 0x3004).1 = 0 := by decide +kernel

/-- R146: a READ of words 0x0000 to 0x0007, the last two UNMAPPED, has status UNMAPPED, and its block holds all eight. -/
theorem test_read_status_is_the_first_failure :
    let s := walking (walkOf [.read 8] 0x030000) live
    ((after (.read 8) s).agent.walk.map fun w => (w.statuses, w.blocks.map fun b => (b.offset, b.data.length)))
      = some ([.result .unmapped], [(0, 8)]) := by decide +kernel

/-- No word of a list writes Soft Reset, word by word. -/
theorem no_reset {unit : BitVec 5} {a : BitVec 24} {ws : List Word}
    (h : ∀ j < ws.length, ¬ (localOffset unit (a + BitVec.ofNat 24 j) = some 0x0008 ∧ (ws.getD j 0).extractLsb' 0 8 = 1)) :
    ¬ ∃ j v, ws[j]? = some v ∧ localOffset unit (a + BitVec.ofNat 24 j) = some 0x0008 ∧ v.extractLsb' 0 8 = 1 := by
  rintro ⟨j, v, hv, ho, hr⟩
  obtain ⟨hj, rfl⟩ := List.getElem?_eq_some_iff.mp hv
  exact h j hj ⟨ho, by rwa [List.getD_eq_getElem?_getD, hv]⟩

/-- The words from offset 0x0004 to 0x000D of unit 3, a Soft Reset among them when `v` is 1. -/
def tenWords (v : Word) : List Word := [1, 0, 0, 0, v, 0, 0, 0, 0, 77]

/-- A WRITE of words none of which is mine; of words some of which are, at the last two words of another unit and the first of
this one; of ten mine words that reset nothing; and of ten of which the fifth is a Soft Reset. -/
theorem witness_WriteWalksItsWords :
    (∀ x ∈ ([([1, 2], 0x050004), ([1, 2, 3], 0x02FFFE), (tenWords 6, 0x030004)] : List (List Word × BitVec 24)),
      let w := walkOf [.write x.1] x.2
      x.1 ≠ [] ∧ (walking w live).agent.walk = some w ∧ w.ops = .write x.1 :: [] ∧ w.taken = 0 ∧ w.firstMine = none
        ∧ w.failure = none ∧ w.data = []
        ∧ ¬ ∃ j v, x.1[j]? = some v ∧ localOffset 3 (w.cursor + BitVec.ofNat 24 j) = some 0x0008
            ∧ v.extractLsb' 0 8 = 1)
    ∧ tenWords 1 = [1, 0, 0, 0] ++ 1 :: [0, 0, 0, 0, 77]
    ∧ (¬ ∃ j v, ([1, 0, 0, 0] : List Word)[j]? = some v
        ∧ localOffset 3 ((0x030004 : BitVec 24) + BitVec.ofNat 24 j) = some 0x0008 ∧ v.extractLsb' 0 8 = 1)
    ∧ localOffset 3 ((0x030004 : BitVec 24) + BitVec.ofNat 24 4) = some 0x0008 ∧ (1 : Word).extractLsb' 0 8 = 1 := by
  refine ⟨fun x hx => ⟨?_, rfl, rfl, rfl, rfl, rfl, rfl, no_reset ?_⟩, rfl, no_reset (by decide +kernel), by decide,
    by decide⟩ <;>
    · simp only [List.mem_cons, List.not_mem_nil, or_false] at hx
      obtain rfl | rfl | rfl := hx <;> decide +kernel

/-- R146, R144: of ten words from 0x0004 on, READ_ONLY at 0x0005 is the status; the words after it are executed: Time Offset, the
last of them, is 77; and the cursor rises by 10. -/
theorem test_write_goes_on_after_a_failure :
    let s := walking (walkOf [.write (tenWords 6)] 0x030004) live
    let t := after (.write (tenWords 6)) s
    (t.agent.walk.map fun w => (w.statuses, w.cursor, w.anyMine)) = some ([.result .readOnly], 0x03000E, true)
      ∧ t.time.offset = 77 ∧ t.cls.mode = .run := by decide +kernel

/-- R150, step 1: a Soft Reset among the ten words ends the WRITE: the word before it has been executed and reset, the Time Offset
after it is not written, the status is that of the words up to it, and the later op is SKIPPED. -/
theorem test_soft_reset_ends_a_write :
    let s := walking (walkOf [.write (tenWords 1), .read 1] 0x030004) live
    let t := after (.write (tenWords 1)) s
    t.agent.walk = none ∧ t.agent.queue = [] ∧ t.time.offset = 0 ∧ t.cls.mode = .bypass
      ∧ (t.portA.responses.map fun r => (r.reset, r.statuses)) = [(true, [.result .readOnly, .skipped])] := by
  decide +kernel

/-- One state for each row that writes a word: the Agent of unit 3 at that word of a WRITE of one value. -/
def atWord (o : BitVec 16) (v : Word) : State := walking (walkOf [.write [v]] (BitVec.ofNat 24 (0x030000 + o.toNat))) live

theorem witness_WordRowIsTheWriteOp (o : BitVec 16) (v : Word)
    (h : o ∈ ([0x0004, 0x0010, 0x0210, 0x0215, 0x2000, 0x2011, 0x0030, 0x3018, 0x3019, 0x301A, 0x301B, 0x0008]
      : List (BitVec 16))) :
    let w := walkOf [.write [v]] (BitVec.ofNat 24 (0x030000 + o.toNat))
    (atWord o v).agent.walk = some w ∧ w.ops = .write [v] :: [] ∧ ([v] : List Word)[w.taken]? = some v
      ∧ localOffset (atWord o v).agent.unit w.cursor = some o := by
  refine ⟨rfl, rfl, rfl, ?_⟩
  show localOffset 3 (BitVec.ofNat 24 (0x030000 + o.toNat)) = some o
  fin_cases h <;> decide +kernel

theorem witness_SettingsAreWritten :
    decodeOffset 0x0032 = .setting .windowSize ∧ (after .sessionEnableOn live).rep.session ≠ .idle
      ∧ live.rep.session = .idle ∧ Setting.windowSize.legal 17 = false ∧ Setting.windowSize.legal 16 = true
      ∧ bucket25.flow.entries ≠ [] ∧ live.flow.entries = [] ∧ live.walker.state ≠ .running
      ∧ 0xFFFF < (0x10000 : Word).toNat ∧ (0xFFFF : Word).toNat ≤ 0xFFFF ∧ 15 < 16 ∧ 3 < 4 ∧ 7 < 8
      ∧ 1 < (2 : Word).toNat ∧ ((0x00000100 : Word).extractLsb' 0 8).toNat = 0
      ∧ 7 < ((0x00000008 : Word).extractLsb' 0 8).toNat := by decide +kernel

/-- Tables 80 and 81: Session Enable 2, and the Control codes 0x00, 0x08 and 0xFF, are BAD_VALUE. -/
theorem test_refused_values :
    (after (.settingWrite 0x0030 2) live).lastResult = some (.rejected .badValue)
      ∧ (after (.settingWrite 0x0030 2) live).rep.session = .idle
      ∧ (after (.settingWrite 0x0008 0x00) live).lastResult = some (.rejected .badValue)
      ∧ (after (.settingWrite 0x0008 0x08) live).lastResult = some (.rejected .badValue)
      ∧ (after (.settingWrite 0x0008 0xFF) live).lastResult = some (.rejected .badValue) := by decide +kernel

/-- Table 78, each side of the boundaries of its areas: the words that a write finds READ_ONLY, and those UNMAPPED. -/
theorem test_area_boundaries :
    (∀ o ∈ ([0x0000, 0x0015, 0x003B, 0x1000, 0x1880, 0x2001, 0x2010, 0x3004, 0x301E, 0x4000, 0x4009, 0x4010, 0x4019, 0x4020,
        0x4025, 0x4028, 0x402D, 0x4030, 0x404C, 0x4050, 0x4056, 0x4058, 0x405A, 0x4060, 0x4065] : List Nat),
      (writeWord (BitVec.ofNat 16 o) 0 live).2 = .readOnly)
    ∧ ∀ o ∈ ([0x0006, 0x00FF, 0x0110, 0x01FF, 0x0216, 0x0FFF, 0x1881, 0x1FFF, 0x2012, 0x2FFF, 0x3007, 0x301F, 0x3020, 0x3FFF,
        0x400A, 0x400F, 0x401A, 0x4026, 0x402E, 0x4035, 0x404F, 0x4057, 0x405B, 0x4066, 0xFFFF] : List Nat),
      (writeWord (BitVec.ofNat 16 o) 0 live).2 = .unmapped := by decide +kernel

/-- Rule Staging for a MEASURE rule of template 7, capturing 256 bytes into ring 3. -/
def stagedState : State :=
  live.setCls { live.cls with ruleStaging := [(0, 0x80000003), (1, 0x701), (2, 0x00030100), (3, 65535)] }

theorem witness_RuleCommitWritesTheShadow :
    let m := stagedState.cls.ruleStaging
    commitCheck2 m 63 = true ∧ commitCheck3 m = true ∧ 64 < (65 : Word).toNat ∧ commitCheck4 stagedState.cls 63 = false
      ∧ (let s := stagedState.setCls { stagedState.cls with templates := [(7, { Template.reset with defined := true })] };
        commitCheck4 s.cls 63 = true ∧ commitCheck5 s 63 = false
          ∧ (let t := after (.activate 3) s;
            commitCheck4 t.cls 63 = true ∧ commitCheck5 t 63 = true))
      ∧ (let s := live.setCls { live.cls with ruleStaging := [(0, 3), (3, 1)] };
        commitCheck2 s.cls.ruleStaging 64 = true ∧ commitCheck3 s.cls.ruleStaging = true
          ∧ commitCheck4 s.cls 64 = true ∧ commitCheck5 s 64 = true) := by decide +kernel

theorem witness_TemplateCommitReplaces :
    7 < (8 : Word).toNat ∧ ¬ 7 < (7 : Word).toNat
      ∧ ({ rules := [(0, { Rule.reset with valid := true, action := .measure, template := 7 })], last := .resetDefault }
          : Bank).namesTemplate 7 = true
      ∧ live.cls.bank0.namesTemplate 7 = false ∧ live.cls.bank1.namesTemplate 7 = false
      ∧ (stagingWord live.cls.templateStaging 0).getLsbD 31 = false := by decide +kernel

theorem witness_SessionsOpenAndEnd :
    live.rep.session = .idle ∧ (after .sessionEnableOn live).rep.session ≠ .idle := by decide +kernel

theorem witness_SoftResetActsOnTheBlocks :
    standsAt live .control (controlCode 1) = false ∧ standsAt (atWord 0x0008 1) .control (controlCode 1) = true
      ∧ (atWord 0x0008 1).agent.walk = some (walkOf [.write [1]] 0x030008) := by decide +kernel

theorem witness_SwapExchangesTheBanks :
    let s := live.setCls { live.cls with bank1 := bank14 }
    SMap.Sorted s.cls.shadow.rules ∧ ∀ x ∈ s.cls.shadow.rules, x.1 < 64 := by decide +kernel

theorem witness_ReportNowAndClearCounters :
    hasMaterial live = false ∧ hasMaterial (withRecords 1 0 live) = true := by decide +kernel

/-- R109: Report Now in an OPEN session builds at once; in IDLE the request stands. -/
theorem test_report_now_builds :
    let s := withRecords 1 0 live
    let t := after .reportNow { s with rep := { s.rep with session := .opened } }
    t.rep.outstanding.length = 1 ∧ t.rep.buildPending = false ∧ (after .reportNow s).rep.outstanding = [] := by
  decide +kernel

end Sys2Proof.Tests
end

section
/-!
PROOFS. The Flow Table at the release of RESET_N (R64).
-/

namespace Sys2Proof.Machine

/-- R18: a release with RESET_N low gives every block its power-up state and keeps the waiting commands. -/
theorem exec_resetNRelease_of_low (u : BitVec 5) {s : State} (h : s.resetN = false) :
    exec (.resetNRelease u) s
      = .next ((State.powerUp u s.portA.link s.portB.link (s.cap.epoch + 1)).setPending s.pending) := by
  have harm : exec (.resetNRelease u) s = execResetNRelease u s := rfl
  simp [harm, execResetNRelease, h]

@[simp] theorem State.powerUp_flow (u : BitVec 5) (a b : Link) (epoch : Nat) :
    (State.powerUp u a b epoch).flow = FlowTable.reset := rfl

@[simp] theorem State.powerUp_rq (u : BitVec 5) (a b : Link) (epoch : Nat) :
    (State.powerUp u a b epoch).rq = RecordQueue.reset := rfl

@[simp] theorem State.powerUp_rep (u : BitVec 5) (a b : Link) (epoch : Nat) :
    (State.powerUp u a b epoch).rep = ReportEngine.reset 0 := rfl

/-- R64: no entry of the Flow Table is in use after a reset. -/
@[simp] theorem FlowTable.reset_entry (i : Nat) : FlowTable.reset.entry i = none := SMap.find_nil i

/-- Table 83: the view of a FREE entry holds nothing but the index and the time of the snapshot. -/
theorem EntryView.viewWord_of_free {w : EntryView} (h : w.entry = none) (i : Nat) :
    w.viewWord i = if i = 15 then w.time else if i = 0 then place w.index 0 else 0 := by
  simp [EntryView.viewWord, h]

/-- R64: every word of the Entry View reads 0 after a reset. -/
theorem FlowTable.reset_viewWord (i : Nat) : FlowTable.reset.view.viewWord i = 0 := by
  have hfree : FlowTable.reset.view.entry = none := rfl
  have hindex : place FlowTable.reset.view.index 0 = 0 := rfl
  have htime : FlowTable.reset.view.time = 0 := rfl
  simp [EntryView.viewWord_of_free hfree, hindex, htime]

/-- Settles O13: the release leaves `FlowTable.reset`, the empty Record Queue and the Report Engine's reset state. -/
theorem releaseStartsTheFlowTable : Obligations.ReleaseStartsTheFlowTable := by
  intro u s hlow
  refine ⟨_, exec_resetNRelease_of_low u hlow, ?_⟩
  simp only [State.setPending_flow, State.setPending_rep, State.setPending_rq, State.powerUp_flow, State.powerUp_rep,
    State.powerUp_rq]
  exact ⟨FlowTable.reset_entry, rfl, rfl, rfl, rfl, fun i _ => FlowTable.reset_viewWord i, rfl, rfl, rfl⟩

end Sys2Proof.Machine
end

section
/-!
PROOFS. The Time block, the Sweeper and the walker at the release of RESET_N (R83).
-/

namespace Sys2Proof.Machine

@[simp] theorem State.powerUp_time (u : BitVec 5) (a b : Link) (epoch : Nat) :
    (State.powerUp u a b epoch).time = { uptime := 0, offset := 0 } := rfl

@[simp] theorem State.powerUp_sweep (u : BitVec 5) (a b : Link) (epoch : Nat) :
    (State.powerUp u a b epoch).sweep = Sweeper.reset 0 := rfl

@[simp] theorem State.powerUp_walker (u : BitVec 5) (a b : Link) (epoch : Nat) :
    (State.powerUp u a b epoch).walker = Walker.reset := rfl

@[simp] theorem State.powerUp_now (u : BitVec 5) (a b : Link) (epoch : Nat) : (State.powerUp u a b epoch).now = 0 := rfl

/-- R66: no time passes between a moment and itself. -/
@[simp] theorem elapsed_self (now : Word) : elapsed now now = 0 := by simp [elapsed]

/-- R128: a deadline is reached when Uptime equals it. -/
@[simp] theorem deadlineReached_self (now : Word) : deadlineReached now now = true := by simp [deadlineReached]

/-- R69: bucket 0 falls due at the pass start itself, whatever the pass length. -/
theorem Sweeper.due_of_position_zero {w : Sweeper} (h : w.position = 0) (now : Word) :
    w.due now = deadlineReached now w.passStart := by
  simp [Sweeper.due, h]

/-- R83 (`now` 0) and R84: the first visit after a reset is due at once. -/
theorem Sweeper.reset_due (now : Word) : (Sweeper.reset now).due now = true :=
  (Sweeper.due_of_position_zero rfl now).trans (deadlineReached_self now)

/-- Settles O14: the release leaves Uptime 0, `Sweeper.reset` at that Uptime, `Walker.reset` and an empty Flow Table. -/
theorem releaseStartsTimeAndWalk : Obligations.ReleaseStartsTimeAndWalk := by
  intro u s hlow
  refine ⟨_, exec_resetNRelease_of_low u hlow, ?_⟩
  simp only [State.setPending_time, State.setPending_sweep, State.setPending_walker, State.setPending_flow,
    State.setPending_now, State.powerUp_time, State.powerUp_sweep, State.powerUp_walker, State.powerUp_flow,
    State.powerUp_now, true_and]
  exact ⟨rfl, rfl, rfl, rfl, rfl, rfl, Sweeper.reset_due 0, rfl, rfl, FlowTable.reset_entry⟩

end Sys2Proof.Machine
end

section
/-!
PROOFS. What a report build takes and what it does (R107, R108, R110, R111): the builder's turns round the sources meet the
material in the order of `roundOrder`, and stop at the first item that does not fit.
-/

namespace Sys2Proof.Machine

/-! ## The order of the turns -/

/-- The items met by turns over lists that go to the back of the queue after each turn, an empty one leaving it. -/
def turns : Nat → List (List Item) → List Item
  | 0, _ => []
  | _ + 1, [] => []
  | n + 1, [] :: rest => turns n rest
  | n + 1, (it :: more) :: rest => it :: turns n (rest ++ [more])

/-- The items that fit a budget of which `total` is used, up to the first that does not. -/
def fitting (budget : Nat) : Nat → List Item → List Item
  | _, [] => []
  | total, it :: more => if total + it.size ≤ budget then it :: fitting budget (total + it.size) more else []

/-- The first `n` rows of lists that stand side by side: each list's first item, then each list's second. -/
def rows (n : Nat) (ls : List (List Item)) : List Item := (List.range n).flatMap fun k => ls.filterMap (·[k]?)

theorem takeItems_eq_fitting (b n : Nat) : ∀ (ls : List (List Item)) (total : Nat),
    takeItems b n ls total = fitting b total (turns n ls) := by
  induction n with
  | zero => exact fun _ _ => rfl
  | succ n ih =>
    intro ls total
    match ls with
    | [] => rfl
    | [] :: rest => exact ih rest total
    | (it :: more) :: rest =>
      unfold takeItems turns fitting
      rw [ih]

/-- What fits is a first part of the items, within the budget, and what is left begins with an item that does not fit. -/
theorem fitting_spec {b total : Nat} (items : List Item) (h : total ≤ b) :
    ∃ left, items = fitting b total items ++ left ∧ total + ((fitting b total items).map Item.size).sum ≤ b
      ∧ ∀ it more, left = it :: more → b < total + ((fitting b total items).map Item.size).sum + it.size := by
  induction items generalizing total with
  | nil => exact ⟨[], rfl, by simpa [fitting] using h, by simp⟩
  | cons it more ih =>
    by_cases hf : total + it.size ≤ b
    · obtain ⟨left, h1, h2, h3⟩ := ih hf
      have e : fitting b total (it :: more) = it :: fitting b (total + it.size) more := if_pos hf
      rw [e]
      refine ⟨left, by rw [List.cons_append, ← h1], by simpa [Nat.add_assoc] using h2, fun x xs hx => ?_⟩
      simpa [Nat.add_assoc] using h3 x xs hx
    · have e : fitting b total (it :: more) = [] := if_neg hf
      rw [e]
      refine ⟨it :: more, rfl, by simpa using h, fun x xs hx => ?_⟩
      obtain ⟨rfl, -⟩ := List.cons.inj hx
      simpa using hf

theorem rows_succ (n : Nat) (ls : List (List Item)) :
    rows (n + 1) ls = ls.filterMap List.head? ++ rows n (ls.map List.tail) := by
  simp only [rows, List.range_succ_eq_map, List.flatMap_cons, List.flatMap_map, List.filterMap_map]
  congr 1
  · simp [List.head?_eq_getElem?]
  · congr 1
    funext k
    congr 1
    funext l
    simp

theorem rows_of_empty {ls : List (List Item)} (h : ∀ l ∈ ls, l = []) (n : Nat) : rows n ls = [] := by
  simp only [rows, List.flatMap_eq_nil_iff, List.filterMap_eq_nil_iff]
  intro k _ l hl
  simp [h l hl]

/-- Lists with nothing in them are met by no row. -/
theorem rows_filter (n : Nat) (ls : List (List Item)) :
    rows n ((ls.filter (· ≠ [])).map List.tail) = rows n (ls.map List.tail) := by
  unfold rows
  congr 1
  funext k
  induction ls with
  | nil => rfl
  | cons l ls ih =>
    cases l with
    | nil => simpa using ih
    | cons x xs =>
      simp only [List.filterMap_map] at ih ⊢
      simp [List.filterMap_cons] at ih ⊢
      rw [ih]

theorem turns_of_empty {ls : List (List Item)} (h : ∀ l ∈ ls, l = []) (n : Nat) : turns n ls = [] := by
  induction ls generalizing n with
  | nil => cases n <;> rfl
  | cons l ls ih =>
    obtain rfl := h l (by simp)
    cases n with
    | zero => rfl
    | succ n => exact ih (fun x hx => h x (by simp [hx])) n

/-- One whole round: the first item of each list, and then the turns over what is left of them. -/
theorem turns_round (todo done : List (List Item)) (n : Nat) :
    turns (todo.length + n) (todo ++ done)
      = todo.filterMap List.head? ++ turns n (done ++ (todo.filter (· ≠ [])).map List.tail) := by
  induction todo generalizing done with
  | nil => simp
  | cons l todo ih =>
    rw [List.length_cons, show todo.length + 1 + n = todo.length + n + 1 by omega]
    cases l with
    | nil => simpa [turns, List.filterMap_cons] using ih done
    | cons x xs => simpa [turns, List.append_assoc] using ih (done ++ [xs])

/-- With turns enough the items are met row by row. -/
theorem turns_eq_rows (n : Nat) : ∀ (fuel : Nat) (ls : List (List Item)), (∀ l ∈ ls, l.length ≤ n) →
    (ls.map List.length).sum + ls.length ≤ fuel → turns fuel ls = rows n ls := by
  induction n with
  | zero =>
    intro fuel ls h _
    have empty : ∀ l ∈ ls, l = [] := fun l hl => List.eq_nil_of_length_eq_zero (Nat.le_zero.1 (h l hl))
    rw [turns_of_empty empty, rows_of_empty empty]
  | succ n ih =>
    intro fuel ls h hfuel
    obtain ⟨m, rfl⟩ : ∃ m, fuel = ls.length + m := ⟨fuel - ls.length, by omega⟩
    have round := turns_round ls [] m
    rw [List.append_nil, List.nil_append] at round
    rw [round, rows_succ, ih m _ ?_ ?_, rows_filter]
    · simp only [List.mem_map, List.mem_filter]
      rintro _ ⟨l, ⟨hl, -⟩, rfl⟩
      have := h l hl
      rw [List.length_tail]
      omega
    · have shorter : ∀ ls : List (List Item), (((ls.filter (· ≠ [])).map List.tail).map List.length).sum
          + ((ls.filter (· ≠ [])).map List.tail).length = (ls.map List.length).sum := by
        intro ls
        induction ls with
        | nil => rfl
        | cons l ls ih =>
          cases l with
          | nil => simpa using ih
          | cons x xs =>
            simp only [ne_eq, reduceCtorEq, not_false_eq_true, decide_true, List.filter_cons_of_pos, List.map_cons,
              List.tail_cons, List.sum_cons, List.length_cons] at ih ⊢
            omega
      rw [shorter]
      omega

/-! ## The sources -/

theorem Source.mem_round (a b : Source) : b ∈ a.round := by
  cases a with
  | records => cases b with
    | records => decide
    | ring r => fin_cases r <;> decide
  | ring q => cases b with
    | records => fin_cases q <;> decide
    | ring r => fin_cases q <;> fin_cases r <;> decide

theorem Source.round_nodup (a : Source) : a.round.Nodup := by
  cases a with
  | records => decide
  | ring q => fin_cases q <;> decide

theorem Ring.captureItems_source (g : Ring) (id : RingId) (fuel : Nat) : ∀ (i left : Nat),
    ∀ it ∈ g.captureItems id fuel i left, it.source = .ring id := by
  induction fuel with
  | zero => simp [Ring.captureItems]
  | succ fuel ih =>
    intro i left it hit
    unfold Ring.captureItems at hit
    split_ifs at hit
    · simp at hit
    · rcases List.mem_cons.1 hit with rfl | hit
      · rfl
      · exact ih _ _ it hit

/-- Every item of a source names that source. -/
theorem sourceItems_source (s : State) (a : Source) : ∀ it ∈ sourceItems s a, it.source = a := by
  cases a with
  | records =>
    intro it hit
    obtain ⟨k, -, rfl⟩ := List.mem_map.1 hit
    rfl
  | ring r =>
    intro it hit
    unfold sourceItems Ring.material at hit
    dsimp only at hit
    split_ifs at hit
    · exact Ring.captureItems_source _ _ _ _ _ it hit
    · simp at hit

/-- No source has more items than there is material. -/
theorem sourceItems_length_le (s : State) (a : Source) : (sourceItems s a).length ≤ (allMaterial s).length := by
  unfold allMaterial
  rw [List.length_flatMap]
  exact List.single_le_sum (by simp) _ (List.mem_map.2 ⟨a, Source.mem_round _ a, rfl⟩)

theorem roundOrder_eq_rows (s : State) :
    roundOrder s = rows (allMaterial s).length (s.rep.nextStart.round.map (sourceItems s)) := by
  simp only [roundOrder, rows, List.filterMap_map]
  rfl

/-- The items of the next report are those that fit, in the order of the rounds. -/
theorem nextItems_eq_fitting (s : State) : nextItems s = fitting (budget s.rep) 0 (roundOrder s) := by
  unfold nextItems
  dsimp only
  rw [takeItems_eq_fitting, roundOrder_eq_rows]
  congr 1
  apply turns_eq_rows
  · simp only [List.mem_map]
    rintro _ ⟨a, -, rfl⟩
    exact sourceItems_length_le s a
  · have : (s.rep.nextStart.round.map (sourceItems s)).length = 5 := rfl
    omega

/-- R107, R110: what a build takes. -/
theorem nextItems_taken (s : State) : TakesItems s (nextItems s) := by
  obtain ⟨left, h1, h2, h3⟩ := fitting_spec (b := budget s.rep) (roundOrder s) (Nat.zero_le _)
  rw [← nextItems_eq_fitting] at h1 h2 h3
  simp only [Nat.zero_add] at h2 h3
  exact ⟨left, h1, h2, h3⟩

/-- Of the items that several sources show, those of one source are what it shows. -/
theorem filter_source_filterMap (f : Source → Option Item) (hf : ∀ a, ∀ it ∈ f a, it.source = a) (a : Source)
    (l : List Source) (hl : l.Nodup) :
    (l.filterMap f).filter (fun i => i.source = a) = if a ∈ l then (f a).toList else [] := by
  induction l with
  | nil => rfl
  | cons b l ih =>
    have hn := List.nodup_cons.1 hl
    cases hb : f b with
    | none =>
      rw [List.filterMap_cons_none hb, ih hn.2]
      by_cases hab : a = b
      · subst hab
        simp [hb, hn.1]
      · simp [hab]
    | some it =>
      have hs := hf b it hb
      rw [List.filterMap_cons_some hb, List.filter_cons, ih hn.2, hs]
      by_cases hab : a = b
      · subst hab
        simp [hb, hn.1]
      · simp [hab, Ne.symm hab]

/-- The items of one source stand in the order of the rounds as they stand in the source. -/
theorem roundOrder_filter (s : State) (a : Source) :
    (roundOrder s).filter (fun i : Item => i.source = a) = sourceItems s a := by
  have row : ∀ k : Nat, (s.rep.nextStart.round.filterMap fun b => (sourceItems s b)[k]?).filter (fun i => i.source = a)
      = ((sourceItems s a)[k]?).toList := by
    intro k
    rw [filter_source_filterMap _ (fun b it hit => sourceItems_source s b it (List.mem_of_getElem? hit)) a _
      (Source.round_nodup _), if_pos (Source.mem_round _ a)]
  have gather : ∀ (l : List Item) (n : Nat), ((List.range n).flatMap fun k => (l[k]?).toList) = l.take n := by
    intro l n
    induction n with
    | zero => simp
    | succ n ih => rw [List.range_succ, List.flatMap_append, ih, List.take_add_one]; simp
  unfold roundOrder
  rw [List.filter_flatMap]
  simp only [row, gather]
  exact List.take_of_length_le (sourceItems_length_le s a)

/-- R110: the items taken are an unbroken run from the front of each source. -/
theorem nextItems_filter (s : State) (a : Source) :
    ∃ n, ((nextItems s).filter fun i => i.source = a) = (sourceItems s a).take n := by
  obtain ⟨left, h, -⟩ := nextItems_taken s
  refine ⟨((nextItems s).filter fun i => i.source = a).length, ?_⟩
  rw [← roundOrder_filter, h, List.filter_append, List.take_left]

theorem recordItems_eq (items : List Item) : recordItems items = (items.filter fun i => i.source = .records).length := by
  unfold recordItems
  congr 1
  refine List.filter_congr fun i _ => ?_
  cases i <;> simp [Item.source]

/-- No more records are taken than are UNSENT. -/
theorem recordItems_nextItems_le (s : State) : recordItems (nextItems s) ≤ s.rq.unsent := by
  obtain ⟨n, h⟩ := nextItems_filter s .records
  rw [recordItems_eq, h]
  have : (sourceItems s .records).length = s.rq.unsent := by simp [sourceItems, RecordQueue.material]
  rw [List.length_take, this]
  exact Nat.min_le_right _ _

theorem hasMaterial_iff (s : State) :
    hasMaterial s = true ↔ s.rq.unsent ≠ 0 ∨ ∃ r, (s.ring r).active = true ∧ (s.ring r).filled ≠ 0 := by
  have all : ∀ r : RingId, r ∈ allRings := fun r => by fin_cases r <;> decide
  simp [hasMaterial, all]

/-- R108: where there is material, some source has an item to give. -/
theorem exists_sourceItems_of_hasMaterial {s : State} (h : hasMaterial s = true) : ∃ a, sourceItems s a ≠ [] := by
  rcases (hasMaterial_iff s).1 h with h | ⟨r, ha, hf⟩
  · exact ⟨.records, fun e => h (by simpa [sourceItems, RecordQueue.material] using e)⟩
  · refine ⟨.ring r, ?_⟩
    obtain ⟨n, hn⟩ := Nat.exists_eq_succ_of_ne_zero hf
    simp [sourceItems, Ring.material, ha, hn, Ring.captureItems]

/-- R110: with material there, the first item met is the front item of its source. -/
theorem roundOrder_head {s : State} (h : hasMaterial s = true) :
    ∃ a it more rest, sourceItems s a = it :: more ∧ roundOrder s = it :: rest := by
  obtain ⟨a, ha⟩ := exists_sourceItems_of_hasMaterial h
  have hlen : 0 < (allMaterial s).length :=
    Nat.lt_of_lt_of_le (List.length_pos_iff.2 ha) (sourceItems_length_le s a)
  obtain ⟨n, hn⟩ := Nat.exists_eq_succ_of_ne_zero (Nat.ne_of_gt hlen)
  have front : ∀ b, (sourceItems s b).head? ∈ s.rep.nextStart.round.map fun b => (sourceItems s b).head? := fun b =>
    List.mem_map.2 ⟨b, Source.mem_round _ b, rfl⟩
  rw [roundOrder_eq_rows, hn, rows_succ, List.filterMap_map]
  cases hrow : s.rep.nextStart.round.filterMap (List.head? ∘ sourceItems s) with
  | nil =>
    have := (List.filterMap_eq_nil_iff.1 hrow) a (Source.mem_round _ a)
    exact absurd (by simpa using this) ha
  | cons it row =>
    obtain ⟨b, -, hb⟩ := List.mem_filterMap.1 (hrow ▸ List.mem_cons_self : it ∈ _)
    obtain ⟨more, hmore⟩ : ∃ more, sourceItems s b = it :: more := by
      cases hs : sourceItems s b with
      | nil => simp [hs] at hb
      | cons x xs => exact ⟨xs, by simpa [hs] using hb⟩
    exact ⟨b, it, more, _, hmore, rfl⟩

/-- R110: a build with material takes an item, when the front item of every source fits. -/
theorem nextItems_ne_nil {s : State} (h : hasMaterial s = true)
    (hf : ∀ (a : Source) it more, sourceItems s a = it :: more → it.size ≤ s.rep.sizeLimit - 65) : nextItems s ≠ [] := by
  intro e
  obtain ⟨a, it, more, rest, ha, hr⟩ := roundOrder_head h
  obtain ⟨left, h1, -, h3⟩ := nextItems_taken s
  rw [e, List.nil_append] at h1
  have := h3 it rest (h1.symm.trans hr)
  have := hf a it more ha
  simp only [e, List.map_nil, List.sum_nil] at *
  omega

/-! ## The build -/

theorem hasMaterial_setRep (s : State) (e : ReportEngine) : hasMaterial (s.setRep e) = hasMaterial s := rfl

/-- R108: the Hold Timer and the request after a build. -/
theorem holdAfterBuild_eq (s : State) : holdAfterBuild s = s.setRep { s.rep with
    hold := if hasMaterial s then some (s.rep.hold.getD (s.now + word s.rep.holdTime)) else none
    buildPending := hasMaterial s && s.rep.buildPending } := by
  unfold holdAfterBuild
  by_cases h : hasMaterial s = true
  · cases hh : s.rep.hold with
    | none => simp [h]
    | some d =>
      simp only [h, if_true, Option.isNone_some, Bool.false_eq_true, if_false, Option.getD_some]
      rw [← hh, Bool.true_and]
      rfl
  · simp [h]

/-- A build, whole: the records and captures of the next items taken, the report entered in the lists, and the Hold Timer. -/
theorem buildReport_eq_taken (s : State) :
    buildReport s = holdAfterBuild (((s.setRq (s.rq.take (recordItems (nextItems s)))).setCap
      { s.cap with rings := s.cap.rings.update fun id g => g.take (ringDescriptors (nextItems s) id) }).setRep
      { s.rep with
        outstanding := s.rep.outstanding ++
          [{ session := s.rep.sessionNumber, sequence := s.rep.nextSequence, start := false, items := nextItems s,
             recordCount := recordItems (nextItems s),
             captureCount := (nextItems s).length - recordItems (nextItems s),
             itemsSize := itemsSize (nextItems s), state := .queued }]
        queue := s.rep.queue ++ [s.rep.nextSequence]
        nextSequence := s.rep.nextSequence + 1, nextStart := s.rep.nextStart.next, buildPending := false }) := rfl

theorem State.ring_update (u : State) (f : RingId → Ring → Ring) (e : ReportEngine) (g : RingId) :
    ((u.setCap { u.cap with rings := u.cap.rings.update f }).setRep e).ring g = f g (u.ring g) :=
  Rings.get_update u.cap.rings f g

/-- R111: a build of the model is one. -/
theorem buildReport_isBuilt (s : State) : IsBuilt s (buildReport s) := by
  refine ⟨nextItems s, nextItems_taken s, ?_⟩
  dsimp only
  have hsize : itemsSize (nextItems s) = ((nextItems s).map Item.size).sum := rfl
  have only := buildReport_only s
  refine ⟨?_, fun g => ?_, ?_, only⟩
  · rw [buildReport_eq_taken, holdAfterBuild_eq]
    simp [RecordQueue.take, Nat.min_eq_left (recordItems_nextItems_le s)]
  · have hring : (buildReport s).ring g = (s.ring g).take (ringDescriptors (nextItems s) g) := by
      rw [buildReport_eq_taken, holdAfterBuild_eq]
      exact State.ring_update s (fun id g => g.take (ringDescriptors (nextItems s) id)) s.rep g
    rw [hring]
    exact Ring.take_spec _ _
  · rw [buildReport_eq_taken, holdAfterBuild_eq]
    simp only [State.setRep_rep, hasMaterial_setRep, Bool.and_false, ← hsize]
    rfl

/-- Settles O42: the turns of the builder are the rounds of `roundOrder`, cut where the budget ends. -/
theorem buildFitsTheBudget : Obligations.BuildFitsTheBudget := by
  intro s
  have taken := nextItems_taken s
  refine ⟨taken, buildReport_isBuilt s, ?_, nextItems_filter s, fun it hit => ?_, nextItems_ne_nil, ?_⟩
  · obtain ⟨left, -, h, -⟩ := taken
    exact h
  · obtain ⟨n, hn⟩ := nextItems_filter s it.source
    have mem : it ∈ (nextItems s).filter fun i => i.source = it.source := List.mem_filter.2 ⟨hit, by simp⟩
    rw [hn] at mem
    have := List.mem_of_mem_take mem
    cases hs : it.source with
    | records => exact .inl (hs ▸ this)
    | ring r => exact .inr ⟨r, hs ▸ this⟩
  · exact (recordItems_eq _).symm.le.trans (recordItems_nextItems_le s)

end Sys2Proof.Machine
end

section
/-!
PROOFS. The step, the rows that write one word, RESET_N, the tick, the link UP, and the Soft Reset (R1, R18, R66, R146, R150).
-/

namespace Sys2Proof.Machine

/-- Settles O1: both parts are the two branches of `step`. -/
theorem stepRunsFront : Obligations.StepRunsFront := by
  refine ⟨fun c rest s => rfl, fun s h => ?_⟩
  unfold step
  rw [h]

/-- Settles O16. -/
theorem tickAndLinkUp : Obligations.TickAndLinkUp := ⟨fun _ => rfl, fun _ _ => rfl⟩

/-! ## A word presented to its owner (R146, notes/assumptions/6.md) -/

theorem present_eq {owner : State → State × WordResult} {s u : State} {r : WordResult} (h : owner s = (u, r)) (t : Target)
    (ok : Word → Bool) : present t ok owner s = noteTaken (standsAt s t ok) r { u with lastResult := some r } := by
  unfold present
  rw [h]
  rfl

/-- With no command being executed there is no walk to note a result in. -/
theorem noteTaken_of_idle {s : State} (h : s.agent.walk = none) (b : Bool) (r : WordResult) : noteTaken b r s = s := by
  unfold noteTaken State.updateWalk
  rw [h, Option.map_none, ← h]
  exact ite_self s

/-- What is noted stands in the walk. -/
theorem noteTaken_eq (b : Bool) (r : WordResult) (s : State) : ∃ w, noteTaken b r s = s.setAgent { s.agent with walk := w }
    ∧ (w = none ↔ s.agent.walk = none) := by
  unfold noteTaken State.updateWalk
  split_ifs
  · exact ⟨_, rfl, by simp⟩
  · exact ⟨s.agent.walk, rfl, Iff.rfl⟩

/-! ## RESET_N -/

/-- R18: at a fall an egress closes what it sends with an abort ending, an ingress abandons what it receives. -/
theorem resetPort_eq (p : Port) (s : State) : resetPort p s = s.setPort p { s.port p with
    egress := .idle, rx := none
    line := if (s.port p).egress = .idle then (s.port p).line else (s.port p).line ++ [.endAbort] } := by
  unfold resetPort
  split_ifs <;> simp [State.emit]

/-- Settles O12. -/
theorem resetFallCutsTheLine : Obligations.ResetFallCutsTheLine := by
  unfold Obligations.ResetFallCutsTheLine
  intro halted
  refine ⟨fun s h => ?_, fun s h => ?_⟩
  · have harm : exec .resetNFall s = execResetNFall s := rfl
    rw [harm, execResetNFall, if_pos h, resetPort_eq, resetPort_eq]
    rfl
  · have harm : exec .resetNFall s = execResetNFall s := rfl
    simp [harm, execResetNFall, h]

/-! ## What a reset leaves -/

theorem Bank.reset_rule (i : Nat) : Bank.reset.rule i = if i = 64 then Rule.resetDefault else Rule.reset := rfl

theorem CaptureEngine.reset_ring (epoch : Nat) (r : RingId) : (CaptureEngine.reset epoch).rings.get r = Ring.reset r := by
  fin_cases r <;> rfl

@[simp] theorem State.powerUp_ring (u : BitVec 5) (a b : Link) (epoch : Nat) (r : RingId) :
    (State.powerUp u a b epoch).ring r = Ring.reset r := CaptureEngine.reset_ring epoch r

theorem State.powerUp_port (u : BitVec 5) (a b : Link) (epoch : Nat) (p : Port) :
    (State.powerUp u a b epoch).port p = PortState.powerUp (match p with | .A => a | .B => b) := by
  cases p <;> rfl

/-- R40: no rule of a cleared bank names a template or a ring. -/
theorem Bank.reset_names_nothing (i : Nat) :
    (Bank.reset.rule i).action = .pass ∧ (Bank.reset.rule i).slice = 0 := by
  rw [Bank.reset_rule]
  split_ifs <;> exact ⟨rfl, rfl⟩

theorem rulesNameLiveTargets_of_reset {s : State} (h : s.cls = .reset) : RulesNameLiveTargets s := by
  intro b hb i _
  have hb : b = Bank.reset := by
    rw [h] at hb
    exact hb.elim id id
  obtain ⟨ha, hs⟩ := Bank.reset_names_nothing i
  rw [hb, ha, hs]
  exact ⟨fun h => absurd h (by decide), fun h => absurd rfl h⟩

theorem slicesLegal_of_reset {s : State} (h : s.cls = .reset) : SlicesLegal s := by
  intro i
  rw [h]
  have := (Bank.reset_names_nothing i).2
  exact ⟨this.le.trans (Nat.zero_le _), this.le.trans (Nat.zero_le _)⟩

theorem ringsHeld_of_reset {s : State} {epoch : Nat} (h : s.cap = .reset epoch) (r : RingId) : RingHeld (s.ring r) := by
  unfold State.ring
  rw [h, CaptureEngine.reset_ring]
  exact RingHeld.reset r

theorem flowsInPlace_of_reset {s : State} (h : s.flow = .reset) : FlowsInPlace s := by
  unfold FlowsInPlace
  rw [h]
  refine ⟨List.Pairwise.nil, fun i e he => ?_, fun i _ e _ he => ?_, rfl⟩
  · rw [FlowTable.reset_entry] at he
    cases he
  · rw [FlowTable.reset_entry] at he
    cases he

theorem reportsInOrder_of_reset {s : State} {n : BitVec 16} (h : s.rep = .reset n) : ReportsInOrder s := by
  unfold ReportsInOrder
  rw [h]
  exact ⟨Nat.zero_le 4, (by decide : 1 ≤ 4), (by decide : 4 ≤ 16), fun _ => rfl, fun i r hr => by simp [ReportEngine.reset] at hr, List.nodup_nil,
    fun q hq => by simp [ReportEngine.reset] at hq⟩

theorem recordsConserved_of_reset {s : State} {n : BitVec 16} (h1 : s.rq = .reset) (h2 : s.rep = .reset n) :
    RecordQueueHeld s ∧ RecordsConserved s := by
  unfold RecordQueueHeld RecordsConserved
  rw [h1, h2]
  exact ⟨⟨Nat.zero_le _, Nat.zero_le _, (by decide : 0 < 256)⟩, rfl⟩

theorem timers_of_reset {s : State} {n : BitVec 16} (h : s.rep = .reset n) : TimerWatchesSent s ∧ HoldMeansMaterial s := by
  unfold TimerWatchesSent HoldMeansMaterial
  rw [h]
  exact ⟨fun h => absurd rfl h, fun h => absurd h (by simp [ReportEngine.reset])⟩

theorem settingsLegal_powerUp (u : BitVec 5) (a b : Link) (epoch : Nat) : SettingsLegal (State.powerUp u a b epoch) := by
  intro k
  cases k
  case highMark => exact (by decide : Setting.highMark.legal (word 8192).toNat = true)
  all_goals rfl

theorem queuesHeld_powerUp (u : BitVec 5) (a b : Link) (epoch : Nat) : QueuesHeld (State.powerUp u a b epoch) := by
  refine ⟨Nat.zero_le _, fun p => ?_, fun p => ?_, fun h => absurd rfl h⟩
  · rw [State.powerUp_port]
    exact Nat.zero_le _
  · rw [State.powerUp_port]
    exact Nat.zero_le _

theorem noticesAreWhole_powerUp (u : BitVec 5) (a b : Link) (epoch : Nat) :
    NoticesAreWhole (State.powerUp u a b epoch) := by
  intro p
  rw [State.powerUp_port]
  exact ⟨fun n hn => absurd hn (List.not_mem_nil), fun x hx => absurd hx (List.not_mem_nil)⟩

/-- Settles O11: each law holds of the blocks as a reset leaves them. -/
theorem resetMeetsTheLaws : Obligations.ResetMeetsTheLaws := by
  intro s hs
  obtain ⟨u, a, b, epoch, rfl⟩ : ∃ u a b epoch, s = State.powerUp u a b epoch := by
    rcases hs with rfl | h
    · exact ⟨0, .down, .down, 0, rfl⟩
    · exact h
  obtain ⟨held, conserved⟩ := recordsConserved_of_reset (s := State.powerUp u a b epoch) rfl rfl
  obtain ⟨watches, hold⟩ := timers_of_reset (s := State.powerUp u a b epoch) rfl
  exact ⟨held, conserved, ⟨ringsHeld_of_reset rfl, slicesLegal_of_reset rfl, noticesAreWhole_powerUp u a b epoch⟩,
    rulesNameLiveTargets_of_reset rfl, flowsInPlace_of_reset rfl, reportsInOrder_of_reset rfl, watches, hold,
    settingsLegal_powerUp u a b epoch, queuesHeld_powerUp u a b epoch, CaptureEngine.reset_wf epoch⟩

/-! ## The release of RESET_N -/

/-- R120: a session opened in IDLE. -/
theorem exec_sessionEnableOn_idle {s : State} (h : s.rep.session = .idle) :
    exec .sessionEnableOn s = .next (noteTaken (standsAt s (.setting .sessionEnable) (· == 1)) .ok
      { s with rep := openSession { s.rep with sessionEnable := true }, lastResult := some .ok }) := by
  have owner : writeSetting .sessionEnable 1 s = (s.setRep (openSession { s.rep with sessionEnable := true }), .ok) := by
    simp [writeSetting, Setting.stateCheck, Setting.legal, storeSetting, enableSession, h]
  exact congrArg _ (present_eq owner _ _)

theorem noteTaken_rep (b : Bool) (r : WordResult) (s : State) : (noteTaken b r s).rep = s.rep := by
  obtain ⟨w, e, -⟩ := noteTaken_eq b r s
  rw [e]
  rfl

theorem SMap.get_pair {i j : Nat} {a b d : Word} (n : Nat) :
    SMap.get d [(i, a), (j, b)] n = if n = i then a else if n = j then b else d := by
  unfold SMap.get SMap.find SMap.find SMap.find
  by_cases h1 : i = n <;> by_cases h2 : j = n <;> simp [h1, h2, eq_comm]

/-- Settles O15. -/
theorem releaseStartsTheOtherBlocks : Obligations.ReleaseStartsTheOtherBlocks := by
  refine ⟨fun u s hlow => ⟨_, exec_resetNRelease_of_low u hlow, rfl, rfl, fun v hv => ?_⟩,
    fun u s hlow => ⟨_, exec_resetNRelease_of_low u hlow, rfl, rfl, rfl, rfl, rfl, fun p => ?_, rfl, rfl, rfl, rfl,
      fun b hb => ?_, fun i => ⟨rfl, rfl⟩, fun i => ⟨rfl, rfl, fun k => ?_⟩, fun i => ?_, fun i => rfl, fun r => ?_, rfl⟩,
    fun u s h => ?_⟩
  · rw [exec_sessionEnableOn_idle rfl] at hv
    obtain rfl := Host.Outcome.next.inj hv
    rw [noteTaken_rep]
    rfl
  · cases p <;> exact ⟨rfl, rfl, rfl, rfl, rfl, rfl, rfl⟩
  · obtain rfl : b = Bank.reset := hb.elim id id
    refine ⟨fun i hi => ?_, rfl, rfl, fun k => ?_, rfl, rfl, rfl, rfl⟩
    · rw [Bank.reset_rule, if_neg (by omega)]
      rfl
    · match k with
      | 0 | 1 | 2 | _ + 3 => rfl
  · match k with
    | 0 | 1 | 2 | _ + 3 => rfl
  · exact SMap.get_pair i
  · rw [State.setPending_ring, State.powerUp_ring]
    rfl
  · have harm : exec (.resetNRelease u) s = execResetNRelease u s := rfl
    rw [harm, execResetNRelease, if_pos h]

/-! ## Soft Reset (R150) -/

/-- The two ways of saying that the Agent stands at the word of a Soft Reset. -/
theorem standsAtReset_eq (s : State) : standsAtReset s = standsAt s .control (controlCode 1) := by
  have control (o : BitVec 16) : (o == 0x0008) = (decodeOffset o.toNat == Target.control) := by
    rw [Bool.eq_iff_iff, beq_iff_eq, beq_iff_eq]
    exact ⟨fun h => by rw [h]; rfl, control_offset⟩
  unfold standsAtReset standsAt
  cases wordAtCursor s with
  | none => rfl
  | some x => exact congrArg (· && field x.2 0 8 == 1) (control x.1)

/-- A Soft Reset, whole: what `State.powerUp` gives to the blocks, and what is kept of the ports, the reach settings, the Time
block, the Unit Number and the session number. -/
theorem softReset_eq (u : BitVec 5) (s : State) :
    ∃ rs : Port → List Response, (∀ p, (rs p).length ≤ 1) ∧
      softReset s = { State.powerUp u .down .down (s.cap.epoch + 1) with
        resetN := s.resetN
        portA := PortState.softReset { s.portA with responses := rs .A }
        portB := PortState.softReset { s.portB with responses := rs .B }
        reach := s.reach, time := s.time
        sweep := .reset s.time.uptime
        rep := .reset s.rep.sessionNumber
        agent := { unit := s.agent.unit, queue := [], walk := none, counters := .zero }
        lastResult := s.lastResult, pending := s.pending }
      ∧ (standsAtReset s = false → ∀ p, rs p = [])
      ∧ ∀ w, s.agent.walk = some w → standsAtReset s = true →
          ∀ p, rs p = if p = w.port then [resetResponse s.agent.unit w] else [] := by
  unfold softReset
  dsimp only
  cases hs : standsAtReset s with
  | false =>
    refine ⟨fun _ => [], fun _ => Nat.zero_le _, ?_, fun _ _ => rfl, fun w _ h => absurd h (by decide)⟩
    cases s.agent.walk <;> rfl
  | true =>
    cases hw : s.agent.walk with
    | none =>
      simp [standsAtReset, wordAtCursor, hw] at hs
    | some w =>
      refine ⟨fun p => if p = w.port then [resetResponse s.agent.unit w] else [], fun p => ?_, ?_,
        fun h => absurd h (by decide), fun w' hw' _ p => ?_⟩
      · dsimp only
        split_ifs <;> simp
      · have room : ((emptyQueues s).port w.port).responses.length < 4 := by cases w.port <;> exact Nat.succ_pos 3
        simp only [if_true, queueResponse, room]
        cases w.port <;> rfl
      · obtain rfl := Option.some.inj hw'
        rfl

/-- Settles O58. -/
theorem softResetActsOnTheBlocks : Obligations.SoftResetActsOnTheBlocks := by
  intro u s fresh port after
  obtain ⟨rs, -, whole, idle, answered⟩ := softReset_eq u s
  rw [standsAtReset_eq] at idle answered
  have row : ∀ b, standsAt s .control (controlCode 1) = b → exec .softReset s = .next (after (rs .A) (rs .B)) := by
    intro b _
    have h := present_eq (owner := fun s => (softReset s, .ok)) (s := s) rfl .control (controlCode 1)
    rw [noteTaken_of_idle (by exact softReset_walk s), whole] at h
    exact congrArg _ h
  refine ⟨fun h => ?_, fun w hw h => ?_⟩
  · rw [row _ h, idle h, idle h]
  · rw [row _ h, answered w hw h, answered w hw h]
    cases w.port <;> rfl

end Sys2Proof.Machine
end

section
/-!
PROOFS. What leaves the Outstanding List: a discard, a session loss, a Release; and the rows of report delivery and of the
session (R97, R98, R105, R108, R109, R120 to R131, R158).
-/

namespace Sys2Proof.Machine

/-! ## Everything outstanding discarded (R98, R105, R113) -/

theorem markGone_port (s : State) (p : Port) : (markGone s).port p = egressLeftBehind (s.port p) := by
  cases p <;> rfl

theorem egressLeftBehind_idem (x : PortState) : egressLeftBehind (egressLeftBehind x) = egressLeftBehind x := by
  unfold egressLeftBehind
  cases x.egress <;> rfl

/-- What is said of a discard does not bear on the Report Engine. -/
theorem WorkDiscarded.setRep {s t : State} (h : WorkDiscarded s t) (e : ReportEngine) : WorkDiscarded s (t.setRep e) := by
  obtain ⟨hq, hring, hport, only⟩ := h
  refine ⟨hq, hring, fun p => (State.setRep_port t e p).trans (hport p), ?_⟩
  conv_lhs => rw [only]
  rfl

theorem discardOutstanding_spec (s : State) : WorkDiscarded s (discardOutstanding s)
    ∧ (discardOutstanding s).rep = { s.rep with
        outstanding := [], queue := []
        conservation := { s.rep.conservation with
          discarded := s.rep.conservation.discarded + word s.rq.inReport } } := by
  have removed : s.rq.removed s.rq.inReport = s.rq.inReport := Nat.min_self _
  refine ⟨⟨?_, fun g => ?_, fun p => ?_, discardOutstanding_only s⟩, ?_⟩
  · show s.rq.remove s.rq.inReport = _
    simp [RecordQueue.remove]
  · have hring : (discardOutstanding s).ring g = (s.ring g).discardInReport :=
      Rings.get_update s.cap.rings (fun _ g => g.discardInReport) g
    rw [hring]
    exact (s.ring g).discardInReport_spec
  · exact (markGone_port _ p).trans (by cases p <;> rfl)
  · rw [← removed]
    rfl

/-- R123: a session loss. -/
theorem loseSession_spec (s : State) : SessionLost s (loseSession s) := by
  obtain ⟨work, hrep⟩ := discardOutstanding_spec s
  refine ⟨work.setRep _, startReport (s.rep.sessionNumber + 1), rfl, ?_⟩
  unfold loseSession
  simp only [State.setRep_rep, hrep]
  rfl

/-- R121: a session ended. -/
theorem disableSession_spec {s : State} (h : s.rep.session ≠ .idle) : WorkDiscarded s (disableSession s)
    ∧ (disableSession s).rep = { s.rep with
        sessionEnable := false, session := .idle, outstanding := [], queue := [], attempts := 0, retransmit := none
        buildPending := false
        conservation := { s.rep.conservation with
          discarded := s.rep.conservation.discarded + word s.rq.inReport } } := by
  obtain ⟨work, hrep⟩ := discardOutstanding_spec s
  unfold disableSession
  rw [if_neg h]
  refine ⟨work.setRep _, ?_⟩
  simp only [State.setRep_rep, hrep]

/-! ## Reports released (R97, R105, R113, R126) -/

/-- Captures of `k` descriptors leave from the front of IN_REPORT, counted in Captures Exported (R97). -/
def CapturesLeave (g h : Ring) (k : Nat) : Prop :=
  ZoneBecomes g h g.release k .free
    ∧ h = { g with
        release := (g.release + k) % g.size, inReport := g.inReport - k, free := g.free + k,
        descriptors := h.descriptors,
        counters := { g.counters with exported := g.counters.exported + word (g.capturesIn g.release k) } }

/-- A zone and the zone after it, one after the other. -/
theorem ZoneBecomes.append {g h k : Ring} {i j m n : Nat} {st : DescState} (a : ZoneBecomes g h i m st)
    (b : ZoneBecomes h k j n st) (hs : h.size = g.size) (hj : ∀ x, (j + x) % g.size = (i + (m + x)) % g.size) :
    ZoneBecomes g k i (m + n) st := by
  have inSecond : ∀ y, (∃ x, x < n ∧ y = (j + x) % g.size) → k.desc y = { h.desc y with state := st } := by
    rintro y ⟨x, hx, rfl⟩
    rw [← hs]
    exact b.1 x hx
  have outSecond : ∀ y, (¬ ∃ x, x < n ∧ y = (j + x) % g.size) → k.desc y = h.desc y := fun y hy =>
    b.2 y fun x hx e => hy ⟨x, hx, by rw [← hs]; exact e⟩
  have inFirst : ∀ y, (∃ x, x < m ∧ y = (i + x) % g.size) → h.desc y = { g.desc y with state := st } := by
    rintro y ⟨x, hx, rfl⟩
    exact a.1 x hx
  have outFirst : ∀ y, (¬ ∃ x, x < m ∧ y = (i + x) % g.size) → h.desc y = g.desc y := fun y hy =>
    a.2 y fun x hx e => hy ⟨x, hx, e⟩
  have split : ∀ y, ((∃ x, x < m ∧ y = (i + x) % g.size) ∨ ∃ x, x < n ∧ y = (j + x) % g.size)
      ↔ ∃ x, x < m + n ∧ y = (i + x) % g.size := by
    intro y
    constructor
    · rintro (⟨x, hx, e⟩ | ⟨x, hx, e⟩)
      · exact ⟨x, by omega, e⟩
      · exact ⟨m + x, by omega, e.trans (hj x)⟩
    · rintro ⟨x, hx, e⟩
      by_cases hm : x < m
      · exact .inl ⟨x, hm, e⟩
      · exact .inr ⟨x - m, by omega, e.trans (by rw [hj, show m + (x - m) = x by omega])⟩
  have whole : ∀ y, k.desc y = if ∃ x, x < m + n ∧ y = (i + x) % g.size then { g.desc y with state := st } else g.desc y := by
    intro y
    by_cases h2 : ∃ x, x < n ∧ y = (j + x) % g.size
    · rw [if_pos ((split y).1 (.inr h2)), inSecond y h2]
      by_cases h1 : ∃ x, x < m ∧ y = (i + x) % g.size
      · rw [inFirst y h1]
      · rw [outFirst y h1]
    · rw [outSecond y h2]
      by_cases h1 : ∃ x, x < m ∧ y = (i + x) % g.size
      · rw [if_pos ((split y).1 (.inl h1)), inFirst y h1]
      · rw [outFirst y h1, if_neg fun h => ((split y).2 h).elim h1 h2]
  exact ⟨fun x hx => (whole _).trans (if_pos ⟨x, hx, rfl⟩), fun y hy => (whole y).trans
    (if_neg fun ⟨x, hx, e⟩ => hy x hx e)⟩

theorem CapturesLeave.trans {g h k : Ring} {m n : Nat} (a : CapturesLeave g h m) (b : CapturesLeave h k n) :
    CapturesLeave g k (m + n) := by
  obtain ⟨za, ea⟩ := a
  obtain ⟨zb, eb⟩ := b
  have hsize : h.size = g.size := by rw [ea]
  have hrel : h.release = (g.release + m) % g.size := by rw [ea]
  have hcaps : h.capturesIn h.release n = g.capturesIn (g.release + m) n := by
    rw [Ring.capturesIn_congr hsize fun _ _ => za.first _, hrel, Ring.capturesIn_mod]
  refine ⟨za.append zb hsize fun x => by rw [hrel, Nat.mod_add_mod, Nat.add_assoc], ?_⟩
  rw [Ring.capturesIn_add, word_add, ← hcaps, ← BitVec.add_assoc, ← Nat.add_assoc, ← Nat.add_assoc]
  conv_lhs => rw [eb]
  generalize k.descriptors = d
  generalize h.capturesIn h.release n = c
  generalize h.descriptors = x at ea
  rw [ea]
  simp only [Nat.mod_add_mod, Nat.sub_sub]

theorem RecordQueue.remove_remove (q : RecordQueue) (a b : Nat) : (q.remove a).remove b = q.remove (a + b) := by
  unfold RecordQueue.remove
  dsimp only
  have h : min a q.inReport + min b (q.inReport - min a q.inReport) = min (a + b) q.inReport := by omega
  rw [Nat.mod_add_mod, Nat.add_assoc, Nat.sub_sub, Nat.sub_sub, h]

theorem RecordQueue.removed_add (q : RecordQueue) (a b : Nat) :
    q.removed a + (q.remove a).removed b = q.removed (a + b) := by
  simp only [RecordQueue.removed, RecordQueue.remove]
  omega

/-- The reports `gone` leave from `s` to `t`: their records and captures, those QUEUED among them, and the transmission of one
that is SENDING. -/
structure ReportsLeave (gone : List Report) (s t : State) : Prop where
  rq : t.rq = s.rq.remove (gone.map Report.recordCount).sum
  ring : ∀ g, CapturesLeave (s.ring g) (t.ring g)
    (min (gone.map fun r => ringDescriptors r.items g).sum (s.ring g).inReport)
  port : ∀ p, t.port p = if gone.any (·.state == .sending) then egressLeftBehind (s.port p) else s.port p
  rep : t.rep = { s.rep with
    queue := s.rep.queue.filter fun q => q ∉ gone.map Report.sequence
    conservation := { s.rep.conservation with
      exported := s.rep.conservation.exported + word (s.rq.removed (gone.map Report.recordCount).sum) } }
  only : DeliveryOnly s t

/-- One report released, but for the mark on its transmission. -/
def withdrawn (s : State) (r : Report) : State :=
  ((s.setRq (s.rq.remove r.recordCount)).setCap { s.cap with
    rings := s.cap.rings.update fun id g => g.releaseCaptures (ringDescriptors r.items id) }).setRep { s.rep with
    conservation := { s.rep.conservation with
      exported := s.rep.conservation.exported + word (s.rq.removed r.recordCount) }
    queue := s.rep.queue.filter (· != r.sequence) }

theorem releaseReport_eq (s : State) (r : Report) :
    releaseReport s r = if r.state = .sending then markGone (withdrawn s r) else withdrawn s r := rfl

/-- The mark on a transmission touches the ports alone. -/
theorem releaseReport_blocks (s : State) (r : Report) : (releaseReport s r).rq = (withdrawn s r).rq
    ∧ (releaseReport s r).cap = (withdrawn s r).cap ∧ (releaseReport s r).rep = (withdrawn s r).rep := by
  rw [releaseReport_eq]
  split_ifs <;> exact ⟨rfl, rfl, rfl⟩

theorem releaseReport_leaves (s : State) (r : Report) : ReportsLeave [r] s (releaseReport s r) := by
  obtain ⟨hq, hcap, hrep⟩ := releaseReport_blocks s r
  refine ⟨hq.trans (by simp [withdrawn]), fun g => ?_, fun p => ?_, hrep.trans ?_, releaseReport_only s r⟩
  · have hring : (releaseReport s r).ring g = (s.ring g).releaseCaptures (ringDescriptors r.items g) := by
      unfold State.ring
      rw [hcap]
      exact Rings.get_update s.cap.rings (fun id g => g.releaseCaptures (ringDescriptors r.items id)) g
    rw [hring, List.map_singleton, List.sum_singleton]
    exact (s.ring g).releaseCaptures_spec _
  · have same : (withdrawn s r).port p = s.port p := by cases p <;> rfl
    rw [releaseReport_eq]
    by_cases h : r.state = .sending
    · simp only [h, List.any_cons, beq_self_eq_true, Bool.true_or, if_true]
      rw [markGone_port, same]
    · have : ([r].any fun r => r.state == .sending) = false := by simp [h]
      rw [if_neg h, this, same]
      rfl
  · have hf : (s.rep.queue.filter fun q => q ∉ [r].map Report.sequence) = s.rep.queue.filter (· != r.sequence) := by
      refine List.filter_congr fun q _ => ?_
      rw [Bool.eq_iff_iff]
      simp
    rw [hf, List.map_singleton, List.sum_singleton]
    rfl

theorem ReportsLeave.cons {r : Report} {gone : List Report} {s u t : State} (a : ReportsLeave [r] s u)
    (b : ReportsLeave gone u t) : ReportsLeave (r :: gone) s t := by
  have ra := a.rq
  rw [List.map_singleton, List.sum_singleton] at ra
  refine ⟨?_, fun g => ?_, fun p => ?_, ?_, a.only.trans b.only⟩
  · rw [b.rq, ra, RecordQueue.remove_remove, List.map_cons, List.sum_cons]
  · have ga := a.ring g
    have hin : (u.ring g).inReport = (s.ring g).inReport - min (ringDescriptors r.items g) (s.ring g).inReport := by
      have := ga.2
      rw [List.map_singleton, List.sum_singleton] at this
      rw [this]
    have := ga.trans (b.ring g)
    rw [hin, List.map_singleton, List.sum_singleton] at this
    rw [List.map_cons, List.sum_cons]
    convert this using 1
    omega
  · rw [b.port, a.port]
    simp only [List.any_cons, List.any_nil, Bool.or_false]
    by_cases hr : (r.state == .sending) = true <;> by_cases hg : gone.any (·.state == .sending) = true <;>
      simp [hr, hg, egressLeftBehind_idem]
  · have ea := a.rep
    rw [List.map_singleton, List.map_singleton, List.sum_singleton] at ea
    rw [b.rep, ea, ra, List.map_cons, List.map_cons, List.sum_cons, ← RecordQueue.removed_add, word_add]
    simp only [List.filter_filter, BitVec.add_assoc]
    congr 1
    refine List.filter_congr fun q _ => ?_
    rw [Bool.eq_iff_iff]
    simp
    tauto

/-- Reports released in turn leave as one. -/
theorem foldl_releaseReport (r : Report) (gone : List Report) (s : State) :
    ReportsLeave (r :: gone) s ((r :: gone).foldl releaseReport s) := by
  induction gone generalizing r s with
  | nil => exact releaseReport_leaves s r
  | cons x gone ih => exact (releaseReport_leaves s r).cons (ih x _)

/-- The `n` oldest reports released, before the builder works. -/
def releasedOldest (n : Nat) (s : State) : State :=
  let s1 := (s.rep.outstanding.take n).foldl releaseReport s
  let e := { s1.rep with outstanding := s1.rep.outstanding.drop n, attempts := 0, session := .opened }
  s1.setRep { e with
    retransmit := timerAfterRelease s.now e
    delivery := { e.delivery with acks := e.delivery.acks + 1 } }

theorem releaseOldest_eq (n : Nat) (s : State) : releaseOldest n s = pump (releasedOldest n s) := rfl

/-- R97, R105, R125, R126: a Release of reports of the list. -/
theorem releasedOldest_spec {n : Nat} {s : State} (h : s.rep.outstanding.take n ≠ []) :
    Releases n s (releasedOldest n s) := by
  obtain ⟨r, gone, hg⟩ := List.exists_cons_of_ne_nil h
  have leave := foldl_releaseReport r gone s
  rw [← hg] at leave
  unfold Releases releasedOldest
  dsimp only
  generalize (s.rep.outstanding.take n).foldl releaseReport s = u at leave
  have ports := leave.port
  refine ⟨leave.rq, fun g => leave.ring g, fun hs p => ?_, fun hs p => ?_, ?_, ?_⟩
  · have : (s.rep.outstanding.take n).any (·.state == .sending) = true := by simpa using hs
    rw [State.setRep_port, ports, if_pos this]
  · have : (s.rep.outstanding.take n).any (·.state == .sending) = false := by simpa using hs
    rw [State.setRep_port, ports, this]
    rfl
  · simp only [State.setRep_rep, leave.rep]
    unfold timerAfterRelease
    cases s.rep.outstanding.drop n <;> rfl
  · conv_lhs => rw [leave.only]
    rfl

/-! ## The rows of the Report Engine -/

/-- R109: the builder's test after a happening. -/
theorem pump_isBuilds (s : State) : Builds s (pump s) := pump_builds buildReport_isBuilt s

/-- Settles O44. -/
theorem holdTimerExpires : Obligations.HoldTimerExpires := by
  intro s
  have harm : exec .holdTimerExpiry s = execHoldTimerExpiry s := rfl
  refine ⟨fun d hd => ⟨fun h => ⟨_, ?_, pump_isBuilds _⟩, fun h => ?_⟩, fun h => ?_⟩
  · have due : deadlineReached s.now d = true := decide_eq_true h
    rw [harm, execHoldTimerExpiry, hd]
    exact if_pos due
  · have notDue : deadlineReached s.now d = false := decide_eq_false (Nat.not_lt.2 h)
    simp [harm, execHoldTimerExpiry, hd, notDue]
  · rw [harm, execHoldTimerExpiry, h]

theorem retransmitDue_of_some {s : State} {d : Word} (hd : s.rep.retransmit = some d) :
    retransmitDue s = true ↔ (s.time.uptime - d).toNat < 2 ^ 31 := by
  unfold retransmitDue
  rw [hd]
  exact decide_eq_true_iff

/-- Settles O45. -/
theorem retransmitExpires : Obligations.RetransmitExpires := by
  intro s sent requeued
  have hstart : exec .retransmitExpiryStarting s = execRetransmitExpiryStarting s := rfl
  have hopen : exec .retransmitExpiryOpen s = execRetransmitExpiryOpen s := rfl
  refine ⟨fun d hd hdue => ?_, fun h => ?_, fun h => ?_, fun h => ?_⟩
  · have due := (retransmitDue_of_some hd).2 hdue
    refine ⟨fun hs => ?_, fun hs ha => ?_, fun hs ha => ⟨loseSession s, ?_, loseSession_spec s⟩⟩
    · have hmin : min (s.rep.attempts + 1) 15 = if s.rep.attempts < 15 then s.rep.attempts + 1 else 15 := by
        split_ifs <;> omega
      rw [hstart, execRetransmitExpiryStarting, if_pos ⟨hs, due⟩, hmin]
      rfl
    · rw [hopen, execRetransmitExpiryOpen, if_pos ⟨hs, due⟩, if_neg (by omega)]
      rfl
    · rw [hopen, execRetransmitExpiryOpen, if_pos ⟨hs, due⟩, if_pos ha]
  · have notDue : ¬ retransmitDue s = true := by
      rcases h with h | ⟨d, hd, h⟩
      · simp [retransmitDue, h]
      · rw [retransmitDue_of_some hd]
        omega
    rw [hstart, hopen, execRetransmitExpiryStarting, execRetransmitExpiryOpen, if_neg fun h => notDue h.2,
      if_neg fun h => notDue h.2]
    exact ⟨rfl, rfl⟩
  · rw [hstart, execRetransmitExpiryStarting, if_neg fun hh => h hh.1]
  · rw [hopen, execRetransmitExpiryOpen, if_neg fun hh => h hh.1]

/-- Settles O46. -/
theorem ackIsClassified : Obligations.AckIsClassified := by
  intro p s a more hacks e popped counted d oldest
  have row : exec (.ackTaken p) s = .next (takeAck a popped) := by
    show execAckTaken p s = _
    rw [execAckTaken, hacks]
  have hrep : popped.rep = e := State.setPort_rep ..
  have taken : ∀ o, classifyAck e a = o → exec (.ackTaken p) s = .next (match o with
      | .mismatch => counted { d with ackMismatch := d.ackMismatch + 1 }
      | .stale => counted { d with staleAcks := d.staleAcks + 1 }
      | .bad => counted { d with badAcks := d.badAcks + 1 }
      | .release n => releaseOldest n popped) := by
    intro o ho
    rw [row, takeAck, hrep, ho] <;> cases o <;> rfl
  have released : ∀ n, classifyAck e a = .release (n + 1) → e.outstanding ≠ [] →
      ∃ u t, Releases (n + 1) popped u ∧ Builds u t ∧ exec (.ackTaken p) s = .next t := fun n ho hne =>
    ⟨releasedOldest (n + 1) popped, _, releasedOldest_spec (by rw [hrep]; simpa using hne), pump_isBuilds _, taken _ ho⟩
  refine ⟨fun h => taken .mismatch ?_, fun hs => ⟨fun h1 h2 => taken .bad ?_,
    fun h1 h2 => ⟨fun h3 => taken .stale ?_, fun h3 => taken .bad ?_⟩, fun h1 h2 h3 => released 0 ?_ h3,
    fun h1 h2 => released _ ?_ fun h => by rw [h] at h2; simp at h2⟩⟩
  · unfold classifyAck
    cases hstate : e.session with
    | idle => rfl
    | starting => exact if_pos (h.resolve_left (by simp [hstate]))
    | opened => exact if_pos (h.resolve_left (by simp [hstate]))
  · rw [classifyAck, h1]
    exact (if_neg (not_not.2 hs)).trans (if_neg h2)
  · have past : ¬ (a.sequence - oldestSequence e).toNat < e.outstanding.length := Nat.not_lt.2 h2
    rw [classifyAck, h1]
    exact (if_neg (not_not.2 hs)).trans ((if_neg past).trans (if_pos h3))
  · have past : ¬ (a.sequence - oldestSequence e).toNat < e.outstanding.length := Nat.not_lt.2 h2
    rw [classifyAck, h1]
    exact (if_neg (not_not.2 hs)).trans ((if_neg past).trans (if_neg (Nat.not_lt.2 h3)))
  · rw [classifyAck, h1]
    exact (if_neg (not_not.2 hs)).trans (if_pos h2)
  · rw [classifyAck, h1]
    exact (if_neg (not_not.2 hs)).trans (if_pos h2)

/-! ## The session, Report Now and Clear Counters -/

/-- Settles O57. -/
theorem sessionsOpenAndEnd : Obligations.SessionsOpenAndEnd := by
  intro s noted restarted
  have on : ∀ u, enableSession s = u → exec .sessionEnableOn s = .next (noted 1 .ok u) := by
    intro u hu
    have owner : writeSetting .sessionEnable 1 s = (u, .ok) := by
      simp [writeSetting, Setting.stateCheck, Setting.legal, storeSetting, hu]
    exact congrArg _ (present_eq owner _ _)
  have off : ∀ u, disableSession s = u → exec .sessionEnableOff s = .next (noted 0 .ok u) := by
    intro u hu
    have owner : writeSetting .sessionEnable 0 s = (u, .ok) := by
      simp [writeSetting, Setting.stateCheck, Setting.legal, storeSetting, hu]
    exact congrArg _ (present_eq owner _ _)
  have restart : ∀ u r, restartSession s = (u, r) → exec .sessionRestart s = .next (restarted r u) := fun u r hu =>
    congrArg _ (present_eq hu _ _)
  refine ⟨fun h => ⟨⟨startReport (s.rep.sessionNumber + 1), rfl, on _ ?_⟩, off _ ?_, restart _ _ ?_⟩,
    fun h => ⟨on _ ?_, ⟨disableSession s, off _ rfl, disableSession_spec h⟩, loseSession s, restart _ _ ?_,
      loseSession_spec s⟩⟩
  · rw [enableSession, if_pos h]
    rfl
  · rw [disableSession, if_pos h]
  · rw [restartSession, if_pos h]
  · rw [enableSession, if_neg h]
  · rw [restartSession, if_neg h]

/-- Settles O60. -/
theorem reportNowAndClearCounters : Obligations.ReportNowAndClearCounters := by
  intro s noted
  refine ⟨fun h => ?_, fun h => ⟨_, pump_isBuilds _, ?_⟩, ?_⟩
  · exact congrArg _ (present_eq (owner := reportNow) (by simp [reportNow, h]) _ _)
  · exact congrArg _ (present_eq (owner := reportNow) (by rw [reportNow, if_pos h]; rfl) _ _)
  · exact congrArg Host.Outcome.next (present_eq (owner := fun s => (clearCounters s, .ok)) rfl .control (controlCode 7))

end Sys2Proof.Machine
end

section
/-!
PROOFS. The operations that the commands are made of. A property that each of them keeps is kept by every command
(`KeptByOps.exec`); the laws of the whole machine are stated with it, each by the operations that bear on it.
-/

namespace Sys2Proof.Machine

/-! ## What may become of a port and of the Agent -/

/-- What an operation may make of a port: no more than 4 responses come to wait, no more than 16384 bytes come to be held, and
every notice that comes is one of which `N` holds. -/
structure PortStep (N : Notice → Prop) (x y : PortState) : Prop where
  responses : y.responses.length ≤ max x.responses.length 4
  buffer : bufferFill y.buffer ≤ max (bufferFill x.buffer) 16384
  flowNotices : ∀ n ∈ y.flowNotices, n ∈ x.flowNotices ∨ N n
  captureNotices : ∀ n ∈ y.captureNotices, n ∈ x.captureNotices ∨ N n.1

theorem PortStep.same {N : Notice → Prop} {x y : PortState} (h1 : y.responses = x.responses)
    (h2 : bufferFill y.buffer ≤ bufferFill x.buffer) (h3 : y.flowNotices = x.flowNotices)
    (h4 : y.captureNotices = x.captureNotices) : PortStep N x y :=
  ⟨h1 ▸ Nat.le_max_left _ _, h2.trans (Nat.le_max_left _ _), fun _ h => .inl (h3 ▸ h), fun _ h => .inl (h4 ▸ h)⟩

/-- What an operation may make of the Agent: no more than 2 commands come to wait, and a command that is executed waits. -/
structure AgentStep (a b : Agent) : Prop where
  queue : b.queue.length ≤ max a.queue.length 2
  walk : (a.walk ≠ none → a.queue ≠ []) → b.walk ≠ none → b.queue ≠ []

theorem AgentStep.same {a b : Agent} (h1 : b.queue = a.queue) (h2 : b.walk = none ↔ a.walk = none) : AgentStep a b :=
  ⟨h1 ▸ Nat.le_max_left _ _, fun h hw => h1 ▸ h fun e => hw (h2.2 e)⟩

/-- A Hold Timer and a request that may stand in `s` (R108). -/
def HoldFits (s : State) (h : Option Word) (b : Bool) : Prop := hasMaterial s = true ∨ (h = none ∧ b = false)

/-! ## The operations -/

/-- Every operation that the commands are made of keeps `P`; `N` holds of every notice on its way. The fields are the
operations, each with what is known where it is used; one that does not bear on `P` is found kept by itself. -/
structure KeptByOps (N : Notice → Prop) (P : State → Prop) : Prop where
  long : ∀ n : Notice, 16 ≤ n.length → N n := by intros; trivial
  flowNotice : ∀ s p, P s → ∀ n ∈ (s.port p).flowNotices, N n := by intros; trivial
  captureNotice : ∀ s p, P s → ∀ n ∈ (s.port p).captureNotices, N n.1 := by intros; trivial
  resetN : ∀ s x, P s → P (s.setResetN x) := by intro _ _ h; exact h
  powerUp : ∀ u a b n s, P s → P ((State.powerUp u a b n).setPending s.pending)
  softReset : ∀ s, P s → P (softReset s)
  port : ∀ s p x, PortStep N (s.port p) x → P s → P (s.setPort p x) := by intro _ p _ _ h; cases p <;> exact h
  agent : ∀ s x, AgentStep s.agent x → P s → P (s.setAgent x) := by intro _ _ _ h; exact h
  result : ∀ s x, P s → P (s.setResult x) := by intro _ _ h; exact h
  uptime : ∀ s x, P s → P (s.setTime { s.time with uptime := x }) := by intro _ _ h; exact h
  envelopes : ∀ s m n, P s → P (s.setReach { s.reach with responseEnvelope := m, reportEnvelope := n }) := by
    intro _ _ _ h; exact h
  setting : ∀ s k v, k ≠ .sessionEnable → k.stateCheck s = none → k.legal v.toNat = true → P s → P (storeSetting k v s) := by
    intro _ k _ hk _ _ h; cases k <;> first | exact h | exact absurd rfl hk
  clear : ∀ s, P s → P (clearCounters s) := by intro _ h; exact h
  walker : ∀ s x, P s → P (s.setWalker x) := by intro _ _ h; exact h
  sweep : ∀ s n t m c, P s → P (s.setSweep { s.sweep with position := n, passStart := t, passLength := m, counters := c }) := by
    intro _ _ _ _ _ h; exact h
  tallies : ∀ s h d rs ts rc tc, P s → P (s.setCls { s.cls with
    hits := h, countdowns := d, ruleStaging := rs, templateStaging := ts, ruleCommit := rc, templateCommit := tc }) := by
    intro _ _ _ _ _ _ _ h; exact h
  rule : ∀ s i, i ≤ 64 → commitCheck2 s.cls.ruleStaging i = true → commitCheck3 s.cls.ruleStaging = true →
    commitCheck4 s.cls i = true → commitCheck5 s i = true → P s →
    P (s.setCls (s.cls.setShadow (s.cls.shadow.setRule i (committedRule s.cls.ruleStaging i)))) := by
    intro _ _ _ _ _ _ _ h; exact h
  template : ∀ s i x, s.cls.bank0.namesTemplate i = false → s.cls.bank1.namesTemplate i = false → P s →
    P (s.setCls { s.cls with templates := SMap.set .reset s.cls.templates i x }) := by intro _ _ _ _ _ h; exact h
  swap : ∀ s, P s → P (s.setCls s.cls.swap) := by intro _ h; exact h
  attempt : ∀ s (q : CaptureRequest) i, q.slice = (s.cls.active.rule i).slice → q.slice ≠ 0 → P s →
    P (s.setRing q.ring ((s.ring q.ring).attempt q).1) := by intro _ _ _ _ _ h; exact h
  copy : ∀ s id d n b, P s → P (s.setCap (s.cap.copyByte id d n b)) := by intro _ _ _ _ _ h; exact h
  abandon : ∀ s id f, (s.ring id).capture = some f → P s → P (s.setRing id (s.ring id).abandon) := by
    intro _ _ _ _ h; exact h
  complete : ∀ s id f n e x b, N n → (s.ring id).capture = some f →
    HoldFits (s.setRing id ((s.ring id).complete f n.length n.ending e)) x b → P s →
    P ((s.setRing id ((s.ring id).complete f n.length n.ending e)).setRep { s.rep with hold := x, buildPending := b }) := by
    intro _ _ _ _ _ _ _ _ _ _ h; exact h
  ringWord : ∀ s id n m, (s.ring id).active = false → (m = (s.ring id).size ∨ 0 < m) → P s →
    P (s.setRing id { s.ring id with baseCell := n, size := m }) := by intro _ _ _ _ _ _ h; exact h
  activate : ∀ s id, (s.ring id).active = false → (s.ring id).baseCell + (s.ring id).size ≤ 2048 → P s →
    P (s.setRing id (s.ring id).activated) := by intro _ _ _ _ h; exact h
  deactivate : ∀ s id x b, s.cls.bank0.namesRing id = false → s.cls.bank1.namesRing id = false →
    (s.ring id).filling = 0 → (s.ring id).inReport = 0 → HoldFits (s.setRing id (s.ring id).deactivated) x b → P s →
    P ((s.setRing id (s.ring id).deactivated).setRep { s.rep with hold := x, buildPending := b }) := by
    intro _ _ _ _ _ _ _ _ _ h; exact h
  flowMeta : ∀ s c v w, c.activeEntries = s.flow.counters.activeEntries → P s →
    P (s.setFlow { s.flow with counters := c, view := v, closeEntry := w }) := by intro _ _ _ _ _ h; exact h
  flowReplace : ∀ s i e g, s.flow.entry i = some e → g.template = e.template → g.dirField = e.dirField → g.key = e.key →
    P s → P (setEntry i g s) := by intro _ _ _ _ _ _ _ _ h; exact h
  flowFree : ∀ s i e, s.flow.entry i = some e → P s → P (freeEntry i s) := by intro _ _ _ _ h; exact h
  flowInsert : ∀ s i e, s.flow.entry i = none → i / 4 = flowBucket s.flow.seed e.template e.dirField e.key →
    (∀ j g, j / 4 = i / 4 → s.flow.entry j = some g → g.matchesFlow e.template e.dirField e.key = false) → P s →
    P (insertFlow i e s) := by intro _ _ _ _ _ _ h; exact h
  append : ∀ s r x b, s.rq.count < 256 → HoldFits (s.setRq (s.rq.append r)) x b → P s →
    P ((s.setRq (s.rq.append r)).setRep { s.rep with
      conservation := { s.rep.conservation with appended := s.rep.conservation.appended + 1 }
      hold := x, buildPending := b }) := by intro _ _ _ _ _ _ h; exact h
  build : ∀ s, buildDue s = true → P s → P (buildReport s) := by
    intro s _ h; rw [buildReport_only s]; exact h
  request : ∀ s x, (hasMaterial s = true ∨ s.rep.hold ≠ none) → P s →
    P (s.setRep { s.rep with hold := x, buildPending := true }) := by intro _ _ _ h; exact h
  delivery : ∀ s d, P s → P (s.setRep { s.rep with delivery := d }) := by intro _ _ h; exact h
  requeue : ∀ s n, P s → P (s.setRep (requeueSent { s.rep with attempts := n })) := by intro _ _ h; exact h
  cut : ∀ s, P s → P (s.setRep (cutTransmission s.rep)) := by intro _ h; exact h
  finish : ∀ s, P s → P (finishTransmission s) := by intro _ h; exact h
  start : ∀ s q qs r, s.rep.queue = q :: qs → r ∈ s.rep.outstanding → r.sequence = q → P s →
    let out := s.rep.outstanding.map fun x => if x.sequence = q then { r with state := TxState.sending } else x
    P (s.setRep { s.rep with
      queue := qs, outstanding := out
      retransmit := if oldestSending { s.rep with outstanding := out } then none else s.rep.retransmit }) := by
    intro _ _ _ _ _ _ _ h; exact h
  release : ∀ s t n, Releases n s t → P s → P t := by
    intro s t n hr h; obtain ⟨-, -, -, -, -, e⟩ := hr; rw [e]; exact h
  opened : ∀ s d, s.rep.outstanding = [] → P s → P (s.setRep { s.rep with
    outstanding := [], attempts := 0, session := .opened, retransmit := none, delivery := d }) := by
    intro _ _ _ h; exact h
  opens : ∀ s, s.rep.session = .idle → P s → P (s.setRep (openSession { s.rep with sessionEnable := true })) := by
    intro _ _ h; exact h
  ended : ∀ s t, WorkDiscarded s t → t.rep = { s.rep with
      sessionEnable := false, session := .idle, outstanding := [], queue := [], attempts := 0, retransmit := none
      buildPending := false
      conservation := { s.rep.conservation with
        discarded := s.rep.conservation.discarded + word s.rq.inReport } } → P s → P t := by
    intro s t hw _ h; obtain ⟨-, -, -, e⟩ := hw; rw [e]; exact h
  lost : ∀ s t, SessionLost s t → P s → P t := by
    intro s t hl h; obtain ⟨⟨-, -, -, e⟩, -⟩ := hl; rw [e]; exact h

end Sys2Proof.Machine
end

section
/-!
PROOFS. Every command keeps what all the operations keep: one lemma for each shared operation of the model, built from
those before it, up to the dispatcher.
-/

namespace Sys2Proof.Machine

-- One proof after another: elaborated side by side, the proofs of this file take more threads than the check's limits hold.
set_option Elab.async false

/-! ## What the operations at a port come to -/

theorem Clears.fill_le {l : Link} {b c : List HeldFrame} {n : Nat} (h : Clears l b c n) : bufferFill c ≤ bufferFill b := by
  induction h with
  | still _ => exact le_rfl
  | discard _ _ _ ih =>
    simp only [bufferFill_cons, HeldFrame.fill_mk] at ih ⊢
    simp only [List.length_nil] at ih
    omega
  | leave _ _ _ ih =>
    simp only [bufferFill_cons]
    omega

theorem bufferFill_append (a b : List HeldFrame) : bufferFill (a ++ b) = bufferFill a + bufferFill b := by
  simp [bufferFill]

theorem bufferFill_singleton (f : HeldFrame) : bufferFill [f] = f.fill := by simp

theorem bufferFill_updateLast {g : HeldFrame → HeldFrame} (hg : ∀ f, (g f).fill = f.fill) (b : List HeldFrame) :
    bufferFill (updateLast g b) = bufferFill b := by
  rcases List.eq_nil_or_concat b with rfl | ⟨l, f, rfl⟩
  · rfl
  · rw [List.concat_eq_append, updateLast_append, bufferFill_append, bufferFill_append, bufferFill_singleton,
      bufferFill_singleton, hg]

theorem bufferFill_dropLast_le (b : List HeldFrame) : bufferFill b.dropLast ≤ bufferFill b := by
  rcases List.eq_nil_or_concat b with rfl | ⟨l, f, rfl⟩
  · rfl
  · rw [List.concat_eq_append, List.dropLast_concat, bufferFill_append]
    omega

theorem bufferFill_dropArriving_le (b : List HeldFrame) : bufferFill (dropArriving b) ≤ bufferFill b := by
  unfold dropArriving
  split
  · split_ifs
    · exact bufferFill_dropLast_le b
    · exact le_rfl
  · exact le_rfl

theorem bufferFill_applyAction_le (a : Action) (b : List HeldFrame) : bufferFill (applyAction a b) ≤ bufferFill b := by
  unfold applyAction
  split
  · exact le_rfl
  · split_ifs
    · exact bufferFill_dropLast_le b
    · exact (bufferFill_updateLast (g := fun f => { f with action := some a, state := .ready }) (fun _ => rfl) b).le
    · exact le_rfl

theorem HeldFrame.fill_ended (f : HeldFrame) (e : LineEnd) : (f.ended e).fill = f.fill := by
  unfold HeldFrame.ended
  split_ifs <;> rfl

/-- A byte stored makes no more of a port than a `PortStep`. -/
theorem ByteStored.portStep {N : Notice → Prop} {r : Reception} {b : Byte} {x y : PortState} (h : ByteStored r b x y) :
    PortStep N x y := by
  obtain ⟨hin, hat, hpast⟩ := h
  rcases Nat.lt_trichotomy r.count 2048 with hc | hc | hc
  · obtain ⟨htakes, hnot⟩ := hin hc
    by_cases ht : ∃ before f, x.buffer = before ++ [f] ∧ f.reception = .isOpen ∧ f.state ≠ .discarding
    · obtain ⟨before, f, hb, ho, hd⟩ := ht
      have hfill : bufferFill x.buffer = bufferFill before + f.fill := by rw [hb, bufferFill_append, bufferFill_singleton]
      obtain ⟨hroom, hfull⟩ := htakes before f hb ho hd
      rcases Nat.lt_or_ge (bufferFill x.buffer) 16384 with hf | hf
      · rw [hroom hf]
        refine ⟨Nat.le_max_left _ _, ?_, fun _ h => .inl h, fun _ h => .inl h⟩
        have : bufferFill (before ++ [{ f with held := f.held ++ [b] }]) ≤ bufferFill x.buffer + 1 := by
          simp [bufferFill_append, hfill, HeldFrame.fill]
          omega
        exact this.trans (by omega)
      · rw [hfull hf]
        exact .same rfl (by simp [bufferFill_append, hfill, HeldFrame.fill]) rfl rfl
    · rw [hnot fun before f hb => by by_contra hn; exact ht ⟨before, f, hb, by tauto⟩]
      exact .same rfl le_rfl rfl rfl
  · obtain ⟨hy, hnil, hsome⟩ := hat hc
    have hfill : bufferFill y.buffer ≤ bufferFill x.buffer := by
      rcases List.eq_nil_or_concat x.buffer with hb | ⟨l, f, hb⟩
      · rw [hnil hb, hb]
      · rw [List.concat_eq_append] at hb
        rw [hsome l f hb, hb, bufferFill_append, bufferFill_append, bufferFill_singleton, bufferFill_singleton]
        split_ifs <;> exact le_rfl
    rw [hy]
    exact .same rfl hfill rfl rfl
  · rw [hpast hc]
    exact .same rfl le_rfl rfl rfl

/-! ## What the Hold Timer's rule comes to -/

theorem holdAfterMaterial_fits (had : Bool) (s : State) :
    ∃ x b, holdAfterMaterial had s = s.setRep { s.rep with hold := x, buildPending := b } ∧ HoldFits s x b := by
  obtain ⟨x, b, e⟩ := holdAfterMaterial_frame had s
  by_cases h : hasMaterial s = true
  · exact ⟨x, b, e, .inl h⟩
  · exact ⟨none, false, by rw [holdAfterMaterial, if_neg h], .inr ⟨rfl, rfl⟩⟩

/-! ## Places in the Flow Table -/

theorem mem_bucketIndices {b j : Nat} : j ∈ bucketIndices b ↔ j / 4 = b := by
  simp only [bucketIndices, entryIndex, List.mem_cons, List.not_mem_nil, or_false]
  omega

/-- The victim of a full bucket is a way of it. -/
theorem FlowTable.victim_mem (f : FlowTable) (now : Word) (b : Nat) : f.victim now b / 4 = b := by
  have key : ∀ (l : List Nat) (best : Nat), best / 4 = b → (∀ i ∈ l, i / 4 = b) →
      (l.foldl (fun best i => if f.age now best < f.age now i then i else best) best) / 4 = b := by
    intro l
    induction l with
    | nil => exact fun _ h _ => h
    | cons i l ih =>
      intro best h hl
      refine ih _ ?_ fun j hj => hl j (by simp [hj])
      dsimp only
      split_ifs
      · exact hl i (by simp)
      · exact h
  refine key _ _ (by simp only [entryIndex]; omega) fun i hi => mem_bucketIndices.1 ?_
  simp only [bucketIndices, List.mem_cons] at hi ⊢
  tauto

theorem FlowTable.lookup_none {f : FlowTable} {b : Nat} {t : BitVec 3} {d : DirField} {key : List Byte}
    (h : f.lookup b t d key = none) {j : Nat} {g : FlowEntry} (hj : j / 4 = b) (hg : f.entry j = some g) :
    g.matchesFlow t d key = false := by
  have := List.find?_eq_none.1 h j (mem_bucketIndices.2 hj)
  simpa [hg] using this

theorem FlowTable.freeWay_some {f : FlowTable} {b i : Nat} (h : f.freeWay b = some i) : f.entry i = none ∧ i / 4 = b :=
  ⟨by simpa using List.find?_some h, mem_bucketIndices.1 (List.mem_of_find?_eq_some h)⟩

theorem appendRecord_flow (r : FlowRecord) (s : State) : (appendRecord r s).flow = s.flow := by
  rw [appendRecord_only r s]

/-- The ring found for a notice is filling the capture of its frame. -/
theorem fillingRing_capture {s : State} {d : Direction} {n : Nat} {id : RingId} (h : fillingRing s d n = some id) :
    ∃ f, (s.ring id).capture = some f ∧ f.dir = d ∧ f.serial = n := by
  have hf : (s.ring id).fillingFor d n = true := List.find?_some (p := fun r => (s.ring r).fillingFor d n) h
  unfold Ring.fillingFor at hf
  split at hf
  · rename_i f hc
    exact ⟨f, hc, by simpa using hf⟩
  · cases hf

/-! ## The operations of the line -/

namespace KeptByOps

section
variable {N : Notice → Prop} {P : State → Prop} (K : KeptByOps N P)
include K

theorem emit {s : State} (p : Port) (x : LineSymbol) (h : P s) : P (s.emit p x) :=
  K.port s p _ (.same rfl le_rfl rfl rfl) h

theorem portCounters {s : State} (p : Port) (c : PortCounters) (h : P s) : P (s.setPortCounters p c) :=
  K.port s p _ (.same rfl le_rfl rfl rfl) h

theorem buffer {s : State} (p : Port) {b : List HeldFrame} (hb : bufferFill b ≤ bufferFill (s.port p).buffer) (h : P s) :
    P (s.setBuffer p b) := K.port s p _ (.same rfl hb rfl rfl) h

theorem settleEgress {s : State} (p : Port) (h : P s) : P (settleEgress p s) := by
  obtain ⟨u, b, n, ⟨hdone, hstill⟩, hclears, e⟩ := settleEgress_spec p s
  have hu : P u := by
    by_cases hd : ∃ f rest, (s.port p).egress = .transit ∧ (s.port p.other).buffer = f :: rest ∧ f.state = .sending
        ∧ f.held.length ≤ f.sent ∧ f.reception ≠ .isOpen
    · obtain ⟨f, rest, hd⟩ := hd
      rw [hdone f rest hd]
      have hfill : bufferFill rest ≤ bufferFill (s.port p.other).buffer := by
        rw [hd.2.1, bufferFill_cons]
        omega
      exact K.port _ p _ (.same (by simp) (by simp) (by simp) (by simp)) (K.buffer p.other hfill h)
    · rw [hstill fun f rest hf => hd ⟨f, rest, hf⟩]
      exact h
  rw [e]
  exact K.port _ p _ (.same (by simp) (by simp) (by simp) (by simp)) (K.buffer p.other hclears.fill_le hu)

theorem cutEgress {s : State} (p : Port) (h : P s) : P (cutEgress p s) := by
  have idle : P ((s.emit p .endAbort).setPort p { (s.emit p .endAbort).port p with egress := .idle }) :=
    K.port _ p _ (.same rfl le_rfl rfl rfl) (K.emit p _ h)
  unfold Machine.cutEgress
  split
  · exact h
  · dsimp only
    split
    · rename_i f rest hb
      refine K.buffer p.other ?_ (K.port _ p _ (.same rfl le_rfl rfl rfl) (K.emit p _ h))
      rw [hb]
      simp [HeldFrame.discard]
    · exact K.port _ p _ (.same rfl le_rfl rfl rfl) (K.emit p _ h)
  · exact K.agent _ _ (.same rfl Iff.rfl) idle
  · dsimp only
    split_ifs
    · exact idle
    · exact K.cut _ idle

theorem storeByte {s : State} (q : Port) (r : Reception) (b : Byte) (h : P s) :
    P (storeByte q (r.receive b).settleOversize b (cutOversize q (r.receive b).settleOversize s)).1 := by
  obtain ⟨e, -, hstored⟩ := storeByte_spec q r b s
  rw [e]
  obtain ⟨h1, h2, h3, h4⟩ := hstored.portStep (N := N)
  exact K.port _ _ _ ⟨h1, h2, h3, h4⟩ h

theorem captureByte {s : State} (q : Port) (r : Reception) (b : Byte) (h : P s) : P (captureByte q r b s) := by
  unfold Machine.captureByte
  split
  · exact K.copy _ _ _ _ _ h
  · exact h

theorem copyBytes (id : RingId) (d : Direction) (n : Nat) (bs : List Byte) {s : State} (h : P s) :
    P (s.setCap (s.cap.copyBytes id d n bs)) := by
  induction bs generalizing s with
  | nil => exact h
  | cons b bs ih => exact ih (K.copy s id d n b h)

theorem attemptCapture {s : State} (q : CaptureRequest) (i : Nat) (bs : List Byte)
    (hslice : q.slice = (s.cls.active.rule i).slice) (hne : q.slice ≠ 0) (h : P s) : P (attemptCapture q bs s).1 := by
  have attempted := K.attempt s q i hslice hne h
  unfold Machine.attemptCapture
  dsimp only
  split_ifs
  · exact K.copyBytes _ _ _ _ attempted
  · exact attempted

/-- A decision's counts: the hit and the sample countdown. -/
theorem sample {s : State} (i : Nat) (m : Rule) (h : P s) : P (s.setCls ((s.cls.countHit i).sample i m).1) := by
  have counted := fun x d => K.tallies s x d s.cls.ruleStaging s.cls.templateStaging s.cls.ruleCommit s.cls.templateCommit h
  rw [Classifier.sample_eq]
  split_ifs <;> exact counted _ _

theorem classify {s : State} (d : Direction) (n : Nat) (bs : List Byte) (h : P s) : P (classify d n bs s).1 := by
  unfold Machine.classify
  split
  · exact h
  · dsimp only
    generalize s.cls.active.choose d bs = i
    have sampled := K.sample i (s.cls.active.rule i) h
    split
    · rename_i hask
      have hslice : (s.cls.active.rule i).slice ≠ 0 := by
        intro hz
        rw [Classifier.sample_eq, if_pos hz] at hask
        exact absurd hask (by simp)
      refine K.attemptCapture _ i bs ?_ hslice sampled
      rw [Classifier.sample_eq]
      split_ifs <;> rfl
    · exact sampled

theorem decideFrame {s : State} (q : Port) (r : Reception) (h : P s) : P (decideFrame q r s).1 := by
  have applied : ∀ c : State × Decision × Option RingId, P c.1 →
      P ((if c.2.1.action = .drop then
          c.1.setPortCounters q { (c.1.port q).counters with dropped := (c.1.port q).counters.dropped + 1 }
        else c.1).setBuffer q (applyAction c.2.1.action ((if c.2.1.action = .drop then
          c.1.setPortCounters q { (c.1.port q).counters with dropped := (c.1.port q).counters.dropped + 1 }
        else c.1).port q).buffer)) := by
    intro c hc
    refine K.buffer q (bufferFill_applyAction_le _ _) ?_
    split_ifs
    · exact K.portCounters q _ hc
    · exact hc
  unfold Machine.decideFrame
  apply applied
  split_ifs
  · exact h
  · exact K.classify _ _ _ h

theorem receiveByte {s : State} (q : Port) (b : Byte) (r : Reception) (h : P s) : P (receiveByte q b r s) := by
  have stored := K.captureByte q (r.receive b).settleOversize b (K.storeByte q r b h)
  unfold Machine.receiveByte
  dsimp only
  refine K.settleEgress _ (K.port _ q _ (.same rfl le_rfl rfl rfl) ?_)
  split_ifs
  · exact K.decideFrame _ _ stored
  · exact stored

theorem beginFrame {s : State} (q : Port) (h : P s) : P (beginFrame q s).1 :=
  K.port s q _ (.same rfl (by rw [bufferFill_append]; simp [HeldFrame.new]) rfl rfl) h

theorem endFragment {s : State} (q : Port) (r : Reception) (h : P s) : P (endFragment q r s) :=
  K.settleEgress _ (K.portCounters q _ (K.buffer q (bufferFill_dropArriving_le _) h))

theorem endWhole {s : State} (q : Port) (r : Reception) (e : LineEnd) (hlen : 16 ≤ r.count) (h : P s) :
    P (endWhole q r e s) := by
  have ended := K.buffer q (b := updateLast (fun f => f.ended e) (s.port q).buffer)
    (bufferFill_updateLast (fun f => f.fill_ended e) _).le h
  have noticed : ∀ (u : State) (x : PortState) (n : Notice), 16 ≤ n.length → x.responses = (u.port q).responses →
      x.buffer = (u.port q).buffer → x.flowNotices = (u.port q).flowNotices ++ [n] →
      x.captureNotices = (u.port q).captureNotices → P u → P (Machine.settleEgress q.other (u.setPort q x)) := by
    intro u x n hn h1 h2 h3 h4 hu
    refine K.settleEgress _ (K.port u q x ⟨h1 ▸ Nat.le_max_left _ _, h2 ▸ Nat.le_max_left _ _, fun m hm => ?_,
      fun m hm => .inl (h4 ▸ hm)⟩ hu)
    rw [h3, List.mem_append, List.mem_singleton] at hm
    exact hm.imp id fun e => by rw [e]; exact K.long n hn
  have dropped := K.buffer q (bufferFill_dropArriving_le ((s.setBuffer q (updateLast (fun f => f.ended e) (s.port q).buffer)).port
    q).buffer) ended
  unfold Machine.endWhole
  dsimp only
  refine noticed _ _ _ ?_ rfl rfl rfl rfl ?_
  · dsimp only [Reception.notice]
    split_ifs <;> exact hlen
  · split_ifs
    · exact dropped
    · exact K.decideFrame q r ended
    · exact dropped
    · exact ended

theorem endFrame {s : State} (q : Port) (r : Reception) (e : LineEnd) (h : P s) : P (endFrame q r e s) := by
  have off := K.port s q { s.port q with rx := none } (.same rfl le_rfl rfl rfl) h
  unfold Machine.endFrame
  dsimp only
  split_ifs with hc
  · exact K.endFragment q r off
  · exact K.endWhole q r e (Nat.le_of_not_lt hc) off

theorem linkGoesDown {s : State} (p : Port) (h : P s) : P (linkGoesDown p s) := by
  have down := K.port s p { s.port p with link := .down } (.same rfl le_rfl rfl rfl) h
  unfold Machine.linkGoesDown
  dsimp only
  refine K.settleEgress _ (K.cutEgress _ ?_)
  split
  · exact K.endFrame _ _ _ down
  · exact down

theorem resetPort {s : State} (p : Port) (h : P s) : P (resetPort p s) := by
  rw [resetPort_eq]
  exact K.port s p _ (.same rfl le_rfl rfl rfl) h

/-! ## The operations of an egress -/

theorem startTransit {s : State} (p : Port) (h : P s) : P (startTransit p s) := by
  unfold Machine.startTransit
  split
  · rename_i f rest hb
    refine K.port _ p _ (.same rfl le_rfl rfl rfl) (K.buffer p.other ?_ h)
    rw [hb]
    simp [HeldFrame.fill]
  · exact h

theorem startResponse {s : State} (p : Port) (h : P s) : P (startResponse p s) := by
  unfold Machine.startResponse
  split
  · rename_i r rest hr
    refine K.port _ p _ ⟨?_, Nat.le_max_left _ _, fun _ h => .inl h, fun _ h => .inl h⟩ h
    rw [hr, List.length_cons]
    exact (Nat.le_succ _).trans (Nat.le_max_left _ _)
  · exact h

theorem startReportTx {s : State} (p : Port) (h : P s) : P (startReportTx p s) := by
  unfold Machine.startReportTx
  split
  · rename_i q rest hq
    split
    · rename_i r hr
      dsimp only
      refine K.start _ q rest r ?_ ?_ ?_ (K.port s p _ (.same rfl le_rfl rfl rfl) h)
      · rw [State.setPort_rep, hq]
      · rw [State.setPort_rep]
        exact List.mem_of_find?_eq_some hr
      · simpa using List.find?_some hr
    · exact h
  · exact h

theorem sendTransitByte {s : State} (p : Port) (h : P s) : P (sendTransitByte p s) := by
  unfold Machine.sendTransitByte
  split
  · rename_i f rest hb
    split_ifs
    · refine K.settleEgress _ (K.emit p _ (K.buffer p.other ?_ h))
      rw [hb, bufferFill_cons, bufferFill_cons, HeldFrame.fill_mk, HeldFrame.fill]
      omega
    · exact h
  · exact h

theorem sendReportByte {s : State} (p : Port) (t : ReportTx) (h : P s) : P (sendReportByte p t s) :=
  K.port _ p _ (.same rfl le_rfl rfl rfl) (K.emit p _ h)

theorem sendReportBytes (p : Port) (n : Nat) {s : State} (h : P s) : P (sendReportBytes p n s) := by
  induction n generalizing s with
  | zero => exact h
  | succ n ih =>
    unfold Machine.sendReportBytes
    split
    · exact ih (K.sendReportByte p _ h)
    · exact h

theorem closeInserted {s : State} (p : Port) (h : P s) : P (closeInserted p s) :=
  K.port _ p _ (.same rfl le_rfl rfl rfl) (K.emit p _ h)

/-! ## The operations of the Report Engine -/

theorem pump {s : State} (h : P s) : P (pump s) := pump_induction (fun u hu hd => K.build u hd hu) h

theorem appendRecord {s : State} (r : FlowRecord) (hr : s.rq.hasRoom = true) (h : P s) : P (appendRecord r s) := by
  obtain ⟨x, b, e, hfits⟩ := holdAfterMaterial_fits (hasMaterial s) ((s.setRq (s.rq.append r)).setRep
    { s.rep with conservation := { s.rep.conservation with appended := s.rep.conservation.appended + 1 } })
  unfold Machine.appendRecord
  dsimp only
  simp only [State.setRq_rep, e]
  exact K.pump (K.append s r x b (by simpa [RecordQueue.hasRoom] using hr) hfits h)

theorem loseSession {s : State} (h : P s) : P (loseSession s) := K.lost s _ (loseSession_spec s) h

theorem enableSession {s : State} (h : P s) : P (enableSession s) := by
  unfold Machine.enableSession
  split_ifs with hs
  · exact K.opens s hs h
  · exact h

theorem disableSession {s : State} (h : P s) : P (disableSession s) := by
  by_cases hs : s.rep.session = .idle
  · rwa [Machine.disableSession, if_pos hs]
  · exact K.ended s _ (disableSession_spec hs).1 (disableSession_spec hs).2 h

theorem releaseOldest {s : State} (n : Nat) (hn : n ≠ 0) (h : P s) : P (releaseOldest n s) := by
  rw [releaseOldest_eq]
  refine K.pump ?_
  by_cases hg : s.rep.outstanding = []
  · have := K.opened s { s.rep.delivery with acks := s.rep.delivery.acks + 1 } hg h
    simpa [releasedOldest, hg, timerAfterRelease] using this
  · exact K.release s _ n (releasedOldest_spec (by cases ho : s.rep.outstanding with
      | nil => exact absurd ho hg
      | cons r l => cases n with
        | zero => exact absurd rfl hn
        | succ n => simp)) h

theorem takeAck {s : State} (a : Ack) (h : P s) : P (takeAck a s) := by
  unfold Machine.takeAck
  split
  · exact K.delivery s _ h
  · exact K.delivery s _ h
  · exact K.delivery s _ h
  · rename_i n hn
    refine K.releaseOldest n ?_ h
    rintro rfl
    unfold classifyAck at hn
    split at hn
    · cases hn
    · split_ifs at hn
      cases hn
    · dsimp only at hn
      split_ifs at hn
      cases hn

/-! ## The operations of the Flow Table and the walks -/

theorem closeFlow {s : State} (i : Nat) (e : FlowEntry) (reason : Reason) (he : s.flow.entry i = some e)
    (hr : s.rq.hasRoom = true) (h : P s) : P (closeFlow i e reason s) :=
  K.appendRecord _ hr (K.flowFree s i e he h)

theorem flowCounters {s : State} (c : FlowCounters) (hc : c.activeEntries = s.flow.counters.activeEntries) (h : P s) :
    P (s.setFlow { s.flow with counters := c }) := K.flowMeta s c s.flow.view s.flow.closeEntry hc h

theorem updateBucket {s : State} (n : Notice) (d : Decision) (t : BitVec 3) (f : DirField) (key : List Byte) (h : P s) :
    P (updateBucket n d t f key s).1 := by
  unfold Machine.updateBucket
  dsimp only
  split
  · rename_i i _
    split
    · rename_i e he
      exact K.flowReplace s i e _ he rfl rfl rfl h
    · exact h
  · rename_i hlook
    split
    · rename_i i hi
      obtain ⟨hfree, hplace⟩ := FlowTable.freeWay_some hi
      exact K.flowInsert s i _ hfree hplace (fun j g hj hg => FlowTable.lookup_none hlook (hj.trans hplace) hg) h
    · split
      · exact K.flowCounters _ rfl h
      · split_ifs with hroom
        · split
          · rename_i e he
            have hplace := s.flow.victim_mem s.now (flowBucket s.flow.seed t f key)
            set i := s.flow.victim s.now (flowBucket s.flow.seed t f key) with hi
            have hflow : (Machine.closeFlow i e .evicted s).flow = (freeEntry i s).flow := Machine.appendRecord_flow _ _
            have hentry : ∀ j, (Machine.closeFlow i e .evicted s).flow.entry j = if j = i then none else s.flow.entry j := by
              intro j
              rw [hflow]
              exact SMap.find_erase ..
            have closed := K.closeFlow i e .evicted he hroom h
            refine K.flowInsert _ i _ ?_ ?_ (fun j g hj hg => ?_) (K.flowCounters _ rfl closed)
            · exact (hentry i).trans (if_pos rfl)
            · show i / 4 = flowBucket (Machine.closeFlow i e .evicted s).flow.seed t f key
              rw [hflow]
              exact hplace
            · have hg' := (hentry j).symm.trans hg
              split_ifs at hg'
              exact FlowTable.lookup_none hlook (hj.trans hplace) hg'
          · exact h
        · exact K.flowCounters _ rfl h

theorem frameEndUpdate {s : State} (n : Notice) (h : P s) : P (frameEndUpdate n s).1 := by
  have short : P (countKeyShort s) := K.flowCounters _ rfl h
  unfold Machine.frameEndUpdate
  split
  · split
    · split
      · dsimp only
        split
        · exact K.updateBucket _ _ _ _ _ h
        · exact short
      · exact short
    · exact h
  · exact h

theorem countAge {s : State} (f : AgeCounters → AgeCounters) (h : P s) : P (s.countAge f) :=
  K.sweep s s.sweep.position s.sweep.passStart s.sweep.passLength _ h

theorem visitWay {s : State} (i : Nat) (h : P s) : P (visitWay s i) := by
  unfold Machine.visitWay
  split
  · exact h
  · rename_i e he
    split_ifs with _ hroom _ hroom
    · exact K.countAge _ (K.closeFlow i e .idle he hroom h)
    · exact K.countAge _ h
    · exact K.countAge _ (K.appendRecord _ hroom (K.flowReplace s i e _ he rfl rfl rfl h))
    · exact K.countAge _ h
    · exact h

theorem flushWays (ws : List Nat) {s : State} (h : P s) : P (flushWays ws s) := by
  induction ws generalizing s with
  | nil => exact K.walker s _ h
  | cons w ws ih =>
    unfold Machine.flushWays
    dsimp only
    split
    · exact ih h
    · rename_i e he
      split_ifs with _ hroom
      · exact ih (K.walker _ _ (K.countAge _ (K.closeFlow _ e .flushed he hroom h)))
      · exact K.walker s _ h
      · exact ih h

theorem clearWay {s : State} (i : Nat) (h : P s) : P (clearWay s i) := by
  unfold Machine.clearWay
  split
  · exact h
  · rename_i e he
    exact K.walker _ _ (K.countAge _ (K.flowFree s i e he h))

/-! ## The operations of the rings -/

theorem completeCapture {s : State} (n : Notice) (entry : Option Nat) (hn : N n) (h : P s) :
    P (completeCapture n entry s) := by
  unfold Machine.completeCapture
  split
  · exact h
  · rename_i id hid
    dsimp only
    obtain ⟨f, hc, -⟩ := fillingRing_capture hid
    rw [hc]
    split_ifs
    · exact K.abandon s id f hc h
    · dsimp only
      obtain ⟨x, b, e, hfits⟩ := holdAfterMaterial_fits (hasMaterial s)
        (s.setRing id ((s.ring id).complete f n.length n.ending entry))
      rw [e]
      exact K.pump (K.complete s id f n entry x b hn hc hfits h)

theorem writeRingConfig {s : State} (id : RingId) (k : RingField) (v : Word) (h : P s) : P (writeRingConfig id k v s).1 := by
  unfold Machine.writeRingConfig
  dsimp only
  by_cases ha : (s.ring id).active = true
  · rwa [if_pos ha]
  · rw [if_neg ha]
    have hinactive : (s.ring id).active = false := by simpa using ha
    cases k with
    | baseCell =>
      dsimp only
      split_ifs
      · exact K.ringWord s id v.toNat (s.ring id).size hinactive (.inl rfl) h
      · exact h
    | size =>
      dsimp only
      split_ifs with hl
      · refine K.ringWord s id (s.ring id).baseCell v.toNat hinactive (.inr (Nat.pos_of_ne_zero fun hz => ?_)) h
        rw [hz] at hl
        exact absurd hl (by decide)
      · exact h

theorem writeActivate {s : State} (id : RingId) (h : P s) : P (writeActivate id s).1 := by
  unfold Machine.writeActivate
  dsimp only
  split_ifs with ha hfit _
  · exact h
  · exact h
  · exact h
  · exact K.activate s id (by simpa using ha) (Nat.le_of_not_lt hfit) h

theorem writeDeactivate {s : State} (id : RingId) (h : P s) : P (writeDeactivate id s).1 := by
  unfold Machine.writeDeactivate
  dsimp only
  split_ifs with _ hnamed hbusy
  · exact h
  · exact h
  · obtain ⟨x, b, e, hfits⟩ := holdAfterMaterial_fits (hasMaterial s) (s.setRing id (s.ring id).deactivated)
    rw [Bool.or_eq_true, not_or, Bool.not_eq_true, Bool.not_eq_true] at hnamed
    rw [not_or, not_not, not_not] at hbusy
    rw [e]
    exact K.deactivate s id x b hnamed.1 hnamed.2 hbusy.1 hbusy.2 hfits h
  · exact h

/-! ## The words of the local map -/

theorem writeSetting {s : State} (k : Setting) (v : Word) (h : P s) : P (writeSetting k v s).1 := by
  unfold Machine.writeSetting
  split
  · exact h
  · rename_i hstate
    split_ifs with hlegal
    · by_cases hk : k = .sessionEnable
      · subst hk
        show P (if v = 1 then Machine.enableSession s else Machine.disableSession s)
        split_ifs
        · exact K.enableSession h
        · exact K.disableSession h
      · exact K.setting s k v hk hstate hlegal h
    · exact h

theorem writeRuleCommit {s : State} (v : Word) (h : P s) : P (writeRuleCommit v s).1 := by
  have noted : P (s.setCls { s.cls with ruleCommit := v }) :=
    K.tallies s s.cls.hits s.cls.countdowns s.cls.ruleStaging s.cls.templateStaging v s.cls.templateCommit h
  unfold Machine.writeRuleCommit commitRule
  dsimp only
  split_ifs with h1 h2 h3 h4 h5
  all_goals try exact noted
  simp only [Bool.not_eq_true', Bool.not_eq_false] at h2 h3 h4 h5
  exact K.rule _ v.toNat (Nat.le_of_not_lt h1) h2 h3 h4 h5 noted

theorem writeTemplateCommit {s : State} (v : Word) (h : P s) : P (writeTemplateCommit v s).1 := by
  have noted : P (s.setCls { s.cls with templateCommit := v }) :=
    K.tallies s s.cls.hits s.cls.countdowns s.cls.ruleStaging s.cls.templateStaging s.cls.ruleCommit v h
  unfold Machine.writeTemplateCommit commitTemplate
  dsimp only
  split_ifs with h1 h2 h3
  all_goals try exact noted
  rw [Bool.or_eq_true, not_or, Bool.not_eq_true, Bool.not_eq_true] at h3
  exact K.template _ v.toNat _ h3.1 h3.2 noted

theorem writeEntrySelect {s : State} (v : Word) (h : P s) : P (writeEntrySelect v s).1 := by
  unfold Machine.writeEntrySelect
  split_ifs
  · exact K.flowMeta s s.flow.counters _ s.flow.closeEntry rfl h
  · exact h

theorem closeSelected {s : State} (v : Word) (h : P s) : P (closeSelected v s).1 := by
  unfold Machine.closeSelected
  split
  · split
    · exact h
    · rename_i e he
      split_ifs with hroom
      · exact K.closeFlow _ e .closed he hroom h
      · exact h
  · exact h

theorem writeCloseEntry {s : State} (v : Word) (h : P s) : P (writeCloseEntry v s).1 :=
  K.closeSelected v (K.flowMeta s s.flow.counters s.flow.view v rfl h)

theorem startFlush {s : State} (c : BitVec 2) (a : BitVec 8) (h : P s) : P (startFlush c a s).1 := by
  unfold Machine.startFlush
  split
  · exact h
  · split_ifs
    · exact h
    · exact K.walker s _ h
    · exact K.walker s _ h
    · exact h

theorem startClear {s : State} (h : P s) : P (startClear s).1 := by
  unfold Machine.startClear
  split_ifs
  · exact h
  · exact K.walker s _ h

theorem restartSession {s : State} (h : P s) : P (restartSession s).1 := by
  unfold Machine.restartSession
  split_ifs
  · exact h
  · exact K.loseSession h

theorem reportNow {s : State} (h : P s) : P (reportNow s).1 := by
  unfold Machine.reportNow
  dsimp only
  split_ifs with hm
  · exact K.pump (K.request s s.rep.hold (.inl hm) h)
  · exact h

theorem writeControl {s : State} (v : Word) (h : P s) : P (writeControl v s).1 := by
  unfold Machine.writeControl
  split
  · exact K.softReset s h
  · exact K.swap s h
  · exact K.startFlush _ _ h
  · exact K.startClear h
  · exact K.restartSession h
  · exact K.reportNow h
  · exact K.clear s h
  · exact h

theorem writeRingWord {s : State} (r : RingId) (i : Nat) (v : Word) (h : P s) : P (writeRingWord r i v s).1 := by
  unfold Machine.writeRingWord
  split
  · exact K.writeRingConfig r _ v h
  · exact K.writeRingConfig r _ v h
  · exact K.writeActivate r h
  · exact K.writeDeactivate r h
  · exact h

theorem writeTarget {s : State} (t : Target) (v : Word) (h : P s) : P (writeTarget t v s).1 := by
  cases t with
  | setting k => exact K.writeSetting k v h
  | control => exact K.writeControl v h
  | responseEnvelope i => exact K.envelopes s _ s.reach.reportEnvelope h
  | reportEnvelope i => exact K.envelopes s s.reach.responseEnvelope _ h
  | ruleStaging i =>
    exact K.tallies s s.cls.hits s.cls.countdowns _ s.cls.templateStaging s.cls.ruleCommit s.cls.templateCommit h
  | ruleCommit => exact K.writeRuleCommit v h
  | templateStaging i =>
    exact K.tallies s s.cls.hits s.cls.countdowns s.cls.ruleStaging _ s.cls.ruleCommit s.cls.templateCommit h
  | templateCommit => exact K.writeTemplateCommit v h
  | entrySelect => exact K.writeEntrySelect v h
  | closeEntry => exact K.writeCloseEntry v h
  | ring r i => exact K.writeRingWord r i v h
  | unmapped => exact h
  | status _ => exact h
  | activeRule _ _ => exact h
  | shadowRule _ _ => exact h
  | template _ _ => exact h
  | hitCounter _ => exact h
  | entryView _ => exact h
  | counter _ => exact h

/-! ## The Agent -/

theorem updateWalk {s : State} (f : Walk → Walk) (h : P s) : P (s.updateWalk f) :=
  K.agent s _ (.same rfl (by simp)) h

theorem present {s : State} (t : Target) (ok : Word → Bool) {owner : State → State × WordResult}
    (ho : P (owner s).1) : P (present t ok owner s) := by
  have done := K.result _ (owner s).2 ho
  unfold Machine.present noteTaken
  dsimp only
  split_ifs
  · exact K.updateWalk _ done
  · exact done

theorem countAgent {s : State} (f : AgentCounters → AgentCounters) (h : P s) : P (s.countAgent f) :=
  K.agent s _ (.same rfl Iff.rfl) h

theorem takeCopy {s : State} (p : Port) (c : CommandCopy) (h : P s) : P (takeCopy p c s) := by
  unfold Machine.takeCopy
  split_ifs with _ hroom
  · exact K.countAgent _ h
  · exact K.countAgent _ h
  · refine K.countAgent _ (K.agent s _ ⟨?_, fun _ _ => by simp⟩ h)
    simp only [List.length_append, List.length_singleton]
    omega

theorem leaveQueue {s : State} (h : P s) : P (leaveQueue s) := by
  refine K.agent s _ ⟨?_, fun _ hw => absurd rfl hw⟩ h
  simp only [List.length_tail]
  omega

theorem queueResponse {s : State} (p : Port) (r : Response) (h : P s) : P (queueResponse p r s) := by
  unfold Machine.queueResponse
  split_ifs with hroom
  · refine K.agent _ _ (.same rfl Iff.rfl) (K.port s p _ ⟨?_, Nat.le_max_left _ _, fun _ h => .inl h, fun _ h => .inl h⟩ h)
    simp only [List.length_append, List.length_singleton]
    omega
  · exact K.agent _ _ (.same rfl Iff.rfl) h

theorem refuseCommand {s : State} (c : Command) (h : P s) : P (refuseCommand c s) := by
  have counted := K.countAgent (fun k => { k with malformed := k.malformed + 1 }) h
  unfold Machine.refuseCommand
  dsimp only
  split_ifs
  · exact K.leaveQueue (K.queueResponse _ _ counted)
  · exact K.leaveQueue counted

theorem endCommand {s : State} (w : Walk) (h : P s) : P (endCommand w s) := by
  unfold Machine.endCommand
  split_ifs
  · exact K.leaveQueue (K.queueResponse _ _ h)
  · exact K.leaveQueue h

theorem writeWords (vs : List Word) {s : State} (h : P s) : P (writeWords vs s) := by
  induction vs generalizing s with
  | nil => exact h
  | cons v vs ih =>
    refine ih ?_
    unfold writeOne
    split
    · exact h
    · split
      · exact K.updateWalk _ (K.result _ _ (K.writeTarget _ v h))
      · exact K.updateWalk _ h

theorem readWords (n : Nat) {s : State} (h : P s) : P (readWords n s) := by
  induction n generalizing s with
  | zero => exact h
  | succ n ih =>
    refine ih ?_
    unfold readOne
    split
    · exact h
    · split <;> exact K.updateWalk _ h

/-! ## The commands -/

theorem foldl_visitWay (l : List Nat) {s : State} (h : P s) : P (l.foldl Machine.visitWay s) := by
  induction l generalizing s with
  | nil => exact h
  | cons i l ih => exact ih (K.visitWay i h)

theorem foldl_clearWay (l : List Nat) {s : State} (h : P s) : P (l.foldl Machine.clearWay s) := by
  induction l generalizing s with
  | nil => exact h
  | cons i l ih => exact ih (K.clearWay i h)

theorem advanceSweep {s : State} (h : P s) : P (s.setSweep s.sweep.advance) := by
  unfold Sweeper.advance
  split_ifs
  · exact K.sweep s _ s.sweep.passStart s.sweep.passLength s.sweep.counters h
  · exact K.sweep s _ _ _ _ h

/-- A notice taken from the ingress to the Flow Table and handed on. -/
theorem noticeUpdate {s : State} (p : Port) (n : Notice) (rest : List Notice) (hn : (s.port p).flowNotices = n :: rest)
    (h : P s) :
    let r := Machine.frameEndUpdate n (s.setPort p { s.port p with flowNotices := rest })
    P (r.1.setPort p { r.1.port p with captureNotices := (r.1.port p).captureNotices ++ [(n, r.2)] }) := by
  have whole : N n := K.flowNotice s p h n (by simp [hn])
  have popped := K.port s p { s.port p with flowNotices := rest } ⟨Nat.le_max_left _ _, Nat.le_max_left _ _,
    fun m hm => .inl (by rw [hn]; exact List.mem_cons_of_mem _ hm), fun _ hm => .inl hm⟩ h
  refine K.port _ p _ ⟨Nat.le_max_left _ _, Nat.le_max_left _ _, fun _ hm => .inl hm, fun m hm => ?_⟩ (K.frameEndUpdate n popped)
  rw [List.mem_append, List.mem_singleton] at hm
  exact hm.imp id fun e => by rw [e]; exact whole

/-- What each command is made of: the commands at the line and between the blocks, and those of the words. -/
theorem exec (c : Instr) {s : State} (h : P s) : ∃ t, exec c s = .next t ∧ P t := by
  cases c with
  | resetNFall =>
    show ∃ t, execResetNFall s = _ ∧ _
    unfold execResetNFall
    split_ifs
    · exact ⟨_, rfl, K.resetN _ _ (K.resetPort _ (K.resetPort _ h))⟩
    · exact ⟨_, rfl, h⟩
  | resetNRelease straps =>
    show ∃ t, execResetNRelease straps s = _ ∧ _
    unfold execResetNRelease
    split_ifs
    · exact ⟨_, rfl, h⟩
    · exact ⟨_, rfl, K.powerUp _ _ _ _ _ h⟩
  | uptimeTick => exact ⟨_, rfl, K.uptime _ _ h⟩
  | linkDown p =>
    show ∃ t, execLinkDown p s = _ ∧ _
    unfold execLinkDown
    split_ifs
    · exact ⟨_, rfl, h⟩
    · exact ⟨_, rfl, K.linkGoesDown _ h⟩
    · exact ⟨_, rfl, K.port s p _ (.same rfl le_rfl rfl rfl) h⟩
  | linkUp p => exact ⟨_, rfl, K.port s p _ (.same rfl le_rfl rfl rfl) h⟩
  | byteArrival p first b =>
    show ∃ t, execByteArrival p first b s = _ ∧ _
    unfold execByteArrival
    split
    · split
      · exact ⟨_, rfl, K.receiveByte _ _ _ h⟩
      · split_ifs
        · exact ⟨_, rfl, K.receiveByte _ _ _ (K.beginFrame p h)⟩
        · exact ⟨_, rfl, h⟩
    · exact ⟨_, rfl, h⟩
  | frameEnd p aborted =>
    show ∃ t, execFrameEnd p aborted s = _ ∧ _
    unfold execFrameEnd
    split
    · exact ⟨_, rfl, K.endFrame _ _ _ h⟩
    · exact ⟨_, rfl, h⟩
  | frameEndUpdate p =>
    show ∃ t, execFrameEndUpdate p s = _ ∧ _
    unfold execFrameEndUpdate
    split
    · exact ⟨_, rfl, h⟩
    · rename_i n rest hn
      exact ⟨_, rfl, K.noticeUpdate p n rest hn h⟩
  | captureCompletion p =>
    show ∃ t, execCaptureCompletion p s = _ ∧ _
    unfold execCaptureCompletion
    split
    · exact ⟨_, rfl, h⟩
    · rename_i n entry rest hn
      have popped := K.port s p { s.port p with captureNotices := rest } ⟨Nat.le_max_left _ _, Nat.le_max_left _ _,
        fun _ hm => .inl hm, fun m hm => .inl (by rw [hn]; exact List.mem_cons_of_mem _ hm)⟩ h
      exact ⟨_, rfl, K.completeCapture n entry (K.captureNotice s p h (n, entry) (by simp [hn])) popped⟩
  | egressChoose p =>
    show ∃ t, execEgressChoose p s = _ ∧ _
    unfold execEgressChoose
    split_ifs
    · split
      · exact ⟨_, rfl, h⟩
      · exact ⟨_, rfl, K.startTransit p h⟩
      · exact ⟨_, rfl, K.startResponse p h⟩
      · exact ⟨_, rfl, K.startReportTx p h⟩
    · exact ⟨_, rfl, h⟩
  | egressByteSent p =>
    show ∃ t, execEgressByteSent p s = _ ∧ _
    unfold execEgressByteSent
    split
    · exact ⟨_, rfl, h⟩
    · exact ⟨_, rfl, K.sendTransitByte p h⟩
    · split_ifs
      · exact ⟨_, rfl, K.port _ p _ (.same rfl le_rfl rfl rfl) (K.emit p _ h)⟩
      · exact ⟨_, rfl, h⟩
    · split_ifs
      · exact ⟨_, rfl, K.sendReportByte p _ h⟩
      · exact ⟨_, rfl, h⟩
  | insertedFrameDone p =>
    show ∃ t, execInsertedFrameDone p s = _ ∧ _
    unfold execInsertedFrameDone
    split
    · exact ⟨_, rfl, h⟩
    · exact ⟨_, rfl, h⟩
    · exact ⟨_, rfl, K.closeInserted p (K.port s p _ (.same rfl le_rfl rfl rfl) h)⟩
    · rename_i t _
      have counted := fun d => K.delivery _ d (K.closeInserted p (K.sendReportBytes p (t.total - t.pos) h))
      refine ⟨_, rfl, ?_⟩
      dsimp only
      split_ifs
      · exact counted _
      · exact K.finish _ (counted _)
  | sweeperVisit =>
    show ∃ t, execSweeperVisit s = _ ∧ _
    unfold execSweeperVisit
    split_ifs
    · exact ⟨_, rfl, K.advanceSweep (K.foldl_visitWay _ h)⟩
    · exact ⟨_, rfl, h⟩
  | flushBucketStep =>
    show ∃ t, execFlushBucketStep s = _ ∧ _
    unfold execFlushBucketStep
    split_ifs
    · exact ⟨_, rfl, K.flushWays _ h⟩
    · exact ⟨_, rfl, h⟩
  | flushResume =>
    show ∃ t, execFlushResume s = _ ∧ _
    unfold execFlushResume
    split_ifs
    · exact ⟨_, rfl, K.flushWays _ (K.walker s _ h)⟩
    · exact ⟨_, rfl, h⟩
  | clearBucketStep =>
    show ∃ t, execClearBucketStep s = _ ∧ _
    unfold execClearBucketStep
    split_ifs
    · exact ⟨_, rfl, K.walker _ _ (K.foldl_clearWay _ h)⟩
    · exact ⟨_, rfl, h⟩
  | holdTimerExpiry =>
    show ∃ t, execHoldTimerExpiry s = _ ∧ _
    unfold execHoldTimerExpiry
    split
    · rename_i d hd
      split_ifs
      · exact ⟨_, rfl, K.pump (K.request s none (.inr (by simp [hd])) h)⟩
      · exact ⟨_, rfl, h⟩
    · exact ⟨_, rfl, h⟩
  | retransmitExpiryStarting =>
    show ∃ t, execRetransmitExpiryStarting s = _ ∧ _
    unfold execRetransmitExpiryStarting
    split_ifs
    · exact ⟨_, rfl, K.requeue s _ h⟩
    · exact ⟨_, rfl, h⟩
  | retransmitExpiryOpen =>
    show ∃ t, execRetransmitExpiryOpen s = _ ∧ _
    unfold execRetransmitExpiryOpen
    split_ifs
    · exact ⟨_, rfl, K.loseSession h⟩
    · exact ⟨_, rfl, K.requeue s _ h⟩
    · exact ⟨_, rfl, h⟩
  | ackTaken p =>
    show ∃ t, execAckTaken p s = _ ∧ _
    unfold execAckTaken
    split
    · exact ⟨_, rfl, h⟩
    · exact ⟨_, rfl, K.takeAck _ (K.port s p _ (.same rfl le_rfl rfl rfl) h)⟩
  | takeCommandCopy p =>
    show ∃ t, execTakeCommandCopy p s = _ ∧ _
    unfold execTakeCommandCopy
    split
    · exact ⟨_, rfl, h⟩
    · exact ⟨_, rfl, K.takeCopy p _ (K.port s p _ (.same rfl le_rfl rfl rfl) h)⟩
  | beginCommand =>
    show ∃ t, execBeginCommand s = _ ∧ _
    unfold execBeginCommand
    split
    · rename_i c rest _ hq
      split
      · exact ⟨_, rfl, K.agent s _ ⟨Nat.le_max_left _ _, fun _ _ => by simp [hq]⟩ h⟩
      · exact ⟨_, rfl, K.refuseCommand c h⟩
    · exact ⟨_, rfl, h⟩
  | setCursor addr =>
    show ∃ t, execSetCursor addr s = _ ∧ _
    unfold execSetCursor
    split
    · split_ifs
      · exact ⟨_, rfl, K.updateWalk _ h⟩
      · exact ⟨_, rfl, h⟩
    · exact ⟨_, rfl, h⟩
  | moveCursor delta =>
    show ∃ t, execMoveCursor delta s = _ ∧ _
    unfold execMoveCursor
    split
    · split_ifs
      · exact ⟨_, rfl, K.updateWalk _ h⟩
      · exact ⟨_, rfl, h⟩
    · exact ⟨_, rfl, h⟩
  | write words =>
    show ∃ t, execWrite words s = _ ∧ _
    unfold execWrite
    split
    · split_ifs
      · exact ⟨_, rfl, K.updateWalk _ (K.writeWords _ h)⟩
      · exact ⟨_, rfl, h⟩
    · exact ⟨_, rfl, h⟩
  | read count =>
    show ∃ t, execRead count s = _ ∧ _
    unfold execRead
    split
    · split_ifs
      · exact ⟨_, rfl, K.updateWalk _ h⟩
      · exact ⟨_, rfl, K.updateWalk _ (K.readWords _ h)⟩
      · exact ⟨_, rfl, h⟩
    · exact ⟨_, rfl, h⟩
  | commandEnd =>
    show ∃ t, execCommandEnd s = _ ∧ _
    unfold execCommandEnd
    split
    · split_ifs
      · exact ⟨_, rfl, K.endCommand _ h⟩
      · exact ⟨_, rfl, h⟩
    · exact ⟨_, rfl, h⟩
  | settingWrite offset value => exact ⟨_, rfl, K.present _ _ (K.writeTarget _ value h)⟩
  | hashSeedWrite value => exact ⟨_, rfl, K.present _ _ (K.writeSetting _ value h)⟩
  | ringConfigWrite r field value => exact ⟨_, rfl, K.present _ _ (K.writeRingConfig r field value h)⟩
  | ruleCommit value => exact ⟨_, rfl, K.present _ _ (K.writeRuleCommit value h)⟩
  | templateCommit value => exact ⟨_, rfl, K.present _ _ (K.writeTemplateCommit value h)⟩
  | entrySelect value => exact ⟨_, rfl, K.present _ _ (K.writeEntrySelect value h)⟩
  | closeEntry value => exact ⟨_, rfl, K.present _ _ (K.writeCloseEntry value h)⟩
  | activate r => exact ⟨_, rfl, K.present _ _ (K.writeActivate r h)⟩
  | deactivate r => exact ⟨_, rfl, K.present _ _ (K.writeDeactivate r h)⟩
  | sessionEnableOn => exact ⟨_, rfl, K.present _ _ (K.writeSetting _ 1 h)⟩
  | sessionEnableOff => exact ⟨_, rfl, K.present _ _ (K.writeSetting _ 0 h)⟩
  | softReset => exact ⟨_, rfl, K.present _ _ (K.softReset s h)⟩
  | swapBanks => exact ⟨_, rfl, K.present _ _ (K.swap s h)⟩
  | flush selector argument => exact ⟨_, rfl, K.present _ _ (K.startFlush selector argument h)⟩
  | clearTable => exact ⟨_, rfl, K.present _ _ (K.startClear h)⟩
  | sessionRestart => exact ⟨_, rfl, K.present _ _ (K.restartSession h)⟩
  | reportNow => exact ⟨_, rfl, K.present _ _ (K.reportNow h)⟩
  | clearCounters => exact ⟨_, rfl, K.present _ _ (K.clear s h)⟩

/-- What every operation keeps and the queue of waiting commands does not bear on, every step keeps. -/
theorem keptByStep (pending : ∀ s x, P s → P (s.setPending x)) : KeptByStep P := by
  intro s t hs e
  unfold step at e
  split at e
  · cases e
    exact hs
  · rename_i c rest _
    obtain ⟨u, hu, hp⟩ := K.exec c (pending s rest hs)
    rw [hu] at e
    cases e
    exact hp

end
end KeptByOps
end Sys2Proof.Machine
end

section
/-!
PROOFS. The laws of the Record Queue, the two timers, the settings, the queues and the Capture Store, each kept by every
operation that bears on it.
-/

namespace Sys2Proof.Machine

-- One proof after another: elaborated side by side, the proofs of this file take more threads than the check's limits hold.
set_option Elab.async false

/-! ## Every command completes -/

theorem softReset_pending (s : State) : (softReset s).pending = s.pending := by
  obtain ⟨rs, -, e, -⟩ := softReset_eq 0 s
  rw [e]

/-- No operation touches the queue of waiting commands. -/
theorem pending_keptByOps (x : List Instr) : KeptByOps (fun _ => True) (fun s => s.pending = x) where
  powerUp _ _ _ _ _ h := h
  softReset s h := (softReset_pending s).trans h

/-- Settles O2. -/
theorem everyCommandCompletes : Obligations.EveryCommandCompletes := fun c s =>
  (pending_keptByOps s.pending).exec c rfl

/-! ## The Record Queue -/

theorem word_sub_add {m n : Nat} (h : m ≤ n) : word (n - m) + word m = word n := by
  unfold word
  rw [← BitVec.ofNat_add, Nat.sub_add_cancel h]

/-- Records removed from the head are counted as exported or discarded. -/
theorem recordsConserved_removed {count m : Nat} {appended gone other : Word} (h : m ≤ count)
    (hc : appended = word count + gone + other) : appended = word (count - m) + (gone + word m) + other := by
  rw [hc, ← word_sub_add h]
  ac_rfl

/-- The law of O3. -/
def RecordsKept (s : State) : Prop := RecordQueueHeld s ∧ RecordsConserved s

/-- Records removed from the head, counted as exported or discarded (R105, R134). -/
theorem RecordsKept.remove {s t : State} {m e d : Nat} (h : RecordsKept s) (hm : m ≤ s.rq.inReport) (hmed : m = e + d)
    (hrq : t.rq = { s.rq with head := (s.rq.head + m) % 256, count := s.rq.count - m, inReport := s.rq.inReport - m })
    (hcons : t.rep.conservation = { s.rep.conservation with
      exported := s.rep.conservation.exported + word e, discarded := s.rep.conservation.discarded + word d }) :
    RecordsKept t := by
  obtain ⟨⟨hcount, hin, hhead⟩, hsum⟩ := h
  refine ⟨?_, ?_⟩
  · unfold RecordQueueHeld
    rw [hrq]
    exact ⟨by simp only; omega, by simp only; omega, Nat.mod_lt _ (by decide)⟩
  · unfold RecordsConserved at hsum ⊢
    have hword : word s.rq.count = word (s.rq.count - m) + (word e + word d) := by
      rw [← word_sub_add (hm.trans hin), hmed, show word (e + d) = word e + word d from BitVec.ofNat_add _ _]
    rw [hcons, hrq]
    simp only
    rw [hsum, hword]
    ac_rfl

/-- A discard of every IN_REPORT record. -/
theorem RecordsKept.discard {s t : State} (h : RecordsKept s) (hw : WorkDiscarded s t)
    (hcons : t.rep.conservation = { s.rep.conservation with
      discarded := s.rep.conservation.discarded + word s.rq.inReport }) : RecordsKept t := by
  refine h.remove (e := 0) le_rfl (Nat.zero_add _).symm ?_ ?_
  · rw [hw.1, Nat.sub_self]
  · rw [hcons, show s.rep.conservation.exported + word 0 = s.rep.conservation.exported from BitVec.add_zero _]

theorem recordsKept_keptByOps : KeptByOps (fun _ => True) RecordsKept where
  powerUp _ _ _ _ _ _ := recordsConserved_of_reset rfl rfl
  softReset _ _ := recordsConserved_of_reset rfl rfl
  append s r x b hroom _ h := by
    obtain ⟨⟨hcount, hin, hhead⟩, hsum⟩ := h
    refine ⟨⟨hroom, hin.trans (Nat.le_succ _), hhead⟩, ?_⟩
    unfold RecordsConserved at hsum ⊢
    show s.rep.conservation.appended + 1 = word (s.rq.count + 1) + s.rep.conservation.exported + s.rep.conservation.discarded
    rw [hsum, show word (s.rq.count + 1) = word s.rq.count + 1 from BitVec.ofNat_add _ _]
    ac_rfl
  build s _ h := by
    obtain ⟨⟨hcount, hin, hhead⟩, hsum⟩ := h
    have held := buildReport_held hin
    obtain ⟨r, x, b, -, -, -, -, -, e⟩ := buildReport_eq s
    rw [e] at held ⊢
    exact ⟨⟨hcount, held, hhead⟩, hsum⟩
  release s t n hr h := by
    obtain ⟨hrq, -, -, -, hrep, -⟩ := hr
    refine h.remove (d := 0) (Nat.min_le_right _ _) (Nat.add_zero _).symm hrq ?_
    rw [hrep, show s.rep.conservation.discarded + word 0 = s.rep.conservation.discarded from BitVec.add_zero _]
  ended s t hw hrep h := h.discard hw (by rw [hrep])
  lost s t hl h := by
    obtain ⟨hw, r, -, hrep⟩ := hl
    exact h.discard hw (by rw [hrep])

/-- Settles O3. -/
theorem recordsAreConserved : Obligations.RecordsAreConserved := recordsKept_keptByOps.keptByStep fun _ _ h => h

/-! ## The two timers -/

/-- The oldest report is the head of the Outstanding List. -/
theorem TimerWatchesSent.of_head {s : State}
    (h : s.rep.retransmit ≠ none → ∃ y, s.rep.outstanding.head? = some y ∧ y.state = .sent) : TimerWatchesSent s := by
  intro hrun
  obtain ⟨y, hy, hsent⟩ := h hrun
  obtain ⟨rest, hrest⟩ := List.head?_eq_some_iff.1 hy
  exact ⟨y, rest, hrest, hsent⟩

theorem timerWatchesSent_keptByOps : KeptByOps (fun _ => True) TimerWatchesSent where
  powerUp _ _ _ _ _ _ := (timers_of_reset rfl).1
  softReset _ _ := (timers_of_reset rfl).1
  build s _ h := by
    obtain ⟨r, x, b, -, -, -, -, -, e⟩ := buildReport_eq s
    rw [e]
    intro hrun
    obtain ⟨y, rest, hout, hsent⟩ := h hrun
    exact ⟨y, rest ++ [r], by simp [hout], hsent⟩
  requeue _ _ _ := fun hrun => absurd rfl hrun
  cut s h := .of_head fun hrun => by
    have hrun' : s.rep.retransmit ≠ none := fun e => hrun (by simp [cutTransmission, e])
    obtain ⟨y, rest, hout, hsent⟩ := h hrun'
    exact ⟨y, by simp [cutTransmission, hout, hsent], hsent⟩
  finish s h := .of_head fun hrun => by
    cases hos : oldestSending s.rep with
    | true =>
      cases hout : s.rep.outstanding with
      | nil => simp [oldestSending, hout] at hos
      | cons y rest =>
        have hy : y.state = .sending := by simpa [oldestSending, hout] using hos
        exact ⟨{ y with state := .sent }, by simp [finishTransmission, hout, hy], rfl⟩
    | false =>
      obtain ⟨y, rest, hout, hsent⟩ := h fun e => hrun (by simp [finishTransmission, hos, e])
      exact ⟨y, by simp [finishTransmission, hout, hsent], hsent⟩
  start s q qs r hq hr hseq h := .of_head fun hrun => by
    have hrun' : s.rep.retransmit ≠ none := fun e => hrun (by simp [e])
    obtain ⟨y, rest, hout, hsent⟩ := h hrun'
    by_cases hy : y.sequence = q
    · exact absurd (by simp [oldestSending, hout, hy]) hrun
    · exact ⟨y, by simp [hout, hy], hsent⟩
  release s t n hr _ := by
    obtain ⟨-, -, -, -, hrep, -⟩ := hr
    intro hrun
    rw [hrep] at hrun ⊢
    dsimp only at hrun ⊢
    cases hout : s.rep.outstanding.drop n with
    | nil => simp [hout] at hrun
    | cons x l =>
      refine ⟨x, l, rfl, ?_⟩
      by_contra hx
      simp [hout, hx] at hrun
  opened _ _ _ _ := fun hrun => absurd rfl hrun
  opens _ _ _ := fun hrun => absurd rfl hrun
  ended _ _ _ hrep _ := fun hrun => absurd (by rw [hrep]) hrun
  lost _ _ hl _ := by
    obtain ⟨-, r, -, hrep⟩ := hl
    exact fun hrun => absurd (by rw [hrep]) hrun

/-- A timer or request that fits the material. -/
theorem HoldFits.means {s : State} {x : Option Word} {b : Bool} {e : ReportEngine} (hf : HoldFits s x b)
    (he : e.hold = x) (hb : e.buildPending = b) : HoldMeansMaterial (s.setRep e) := by
  intro h
  rw [hasMaterial_setRep]
  rcases hf with hm | ⟨rfl, rfl⟩
  · exact hm
  · rcases h with h | h
    · exact absurd he h
    · rw [State.setRep_rep, hb] at h
      cases h

/-- What takes no material and starts no timer keeps the law. -/
theorem HoldMeansMaterial.mono {s t : State} (h : HoldMeansMaterial s) (hh : t.rep.hold = s.rep.hold)
    (hb : t.rep.buildPending = true → s.rep.buildPending = true) (hu : t.rq.unsent = s.rq.unsent)
    (hr : ∀ r, (s.ring r).active = true → (s.ring r).filled ≠ 0 → (t.ring r).active = true ∧ (t.ring r).filled ≠ 0) :
    HoldMeansMaterial t := by
  intro ht
  have hs := h (ht.imp (fun x => hh ▸ x) hb)
  rw [hasMaterial_iff] at hs ⊢
  rcases hs with hs | ⟨r, ha, hf⟩
  · exact .inl (hu ▸ hs)
  · exact .inr ⟨r, hr r ha hf⟩

/-- One ring changed, whose material stays. -/
theorem HoldMeansMaterial.setRing {s : State} (h : HoldMeansMaterial s) (id : RingId) (g : Ring)
    (hg : (s.ring id).active = true → (s.ring id).filled ≠ 0 → g.active = true ∧ g.filled ≠ 0) :
    HoldMeansMaterial (s.setRing id g) := by
  refine h.mono rfl (fun x => x) rfl fun r ha hf => ?_
  rw [State.setRing_ring]
  split_ifs with hr
  · exact hg (hr ▸ ha) (hr ▸ hf)
  · exact ⟨ha, hf⟩

theorem Ring.attempt_zones (g : Ring) (q : CaptureRequest) :
    (g.attempt q).1.active = g.active ∧ (g.attempt q).1.filled = g.filled := by
  unfold Ring.attempt
  dsimp only
  split_ifs
  · exact ⟨rfl, rfl⟩
  · exact ⟨rfl, rfl⟩
  · have keep : ∀ (l : List Nat) (r : Ring),
        (l.foldl (fun r i => r.setDesc i Descriptor.later) r).active = r.active
          ∧ (l.foldl (fun r i => r.setDesc i Descriptor.later) r).filled = r.filled := by
      intro l
      induction l with
      | nil => exact fun r => ⟨rfl, rfl⟩
      | cons i l ih => exact fun r => ih _
    exact keep _ g

theorem CaptureEngine.copyByte_zones (c : CaptureEngine) (id : RingId) (d : Direction) (n : Nat) (b : Byte) (r : RingId) :
    ((c.copyByte id d n b).rings.get r).active = (c.rings.get r).active
      ∧ ((c.copyByte id d n b).rings.get r).filled = (c.rings.get r).filled := by
  unfold CaptureEngine.copyByte
  dsimp only
  split
  · exact ⟨rfl, rfl⟩
  · split_ifs
    · rw [Rings.get_set]
      split_ifs with h
      · exact ⟨by rw [h]; rfl, by rw [h]; rfl⟩
      · exact ⟨rfl, rfl⟩
    · exact ⟨rfl, rfl⟩

/-- Clear Counters zeroes two counters of each ring. -/
theorem clearCounters_ring (s : State) (r : RingId) : (clearCounters s).ring r = { s.ring r with
    counters := { (s.ring r).counters with ringBusy := 0, ringFull := 0 } } :=
  Rings.get_update s.cap.rings (fun _ g => { g with counters := { g.counters with ringBusy := 0, ringFull := 0 } }) r

theorem holdMeansMaterial_keptByOps : KeptByOps (fun _ => True) HoldMeansMaterial where
  powerUp _ _ _ _ _ _ := (timers_of_reset rfl).2
  softReset _ _ := (timers_of_reset rfl).2
  clear s h := h.mono rfl (fun x => x) rfl fun r ha hf => by
    rw [clearCounters_ring]
    exact ⟨ha, hf⟩
  attempt s q i _ _ h := h.setRing _ _ fun ha hf => by
    rw [(Ring.attempt_zones _ q).1, (Ring.attempt_zones _ q).2]
    exact ⟨ha, hf⟩
  copy s id d n b h := h.mono rfl (fun x => x) rfl fun r ha hf => by
    obtain ⟨h1, h2⟩ := CaptureEngine.copyByte_zones s.cap id d n b r
    exact ⟨h1.trans ha, fun e => hf (h2.symm.trans e)⟩
  abandon s id f _ h := h.setRing _ _ fun ha hf => by
    rw [(Ring.abandon_spec _).2]
    exact ⟨ha, hf⟩
  complete s id f n e x b _ _ hf _ := hf.means rfl rfl
  ringWord s id n m hi _ h := h.setRing _ _ fun ha => absurd ha (by simp [hi])
  activate s id hi _ h := h.setRing _ _ fun ha => absurd ha (by simp [hi])
  deactivate s id x b _ _ _ _ hf _ := hf.means rfl rfl
  append s r x b _ hf _ := hf.means rfl rfl
  build s _ _ := by
    rw [buildReport_eq_taken, holdAfterBuild_eq]
    generalize ((s.setRq _).setCap _).setRep _ = u
    intro h
    rw [hasMaterial_setRep]
    by_contra hm
    simp [hm] at h
  request s x hm h := fun _ => by
    rcases hm with hm | hm
    · exact hm
    · exact h (.inl hm)
  release s t n hr h := by
    obtain ⟨hrq, hrings, -, -, hrep, -⟩ := hr
    refine h.mono (by rw [hrep]) (by rw [hrep]; exact fun x => x) ?_ fun r ha hf => ?_
    · rw [hrq]
      simp only [RecordQueue.unsent]
      omega
    · rw [(hrings r).2]
      exact ⟨ha, hf⟩
  ended s t hw hrep h := by
    obtain ⟨hrq, hrings, -, -⟩ := hw
    refine h.mono (by rw [hrep]) (by rw [hrep]; exact fun x => Bool.noConfusion x) ?_ fun r ha hf => ?_
    · rw [hrq]
      rfl
    · rw [(hrings r).2]
      exact ⟨ha, hf⟩
  lost s t hl h := by
    obtain ⟨⟨hrq, hrings, -, -⟩, r, -, hrep⟩ := hl
    refine h.mono (by rw [hrep]) (by rw [hrep]; exact fun x => x) ?_ fun r ha hf => ?_
    · rw [hrq]
      rfl
    · rw [(hrings r).2]
      exact ⟨ha, hf⟩

/-- Settles O7. -/
theorem timersKeepTheirMeaning : Obligations.TimersKeepTheirMeaning :=
  ⟨timerWatchesSent_keptByOps.keptByStep fun _ _ h => h, holdMeansMaterial_keptByOps.keptByStep fun _ _ h => h⟩

/-! ## The settings -/

@[simp] theorem word_toNat (v : Word) : word v.toNat = v := BitVec.eq_of_toNat_eq (by rw [BitVec.toNat_ofNat, Nat.mod_eq_of_lt v.isLt])

/-- A word read back from a narrower field that it fits. -/
theorem place_setWidth {w : Nat} {v : Word} (h : v.toNat < 2 ^ w) : place (v.setWidth w).toNat 0 = v := by
  unfold place
  rw [BitVec.toNat_setWidth, Nat.mod_eq_of_lt h, word_toNat, BitVec.shiftLeft_zero]

/-- A word with two values read back from a choice between them. -/
theorem ite_one_zero {v : Word} (h : v.toNat ≤ 1) : (if v = 1 then (1 : Word) else 0) = v := by
  split_ifs with h1
  · exact h1.symm
  · apply BitVec.eq_of_toNat_eq
    have : v.toNat ≠ 1 := fun e => h1 (BitVec.eq_of_toNat_eq e)
    have hz : v.toNat = 0 := by omega
    rw [hz]
    rfl

/-- A legal value stored is read back. -/
theorem readSetting_storeSetting (s : State) {k : Setting} {v : Word} (hk : k ≠ .sessionEnable)
    (hl : k.legal v.toNat = true) : readSetting (storeSetting k v s) k = v := by
  have two : ∀ f : Bool → Word, f true = 1 → f false = 0 → v.toNat ≤ 1 → f (v = 1) = v := by
    intro f h1 h0 hv
    refine Eq.trans ?_ (ite_one_zero hv)
    by_cases h : v = 1
    · rw [if_pos h, decide_eq_true h, h1]
    · rw [if_neg h, decide_eq_false h, h0]
  cases k with
  | sessionEnable => exact absurd rfl hk
  | mode =>
    have := two (fun b => if (if b then Mode.run else .bypass) = .run then 1 else 0) rfl rfl (by simpa [Setting.legal] using hl)
    simpa [readSetting, storeSetting] using this
  | evictPolicy =>
    have := two (fun b => if (if b then EvictPolicy.noEvict else .evictOldest) = .noEvict then 1 else 0) rfl rfl
      (by simpa [Setting.legal] using hl)
    simpa [readSetting, storeSetting] using this
  | timeOffset => rfl
  | hashSeed => exact place_setWidth (w := 16) (Nat.lt_succ_of_le (by simpa [Setting.legal] using hl))
  | marker => exact place_setWidth (w := 16) (Nat.lt_succ_of_le (by simpa [Setting.legal] using hl))
  | portMask => exact place_setWidth (w := 2) (Nat.lt_succ_of_le (by simpa [Setting.legal] using hl))
  | reportPort =>
    have := two (fun b => word (Port.number (if b then .B else .A))) rfl rfl (by simpa [Setting.legal] using hl)
    simpa [readSetting, storeSetting] using this
  | idleTimeout => exact word_toNat v
  | activeTimeout => exact word_toNat v
  | sweepPeriod => exact word_toNat v
  | highMark => exact word_toNat v
  | envelopeLength => exact word_toNat v
  | windowSize => exact word_toNat v
  | sizeLimit => exact word_toNat v
  | holdTime => exact word_toNat v
  | retransmitBase => exact word_toNat v
  | retryLimit => exact word_toNat v

/-- A setting stored changes no other. -/
theorem readSetting_storeSetting_of_ne (s : State) {j k : Setting} (v : Word) (hk : k ≠ .sessionEnable) (hj : j ≠ k) :
    readSetting (storeSetting k v s) j = readSetting s j := by
  cases k with
  | sessionEnable => exact absurd rfl hk
  | _ => cases j <;> first | rfl | exact absurd rfl hj

/-- Session Enable reads 0 or 1, so its value is legal in every state. -/
theorem SettingsLegal.of_read {s t : State} (h : SettingsLegal s)
    (e : ∀ k, k ≠ .sessionEnable → readSetting t k = readSetting s k) : SettingsLegal t := by
  intro k
  by_cases hk : k = .sessionEnable
  · subst hk
    unfold readSetting
    split_ifs <;> rfl
  · rw [e k hk]
    exact h k

theorem settingsLegal_keptByOps : KeptByOps (fun _ => True) SettingsLegal where
  powerUp u a b n _ _ := settingsLegal_powerUp u a b n
  softReset s h := fun k => by
    have fresh := settingsLegal_powerUp 0 .down .down 0 k
    have kept := h k
    obtain ⟨rs, -, e, -⟩ := softReset_eq 0 s
    rw [e]
    cases k with
    | timeOffset => exact kept
    | highMark => exact kept
    | marker => exact kept
    | envelopeLength => exact kept
    | portMask => exact kept
    | _ => exact fresh
  setting s k v hk _ hl h := fun j => by
    by_cases hj : j = k
    · rw [hj, readSetting_storeSetting s hk hl]
      exact hl
    · rw [readSetting_storeSetting_of_ne s v hk hj]
      exact h j
  rule s i _ _ _ _ _ h := h.of_read fun k _ => by
    have hmode : (s.cls.setShadow (s.cls.shadow.setRule i (committedRule s.cls.ruleStaging i))).mode = s.cls.mode := by
      unfold Classifier.setShadow
      split_ifs <;> rfl
    cases k with
    | mode => exact congrArg (fun m => if m = Mode.run then (1 : Word) else 0) hmode
    | _ => rfl
  build s _ h := by
    obtain ⟨r, x, b, -, -, -, -, -, e⟩ := buildReport_eq s
    rw [e]
    exact h
  opens s _ h := h.of_read fun k hk => by
    cases k with
    | sessionEnable => exact absurd rfl hk
    | _ => rfl
  release s t n hr h := h.of_read fun k _ => by
    obtain ⟨-, -, -, -, hrep, e⟩ := hr
    rw [hrep] at e
    rw [e]
    cases k <;> rfl
  ended s t hw hrep h := h.of_read fun k hk => by
    obtain ⟨-, -, -, e⟩ := hw
    rw [hrep] at e
    rw [e]
    cases k with
    | sessionEnable => exact absurd rfl hk
    | _ => rfl
  lost s t hl h := h.of_read fun k _ => by
    obtain ⟨⟨-, -, -, e⟩, r, -, hrep⟩ := hl
    rw [hrep] at e
    rw [e]
    cases k <;> rfl

/-- Settles O9. -/
theorem settingsStayLegal : Obligations.SettingsStayLegal := settingsLegal_keptByOps.keptByStep fun _ _ h => h

/-! ## The queues and the Capture Store -/

theorem storeCanonical_keptByOps : KeptByOps (fun _ => True) StoreCanonical where
  powerUp _ _ _ n _ _ := CaptureEngine.reset_wf n
  softReset s _ := CaptureEngine.reset_wf (s.cap.epoch + 1)
  copy s id d n b h := CaptureEngine.copyByte_wf id d n b h

/-- The queues of a state whose ports and Agent keep theirs. -/
theorem QueuesHeld.of_ports {s t : State} (h : QueuesHeld s) (ha : t.agent.queue = s.agent.queue)
    (hw : t.agent.walk = s.agent.walk)
    (hp : ∀ p, (t.port p).responses = (s.port p).responses ∧ (t.port p).buffer = (s.port p).buffer) : QueuesHeld t := by
  obtain ⟨hqueue, hresp, hfill, hwalk⟩ := h
  refine ⟨ha ▸ hqueue, fun p => ?_, fun p => ?_, ha ▸ hw ▸ hwalk⟩
  · rw [(hp p).1]
    exact hresp p
  · rw [(hp p).2]
    exact hfill p

theorem queuesHeld_keptByOps : KeptByOps (fun _ => True) QueuesHeld where
  powerUp u a b n _ _ := queuesHeld_powerUp u a b n
  softReset s h := by
    obtain ⟨rs, hrs, e, -⟩ := softReset_eq 0 s
    obtain ⟨-, -, hfill, -⟩ := h
    rw [e]
    refine ⟨Nat.zero_le _, fun p => ?_, fun p => ?_, fun hw => absurd rfl hw⟩
    · cases p <;> exact (hrs _).trans (by decide)
    · cases p
      · exact hfill .A
      · exact hfill .B
  port s p x hx h := by
    obtain ⟨hqueue, hresp, hfill, hwalk⟩ := h
    refine ⟨by rwa [State.setPort_agent], fun q => ?_, fun q => ?_, by rwa [State.setPort_agent]⟩
    · rw [State.setPort_port]
      split_ifs
      · exact hx.responses.trans (max_le (hresp p) le_rfl)
      · exact hresp q
    · rw [State.setPort_port]
      split_ifs
      · exact hx.buffer.trans (max_le (hfill p) le_rfl)
      · exact hfill q
  agent s x hx h := by
    obtain ⟨hqueue, hresp, hfill, hwalk⟩ := h
    exact ⟨hx.queue.trans (max_le hqueue le_rfl), fun q => by simpa using hresp q, fun q => by simpa using hfill q, hx.walk hwalk⟩
  clear s h := h.of_ports rfl rfl fun p => by cases p <;> exact ⟨rfl, rfl⟩
  release s t n hr h := by
    obtain ⟨-, -, hmark, hkeep, -, e⟩ := hr
    refine h.of_ports (by rw [e]) (by rw [e]) fun p => ?_
    by_cases hs : ∃ r ∈ s.rep.outstanding.take n, r.state = .sending
    · rw [hmark hs p]
      exact ⟨rfl, rfl⟩
    · rw [hkeep (fun r hr hx => hs ⟨r, hr, hx⟩) p]
      exact ⟨rfl, rfl⟩
  ended s t hw _ h := by
    obtain ⟨-, -, hp, e⟩ := hw
    exact h.of_ports (by rw [e]) (by rw [e]) fun p => by rw [hp p]; exact ⟨rfl, rfl⟩
  lost s t hl h := by
    obtain ⟨⟨-, -, hp, e⟩, -⟩ := hl
    exact h.of_ports (by rw [e]) (by rw [e]) fun p => by rw [hp p]; exact ⟨rfl, rfl⟩

/-- Settles O10. -/
theorem queuesAndStoreStayHeld : Obligations.QueuesAndStoreStayHeld :=
  ⟨queuesHeld_keptByOps.keptByStep fun _ _ h => h, storeCanonical_keptByOps.keptByStep fun _ _ h => h⟩

end Sys2Proof.Machine
end

section
/-!
PROOFS. The laws of the capture rings and of the rule banks, each kept by every operation that bears on it.
-/

namespace Sys2Proof.Machine

-- One proof after another: elaborated side by side, the proofs of this file take more threads than the check's limits hold.
set_option Elab.async false

/-! ## The banks and the templates -/

theorem Bank.rule_setRule (b : Bank) (i j : Nat) (m : Rule) : (b.setRule i m).rule j = if j = i then m else b.rule j := by
  unfold Bank.setRule Bank.rule
  by_cases hi : i = 64
  · subst hi
    by_cases hj : j = 64 <;> simp [hj]
  · by_cases hj : j = 64
    · have : ¬ 64 = i := fun e => hi e.symm
      simp [hi, hj, this]
    · simp [hi, hj]

/-- A bank of the Classifier after the shadow bank is replaced. -/
theorem Classifier.bank_setShadow {c : Classifier} {x b : Bank}
    (h : b = (c.setShadow x).bank0 ∨ b = (c.setShadow x).bank1) : b = x ∨ b = c.bank0 ∨ b = c.bank1 := by
  unfold Classifier.setShadow at h
  split_ifs at h
  · exact h.imp id .inr
  · exact h.elim (fun e => .inr (.inl e)) .inl

theorem Classifier.shadow_bank (c : Classifier) : c.shadow = c.bank0 ∨ c.shadow = c.bank1 := by
  unfold Classifier.shadow
  split_ifs
  · exact .inl rfl
  · exact .inr rfl

theorem Classifier.active_bank (c : Classifier) : c.active = c.bank0 ∨ c.active = c.bank1 := by
  unfold Classifier.active
  split_ifs
  · exact .inr rfl
  · exact .inl rfl

/-- A valid rule 0–63 is listed. -/
theorem Bank.mem_of_valid {b : Bank} {j : Nat} (hj : j ≠ 64) (h : (b.rule j).valid = true) : (j, b.rule j) ∈ b.rules := by
  unfold Bank.rule SMap.get at *
  rw [if_neg hj] at *
  cases hf : SMap.find b.rules j with
  | none =>
    rw [hf] at h
    cases h
  | some m => exact SMap.mem_of_find hf

theorem committedRule_slice (m : SMap Word) (i : Nat) : (committedRule m i).slice = stagedSlice m := by
  unfold committedRule
  split_ifs <;> rfl

theorem committedRule_ring (m : SMap Word) (i : Nat) : (committedRule m i).ring.toNat = stagedRing m := by
  unfold committedRule
  split_ifs <;> rfl

/-- What check 3 of Table 16 leaves of a Capture Slice. -/
theorem commitCheck3_iff (m : SMap Word) : commitCheck3 m = true ↔ stagedSlice m = 0 ∨
    (16 ≤ stagedSlice m ∧ stagedSlice m ≤ 256 ∧ stagedSlice m % 16 = 0 ∧ stagedRing m ≤ 3
      ∧ 1 ≤ (stagingWord m 3).toNat ∧ (stagingWord m 3).toNat ≤ 65535) := by
  simp [commitCheck3, and_assoc]

/-! ## The rings (R89, R99) -/

theorem RingsArranged.held {s : State} (h : RingsArranged s) (r : RingId) : RingHeld (s.ring r) := h.1 r

/-- The rings of a state all held, when another state keeps its Capture Slices and notices. -/
theorem RingsArranged.of_rings {s t : State} (h : RingsArranged s) (hr : ∀ r, RingHeld (t.ring r)) (hc : t.cls = s.cls)
    (hp : ∀ p, (t.port p).flowNotices = (s.port p).flowNotices ∧ (t.port p).captureNotices = (s.port p).captureNotices) :
    RingsArranged t := by
  obtain ⟨-, hs, hn⟩ := h
  refine ⟨hr, fun i => by rw [hc]; exact hs i, fun p => ?_⟩
  rw [(hp p).1, (hp p).2]
  exact hn p

/-- One ring changed. -/
theorem RingsArranged.setRing {s : State} (h : RingsArranged s) (id : RingId) {g : Ring} (hg : RingHeld g) :
    RingsArranged (s.setRing id g) := by
  refine h.of_rings (fun r => ?_) rfl fun p => by simp
  rw [State.setRing_ring]
  split_ifs
  · exact hg
  · exact h.1 r

/-- Captures freed at the front of a ring and counted out. -/
theorem RingHeld.discarded {g t : Ring} (h : RingHeld g) (hz : ZoneBecomes g t g.release g.inReport .free)
    (he : t = { g with
      release := g.send, inReport := 0, free := g.free + g.inReport, descriptors := t.descriptors,
      counters := { g.counters with discarded := g.counters.discarded + word (g.capturesIn g.release g.inReport) } }) :
    RingHeld t := by
  refine h.free_front (Nat.le_refl g.inReport) hz ?_ (fun ha => ?_) (by rw [he]) ?_
  · conv_lhs => rw [he]
    rw [Nat.sub_self]
    conv_rhs => rw [he]
  · rw [he]
    exact (Ring.Zoned.of_arranged h.1 ha).send
  · rw [he]
    exact (add_assoc ..).symm

/-- Captures freed at the front of a ring and counted as exported. -/
theorem RingHeld.released {g t : Ring} {k : Nat} (h : RingHeld g) (hk : k ≤ g.inReport)
    (hz : ZoneBecomes g t g.release k .free)
    (he : t = { g with
      release := (g.release + k) % g.size, inReport := g.inReport - k, free := g.free + k, descriptors := t.descriptors,
      counters := { g.counters with exported := g.counters.exported + word (g.capturesIn g.release k) } }) :
    RingHeld t := by
  refine h.free_front hk hz ?_ (fun _ => by rw [he]) (by rw [he]) ?_
  · conv_lhs => rw [he]
    conv_rhs => rw [he]
  · rw [he]
    exact add_right_comm ..

theorem softReset_cap (s : State) : (softReset s).cap = .reset (s.cap.epoch + 1) := by
  obtain ⟨rs, -, e, -⟩ := softReset_eq 0 s
  rw [e]
  rfl

theorem ringsArranged_keptByOps : KeptByOps (fun n => 16 ≤ n.length) RingsArranged where
  long _ h := h
  flowNotice s p h := (h.2.2 p).1
  captureNotice s p h := (h.2.2 p).2
  powerUp u a b n s _ := ⟨fun r => ringsHeld_of_reset (epoch := n) rfl r, slicesLegal_of_reset rfl, noticesAreWhole_powerUp u a b n⟩
  softReset s h := by
    refine ⟨fun r => ringsHeld_of_reset (softReset_cap s) r, slicesLegal_of_reset rfl, fun p => ?_⟩
    obtain ⟨rs, -, e, -⟩ := softReset_eq 0 s
    rw [e]
    cases p
    · exact h.2.2 .A
    · exact h.2.2 .B
  port s p x hx h := by
    obtain ⟨hr, hs, hn⟩ := h
    refine ⟨fun r => by rw [State.setPort_ring]; exact hr r, fun i => by rw [State.setPort_cls]; exact hs i, fun q => ?_⟩
    rw [State.setPort_port]
    split_ifs with hq
    · subst hq
      exact ⟨fun n hm => (hx.flowNotices n hm).elim ((hn q).1 n) id, fun n hm => (hx.captureNotices n hm).elim ((hn q).2 n) id⟩
    · exact hn q
  clear s h := by
    refine h.of_rings (t := { clearCounters s with cls := s.cls }) (fun r => ?_) rfl fun p => by cases p <;> exact ⟨rfl, rfl⟩
    show RingHeld ((clearCounters s).ring r)
    rw [clearCounters_ring]
    exact (h.held r).same_marks (fun _ => ⟨rfl, rfl, rfl⟩) rfl (h.1 r).1.owned id ⟨rfl, rfl, rfl⟩
  rule s i _ _ h3 _ _ h := by
    obtain ⟨hr, hs, hn⟩ := h
    have hcommit : (committedRule s.cls.ruleStaging i).slice ≤ 256 := by
      rw [committedRule_slice]
      rcases (commitCheck3_iff _).1 h3 with h0 | h0 <;> omega
    have hbank : ∀ b, (b = s.cls.bank0 ∨ b = s.cls.bank1) → ∀ j, (b.rule j).slice ≤ 256 := by
      rintro b (rfl | rfl) j
      · exact (hs j).1
      · exact (hs j).2
    have hnew : ∀ b, b = s.cls.shadow.setRule i (committedRule s.cls.ruleStaging i) ∨ b = s.cls.bank0 ∨ b = s.cls.bank1 →
        ∀ j, (b.rule j).slice ≤ 256 := by
      rintro b (rfl | hb) j
      · rw [Bank.rule_setRule]
        split_ifs
        · exact hcommit
        · exact hbank _ s.cls.shadow_bank j
      · exact hbank b hb j
    exact ⟨hr, fun j => ⟨hnew _ (Classifier.bank_setShadow (.inl rfl)) j, hnew _ (Classifier.bank_setShadow (.inr rfl)) j⟩, hn⟩
  swap s h := by
    obtain ⟨hr, hs, hn⟩ := h
    have hshadow : ∀ j, (s.cls.shadow.rule j).slice ≤ 256 := fun j => by
      rcases s.cls.shadow_bank with e | e
      · rw [e]
        exact (hs j).1
      · rw [e]
        exact (hs j).2
    exact ⟨hr, fun j => ⟨hshadow j, hshadow j⟩, hn⟩
  attempt s q i hslice hne h := by
    have hle : q.slice ≤ 256 := by
      rw [hslice]
      rcases s.cls.active_bank with e | e
      · rw [e]
        exact (h.2.1 i).1
      · rw [e]
        exact (h.2.1 i).2
    exact h.setRing q.ring ((h.held _).attempt (Nat.one_le_iff_ne_zero.2 hne) hle)
  copy s id d n b h := by
    refine h.of_rings (fun r => ?_) rfl fun p => by simp
    show RingHeld ((s.cap.copyByte id d n b).rings.get r)
    unfold CaptureEngine.copyByte
    dsimp only
    split
    · exact h.held r
    · rename_i f hf
      split_ifs
      · rw [Rings.get_set]
        split_ifs with hr
        · exact (h.held id).copied hf _
        · exact h.held r
      · exact h.held r
  abandon s id f hc h := h.setRing id ((h.held id).abandon hc)
  complete s id f n e x b hn hc _ h := h.setRing id ((h.held id).complete hc (le_trans (by decide) hn) n.ending e)
  ringWord s id n m ha hm h := h.setRing id ((h.held id).configured ha (hm.elim (fun e => e ▸ (h.held id).1.owned.2.2) fun x => x))
  activate s id ha hb h := h.setRing id ((h.held id).activated ha hb)
  deactivate s id x b _ _ _ hin _ h := h.setRing id ((h.held id).deactivated hin)
  build s _ h := by
    obtain ⟨r, x, b, -, -, -, -, -, e⟩ := buildReport_eq s
    rw [e]
    refine h.of_rings (fun g => ?_) rfl fun p => by simp
    have taken := Rings.get_update s.cap.rings (fun id g => g.take (ringDescriptors (nextItems s) id)) g
    exact Eq.mpr (congrArg RingHeld taken) ((h.held g).take _)
  release s t n hr h := by
    obtain ⟨-, hrings, hmark, hkeep, -, e⟩ := hr
    refine h.of_rings (fun r => (h.held r).released (Nat.min_le_right _ _) (hrings r).1 (hrings r).2) (by rw [e]) fun p => ?_
    by_cases hs : ∃ r ∈ s.rep.outstanding.take n, r.state = .sending
    · rw [hmark hs p]
      exact ⟨rfl, rfl⟩
    · rw [hkeep (fun r hr hx => hs ⟨r, hr, hx⟩) p]
      exact ⟨rfl, rfl⟩
  ended s t hw _ h := by
    obtain ⟨-, hrings, hp, e⟩ := hw
    refine h.of_rings (fun r => (h.held r).discarded (hrings r).1 (hrings r).2) (by rw [e]) fun p => by rw [hp p]; exact ⟨rfl, rfl⟩
  lost s t hl h := by
    obtain ⟨⟨-, hrings, hp, e⟩, -⟩ := hl
    refine h.of_rings (fun r => (h.held r).discarded (hrings r).1 (hrings r).2) (by rw [e]) fun p => by rw [hp p]; exact ⟨rfl, rfl⟩

/-- Settles O4. -/
theorem ringsStayArranged : Obligations.RingsStayArranged := ringsArranged_keptByOps.keptByStep fun _ _ h => h

/-! ## The rule banks (R27) -/

/-- What a rule at index `i` may name: a defined template, by a rule 0–63, and an active ring. -/
def NamesLive (s : State) (i : Nat) (m : Rule) : Prop :=
  m.valid = true →
    (m.action = .measure → i ≠ 64 ∧ (s.cls.template m.template.toNat).defined = true)
      ∧ (m.slice ≠ 0 → m.ring.toNat < 4 ∧ (s.ring (Fin.ofNat 4 m.ring.toNat)).active = true)

/-- The banks may change to banks of live rules, while templates and rings stay. -/
theorem RulesNameLiveTargets.of_banks {s t : State} (ht : t.cls.templates = s.cls.templates)
    (hr : ∀ r, (s.ring r).active = true → (t.ring r).active = true)
    (hb : ∀ b, (b = t.cls.bank0 ∨ b = t.cls.bank1) → ∀ i, NamesLive s i (b.rule i)) : RulesNameLiveTargets t := by
  intro b hbank i hvalid
  obtain ⟨hmeasure, hslice⟩ := hb b hbank i hvalid
  refine ⟨fun h => ?_, fun h => ⟨(hslice h).1, hr _ (hslice h).2⟩⟩
  unfold Classifier.template at hmeasure ⊢
  rw [ht]
  exact hmeasure h

/-- The Classifier may change in all but its banks and templates, and the rings in all but their being active. -/
theorem RulesNameLiveTargets.mono {s t : State} (h : RulesNameLiveTargets s) (hc : t.cls = s.cls)
    (hr : ∀ r, (s.ring r).active = true → (t.ring r).active = true) : RulesNameLiveTargets t :=
  .of_banks (by rw [hc]) hr fun b hb => h b (by rwa [hc] at hb)

theorem RulesNameLiveTargets.setRing {s : State} (h : RulesNameLiveTargets s) (id : RingId) {g : Ring}
    (hg : (s.ring id).active = true → g.active = true) : RulesNameLiveTargets (s.setRing id g) := by
  refine h.mono rfl fun r ha => ?_
  rw [State.setRing_ring]
  split_ifs with hr
  · exact hg (hr ▸ ha)
  · exact ha

/-- The staged record that passes checks 2 to 5 of Table 16 names live targets (R27). -/
theorem committedRule_live {s : State} {i : Nat} (h2 : commitCheck2 s.cls.ruleStaging i = true)
    (h3 : commitCheck3 s.cls.ruleStaging = true) (h4 : commitCheck4 s.cls i = true) (h5 : commitCheck5 s i = true) :
    NamesLive s i (committedRule s.cls.ruleStaging i) := by
  intro hvalid
  have hstaged : i ≠ 64 → stagedValid s.cls.ruleStaging = true := fun hi => by
    rw [committedRule, if_neg hi] at hvalid
    exact hvalid
  refine ⟨fun hm => ?_, fun hs => ?_⟩
  · by_cases hi : i = 64
    · subst hi
      have haction : (actionOf (stagedAction s.cls.ruleStaging)).getD .pass = .measure := hm
      have hcheck : stagedAction s.cls.ruleStaging = 0 ∨ stagedAction s.cls.ruleStaging = 2 := by simpa [commitCheck2] using h2
      rcases hcheck with e | e <;> rw [e] at haction <;> cases haction
    · rw [committedRule, if_neg hi] at hm ⊢
      have haction : (actionOf (stagedAction s.cls.ruleStaging)).getD .pass = .measure := hm
      have hone : stagedAction s.cls.ruleStaging = 1 := by
        unfold actionOf at haction
        split at haction <;> first | assumption | cases haction
      have hnumber : stagedTemplateNumber s.cls.ruleStaging ≤ 7 := by
        simp only [commitCheck2, hi, if_false, Bool.and_eq_true, decide_eq_true_eq] at h2
        exact h2.1.1.1.1.2
      refine ⟨hi, ?_⟩
      have hdefined : (s.cls.template (stagedTemplateNumber s.cls.ruleStaging)).defined = true := by
        simpa [commitCheck4, hi, hstaged hi, hone] using h4
      rwa [show (stagedRule s.cls.ruleStaging).template.toNat = stagedTemplateNumber s.cls.ruleStaging from
        (BitVec.toNat_ofNat ..).trans (Nat.mod_eq_of_lt (by omega))]
  · rw [committedRule_slice] at hs
    rw [committedRule_ring]
    rcases (commitCheck3_iff _).1 h3 with h0 | ⟨-, -, -, hring, -⟩
    · exact absurd h0 hs
    · refine ⟨by omega, ?_⟩
      have : i = 64 ∨ stagedValid s.cls.ruleStaging = true := (eq_or_ne i 64).imp id hstaged
      rcases this with e | e <;> simpa [commitCheck5, e, hs] using h5

/-- A bank that names no template with number `i` measures with another. -/
theorem Bank.namesTemplate_false {b : Bank} {i j : Nat} (h : b.namesTemplate i = false) (hj : j ≠ 64)
    (hv : (b.rule j).valid = true) (hm : (b.rule j).action = .measure) : (b.rule j).template.toNat ≠ i := by
  intro e
  have := List.any_eq_false.1 h _ (Bank.mem_of_valid hj hv)
  simp [Rule.namesTemplate, hv, hm, e] at this

/-- A bank that does not name ring `id` captures into others. -/
theorem Bank.namesRing_false {b : Bank} {id : RingId} {j : Nat} (h : b.namesRing id = false)
    (hv : (b.rule j).valid = true) (hs : (b.rule j).slice ≠ 0) : (b.rule j).ring.toNat ≠ id.val := by
  intro e
  obtain ⟨hlisted, hlast⟩ := Bool.or_eq_false_iff.1 h
  by_cases hj : j = 64
  · have : b.rule j = b.last := if_pos hj
    rw [this] at hv hs e
    simp [Rule.namesRing, hv, hs, e] at hlast
  · have := List.any_eq_false.1 hlisted _ (Bank.mem_of_valid hj hv)
    simp [Rule.namesRing, hv, hs, e] at this

theorem rulesNameLiveTargets_keptByOps : KeptByOps (fun _ => True) RulesNameLiveTargets where
  powerUp _ _ _ _ _ _ := rulesNameLiveTargets_of_reset rfl
  softReset _ _ := rulesNameLiveTargets_of_reset rfl
  clear s h := .of_banks (s := s) rfl (fun r ha => by rw [clearCounters_ring]; exact ha) h
  rule s i _ h2 h3 h4 h5 h := by
    have hcls := fun b => Classifier.bank_setShadow (c := s.cls)
      (x := s.cls.shadow.setRule i (committedRule s.cls.ruleStaging i)) (b := b)
    refine .of_banks (s := s) ?_ (fun r ha => ha) fun b hb j => ?_
    · unfold State.setCls Classifier.setShadow
      split_ifs <;> rfl
    · rcases hcls b hb with e | e
      · rw [e, Bank.rule_setRule]
        split_ifs with hj
        · rw [hj]
          exact committedRule_live h2 h3 h4 h5
        · exact h _ s.cls.shadow_bank j
      · exact h b e j
  template s i x h0 h1 h := by
    intro b hb j hv
    obtain ⟨hmeasure, hslice⟩ := h b hb j hv
    refine ⟨fun hm => ?_, hslice⟩
    obtain ⟨hj, hdefined⟩ := hmeasure hm
    have hother : (b.rule j).template.toNat ≠ i := by
      rcases hb with rfl | rfl
      · exact Bank.namesTemplate_false h0 hj hv hm
      · exact Bank.namesTemplate_false h1 hj hv hm
    refine ⟨hj, ?_⟩
    show (SMap.get .reset (SMap.set .reset s.cls.templates i x) _).defined = true
    rw [SMap.get_set, if_neg hother]
    exact hdefined
  swap s h := .of_banks (s := s) rfl (fun r ha => ha) fun b hb => h b (by
    have e : b = s.cls.shadow := hb.elim id id
    rw [e]
    exact s.cls.shadow_bank)
  attempt s q i _ _ h := h.setRing _ fun ha => (Ring.attempt_zones _ q).1.trans ha
  copy s id d n b h := h.mono rfl fun r ha => (CaptureEngine.copyByte_zones s.cap id d n b r).1.trans ha
  abandon s id f _ h := h.setRing _ fun ha => by
    rw [(Ring.abandon_spec _).2]
    exact ha
  complete s id f n e x b _ _ _ h := h.setRing (s := s) id fun ha => by
    rw [(Ring.complete_spec _ _ _ _ _).2]
    exact ha
  ringWord s id n m _ _ h := h.setRing _ fun ha => ha
  activate s id _ _ h := h.setRing _ fun _ => rfl
  deactivate s id x b h0 h1 _ _ _ h := by
    intro bank hb j hv
    obtain ⟨hmeasure, hslice⟩ := h bank hb j hv
    refine ⟨hmeasure, fun hs => ⟨(hslice hs).1, ?_⟩⟩
    have hname : (bank.rule j).ring.toNat ≠ id.val := by
      rcases hb with rfl | rfl
      · exact Bank.namesRing_false h0 hv hs
      · exact Bank.namesRing_false h1 hv hs
    have hne : (Fin.ofNat 4 (bank.rule j).ring.toNat : RingId) ≠ id := fun e => hname (by
      rw [← e, Fin.val_ofNat, Nat.mod_eq_of_lt (hslice hs).1])
    show ((s.setRing id _).ring _).active = true
    rw [State.setRing_ring, if_neg hne]
    exact (hslice hs).2
  build s _ h := by
    obtain ⟨r, x, b, -, -, -, -, -, e⟩ := buildReport_eq s
    rw [e]
    refine h.mono rfl fun g ha => ?_
    have taken := Rings.get_update s.cap.rings (fun id g => g.take (ringDescriptors (nextItems s) id)) g
    refine (congrArg Ring.active taken).trans ?_
    rw [(Ring.take_spec _ _).2]
    exact ha
  release s t n hr h := by
    obtain ⟨-, hrings, -, -, -, e⟩ := hr
    exact h.mono (by rw [e]) fun r ha => by rw [(hrings r).2]; exact ha
  ended s t hw _ h := by
    obtain ⟨-, hrings, -, e⟩ := hw
    exact h.mono (by rw [e]) fun r ha => by rw [(hrings r).2]; exact ha
  lost s t hl h := by
    obtain ⟨⟨-, hrings, -, e⟩, -⟩ := hl
    exact h.mono (by rw [e]) fun r ha => by rw [(hrings r).2]; exact ha

/-- Settles O8. -/
theorem rulesKeepLiveTargets : Obligations.RulesKeepLiveTargets :=
  rulesNameLiveTargets_keptByOps.keptByStep fun _ _ h => h

end Sys2Proof.Machine
end

section
/-!
PROOFS. The laws of the Flow Table and of the Outstanding List with the Report Egress Queue, each kept by every operation that
bears on it.
-/

namespace Sys2Proof.Machine

-- One proof after another: elaborated side by side, the proofs of this file take more threads than the check's limits hold.
set_option Elab.async false

/-! ## The Flow Table (R44, R47, R63) -/

theorem flowsInPlace_keptByOps : KeptByOps (fun _ => True) FlowsInPlace where
  powerUp _ _ _ _ _ _ := flowsInPlace_of_reset rfl
  softReset _ _ := flowsInPlace_of_reset rfl
  setting s k v hk hstate _ h := by
    cases k with
    | sessionEnable => exact absurd rfl hk
    | hashSeed =>
      have hempty : s.flow.entries = [] := by
        by_contra hne
        simp [Setting.stateCheck, hne] at hstate
      obtain ⟨-, -, -, hcount⟩ := h
      have hnone : ∀ i, (storeSetting .hashSeed v s).flow.entry i = none := fun i => by
        show SMap.find s.flow.entries i = none
        rw [hempty]
        rfl
      refine ⟨by simp [storeSetting, hempty], fun i e he => ?_, fun i j e f he => ?_, hcount⟩
      · rw [hnone] at he
        cases he
      · rw [hnone] at he
        cases he
    | _ => exact h
  flowMeta s c v w hc h := by
    obtain ⟨hsorted, hplace, hone, hcount⟩ := h
    exact ⟨hsorted, hplace, hone, hc.trans hcount⟩
  flowReplace s i e g he ht hd hk h := by
    obtain ⟨hsorted, hplace, hone, hcount⟩ := h
    -- the entry at an index holds the flow that the entry before it held there
    have hflow : ∀ {j x}, (setEntry i g s).flow.entry j = some x → ∃ y, s.flow.entry j = some y
        ∧ x.template = y.template ∧ x.dirField = y.dirField ∧ x.key = y.key := by
      intro j x hx
      have hx' : (if j = i then some g else s.flow.entry j) = some x := (SMap.find_insert ..).symm.trans hx
      split_ifs at hx' with hj
      · obtain rfl := Option.some.inj hx'
        exact ⟨e, hj ▸ he, ht, hd, hk⟩
      · exact ⟨x, hx', rfl, rfl, rfl⟩
    refine ⟨SMap.insert_sorted i g hsorted, fun j x hx => ?_, fun j k x y hx hy h1 h2 h3 => ?_, ?_⟩
    · obtain ⟨y, hy, e1, e2, e3⟩ := hflow hx
      rw [e1, e2, e3]
      exact hplace j y hy
    · obtain ⟨x', hx', a1, a2, a3⟩ := hflow hx
      obtain ⟨y', hy', b1, b2, b3⟩ := hflow hy
      exact hone j k x' y' hx' hy' (by rw [← a1, h1, b1]) (by rw [← a2, h2, b2]) (by rw [← a3, h3, b3])
    · show s.flow.counters.activeEntries = word (SMap.insert s.flow.entries i g).length
      rw [SMap.length_insert_old g hsorted he]
      exact hcount
  flowFree s i e he h := by
    obtain ⟨hsorted, hplace, hone, hcount⟩ := h
    have hflow : ∀ {j x}, (freeEntry i s).flow.entry j = some x → s.flow.entry j = some x := by
      intro j x hx
      have hx' : (if j = i then none else s.flow.entry j) = some x := (SMap.find_erase ..).symm.trans hx
      split_ifs at hx'
      exact hx'
    refine ⟨SMap.erase_sorted i hsorted, fun j x hx => hplace j x (hflow hx),
      fun j k x y hx hy => hone j k x y (hflow hx) (hflow hy), ?_⟩
    show s.flow.counters.activeEntries - 1 = word (SMap.erase s.flow.entries i).length
    rw [hcount, ← SMap.length_erase_old hsorted he, word_add]
    exact BitVec.add_sub_cancel _ _
  flowInsert s i e hfree hbucket hnew h := by
    obtain ⟨hsorted, hplace, hone, hcount⟩ := h
    have hflow : ∀ {j x}, (insertFlow i e s).flow.entry j = some x → j = i ∧ x = e ∨ s.flow.entry j = some x := by
      intro j x hx
      have hx' : (if j = i then some e else s.flow.entry j) = some x := (SMap.find_insert ..).symm.trans hx
      split_ifs at hx' with hj
      · exact .inl ⟨hj, (Option.some.inj hx').symm⟩
      · exact .inr hx'
    -- an entry that was there before holds another flow
    have hother : ∀ {j x}, s.flow.entry j = some x → ¬ (x.template = e.template ∧ x.dirField = e.dirField ∧ x.key = e.key) := by
      rintro j x hx ⟨h1, h2, h3⟩
      have hj : j / 4 = i / 4 := by rw [hplace j x hx, h1, h2, h3, hbucket]
      have := hnew j x hj hx
      simp [FlowEntry.matchesFlow, h1, h2, h3] at this
    refine ⟨SMap.insert_sorted i e hsorted, fun j x hx => ?_, fun j k x y hx hy h1 h2 h3 => ?_, ?_⟩
    · rcases hflow hx with ⟨rfl, rfl⟩ | hx
      · exact hbucket
      · exact hplace j x hx
    · rcases hflow hx with ⟨hj, hxe⟩ | hx' <;> rcases hflow hy with ⟨hk, hye⟩ | hy'
      · exact hj.trans hk.symm
      · subst hxe
        exact absurd ⟨h1.symm, h2.symm, h3.symm⟩ (hother hy')
      · subst hye
        exact absurd ⟨h1, h2, h3⟩ (hother hx')
      · exact hone j k x y hx' hy' h1 h2 h3
    · show s.flow.counters.activeEntries + 1 = word (SMap.insert s.flow.entries i e).length
      rw [hcount, SMap.length_insert_new e hfree, word_add]
      rfl

/-- Settles O5. -/
theorem flowsStayInPlace : Obligations.FlowsStayInPlace := flowsInPlace_keptByOps.keptByStep fun _ _ h => h

/-! ## The Outstanding List and the Report Egress Queue (R112, R113) -/

/-- The law of O6 at the Report Engine. -/
structure ReportEngine.InOrder (e : ReportEngine) : Prop where
  window : e.outstanding.length ≤ e.windowSize
  low : 1 ≤ e.windowSize
  high : e.windowSize ≤ 16
  idle : e.session = .idle → e.outstanding = []
  numbered : ∀ i r, e.outstanding[i]? = some r → r.sequence = e.nextSequence - BitVec.ofNat 16 (e.outstanding.length - i)
  ofSession : ∀ r ∈ e.outstanding, r.session = e.sessionNumber
  queued : ∀ r ∈ e.outstanding, (r.state = .queued ↔ r.sequence ∈ e.queue)
  nodup : e.queue.Nodup
  held : ∀ q ∈ e.queue, q ∈ e.outstanding.map Report.sequence

theorem reportsInOrder_iff (s : State) : ReportsInOrder s ↔ s.rep.InOrder := by
  unfold ReportsInOrder
  refine ⟨fun ⟨h1, h2, h3, h4, h5, h6, h7⟩ => ⟨h1, h2, h3, h4, fun i r hr => (h5 i r hr).2.1, fun r hr => ?_, fun r hr => ?_, h6,
    fun q hq => List.mem_map.2 (h7 q hq)⟩, fun h => ⟨h.window, h.low, h.high, h.idle, fun i r hr => ?_, h.nodup,
    fun q hq => List.mem_map.1 (h.held q hq)⟩⟩
  · obtain ⟨i, hi⟩ := List.mem_iff_getElem?.1 hr
    exact (h5 i r hi).1
  · obtain ⟨i, hi⟩ := List.mem_iff_getElem?.1 hr
    exact (h5 i r hi).2.2
  · have hmem := List.mem_of_getElem? hr
    exact ⟨h.ofSession r hmem, h.numbered i r hr, h.queued r hmem⟩

namespace ReportEngine.InOrder
variable {e : ReportEngine}

/-- Sequence numbers below the next sequence by less than the window are told apart. -/
theorem sequence_sub_inj {n : BitVec 16} {a b : Nat} (ha : a ≤ 16) (hb : b ≤ 16)
    (h : n - BitVec.ofNat 16 a = n - BitVec.ofNat 16 b) : a = b := by
  have h' := congrArg BitVec.toNat (show BitVec.ofNat 16 a = BitVec.ofNat 16 b by
    have := congrArg (n - ·) h
    simpa using this)
  simp only [BitVec.toNat_ofNat] at h'
  omega

theorem sequences_nodup (h : e.InOrder) : (e.outstanding.map Report.sequence).Nodup := by
  have hw := h.window
  have hh := h.high
  rw [List.nodup_iff_getElem?_ne_getElem?]
  intro i j hij hj
  rw [List.length_map] at hj
  rw [List.getElem?_map, List.getElem?_map, List.getElem?_eq_getElem (by omega), List.getElem?_eq_getElem hj, Option.map_some,
    Option.map_some]
  intro heq
  have hseq := Option.some.inj heq
  rw [h.numbered i _ (List.getElem?_eq_getElem (by omega)), h.numbered j _ (List.getElem?_eq_getElem hj)] at hseq
  have := sequence_sub_inj (by omega) (by omega) hseq
  omega

theorem eq_of_sequence (h : e.InOrder) {x y : Report} (hx : x ∈ e.outstanding) (hy : y ∈ e.outstanding)
    (hxy : x.sequence = y.sequence) : x = y := List.inj_on_of_nodup_map h.sequences_nodup hx hy hxy

/-- The next sequence is not that of an outstanding report. -/
theorem next_ne (h : e.InOrder) {r : Report} (hr : r ∈ e.outstanding) : r.sequence ≠ e.nextSequence := by
  have hw := h.window
  have hh := h.high
  obtain ⟨i, hi⟩ := List.mem_iff_getElem?.1 hr
  obtain ⟨hlt, -⟩ := List.getElem?_eq_some_iff.1 hi
  rw [h.numbered i r hi]
  intro heq
  have : e.outstanding.length - i = 0 := sequence_sub_inj (n := e.nextSequence) (by omega) (by omega) (by simpa using heq)
  omega

/-- The reports may change but for their session and sequence, with a queue to match. -/
theorem relabel (h : e.InOrder) {d : ReportEngine} (f : Report → Report) (hout : d.outstanding = e.outstanding.map f)
    (hf : ∀ r ∈ e.outstanding, (f r).session = r.session ∧ (f r).sequence = r.sequence)
    (hkeep : d.windowSize = e.windowSize ∧ d.session = e.session ∧ d.sessionNumber = e.sessionNumber
      ∧ d.nextSequence = e.nextSequence)
    (hnodup : d.queue.Nodup) (hheld : ∀ q ∈ d.queue, q ∈ e.outstanding.map Report.sequence)
    (hqueued : ∀ r ∈ e.outstanding, ((f r).state = .queued ↔ r.sequence ∈ d.queue)) : d.InOrder := by
  obtain ⟨hw, hs, hn, hx⟩ := hkeep
  have hseq : d.outstanding.map Report.sequence = e.outstanding.map Report.sequence := by
    rw [hout, List.map_map]
    exact List.map_congr_left fun r hr => (hf r hr).2
  refine ⟨?_, hw ▸ h.low, hw ▸ h.high, fun hi => ?_, fun i r hr => ?_, fun r hr => ?_, fun r hr => ?_, hnodup, hseq ▸ hheld⟩
  · rw [hout, List.length_map, hw]
    exact h.window
  · rw [hout, h.idle (hs ▸ hi)]
    rfl
  · rw [hout, List.getElem?_map] at hr
    obtain ⟨x, hx', rfl⟩ := Option.map_eq_some_iff.1 hr
    rw [(hf x (List.mem_of_getElem? hx')).2, h.numbered i x hx', hout, List.length_map, hx]
  · rw [hout] at hr
    obtain ⟨x, hx', rfl⟩ := List.mem_map.1 hr
    rw [(hf x hx').1, hn]
    exact h.ofSession x hx'
  · rw [hout] at hr
    obtain ⟨x, hx', rfl⟩ := List.mem_map.1 hr
    rw [(hf x hx').2]
    exact hqueued x hx'

/-- Reports in state `st` back into the queue. -/
theorem requeued (h : e.InOrder) {d : ReportEngine} {st : TxState} (hst : st ≠ .queued)
    (hout : d.outstanding = e.outstanding.map fun r => if r.state = st then { r with state := .queued } else r)
    (hkeep : d.windowSize = e.windowSize ∧ d.session = e.session ∧ d.sessionNumber = e.sessionNumber
      ∧ d.nextSequence = e.nextSequence)
    (hqueue : d.queue.Perm (e.queue ++ (e.outstanding.filter fun r => r.state == st).map Report.sequence)) : d.InOrder := by
  have hback : ∀ {q}, q ∈ (e.outstanding.filter fun r => r.state == st).map Report.sequence →
      ∃ r ∈ e.outstanding, r.state = st ∧ r.sequence = q := by
    intro q hq
    obtain ⟨r, hr, rfl⟩ := List.mem_map.1 hq
    obtain ⟨hr, hs⟩ := List.mem_filter.1 hr
    exact ⟨r, hr, by simpa using hs, rfl⟩
  refine h.relabel _ hout (fun r _ => ?_) hkeep (hqueue.nodup_iff.2 (List.nodup_append.2 ⟨h.nodup,
    h.sequences_nodup.sublist (List.filter_sublist.map _), fun a ha b hb hab => ?_⟩)) (fun q hq => ?_) fun r hr => ?_
  · split_ifs <;> exact ⟨rfl, rfl⟩
  · subst hab
    obtain ⟨r, hr, hs, rfl⟩ := hback hb
    exact hst (hs.symm.trans ((h.queued r hr).2 ha))
  · rcases List.mem_append.1 (hqueue.mem_iff.1 hq) with hq | hq
    · exact h.held q hq
    · obtain ⟨r, hr, -, rfl⟩ := hback hq
      exact List.mem_map_of_mem hr
  · rw [hqueue.mem_iff, List.mem_append]
    by_cases hs : r.state = st
    · rw [if_pos hs]
      exact iff_of_true rfl (.inr (List.mem_map_of_mem (List.mem_filter.2 ⟨hr, by simpa using hs⟩)))
    · rw [if_neg hs, h.queued r hr]
      refine ⟨.inl, fun hq => hq.elim id fun hq => ?_⟩
      obtain ⟨x, hx, hxs, hxr⟩ := hback hq
      exact absurd (h.eq_of_sequence hx hr hxr ▸ hxs) hs

/-- A report that is alone in the list and the queue. -/
theorem single {d : ReportEngine} {r : Report} (hw : 1 ≤ d.windowSize) (hh : d.windowSize ≤ 16) (hs : d.session ≠ .idle)
    (hout : d.outstanding = [r]) (hqueue : d.queue = [r.sequence]) (hnext : r.sequence = d.nextSequence - 1)
    (hr : r.session = d.sessionNumber) (hst : r.state = .queued) : d.InOrder := by
  refine ⟨by rw [hout]; exact hw, hw, hh, fun h => absurd h hs, fun i x hx => ?_, fun x hx => ?_, fun x hx => ?_, ?_, ?_⟩
  · rw [hout] at hx ⊢
    obtain ⟨hi, rfl⟩ := List.getElem?_eq_some_iff.1 hx
    obtain rfl : i = 0 := by simpa using hi
    exact hnext
  · rw [hout, List.mem_singleton] at hx
    exact hx ▸ hr
  · rw [hout, List.mem_singleton] at hx
    simp [hx, hst, hqueue]
  · rw [hqueue]
    exact List.nodup_singleton _
  · rw [hout, hqueue]
    exact fun q hq => hq

theorem none {d : ReportEngine} (hw : 1 ≤ d.windowSize) (hh : d.windowSize ≤ 16) (hout : d.outstanding = [])
    (hqueue : d.queue = []) : d.InOrder := by
  refine ⟨by simp [hout], hw, hh, fun _ => hout, ?_, ?_, ?_, by simp [hqueue], ?_⟩ <;> simp [hout, hqueue]

theorem queue_nil (h : e.InOrder) (ho : e.outstanding = []) : e.queue = [] :=
  List.eq_nil_iff_forall_not_mem.2 fun q hq => by simpa [ho] using h.held q hq

/-- A new report at the tails. -/
theorem built (h : e.InOrder) {d : ReportEngine} {r : Report} (hroom : e.outstanding.length < e.windowSize)
    (hs : e.session ≠ .idle) (hout : d.outstanding = e.outstanding ++ [r]) (hqueue : d.queue = e.queue ++ [e.nextSequence])
    (hnext : d.nextSequence = e.nextSequence + 1)
    (hkeep : d.windowSize = e.windowSize ∧ d.session = e.session ∧ d.sessionNumber = e.sessionNumber)
    (hr : r.session = e.sessionNumber ∧ r.sequence = e.nextSequence ∧ r.state = .queued) : d.InOrder := by
  obtain ⟨hw, hds, hn⟩ := hkeep
  obtain ⟨hrs, hrq, hrt⟩ := hr
  refine ⟨?_, hw ▸ h.low, hw ▸ h.high, fun hi => absurd (hds ▸ hi) hs, fun i x hx => ?_, fun x hx => ?_, fun x hx => ?_, ?_,
    fun q hq => ?_⟩
  · rw [hout, List.length_append, hw]
    exact hroom
  · rw [hout, List.length_append, List.length_singleton, hnext] at *
    rcases Nat.lt_trichotomy i e.outstanding.length with hi | hi | hi
    · rw [List.getElem?_append_left hi] at hx
      rw [h.numbered i x hx, show e.outstanding.length + 1 - i = e.outstanding.length - i + 1 by omega, BitVec.ofNat_add]
      exact (add_sub_add_right_eq_sub ..).symm
    · subst hi
      have : x = r := by simpa using hx.symm
      rw [this, hrq, Nat.add_sub_cancel_left]
      exact (BitVec.add_sub_cancel ..).symm
    · rw [List.getElem?_eq_none (by simp; omega)] at hx
      cases hx
  · rw [hout] at hx
    rw [hn]
    rcases List.mem_append.1 hx with hx | hx
    · exact h.ofSession x hx
    · rw [List.mem_singleton.1 hx, hrs]
  · rw [hout] at hx
    rw [hqueue, List.mem_append, List.mem_singleton]
    rcases List.mem_append.1 hx with hx | hx
    · rw [h.queued x hx, or_iff_left (h.next_ne hx)]
    · rw [List.mem_singleton.1 hx]
      exact iff_of_true hrt (.inr hrq)
  · rw [hqueue, List.nodup_append]
    refine ⟨h.nodup, List.nodup_singleton _, fun a ha b hb hab => ?_⟩
    obtain ⟨x, hx, rfl⟩ := List.mem_map.1 (h.held a ha)
    exact h.next_ne hx (hab.trans (List.mem_singleton.1 hb))
  · rw [hout, List.map_append, List.mem_append]
    rw [hqueue] at hq
    refine (List.mem_append.1 hq).imp (h.held q) fun hq => ?_
    rw [List.mem_singleton.1 hq, ← hrq]
    exact List.mem_singleton.2 rfl

/-- The oldest reports gone, and withdrawn. -/
theorem released (h : e.InOrder) {d : ReportEngine} (n : Nat) (hout : d.outstanding = e.outstanding.drop n)
    (hqueue : d.queue = e.queue.filter fun q => q ∉ (e.outstanding.take n).map Report.sequence)
    (hs : d.session ≠ .idle)
    (hkeep : d.windowSize = e.windowSize ∧ d.sessionNumber = e.sessionNumber ∧ d.nextSequence = e.nextSequence) :
    d.InOrder := by
  obtain ⟨hw, hn, hx⟩ := hkeep
  have hmem : ∀ {r}, r ∈ d.outstanding → r ∈ e.outstanding := fun hr => List.mem_of_mem_drop (hout ▸ hr)
  have hsplit : e.outstanding.map Report.sequence
      = (e.outstanding.take n).map Report.sequence ++ d.outstanding.map Report.sequence := by
    rw [hout, ← List.map_append, List.take_append_drop]
  have hstay : ∀ {r}, r ∈ d.outstanding → r.sequence ∉ (e.outstanding.take n).map Report.sequence := by
    intro r hr hgone
    have hnodup := h.sequences_nodup
    rw [hsplit, List.nodup_append] at hnodup
    exact hnodup.2.2 _ hgone _ (List.mem_map_of_mem hr) rfl
  refine ⟨?_, hw ▸ h.low, hw ▸ h.high, fun hi => absurd hi hs, fun i r hr => ?_, fun r hr => ?_, fun r hr => ?_, ?_,
    fun q hq => ?_⟩
  · rw [hout, List.length_drop, hw]
    exact (Nat.sub_le ..).trans h.window
  · rw [hout, List.getElem?_drop] at hr
    rw [h.numbered _ r hr, hx, hout, List.length_drop, show e.outstanding.length - (n + i) = e.outstanding.length - n - i by omega]
  · rw [hn]
    exact h.ofSession r (hmem hr)
  · rw [hqueue, List.mem_filter, h.queued r (hmem hr)]
    exact ⟨fun hq => ⟨hq, by simpa using hstay hr⟩, fun hq => hq.1⟩
  · rw [hqueue]
    exact h.nodup.filter _
  · rw [hqueue, List.mem_filter, decide_eq_true_eq] at hq
    have := h.held q hq.1
    rw [hsplit, List.mem_append] at this
    exact this.resolve_left hq.2

end ReportEngine.InOrder

theorem ReportsInOrder.of {s : State} (h : s.rep.InOrder) : ReportsInOrder s := (reportsInOrder_iff s).2 h

theorem ReportsInOrder.engine {s : State} (h : ReportsInOrder s) : s.rep.InOrder := (reportsInOrder_iff s).1 h

theorem reportsInOrder_keptByOps : KeptByOps (fun _ => True) ReportsInOrder where
  powerUp _ _ _ _ _ _ := reportsInOrder_of_reset rfl
  softReset _ _ := reportsInOrder_of_reset rfl
  setting s k v hk hstate hl h := by
    cases k with
    | sessionEnable => exact absurd rfl hk
    | windowSize =>
      have hidle : s.rep.session = .idle := by
        by_contra hne
        simp [Setting.stateCheck, hne] at hstate
      have hlegal : 1 ≤ v.toNat ∧ v.toNat ≤ 16 := by simpa [Setting.legal] using hl
      exact .of (.none hlegal.1 hlegal.2 (h.engine.idle hidle) (h.engine.queue_nil (h.engine.idle hidle)))
    | _ => exact h
  build s hd h := by
    obtain ⟨hsession, hroom, -⟩ := (buildDue_iff s).1 hd
    obtain ⟨r, x, b, h1, h2, -, -, h5, e⟩ := buildReport_eq s
    rw [e]
    exact .of (h.engine.built hroom (by rw [hsession]; decide) rfl (congrArg (fun q => s.rep.queue ++ [q]) h2) rfl ⟨rfl, rfl, rfl⟩
      ⟨h1, h2, h5⟩)
  requeue s n h := .of (h.engine.requeued (st := .sent) (by decide) rfl ⟨rfl, rfl, rfl, rfl⟩ (List.Perm.refl _))
  cut s h := .of (h.engine.requeued (st := .sending) (by decide) rfl ⟨rfl, rfl, rfl, rfl⟩ List.perm_append_comm)
  finish s h := by
    refine .of (h.engine.relabel (fun r => if r.state = .sending then { r with state := .sent } else r) rfl (fun r _ => ?_)
      ⟨rfl, rfl, rfl, rfl⟩ h.engine.nodup h.engine.held fun r hr => ?_)
    · split_ifs <;> exact ⟨rfl, rfl⟩
    · refine Iff.trans ?_ (h.engine.queued r hr)
      split_ifs with hs
      · simp [hs]
      · rfl
  start s q qs r hq hr hseq h := by
    have hnodup : q ∉ qs ∧ qs.Nodup := List.nodup_cons.1 (hq ▸ h.engine.nodup)
    refine .of (h.engine.relabel (fun x => if x.sequence = q then { r with state := .sending } else x) rfl (fun x hx => ?_)
      ⟨rfl, rfl, rfl, rfl⟩ hnodup.2 (fun p hp => h.engine.held p (hq ▸ List.mem_cons_of_mem _ hp)) fun x hx => ?_)
    · split_ifs with hxq
      · exact ⟨(h.engine.ofSession r hr).trans (h.engine.ofSession x hx).symm, hseq.trans hxq.symm⟩
      · exact ⟨rfl, rfl⟩
    · by_cases hxq : x.sequence = q
      · rw [if_pos hxq, hxq]
        exact iff_of_false (fun h => TxState.noConfusion h) hnodup.1
      · rw [if_neg hxq, h.engine.queued x hx, hq, List.mem_cons, or_iff_right hxq]
        rfl
  release s t n hr h := by
    obtain ⟨-, -, -, -, hrep, -⟩ := hr
    exact .of (h.engine.released n (by rw [hrep]) (by rw [hrep]) (by rw [hrep]; exact fun h => SessionState.noConfusion h)
      ⟨by rw [hrep], by rw [hrep], by rw [hrep]⟩)
  opened s d ho h := .of (.none h.engine.low h.engine.high rfl (h.engine.queue_nil ho))
  opens s hs h := by
    have hqueue := h.engine.queue_nil (h.engine.idle hs)
    exact .of (.single h.engine.low h.engine.high (by simp [openSession]) rfl
      (by simp [openSession, hqueue, startReport]) (by decide : (0 : BitVec 16) = 1 - 1) rfl rfl)
  ended s t _ hrep h := .of (.none (by rw [hrep]; exact h.engine.low) (by rw [hrep]; exact h.engine.high)
    (by rw [hrep]) (by rw [hrep]))
  lost s t hl h := by
    obtain ⟨-, r, hr, hrep⟩ := hl
    rw [IsStartReport] at hr
    refine .of ?_
    rw [hrep]
    exact .single h.engine.low h.engine.high (by simp) rfl (by rw [hr]) (by rw [hr]; exact (by decide : (0 : BitVec 16) = 1 - 1)) (by rw [hr]) (by rw [hr])

/-- Settles O6. -/
theorem reportsStayInOrder : Obligations.ReportsStayInOrder := reportsInOrder_keptByOps.keptByStep fun _ _ h => h

end Sys2Proof.Machine
end

section
/-!
PROOFS. The line: links, bytes and ends of frames at an ingress.
-/

namespace Sys2Proof.Machine

-- One proof after another: elaborated side by side, the proofs of this file take more threads than the check's limits hold.
set_option Elab.async false

/-! ## Links (R1, R6, R15, R16) -/

theorem exec_linkDown {p : Port} {s : State} (hr : s.resetN = true) (hl : (s.port p).link = .up) :
    exec (.linkDown p) s = .next (linkGoesDown p s) := by
  show execLinkDown p s = _
  rw [execLinkDown, if_neg (by rw [hl]; decide), if_pos hr]

/-- Settles O17. -/
theorem linkDownCutsTheEgress : Obligations.LinkDownCutsTheEgress := by
  intro p s
  refine ⟨fun hl => ?_, fun hl hr => ?_, fun hr hl hrx => ⟨_, _, cutEgress_spec p _, settleEgress_spec p _, ?_⟩⟩
  · show execLinkDown p s = _
    rw [execLinkDown, if_pos hl]
  · show execLinkDown p s = _
    rw [execLinkDown, if_neg (by rw [hl]; decide), if_neg (by rw [hr]; decide)]
  · rw [exec_linkDown hr hl, linkGoesDown]
    simp only [State.setPort_port_same, hrx]

/-- Settles O18. -/
theorem linkDownTruncates : Obligations.LinkDownTruncates := by
  intro p s r hr hl hrx e down
  have he : settleEnding r.settled .linkDown (checkCorrect r.bytes) = e := by
    unfold settleEnding
    cases hs : r.settled <;> simp [e, hs]
  refine ⟨_, _, _, he ▸ endFrame_spec p r .linkDown down, he ▸ endFrame_ack p r .linkDown down, cutEgress_spec p _,
    settleEgress_spec p _, ?_⟩
  have hdown : (down.port p).rx = some r := by rw [State.setPort_port_same]; exact hrx
  rw [exec_linkDown hr hl, linkGoesDown]
  show Host.Outcome.next (settleEgress p (cutEgress p (match (down.port p).rx with
    | some r => endFrame p r .linkDown down
    | none => down))) = _
  rw [hdown]

/-! ## A byte at an ingress (R4, R10, R11, R12, R91) -/

/-- What a received byte makes of the Capture Engine: copied into the capture of its frame, when a ring fills one. -/
def ByteCopied (s : State) (p : Port) (r : Reception) (b : Byte) (e : CaptureEngine) : Prop :=
  (∀ id, FillsCapture s p r id → CopiesBytes s.cap e id [b]) ∧ ((∀ id, ¬ FillsCapture s p r id) → e = s.cap)

/-- What follows a byte stored and copied: the decision at the 128th byte, and the reception kept. -/
def afterByte (p : Port) (r : Reception) (s : State) : State :=
  let d := if r.count = 128 ∧ r.decision = none ∧ r.kind ≠ some .ack then decideFrame p r s else (s, r)
  d.1.setPort p { d.1.port p with rx := some d.2 }

theorem afterByte_decided {p : Port} {r : Reception} (s : State)
    (h : r.count = 128 ∧ r.decision = none ∧ r.kind ≠ some .ack) :
    afterByte p r s = (decideFrame p r s).1.setPort p
      { (decideFrame p r s).1.port p with rx := some (decideFrame p r s).2 } := by
  rw [afterByte, if_pos h]

theorem afterByte_kept {p : Port} {r : Reception} (s : State)
    (h : ¬ (r.count = 128 ∧ r.decision = none ∧ r.kind ≠ some .ack)) :
    afterByte p r s = s.setPort p { s.port p with rx := some r } := by
  rw [afterByte, if_neg h]

/-- All that a byte does before the decision and the egress: its port and the Capture Engine. -/
theorem receiveByte_eq (p : Port) (b : Byte) (r : Reception) (s : State) :
    ∃ y o e, ByteStored r b (s.port p) { y with rx := some { (r.receive b).settleOversize with overflowed := o } }
      ∧ ByteCopied s p r b e
      ∧ receiveByte p b r s = settleEgress p.other
        (afterByte p { (r.receive b).settleOversize with overflowed := o } ((s.setCap e).setPort p y)) := by
  obtain ⟨hport, ⟨o, hr1⟩, hstored⟩ := storeByte_spec p r b s
  have hafter : receiveByte p b r s = settleEgress p.other (afterByte p
      (storeByte p (r.receive b).settleOversize b (cutOversize p (r.receive b).settleOversize s)).2
      (captureByte p (r.receive b).settleOversize b
        (storeByte p (r.receive b).settleOversize b (cutOversize p (r.receive b).settleOversize s)).1)) := by
    have hcount := congrArg Reception.count hr1
    dsimp only at hcount
    simp only [receiveByte, afterByte, hcount]
  generalize storeByte p _ b _ = a at *
  obtain ⟨s1, r1⟩ := a
  dsimp only at *
  rw [hr1] at hstored hafter
  have hkeep : (r.receive b).settleOversize.capture = r.capture ∧ (r.receive b).settleOversize.serial = r.serial := by
    rw [Reception.receive_eq]
    split_ifs <;> exact ⟨rfl, rfl⟩
  have hfills : ∀ id, FillsCapture s1 p (r.receive b).settleOversize id ↔ FillsCapture s p r id := by
    intro id
    unfold FillsCapture
    rw [hkeep.1, hkeep.2, hport, State.setPort_ring]
  obtain ⟨hcopy, hnone⟩ := captureByte_spec p (r.receive b).settleOversize b s1
  have hcap : s1.cap = s.cap := by rw [hport, State.setPort_cap]
  have hset : ∀ e, s1.setCap e = (s.setCap e).setPort p (s1.port p) := by
    intro e
    conv_lhs => rw [hport]
    cases p <;> rfl
  by_cases hf : ∃ id, FillsCapture s p r id
  · obtain ⟨id, hid⟩ := hf
    obtain ⟨e, he, hcapture⟩ := hcopy id ((hfills id).2 hid)
    refine ⟨s1.port p, o, e, hstored, ⟨fun id' hid' => ?_, fun h => absurd hid (h id)⟩, ?_⟩
    · obtain rfl : id = id' := Option.some.inj (hid.1.symm.trans hid'.1)
      rwa [hcap] at he
    · rw [hafter, hcapture, hset e]
  · refine ⟨s1.port p, o, s.cap, hstored, ⟨fun id hid => absurd ⟨id, hid⟩ hf, fun _ => rfl⟩, ?_⟩
    rw [hafter, hnone fun id hid => hf ⟨id, (hfills id).1 hid⟩, ← hset, ← hcap]
    rfl

/-- A byte that is no decision point. -/
theorem receiveByte_undecided {p : Port} {b : Byte} {r : Reception} {s : State}
    (h : ¬ (r.count = 127 ∧ r.decision = none
      ∧ ({ r with count := 128, bytes := r.bytes ++ [b] } : Reception).kind ≠ some .ack)) :
    ∃ x e, ByteStored r b (s.port p) x ∧ ByteCopied s p r b e
      ∧ receiveByte p b r s = settleEgress p.other ((s.setCap e).setPort p x) := by
  obtain ⟨y, o, e, hstored, hcopied, heq⟩ := receiveByte_eq p b r s
  refine ⟨_, e, hstored, hcopied, ?_⟩
  rw [heq, afterByte_kept]
  · rw [State.setPort_port_same, State.setPort_setPort]
  rw [Reception.receive_eq]
  rintro ⟨hc, hd, hk⟩
  split_ifs at hc hd hk with h1 h2
  · have hcount : r.count = 127 := Nat.succ.inj hc
    exact h ⟨hcount, hd, fun hack => hk (by rw [hcount]; exact hack)⟩
  · cases hc
  · have : r.count + 1 = 128 := hc
    omega

theorem exec_byteArrival {p : Port} {first : Bool} {b : Byte} {s : State} {r : Reception} (hr : s.resetN = true)
    (hl : (s.port p).link = .up) (hrx : (s.port p).rx = some r) :
    exec (.byteArrival p first b) s = .next (receiveByte p b r s) := by
  show execByteArrival p first b s = _
  rw [execByteArrival, if_pos ⟨hr, hl⟩, hrx]

/-- Settles O19. -/
theorem byteIsStoredOrCuts : Obligations.ByteIsStoredOrCuts := by
  intro p first b s r hr hl hrx hnone hund
  obtain ⟨x, e, hstored, hcopied, heq⟩ := receiveByte_undecided (p := p) (s := s) hund
  refine ⟨x, _, hstored, ?_, exec_byteArrival hr hl hrx⟩
  rw [heq, hcopied.2 hnone]
  exact settleEgress_spec p.other _

/-- Settles O20. -/
theorem byteBeginsAFrame : Obligations.ByteBeginsAFrame := by
  refine ⟨?_, fun p first b s h => ?_, fun p b s hrx => ?_⟩
  · intro p b s hr hl hrx r f settles
    set begun := beginFrame p s with hbegun
    have row : exec (.byteArrival p true b) s = .next (receiveByte p b begun.2 begun.1) := by
      show execByteArrival p true b s = _
      rw [execByteArrival, if_pos ⟨hr, hl⟩, hrx]
      rfl
    obtain ⟨x, e, ⟨hin, -⟩, hcopied, heq⟩ := receiveByte_undecided (p := p) (b := b) (r := begun.2) (s := begun.1)
      (fun h => absurd h.1 (by simp [hbegun, beginFrame]))
    have hcap : e = s.cap := (hcopied.2 fun id h => absurd h.1 (by simp [hbegun, beginFrame])).trans (by simp [hbegun, beginFrame])
    have hbuf : (begun.1.port p).buffer = (s.port p).buffer ++ [HeldFrame.new] := by simp [hbegun, beginFrame]
    have hfill : bufferFill (begun.1.port p).buffer = bufferFill (s.port p).buffer := by
      rw [hbuf, bufferFill_append]
      simp [HeldFrame.new]
    obtain ⟨hroom, hfull⟩ := (hin (by decide : (0 : Nat) < 2048)).1 _ _ hbuf rfl (by decide)
    rw [hfill] at hroom hfull
    have hstate : ∀ y, (begun.1.setCap e).setPort p y = s.setPort p y := by
      intro y
      rw [hcap, hbegun]
      cases p <;> rfl
    rw [hstate] at heq
    have hport : begun.1.port p = { s.port p with
        serial := (s.port p).serial + 1, buffer := (s.port p).buffer ++ [HeldFrame.new] } := by simp [hbegun, beginFrame]
    have done : ∀ y, x = y → settles y := fun y hy => ⟨_, row, by rw [heq, hy]; exact settleEgress_spec p.other _⟩
    refine ⟨fun hf => done _ ?_, fun hf => done _ ?_, fun hb => ?_⟩
    · rw [hroom hf, hport]
      rfl
    · rw [hfull hf, hport]
      rfl
    · rw [row, heq, hroom (by rw [hb]; decide), hport, hb]
      rw [settleEgress_still]
      · rfl
      · intro g rest hg
        rw [Port.other_other, State.setPort_port_same] at hg
        cases hg
        rfl
  · show execByteArrival p first b s = _
    rw [execByteArrival, if_neg]
    rintro ⟨h1, h2⟩
    rcases h with h | h
    · rw [h] at h1
      cases h1
    · rw [h] at h2
      cases h2
  · show execByteArrival p false b s = _
    rw [execByteArrival, hrx]
    exact ite_self _

/-- The copy of a frame that is arriving stays so under a byte. -/
theorem ByteStored.arriving {r : Reception} {b : Byte} {x y : PortState} {before : List HeldFrame} {f : HeldFrame}
    (h : ByteStored r b x y) (hc : r.count < 2048) (hb : x.buffer = before ++ [f]) (ha : f.state = .arriving) :
    ∃ g, y.buffer = before ++ [g] ∧ g.state = .arriving := by
  obtain ⟨hin, -⟩ := h
  obtain ⟨htakes, hnot⟩ := hin hc
  by_cases ho : f.reception = .isOpen
  · obtain ⟨hroom, hfull⟩ := htakes before f hb ho (by rw [ha]; decide)
    rcases Nat.lt_or_ge (bufferFill x.buffer) 16384 with hf | hf
    · rw [hroom hf]
      exact ⟨_, rfl, ha⟩
    · rw [hfull hf]
      exact ⟨_, rfl, ha⟩
  · rw [hnot fun c g hg => .inl ((append_singleton_inj (hb.symm.trans hg)).2 ▸ ho)]
    exact ⟨f, hb, ha⟩

/-- Settles O21. -/
theorem decisionAtByte128 : Obligations.DecisionAtByte128 := by
  intro p first b s r before f hr hl hrx hc hd hcap hbuf harr r1 hk
  obtain ⟨y, o, e, hstored, hcopied, heq⟩ := receiveByte_eq p b r s
  have hrec : (r.receive b).settleOversize = r1 := by
    rw [Reception.receive_eq, if_pos (by omega), hc]
  rw [hrec] at hstored heq
  obtain ⟨g, hg, hga⟩ := hstored.arriving (by omega) hbuf harr
  obtain rfl : e = s.cap := hcopied.2 fun id h => by simp [hcap, FillsCapture] at h
  obtain ⟨c, e, d, k, hdecides, hframe⟩ := decideFrame_spec p { r1 with overflowed := o } (s.setPort p y)
  refine ⟨_, g, c, e, d, k, _, hstored, hg, hdecides.setPort, ?_, exec_byteArrival hr hl hrx⟩
  have hstate : ((s.setPort p y).port p) = y := State.setPort_port_same ..
  rw [heq, afterByte_decided (r := { r1 with overflowed := o }) _ ⟨rfl, hd, hk⟩, show s.setCap s.cap = s from rfl, hframe, hstate,
    show y.buffer = before ++ [g] from hg, applyAction_append _ hga]
  have hport : ∀ u v, (((((s.setPort p y).setCls c).setCap e).setPort p u).setPort p v)
      = ((s.setCls c).setCap e).setPort p v := by
    intro u v
    cases p <;> rfl
  dsimp only
  rw [hport, State.setPort_port_same]
  exact settleEgress_spec p.other _

theorem exec_frameEnd {p : Port} {s : State} {r : Reception} (aborted : Bool) (hrx : (s.port p).rx = some r) :
    exec (.frameEnd p aborted) s = .next (endFrame p r (if aborted then .aborted else .normal) s) := by
  show execFrameEnd p aborted s = _
  rw [execFrameEnd, hrx]

theorem settleEnding_eq (r : Reception) (aborted : Bool) :
    settleEnding r.settled (if aborted then .aborted else .normal) (checkCorrect r.bytes) = endingOf r aborted := by
  unfold settleEnding endingOf
  cases r.settled with
  | some e => rfl
  | none => cases aborted <;> simp

theorem lineEnd_aborted (aborted : Bool) : ((if aborted then LineEnd.aborted else .normal) != .normal) = aborted := by
  cases aborted <;> rfl

/-- Settles O24. -/
theorem frameEndSettlesTheEnding : Obligations.FrameEndSettlesTheEnding := by
  intro p aborted s r hrx
  have ends := endFrame_spec p r (if aborted then .aborted else .normal) s
  rw [settleEnding_eq, lineEnd_aborted] at ends
  exact ⟨_, exec_frameEnd aborted hrx, ends⟩

/-- Settles O25. -/
theorem ackIsConsumed : Obligations.AckIsConsumed := by
  refine ⟨fun p first b s r before f hr hl hrx hc hd hcap hack hbuf harr hopen hroom => ?_, fun p aborted s r hrx => ?_⟩
  · obtain ⟨x, e, ⟨hin, -⟩, hcopied, heq⟩ := receiveByte_undecided (p := p) (b := b) (r := r) (s := s) fun h => h.2.2 hack
    have hx := ((hin (by omega)).1 before f hbuf hopen (by rw [harr]; decide)).1 (hbuf ▸ hroom)
    refine ⟨_, exec_byteArrival hr hl hrx, ?_⟩
    rw [heq, hcopied.2 fun id h => by simp [hcap, FillsCapture] at h, hx, hc]
    exact settleEgress_spec p.other _
  · have ends := endFrame_ack p r (if aborted then .aborted else .normal) s
    rw [settleEnding_eq, lineEnd_aborted] at ends
    exact ⟨_, exec_frameEnd aborted hrx, ends⟩

/-! ## A capture attempt and the copy of a byte (R90, R91) -/

/-- Settles O23. -/
theorem captureAttemptOutcomes : Obligations.CaptureAttemptOutcomes := by
  refine ⟨fun g q => ⟨fun h => ?_, fun hb hf => ?_, fun hb hf hq hs hfill => ?_⟩,
    fun p first b s r id hr hl hrx hc hfills => ?_⟩
  · rw [Ring.attempt, if_pos h]
  · rw [Ring.attempt, if_neg (not_not.2 hb), if_pos (show g.free < descriptorsOf q.slice from hf)]
  · obtain ⟨hd, he⟩ := Ring.attempt_reserves (q := q) hb hf
    have hmod : g.fill % g.size = g.fill := Nat.mod_eq_of_lt hfill
    have hdesc : descriptorsOf q.slice = (q.slice + 63) / 64 := rfl
    rw [hmod, hdesc] at hd
    refine ⟨(g.attempt q).1, Prod.ext rfl ?_, he, ?_, fun k h1 hk => ?_, fun j hj => ?_⟩
    · rw [Ring.attempt, if_neg (not_not.2 hb), if_neg (show ¬ g.free < descriptorsOf q.slice from Nat.not_lt.2 hf)]
    · rw [hd, if_pos rfl]
      rfl
    · have hne : (g.fill + k) % g.size ≠ g.fill := fun h => by
        have := place_unique (b := g.fill) (n := g.size) (j := k) (k := 0) (by omega) (by omega) (by rw [h, Nat.add_zero, hmod])
        omega
      rw [hd, if_neg hne, if_pos (Ring.mem_positions.2 ⟨k - 1, by omega, by rw [show g.fill + 1 + (k - 1) = g.fill + k by omega]⟩)]
      rfl
    · rw [hd, if_neg (by simpa [hmod] using hj 0 (by omega)), if_neg]
      intro hmem
      obtain ⟨k, hk, rfl⟩ := Ring.mem_positions.1 hmem
      exact hj (k + 1) (by omega) (by rw [show g.fill + 1 + k = g.fill + (k + 1) by omega])
  · obtain ⟨x, e, hstored, hcopied, heq⟩ := receiveByte_undecided (p := p) (b := b) (r := r) (s := s) fun h => by omega
    refine ⟨e, x, _, hcopied.1 id hfills, hstored, ?_, exec_byteArrival hr hl hrx⟩
    rw [heq]
    exact settleEgress_spec p.other _

end Sys2Proof.Machine
end

section
/-!
PROOFS. The chosen rule (R24, R25), the frame check (R166), the frame-end update and management's access to entries (R47 to R60).
-/

namespace Sys2Proof.Machine

-- One proof after another: elaborated side by side, the proofs of this file take more threads than the check's limits hold.
set_option Elab.async false

/-! ## The chosen rule (R24, R25) -/

/-- A listed pair of a sorted store is what the store lists for its number. -/
theorem SMap.find_of_mem {α : Type} {m : SMap α} {x : Nat × α} (hs : SMap.Sorted m) (hx : x ∈ m) :
    SMap.find m x.1 = some x.2 := by
  induction m with
  | nil => cases hx
  | cons y m ih =>
    obtain ⟨hy, hm⟩ := List.pairwise_cons.1 hs
    unfold SMap.find
    rcases List.mem_cons.1 hx with rfl | hx
    · exact if_pos rfl
    · rw [if_neg (Nat.ne_of_lt (hy x hx))]
      exact ih hm hx

theorem Rule.valid_of_matches {r : Rule} {dir : Direction} {bytes : List Byte} (h : r.matchesFrame dir bytes = true) :
    r.valid = true := by
  simp only [Rule.matchesFrame, Bool.and_eq_true] at h
  exact h.1.1.1.1.1

/-- The four bytes at an offset are those the frame goes on with there. -/
theorem fourBytes_eq_some (bytes : List Byte) (o : Nat) (v : Word) : fourBytes bytes o = some v ↔
    ∃ b0 b1 b2 b3 rest, bytes.drop o = b0 :: b1 :: b2 :: b3 :: rest ∧ v = word32 b0 b1 b2 b3 := by
  have hlen : (bytes.drop o).length = bytes.length - o := List.length_drop
  have hat : ∀ k, byteAt bytes (o + k) = byteAt (bytes.drop o) k := fun k => by simp [byteAt, List.getD, List.getElem?_drop]
  unfold fourBytes
  rw [show byteAt bytes o = _ from hat 0, hat, hat, hat]
  generalize bytes.drop o = l at hlen
  match l, hlen with
  | b0 :: b1 :: b2 :: b3 :: rest, hlen =>
    rw [if_pos (by simp only [List.length_cons] at hlen; omega)]
    simp [byteAt, eq_comm]
  | [], hlen | [_], hlen | [_, _], hlen | [_, _, _], hlen =>
    rw [if_neg (by simp only [List.length_cons, List.length_nil] at hlen; omega)]
    simp

theorem Term.matchesFrame_iff (t : Term) (bytes : List Byte) : t.matchesFrame bytes = true ↔
    t.enabled = false ∨ t.mask = 0 ∨ ∃ b0 b1 b2 b3 rest, bytes.drop t.offset.toNat = b0 :: b1 :: b2 :: b3 :: rest
      ∧ (b0 ++ b1 ++ b2 ++ b3) &&& t.mask = t.value := by
  unfold Term.matchesFrame
  cases he : t.enabled
  · simp
  · by_cases hm : t.mask = 0
    · simp [hm]
    · have key := fourBytes_eq_some bytes t.offset.toNat
      simp only [Bool.not_true, Bool.false_eq_true, if_false, false_or, hm, reduceCtorEq]
      cases hf : fourBytes bytes t.offset.toNat with
      | none =>
        refine iff_of_false (by simp) ?_
        rintro ⟨b0, b1, b2, b3, rest, hd, -⟩
        simpa [hf] using (key _).2 ⟨b0, b1, b2, b3, rest, hd, rfl⟩
      | some v =>
        obtain ⟨b0, b1, b2, b3, rest, hd, rfl⟩ := (key v).1 hf
        simp only [hd, beq_iff_eq]
        refine ⟨fun h => ⟨b0, b1, b2, b3, rest, rfl, h⟩, ?_⟩
        rintro ⟨c0, c1, c2, c3, more, hc, h⟩
        cases hc
        exact h

theorem Directions.includes_iff (d : Directions) (dir : Direction) :
    d.includes dir = true ↔ d = .both ∨ (d = .ab ∧ dir = .ab) ∨ (d = .ba ∧ dir = .ba) := by
  cases d <;> cases dir <;> decide

/-- Settles O22: a match is listed in the bank, and the first match listed is the one of lowest index. -/
theorem lowestMatchingRule : Obligations.LowestMatchingRule := by
  refine ⟨fun b dir bytes hs hlt => ?_, fun r dir bytes => ?_⟩
  · have listed : ∀ j, j < 64 → (b.rule j).matchesFrame dir bytes = true → (j, b.rule j) ∈ b.rules := fun j hj h =>
      Bank.mem_of_valid (Nat.ne_of_lt hj) (Rule.valid_of_matches h)
    have rule_of_mem : ∀ x ∈ b.rules, b.rule x.1 = x.2 := fun x hx => by
      rw [Bank.rule, if_neg (Nat.ne_of_lt (hlt x hx)), SMap.get, SMap.find_of_mem hs hx]
      rfl
    unfold Bank.choose
    cases hf : b.rules.find? fun x => x.2.matchesFrame dir bytes with
    | none =>
      have none_match : ∀ j, j < 64 → (b.rule j).matchesFrame dir bytes = false := fun j hj => by
        by_contra h
        exact List.find?_eq_none.1 hf _ (listed j hj (by simpa using h)) (by simpa using h)
      exact ⟨fun i hi h => absurd h.symm (Nat.ne_of_lt hi), ⟨fun _ => none_match, fun _ => rfl⟩, Nat.le_refl 64⟩
    | some x =>
      obtain ⟨hx, pre, post, heq, hpre⟩ := List.find?_eq_some_iff_append.1 hf
      have hmem : x ∈ b.rules := by simp [heq]
      have hx64 := hlt x hmem
      have matched : (b.rule x.1).matchesFrame dir bytes = true := by rw [rule_of_mem x hmem]; exact hx
      refine ⟨?_, ⟨fun h => absurd h (Nat.ne_of_lt hx64), fun h => by simp [h x.1 hx64] at matched⟩, Nat.le_of_lt hx64⟩
      rintro i hi rfl
      refine ⟨matched, fun j (hj : j < x.1) => ?_⟩
      by_contra h
      have hj' := listed j (by omega) (by simpa using h)
      rw [heq] at hj' hs
      rcases List.mem_append.1 hj' with hj' | hj'
      · exact absurd (hpre _ hj') (by simpa using h)
      · rcases List.mem_cons.1 hj' with hj' | hj'
        · rw [← hj'] at hj
          exact Nat.lt_irrefl _ hj
        · have := (List.pairwise_cons.1 (List.pairwise_append.1 hs).2.1).1 _ hj'
          simp only at this
          omega
  · simp only [Rule.matchesFrame, Bool.and_eq_true, Term.matchesFrame_iff, Directions.includes_iff]
    constructor
    · rintro ⟨⟨⟨⟨⟨hv, hd⟩, h0⟩, h1⟩, h2⟩, h3⟩
      refine ⟨hv, hd, fun k hk => ?_⟩
      match k, hk with
      | 0, _ => exact h0
      | 1, _ => exact h1
      | 2, _ => exact h2
      | 3, _ => exact h3
    · rintro ⟨hv, hd, h⟩
      exact ⟨⟨⟨⟨⟨hv, hd⟩, h 0 (by omega)⟩, h 1 (by omega)⟩, h 2 (by omega)⟩, h 3 (by omega)⟩

/-! ## The frame check (R166) -/

theorem crcBit_eq {w : Nat} (poly r : BitVec w) (b : Bool) :
    crcBit poly r b = r <<< 1 ^^^ (if (r.msb ^^ b) = true then poly else 0) := by
  unfold crcBit
  rw [show (r.msb ^^ b) = (r.msb != b) from rfl]
  split_ifs <;> simp

/-- The check register is linear over its register and input together. -/
theorem crcBit_xor {w : Nat} (poly r s : BitVec w) (b c : Bool) :
    crcBit poly (r ^^^ s) (b ^^ c) = crcBit poly r b ^^^ crcBit poly s c := by
  have sum : ∀ p q : Bool, (if (p ^^ q) = true then poly else 0)
      = (if p = true then poly else 0) ^^^ (if q = true then poly else 0) := by
    intro p q
    cases p <;> cases q <;> simp
  have mark : ((r.msb ^^ s.msb) ^^ (b ^^ c)) = ((r.msb ^^ b) ^^ (s.msb ^^ c)) := by
    simp only [Bool.xor_assoc, Bool.xor_left_comm]
  rw [crcBit_eq, crcBit_eq, crcBit_eq, BitVec.msb_xor, BitVec.shiftLeft_xor_distrib, mark, sum]
  ac_rfl

theorem crcByte_xor {w : Nat} (poly r s : BitVec w) (x y : Byte) :
    crcByte poly (r ^^^ s) (x ^^^ y) = crcByte poly r x ^^^ crcByte poly s y := by
  simp only [crcByte, List.foldl_cons, List.foldl_nil, BitVec.getLsbD_xor, crcBit_xor]

/-- A bit shifted out leaves its mark in bit 0, so the register before is known from the register after. -/
theorem crcBit_injective {w : Nat} {poly r s : BitVec w} {b : Bool} (hp : poly.getLsbD 0 = true)
    (h : crcBit poly r b = crcBit poly s b) : r = s := by
  have bit0 : ∀ x : BitVec w, (crcBit poly x b).getLsbD 0 = (x.msb != b) := fun x => by
    unfold crcBit
    split_ifs with hx <;> simp_all
  have hmsb : r.msb = s.msb := by
    have := (bit0 r).symm.trans ((congrArg (·.getLsbD 0) h).trans (bit0 s))
    revert this
    cases r.msb <;> cases s.msb <;> cases b <;> decide
  have hshift : r <<< 1 = s <<< 1 := by
    unfold crcBit at h
    rw [hmsb] at h
    split_ifs at h
    · exact (BitVec.xor_left_inj poly).1 h
    · exact h
  refine BitVec.eq_of_getLsbD_eq fun i hi => ?_
  by_cases hl : i + 1 < w
  · simpa [hl, BitVec.getLsbD_eq_getElem hi] using congrArg (·.getLsbD (i + 1)) hshift
  · rw [BitVec.msb_eq_getLsbD_last, BitVec.msb_eq_getLsbD_last] at hmsb
    rwa [show w - 1 = i by omega] at hmsb

theorem crcByte_injective {w : Nat} {poly r s : BitVec w} {x : Byte} (hp : poly.getLsbD 0 = true)
    (h : crcByte poly r x = crcByte poly s x) : r = s := by
  simp only [crcByte, List.foldl_cons, List.foldl_nil] at h
  have back {p q : BitVec w} {b : Bool} := crcBit_injective (r := p) (s := q) (b := b) hp
  exact back (back (back (back (back (back (back (back h)))))))

/-- The check of one byte from register 0 is 0 for the byte 0 alone. -/
theorem crcByte_zero_eq_zero : ∀ z : Byte, crcByte (0x04C11DB7 : Word) 0 z = 0 → z = 0 := by
  decide +kernel

theorem crcByte_byte_injective {r : Word} {x y : Byte} (h : crcByte 0x04C11DB7 r x = crcByte 0x04C11DB7 r y) : x = y := by
  have hz : crcByte (0x04C11DB7 : Word) 0 (x ^^^ y) = 0 := by
    rw [show (0 : Word) = r ^^^ r from BitVec.xor_self.symm, crcByte_xor, h, BitVec.xor_self, BitVec.xor_self]
  exact BitVec.xor_eq_zero_iff.1 (crcByte_zero_eq_zero _ hz)

theorem crc32_injective {r s : Word} : ∀ {post : List Byte}, crc32 r post = crc32 s post → r = s
  | [], h => h
  | _ :: _, h => crcByte_injective (by decide) (crc32_injective h)

theorem be32_injective {v u : Word} (h : be32 v = be32 u) : v = u := by
  simp only [be32, List.cons.injEq, and_true] at h
  obtain ⟨h3, h2, h1, h0⟩ := h
  refine BitVec.eq_of_getLsbD_eq fun i hi => ?_
  have part : ∀ {lo : Nat}, v.extractLsb' lo 8 = u.extractLsb' lo 8 → lo ≤ i → i < lo + 8 → v.getLsbD i = u.getLsbD i := by
    intro lo h hl hh
    have := congrArg (·.getLsbD (i - lo)) h
    simpa [BitVec.getLsbD_extractLsb', show i - lo < 8 by omega, show lo + (i - lo) = i by omega] using this
  rcases (by omega : i < 8 ∨ (8 ≤ i ∧ i < 16) ∨ (16 ≤ i ∧ i < 24) ∨ 24 ≤ i) with h | h | h | h
  · exact part h0 (by omega) (by omega)
  · exact part h1 (by omega) (by omega)
  · exact part h2 (by omega) (by omega)
  · exact part h3 (by omega) (by omega)

/-- The check found over a frame is that of the bytes before its last four. -/
theorem checkCorrect_append (bytes : List Byte) (v : Word) : checkCorrect (bytes ++ be32 v) = (be32 v == frameCheck bytes) := by
  have hlen : (bytes ++ be32 v).length - 4 = bytes.length := by simp [be32]
  rw [checkCorrect, hlen, List.drop_left, List.take_left]

/-- Settles O26: the check register after the changed byte differs, and differs still at the end. -/
theorem checkFindsAChangedByte : Obligations.CheckFindsAChangedByte := by
  refine ⟨fun bytes => ?_, fun pre post x y hxy => ?_⟩
  · rw [frameCheck, checkCorrect_append, frameCheck, beq_self_eq_true]
  · rw [frameCheck, checkCorrect_append, frameCheck, beq_eq_false_iff_ne]
    intro h
    have hreg := BitVec.not_inj.1 (be32_injective h)
    simp only [crc32, List.foldl_append, List.foldl_cons, List.foldl_nil] at hreg
    exact hxy (crcByte_byte_injective (crc32_injective hreg))

/-! ## The frame-end update (R47 to R54) -/

/-- The state at the oldest notice of ingress `p`: the notice has left its queue. -/
def noticeTaken (p : Port) (rest : List Notice) (s : State) : State := s.setPort p { s.port p with flowNotices := rest }

theorem noticeTaken_port (p : Port) (rest : List Notice) (s : State) :
    (noticeTaken p rest s).port p = { s.port p with flowNotices := rest } := State.setPort_port_same _ _ _

@[simp] theorem noticeTaken_flow (p : Port) (rest : List Notice) (s : State) : (noticeTaken p rest s).flow = s.flow :=
  State.setPort_flow _ _ _

@[simp] theorem noticeTaken_cls (p : Port) (rest : List Notice) (s : State) : (noticeTaken p rest s).cls = s.cls :=
  State.setPort_cls _ _ _

@[simp] theorem noticeTaken_rq (p : Port) (rest : List Notice) (s : State) : (noticeTaken p rest s).rq = s.rq :=
  State.setPort_rq _ _ _

@[simp] theorem noticeTaken_now (p : Port) (rest : List Notice) (s : State) : (noticeTaken p rest s).now = s.time.uptime :=
  State.setPort_now _ _ _

/-- The row hands the notice on with the entry index, whatever the update does to the blocks. -/
theorem exec_frameEndUpdate {p : Port} {s u : State} {n : Notice} {rest : List Notice} {i : Option Nat}
    (h : (s.port p).flowNotices = n :: rest) (hu : frameEndUpdate n (noticeTaken p rest s) = (u, i))
    (hp : u.port p = { s.port p with flowNotices := rest }) :
    exec (.frameEndUpdate p) s = .next (u.setPort p { s.port p with
      flowNotices := rest, captureNotices := (s.port p).captureNotices ++ [(n, i)] }) := by
  show execFrameEndUpdate p s = _
  unfold execFrameEndUpdate
  rw [h]
  dsimp only
  rw [show s.setPort p { s.port p with flowNotices := rest } = noticeTaken p rest s from rfl, hu]
  dsimp only
  rw [hp]

/-- The same, when the update touches the Flow Table alone. -/
theorem exec_frameEndUpdate_flow {p : Port} {s : State} {n : Notice} {rest : List Notice} {i : Option Nat} {f : FlowTable}
    (h : (s.port p).flowNotices = n :: rest)
    (hu : frameEndUpdate n (noticeTaken p rest s) = ((noticeTaken p rest s).setFlow f, i)) :
    exec (.frameEndUpdate p) s = .next ((s.setFlow f).setPort p { s.port p with
      flowNotices := rest, captureNotices := (s.port p).captureNotices ++ [(n, i)] }) := by
  refine (exec_frameEndUpdate h hu ((State.setFlow_port _ _ _).trans (noticeTaken_port p rest s))).trans ?_
  cases p <;> rfl

/-- A frame fit for measurement whose key can be cut reaches its bucket. -/
theorem frameEndUpdate_measured {n : Notice} {d : Decision} {t : BitVec 3} {s : State} (hfit : n.fit = true)
    (hd : n.decision = some d) (ht : d.template = some t) (hdef : (s.cls.template t.toNat).defined = true)
    (hfits : (s.cls.template t.toNat).fits n.length = true) : frameEndUpdate n s
      = updateBucket n d t (directionField (s.cls.template t.toNat) n.dir) ((s.cls.template t.toNat).cut n.bytes) s := by
  simp [frameEndUpdate, hfit, hd, ht, hdef, hfits]

theorem saturatingAdd_eq {w : Nat} (x : BitVec w) (n : Nat) : saturatingAdd x n
    = (if x.toNat + n < 2 ^ w then x + BitVec.ofNat w n else BitVec.allOnes w, decide (2 ^ w ≤ x.toNat + n)) := by
  unfold saturatingAdd
  split_ifs with h
  · rw [BitVec.ofNat_add, BitVec.ofNat_toNat, BitVec.setWidth_eq, decide_eq_false (by omega)]
  · rw [decide_eq_true (by omega)]

/-- Settles O27. -/
theorem hitCountsTheFrame : Obligations.HitCountsTheFrame := by
  intro p s n rest d t i e hn hfit hd ht hdef hfits f key hlook he
  refine exec_frameEndUpdate_flow hn ?_
  rw [frameEndUpdate_measured hfit hd ht (by simpa using hdef) (by simpa using hfits)]
  have hit : e.hit n.dir n.length s.time.uptime = { e with
      frames := if e.frames.toNat + 1 < 2 ^ 32 then e.frames + 1 else 0xFFFFFFFF
      bytes := if e.bytes.toNat + n.length < 2 ^ 40 then e.bytes + BitVec.ofNat 40 n.length else 0xFFFFFFFFFF
      lastSeen := s.time.uptime
      saturated := e.saturated || decide (2 ^ 32 ≤ e.frames.toNat + 1) || decide (2 ^ 40 ≤ e.bytes.toNat + n.length)
      merged := e.merged || (decide (e.dirField = .merged) && decide (n.dir ≠ e.origin)) } := by
    unfold FlowEntry.hit
    rw [saturatingAdd_eq, saturatingAdd_eq]
    cases e.dirField <;> cases n.dir <;> cases e.origin <;> rfl
  simp only [updateBucket, noticeTaken_flow, noticeTaken_cls, noticeTaken_now]
  rw [hlook]
  dsimp only
  rw [he]
  dsimp only
  rw [hit, setEntry, noticeTaken_flow]

/-- The ways of a bucket, by number. -/
theorem bucketIndices_eq (b : Nat) : bucketIndices b = [4 * b, 4 * b + 1, 4 * b + 2, 4 * b + 3] := by
  simp only [bucketIndices, entryIndex, Nat.mul_comm b 4, Nat.add_zero]

theorem FlowTable.freeWay_eq_some {f : FlowTable} {b i : Nat} (hi : i / 4 = b) (hf : f.entry i = none)
    (hlow : ∀ j, j / 4 = b → j < i → f.entry j ≠ none) : f.freeWay b = some i := by
  have taken : ∀ j, j / 4 = b → j < i → (f.entry j).isNone = false := fun j h1 h2 => by
    simpa [Option.isSome_iff_ne_none] using hlow j h1 h2
  rw [FlowTable.freeWay, bucketIndices_eq]
  rcases (by omega : i = 4 * b ∨ i = 4 * b + 1 ∨ i = 4 * b + 2 ∨ i = 4 * b + 3) with h | h | h | h <;> rw [h] at hf taken
  · simp [List.find?, hf, h]
  · simp [List.find?, hf, h, taken (4 * b) (by omega) (by omega)]
  · simp [List.find?, hf, h, taken (4 * b) (by omega) (by omega), taken (4 * b + 1) (by omega) (by omega)]
  · simp [List.find?, hf, h, taken (4 * b) (by omega) (by omega), taken (4 * b + 1) (by omega) (by omega),
      taken (4 * b + 2) (by omega) (by omega)]

theorem FlowTable.freeWay_eq_none {f : FlowTable} {b : Nat} (h : ∀ j, j / 4 = b → f.entry j ≠ none) :
    f.freeWay b = none := by
  rw [FlowTable.freeWay, List.find?_eq_none]
  intro j hj
  simpa using h j (mem_bucketIndices.1 hj)

/-- The victim is the way of the largest age, the lowest among equals (R51). -/
theorem FlowTable.victim_eq {f : FlowTable} {now : Word} {b i : Nat} (hi : i / 4 = b)
    (hold : ∀ j, j / 4 = b → f.age now j ≤ f.age now i ∧ (j < i → f.age now j < f.age now i)) : f.victim now b = i := by
  have h0 := hold (4 * b) (by omega)
  have h1 := hold (4 * b + 1) (by omega)
  have h2 := hold (4 * b + 2) (by omega)
  have h3 := hold (4 * b + 3) (by omega)
  simp only [FlowTable.victim, entryIndex, Nat.mul_comm b 4, Nat.add_zero, List.foldl_cons, List.foldl_nil]
  rcases (by omega : i = 4 * b ∨ i = 4 * b + 1 ∨ i = 4 * b + 2 ∨ i = 4 * b + 3) with rfl | rfl | rfl | rfl <;>
    split_ifs <;> omega

theorem FlowTable.age_of_entry {f : FlowTable} {now : Word} {i : Nat} {e : FlowEntry} (h : f.entry i = some e) :
    f.age now i = (now - e.lastSeen).toNat := by
  rw [FlowTable.age, h]
  rfl

theorem insertFlow_setFlow (i : Nat) (e : FlowEntry) (s : State) (f : FlowTable) : insertFlow i e (s.setFlow f)
    = s.setFlow { f with
        entries := SMap.insert f.entries i e
        counters := { f.counters with
          inserts := f.counters.inserts + 1, activeEntries := f.counters.activeEntries + 1 } } := rfl

/-- In a full bucket under EVICT_OLDEST, with room in the Record Queue, the victim makes way (R51, R52). -/
theorem updateBucket_evicts {n : Notice} {d : Decision} {t : BitVec 3} {f : DirField} {key : List Byte} {s : State} {i : Nat}
    {e : FlowEntry} (hlook : s.flow.lookup (flowBucket s.flow.seed t f key) t f key = none)
    (hfree : s.flow.freeWay (flowBucket s.flow.seed t f key) = none) (hpol : s.flow.policy = .evictOldest)
    (hroom : s.rq.count < 256) (hvictim : s.flow.victim s.now (flowBucket s.flow.seed t f key) = i)
    (he : s.flow.entry i = some e) :
    let u := closeFlow i e .evicted s
    updateBucket n d t f key s = (insertFlow i (n.newEntry d t f key s.now) (u.setFlow { u.flow with
      counters := { u.flow.counters with evictions := u.flow.counters.evictions + 1 } }), some i) := by
  have hroom' : s.rq.hasRoom = true := decide_eq_true hroom
  simp only [updateBucket, hlook, hfree, hpol, hroom', if_true, hvictim, he]

/-- Settles O28. -/
theorem insertTakesTheLowestFreeWay : Obligations.InsertTakesTheLowestFreeWay := by
  intro p s n rest d t i hn hfit hd ht hdef hfits f key b fresh hlook hi
  have measured : frameEndUpdate n (noticeTaken p rest s) = updateBucket n d t f key (noticeTaken p rest s) := by
    rw [frameEndUpdate_measured hfit hd ht (by simpa using hdef) (by simpa using hfits), noticeTaken_cls]
  have hlook' : s.flow.lookup (flowBucket s.flow.seed t f key) t f key = none := hlook
  have hfresh : n.newEntry d t f key s.time.uptime = fresh := rfl
  refine ⟨fun hfree hlow => ?_, fun e hfull hpol hroom hheld he hold => ?_⟩
  · refine exec_frameEndUpdate_flow hn (measured.trans ?_)
    simp only [updateBucket, noticeTaken_flow, noticeTaken_now, hlook',
      show s.flow.freeWay (flowBucket s.flow.seed t f key) = some i from FlowTable.freeWay_eq_some hi hfree hlow, hfresh,
      insertFlow, setEntry, State.setFlow_flow]
    rfl
  · have hvictim : s.flow.victim s.time.uptime (flowBucket s.flow.seed t f key) = i := FlowTable.victim_eq hi fun j hj => by
      obtain ⟨g, hg⟩ := Option.ne_none_iff_exists'.1 (hfull j hj)
      rw [FlowTable.age_of_entry hg, FlowTable.age_of_entry he]
      exact hold j g hj hg
    have closes := closeFlow_spec buildReport_isBuilt i e .evicted (s := noticeTaken p rest s) (by simpa using hheld)
    refine ⟨closeFlow i e .evicted (noticeTaken p rest s), closes, ?_⟩
    have hport : (closeFlow i e .evicted (noticeTaken p rest s)).port p = { s.port p with flowNotices := rest } := by
      rw [closeFlow, appendRecord_only (e.record i .evicted) (freeEntry i (noticeTaken p rest s))]
      exact noticeTaken_port p rest s
    refine exec_frameEndUpdate hn (measured.trans ?_) ((State.setFlow_port _ _ _).trans hport)
    rw [updateBucket_evicts (by simpa using hlook') (by simpa using FlowTable.freeWay_eq_none hfull) (by simpa using hpol)
      (by simpa using hroom) (by simpa using hvictim) (by simpa using he), insertFlow_setFlow, noticeTaken_now, hfresh]

/-- Settles O29. -/
theorem unmeasuredFramesChangeNoEntry : Obligations.UnmeasuredFramesChangeNoEntry := by
  intro p s n rest hn handed c
  refine ⟨fun hfit => ?_, fun d t hfit hd ht => ?_⟩
  · refine exec_frameEndUpdate_flow (f := s.flow) hn ?_
    have kept : (noticeTaken p rest s).setFlow s.flow = noticeTaken p rest s := by
      conv_rhs => rw [noticeTaken]
      cases p <;> rfl
    rw [frameEndUpdate, hfit, kept]
    exact if_neg (by decide)
  intro m f key b
  refine ⟨fun hkey => ?_, fun hdef hfits hlook hfull => ?_⟩
  · refine exec_frameEndUpdate_flow hn ?_
    have bad : (m.defined && m.fits n.length) = false := by
      rcases hkey with h | h <;> simp [h]
    simp only [frameEndUpdate, hfit, if_true, hd, ht, noticeTaken_cls]
    rw [if_neg (by rw [bad]; decide), countKeyShort, noticeTaken_flow]
  · have hlook' : s.flow.lookup (flowBucket s.flow.seed t f key) t f key = none := hlook
    have hfree : s.flow.freeWay (flowBucket s.flow.seed t f key) = none := FlowTable.freeWay_eq_none fun j hj => by
      have := hfull (j - 4 * b) (by omega)
      rwa [show 4 * b + (j - 4 * b) = j by omega] at this
    have measured : frameEndUpdate n (noticeTaken p rest s) = updateBucket n d t f key (noticeTaken p rest s) := by
      rw [frameEndUpdate_measured hfit hd ht (by simpa using hdef) (by simpa using hfits), noticeTaken_cls]
    refine ⟨fun hpol => ?_, fun hpol hroom => ?_⟩ <;> refine exec_frameEndUpdate_flow hn (measured.trans ?_)
    · simp only [updateBucket, noticeTaken_flow, hlook', hfree, hpol, c]
    · simp only [updateBucket, noticeTaken_flow, noticeTaken_rq, hlook', hfree, hpol, RecordQueue.hasRoom,
        decide_eq_false (Nat.not_lt.2 hroom), Bool.false_eq_true, if_false, c]

/-! ## Management's access to entries and to the walker (R57, R58, R60, R75, R79) -/

/-- Settles O30. -/
theorem closeEntryClosesTheEntry : Obligations.CloseEntryClosesTheEntry := by
  intro v s at_ noted s0
  have row : ∀ u r, writeCloseEntry v s = (u, r) → exec (.closeEntry v) s = .next (noted r u) := fun u r h =>
    congrArg Host.Outcome.next (present_eq h _ _)
  have flow : s0.flow.entry = s.flow.entry := rfl
  have inRange : v.toNat ≤ 16383 → writeCloseEntry v s = match s.flow.entry v.toNat with
      | none => (s0, .rejected .notActive)
      | some e => if s.rq.hasRoom then (closeFlow v.toNat e .closed s0, .ok) else (s0, .busy) := fun h => by
    rw [writeCloseEntry, closeSelected, if_pos h]
    rfl
  refine ⟨fun h => row _ _ ?_, fun h he => row _ _ ?_, fun e h he => ⟨fun hq => row _ _ ?_, fun hq hheld =>
    ⟨_, closeFlow_spec buildReport_isBuilt _ _ _ hheld, row _ _ ?_⟩⟩⟩
  · exact if_neg (by omega)
  · rw [inRange h, he]
  · rw [inRange h, he]
    exact if_neg (by simpa [RecordQueue.hasRoom] using hq)
  · rw [inRange h, he]
    exact if_pos (by simpa [RecordQueue.hasRoom] using hq)

/-- Settles O31. -/
theorem entrySelectTakesASnapshot : Obligations.EntrySelectTakesASnapshot := by
  intro v s at_
  have row : ∀ u r, writeEntrySelect v s = (u, r) →
      exec (.entrySelect v) s = .next (noteTaken at_ r { u with lastResult := some r }) := fun u r h =>
    congrArg Host.Outcome.next (present_eq h _ _)
  exact ⟨fun h => row (s.setFlow _) _ (if_pos h), fun h => row s _ (if_neg (by omega))⟩

theorem selectorOf_eq (sel : BitVec 2) : selectorOf sel
    = if sel = 3 then none else some (if sel = 0 then .all else if sel = 1 then .byRule else .byTemplate) := by
  revert sel
  decide

theorem argumentLegal_iff {sel : BitVec 2} {a : BitVec 8} (h : sel ≠ 3) :
    argumentLegal (if sel = 0 then .all else if sel = 1 then .byRule else .byTemplate) a = true
      ↔ ¬ (sel = 3 ∨ (sel = 1 ∧ 64 < a.toNat) ∨ (sel = 2 ∧ 7 < a.toNat)) := by
  have cases4 : sel = 0 ∨ sel = 1 ∨ sel = 2 ∨ sel = 3 := by
    revert sel
    decide
  rcases cases4 with rfl | rfl | rfl | rfl
  · simp [argumentLegal]
  · simp [argumentLegal]
  · simp [argumentLegal]
  · exact absurd rfl h

/-- Settles O33. -/
theorem tableOpsStartTheWalker : Obligations.TableOpsStartTheWalker := by
  constructor
  · intro sel a s at_ noted bad
    have row : ∀ u r, startFlush sel a s = (u, r) → exec (.flush sel a) s = .next (noted r u) := fun u r h =>
      congrArg Host.Outcome.next (present_eq h _ _)
    refine ⟨fun h => row _ _ ?_, fun h hr => row _ _ ?_, fun h hr => row _ _ ?_⟩
    · rw [startFlush, selectorOf_eq]
      by_cases h3 : sel = 3
      · rw [if_pos h3]
      · rw [if_neg h3]
        dsimp only
        rw [if_neg (by rw [argumentLegal_iff h3]; exact fun k => k h)]
    · rw [startFlush, selectorOf_eq, if_neg fun h3 => h (Or.inl h3)]
      dsimp only
      rw [if_pos ((argumentLegal_iff fun h3 => h (Or.inl h3)).2 h), if_pos hr]
    · rw [startFlush, selectorOf_eq, if_neg fun h3 => h (Or.inl h3)]
      dsimp only
      rw [if_pos ((argumentLegal_iff fun h3 => h (Or.inl h3)).2 h), if_neg hr]
      have hall : ((if sel = 0 then Selector.all else if sel = 1 then .byRule else .byTemplate) = .all) ↔ sel = 0 := by
        split_ifs <;> simp_all
      simp only [hall]
      rfl
  · intro s at_
    have row : ∀ u r, startClear s = (u, r) →
        exec .clearTable s = .next (noteTaken at_ r { u with lastResult := some r }) := fun u r h =>
      congrArg Host.Outcome.next (present_eq h _ _)
    refine ⟨fun h => row s _ (if_pos h), fun h => row (s.setWalker
      { state := .running, kind := .clear, selector := .all, argument := 0, position := 0, way := 0, stalled := false,
        count := 0, flushAborted := decide (s.walker.state = .running) }) _ ?_⟩
    rw [startClear, if_neg h]
    cases s.walker.state <;> rfl

end Sys2Proof.Machine
end

section
/-!
PROOFS. The Sweeper and the table operations (R69 to R79), the end of a capture (R92 to R94) and the words of a ring (R85 to R87).
-/

namespace Sys2Proof.Machine

-- One proof after another: elaborated side by side, the proofs of this file take more threads than the check's limits hold.
set_option Elab.async false

/-! ## The Sweeper (R69 to R72) -/

/-- No more records are IN_REPORT than are held (R103). -/
def QueueOrdered (s : State) : Prop := s.rq.inReport ≤ s.rq.count

theorem appendRecord_sweep (r : FlowRecord) (s : State) : (appendRecord r s).sweep = s.sweep := by
  rw [appendRecord_only r s]

theorem appendRecord_walker (r : FlowRecord) (s : State) : (appendRecord r s).walker = s.walker := by
  rw [appendRecord_only r s]

theorem hasRoom_iff (s : State) : s.rq.hasRoom = true ↔ s.rq.count < 256 := decide_eq_true_iff

theorem Sweeper.isIdle_iff (w : Sweeper) (now : Word) (e : FlowEntry) :
    w.isIdle now e = true ↔ w.idleTimeout * 1000 ≤ (now - e.lastSeen).toNat := decide_eq_true_iff

theorem Sweeper.isLongLived_iff (w : Sweeper) (now : Word) (e : FlowEntry) : w.isLongLived now e = true
    ↔ w.activeTimeout ≠ 0 ∧ w.activeTimeout * 1000 ≤ (now - e.firstSeen).toNat := by
  rw [Sweeper.isLongLived, Bool.and_eq_true, bne_iff_ne, decide_eq_true_iff]
  rfl

/-- One way at a visit is as `VisitsWay` says. -/
theorem visitWay_spec {s : State} (i : Nat) (h : QueueOrdered s) : VisitsWay i s (visitWay s i) := by
  refine ⟨fun hn => by rw [visitWay, hn], fun e he => ?_⟩
  intro idle long c restarted
  have hidle := s.sweep.isIdle_iff s.now e
  have hlong := s.sweep.isLongLived_iff s.now e
  have whole : visitWay s i = if s.sweep.isIdle s.now e then
      if s.rq.hasRoom then (closeFlow i e .idle s).countAge fun c => { c with idleCloses := c.idleCloses + 1 }
      else s.countAge fun c => { c with sweepDeferred := c.sweepDeferred + 1 }
    else if s.sweep.isLongLived s.now e then
      if s.rq.hasRoom then
        (appendRecord (e.record i .active) (setEntry i (e.exported s.now) s)).countAge
          fun c => { c with activeExports := c.activeExports + 1 }
      else s.countAge fun c => { c with sweepDeferred := c.sweepDeferred + 1 }
    else s := by rw [visitWay, he]
  refine ⟨fun hi hr => ⟨_, closeFlow_spec buildReport_isBuilt i e .idle h, ?_⟩,
    fun hi hl hr => ⟨_, appendRecord_spec buildReport_isBuilt (e.record i .active) (s := setEntry i (e.exported s.now) s) h, ?_⟩,
    fun hil hr => ?_, fun hi hl => ?_⟩
  · rw [whole, if_pos (hidle.2 hi), if_pos ((hasRoom_iff s).2 hr), State.countAge, closeFlow, appendRecord_sweep]
    rfl
  · rw [whole, if_neg fun k => hi (hidle.1 k), if_pos (hlong.2 hl), if_pos ((hasRoom_iff s).2 hr), State.countAge,
      appendRecord_sweep]
    rfl
  · have full : ¬ s.rq.hasRoom = true := fun k => Nat.not_lt.2 hr ((hasRoom_iff s).1 k)
    by_cases hi : s.sweep.isIdle s.now e = true
    · rw [whole, if_pos hi, if_neg full]
      rfl
    · have hl : long := hil.resolve_left fun k => hi (hidle.2 k)
      rw [whole, if_neg hi, if_pos (hlong.2 hl), if_neg full]
      rfl
  · rw [whole, if_neg fun k => hi (hidle.1 k), if_neg fun k => hl (hlong.1 k)]

/-- A visit of a way keeps the queue's order, and of the Sweeper all but its counters. -/
theorem visitWay_keeps {s : State} (i : Nat) (h : QueueOrdered s) :
    QueueOrdered (visitWay s i) ∧ ∃ c, (visitWay s i).sweep = { s.sweep with counters := c } := by
  unfold visitWay
  split
  · exact ⟨h, s.sweep.counters, rfl⟩
  · rename_i e he
    split_ifs
    · refine ⟨appendRecord_held _ (s := freeEntry i s) h, ?_⟩
      rw [State.countAge, closeFlow, appendRecord_sweep]
      exact ⟨_, rfl⟩
    · exact ⟨h, _, rfl⟩
    · refine ⟨appendRecord_held _ (s := setEntry i (e.exported s.now) s) h, ?_⟩
      rw [State.countAge, appendRecord_sweep]
      exact ⟨_, rfl⟩
    · exact ⟨h, _, rfl⟩
    · exact ⟨h, s.sweep.counters, rfl⟩

/-- Settles O32. -/
theorem sweeperVisitsItsBucket : Obligations.SweeperVisitsItsBucket := by
  intro s due
  have hdue : s.sweep.due s.now = true ↔ due := decide_eq_true_iff
  have row : due → exec .sweeperVisit s = .next (((bucketIndices s.sweep.position).foldl visitWay s).setSweep
      ((bucketIndices s.sweep.position).foldl visitWay s).sweep.advance) := fun h => if_pos (hdue.2 h)
  refine ⟨fun h => if_neg fun k => h (hdue.1 k), fun h h0 => ?_⟩
  intro i
  obtain ⟨h1, c1, e1⟩ := visitWay_keeps i h0
  obtain ⟨h2, c2, e2⟩ := visitWay_keeps (i + 1) h1
  obtain ⟨h3, c3, e3⟩ := visitWay_keeps (i + 2) h2
  obtain ⟨-, c4, e4⟩ := visitWay_keeps (i + 3) h3
  rw [e3, e2, e1] at e4
  refine ⟨_, _, _, _, visitWay_spec i h0, visitWay_spec (i + 1) h1, visitWay_spec (i + 2) h2, visitWay_spec (i + 3) h3, ?_⟩
  rw [row h, bucketIndices_eq, List.foldl_cons, List.foldl_cons, List.foldl_cons, List.foldl_cons, List.foldl_nil,
    show 4 * s.sweep.position = i from rfl]
  generalize visitWay (visitWay (visitWay (visitWay s i) (i + 1)) (i + 2)) (i + 3) = u at e4
  refine ⟨fun hp => ?_, fun hp => ?_⟩
  · rw [Sweeper.advance, e4, if_pos hp]
    rfl
  · rw [Sweeper.advance, e4, if_neg (Nat.not_lt.2 hp)]
    rfl

/-! ## Flush (R76, R77) -/

theorem waysFrom_succ {w : Nat} (h : w < 4) : waysFrom w = w :: waysFrom (w + 1) := by
  revert w
  decide

theorem Walker.selects_iff (k : Walker) (e : FlowEntry) : k.selects e = true ↔ k.selector = .all
    ∨ (k.selector = .byRule ∧ e.rule = k.argument) ∨ (k.selector = .byTemplate ∧ e.template.toNat = k.argument) := by
  unfold Walker.selects
  cases k.selector <;> simp

/-- One flush of an entry, with its counts. -/
def flushedAt (i : Nat) (e : FlowEntry) (s : State) : State :=
  let u := closeFlow i e .flushed s
  { u with
    sweep := { s.sweep with counters := { s.sweep.counters with flushed := s.sweep.counters.flushed + 1 } }
    walker := { s.walker with count := s.walker.count + 1 } }

theorem flushWays_cons (w : Nat) (rest : List Nat) (s : State) : flushWays (w :: rest) s =
    match s.flow.entry (4 * s.walker.position + w) with
    | none => flushWays rest s
    | some e =>
      if s.walker.selects e then
        if s.rq.hasRoom then flushWays rest (flushedAt (4 * s.walker.position + w) e s)
        else s.setWalker { s.walker with stalled := true, way := w }
      else flushWays rest s := by
  rw [flushWays, entryIndex, Nat.mul_comm]
  dsimp only
  cases s.flow.entry (4 * s.walker.position + w) with
  | none => rfl
  | some e =>
    dsimp only
    congr 3
    rw [State.countAge, flushedAt, closeFlow, appendRecord_sweep, State.setSweep_walker, appendRecord_walker]
    rfl

/-- The walk over the ways of its bucket is as `Flushes` says. -/
theorem flushWays_spec {b : Nat} (hb : b < 4096) : ∀ (n w : Nat) (s : State), n + w = 4 → s.walker.position = b →
    QueueOrdered s → Flushes b w s (flushWays (waysFrom w) s) := by
  intro n
  induction n with
  | zero =>
    intro w s hw hp _
    obtain rfl : w = 4 := by omega
    have past : flushWays (waysFrom 4) s = { s with walker := { s.walker with
        way := 0, position := b + 1, state := if b = 4095 then .done else s.walker.state } } := by
      show s.setWalker s.walker.advance = _
      rw [Walker.advance, hp]
      by_cases hl : b < 4095
      · rw [if_pos hl, if_neg (by omega)]
        rfl
      · obtain rfl : b = 4095 := by omega
        rfl
    rw [past]
    exact .past
  | succ n ih =>
    intro w s hw hp hq
    rw [waysFrom_succ (by omega), flushWays_cons, hp]
    cases he : s.flow.entry (4 * b + w) with
    | none => exact .pass (by omega) (by simp [he]) (ih (w + 1) s (by omega) hp hq)
    | some e =>
      dsimp only
      by_cases hs : s.walker.selects e = true
      · rw [if_pos hs]
        by_cases hr : s.rq.hasRoom = true
        · rw [if_pos hr]
          exact .close (by omega) he ((s.walker.selects_iff e).1 hs) ((hasRoom_iff s).1 hr)
            (closeFlow_spec buildReport_isBuilt _ _ _ hq)
            (ih (w + 1) (flushedAt (4 * b + w) e s) (by omega) hp (appendRecord_held _ (s := freeEntry (4 * b + w) s) hq))
        · rw [if_neg hr]
          exact .stall (by omega) he ((s.walker.selects_iff e).1 hs) (Nat.not_lt.1 fun k => hr ((hasRoom_iff s).2 k))
      · rw [if_neg hs]
        refine .pass (by omega) (fun f hf => ?_) (ih (w + 1) s (by omega) hp hq)
        cases he.symm.trans hf
        exact fun k => hs ((s.walker.selects_iff e).2 k)

/-- Settles O34. -/
theorem flushClosesAMatchingEntry : Obligations.FlushClosesAMatchingEntry := by
  intro s hrun hkind hpos hway hq
  refine ⟨fun h => ⟨_, flushWays_spec hpos (4 - s.walker.way) _ s (by omega) rfl hq, if_pos ⟨hrun, hkind, h⟩⟩,
    fun h => if_neg fun k => ?_, fun h hr => ⟨_, flushWays_spec hpos (4 - s.walker.way) _ _ (by omega) rfl hq,
      if_pos ⟨hrun, hkind, h, (hasRoom_iff s).2 hr⟩⟩, fun h hr => if_neg fun k => ?_⟩
  · exact absurd (h.symm.trans k.2.2) (by decide)
  · exact absurd ((hasRoom_iff s).1 k.2.2.2) (Nat.not_lt.2 hr)

/-! ## Clear (R79) -/

/-- `n` entries cleared from `s` to `t`, those of the indices `l` that were ACTIVE. -/
structure ClearsEntries (l : List Nat) (s t : State) : Prop where
  entry : ∀ j, t.flow.entry j = if j ∈ l then none else s.flow.entry j
  whole : ∀ k, k = (l.filter fun i => (s.flow.entry i).isSome).length →
    t.flow = { s.flow with
        entries := t.flow.entries
        counters := { s.flow.counters with activeEntries := s.flow.counters.activeEntries - word k } }
      ∧ t = { s with
        flow := t.flow
        sweep := { s.sweep with counters := { s.sweep.counters with cleared := s.sweep.counters.cleared + word k } }
        walker := { s.walker with count := s.walker.count + k } }

theorem foldl_clearWay_clears : ∀ (l : List Nat) (s : State), l.Nodup → ClearsEntries l s (l.foldl clearWay s)
  | [], s, _ => ⟨fun j => by simp, fun k hk => by subst hk; simp⟩
  | i :: l, s, h => by
    obtain ⟨hi, hl⟩ := List.nodup_cons.1 h
    obtain ⟨hentry, hwhole⟩ := foldl_clearWay_clears l (clearWay s i) hl
    rw [List.foldl_cons]
    generalize l.foldl clearWay (clearWay s i) = t at hentry hwhole
    have cleared : ∀ j, (clearWay s i).flow.entry j = if j = i then none else s.flow.entry j := fun j => by
      unfold clearWay
      cases he : s.flow.entry i with
      | none =>
        by_cases hj : j = i
        · simp [hj, he]
        · simp [hj]
      | some e => exact SMap.find_erase _ _ _
    refine ⟨fun j => ?_, fun k hk => ?_⟩
    · rw [hentry, cleared]
      by_cases hj : j = i <;> by_cases hm : j ∈ l <;> simp [hj, hm]
    · have rest : (l.filter fun a => ((clearWay s i).flow.entry a).isSome) = l.filter fun a => (s.flow.entry a).isSome :=
        List.filter_congr fun a ha => by
          have hne : a ≠ i := fun h => hi (h ▸ ha)
          rw [cleared, if_neg hne]
      obtain ⟨hf, ht⟩ := hwhole _ rfl
      rw [rest] at hf ht
      cases he : s.flow.entry i with
      | none =>
        have same : clearWay s i = s := by rw [clearWay, he]
        rw [List.filter_cons, he] at hk
        rw [same] at hf ht
        subst hk
        exact ⟨hf, ht⟩
      | some e =>
        rw [List.filter_cons, he] at hk
        have one : clearWay s i = { s with
            flow := { s.flow with
              entries := SMap.erase s.flow.entries i
              counters := { s.flow.counters with activeEntries := s.flow.counters.activeEntries - 1 } }
            sweep := { s.sweep with counters := { s.sweep.counters with cleared := s.sweep.counters.cleared + 1 } }
            walker := { s.walker with count := s.walker.count + 1 } } := by
          rw [clearWay, he]
          rfl
        rw [one] at hf ht
        have hk' : k = (l.filter fun a => (s.flow.entry a).isSome).length + 1 := by simpa using hk
        generalize (l.filter fun a => (s.flow.entry a).isSome).length = m at hf ht hk'
        subst hk'
        have down : ∀ x : Word, x - 1 - word m = x - word (m + 1) := fun x => by
          rw [word_add, sub_sub]
          exact congrArg (x - ·) (add_comm _ _)
        have up : ∀ x : Word, x + 1 + word m = x + word (m + 1) := fun x => by
          rw [word_add, add_assoc]
          exact congrArg (x + ·) (add_comm _ _)
        refine ⟨?_, ?_⟩
        · rw [← down]
          exact hf
        · rw [← up, show s.walker.count + (m + 1) = s.walker.count + 1 + m by omega]
          exact ht

/-- Settles O35. -/
theorem clearFreesTheBucket : Obligations.ClearFreesTheBucket := by
  intro s hrun hkind hpos k
  have hnodup : (bucketIndices s.walker.position).Nodup := by
    rw [bucketIndices_eq]
    simp
  have hk : k = ((bucketIndices s.walker.position).filter fun i => (s.flow.entry i).isSome).length := by
    have ways : bucketIndices s.walker.position = (List.range 4).map (4 * s.walker.position + ·) := bucketIndices_eq _
    rw [ways, List.filter_map, List.length_map]
    rfl
  obtain ⟨hentry, hwhole⟩ := foldl_clearWay_clears (bucketIndices s.walker.position) s hnodup
  obtain ⟨hflow, ht⟩ := hwhole k hk
  refine ⟨_, if_pos ⟨hrun, hkind⟩, ?_⟩
  dsimp only
  generalize (bucketIndices s.walker.position).foldl clearWay s = t at hentry hflow ht
  have hwalker : t.walker = { s.walker with count := s.walker.count + k } := by rw [ht]
  have advanced : t.walker.advance = { s.walker with
      count := s.walker.count + k, way := 0, position := s.walker.position + 1,
      state := if s.walker.position = 4095 then .done else .running } := by
    rw [Walker.advance, hwalker]
    by_cases hl : s.walker.position < 4095
    · rw [if_pos hl, if_neg (by omega), ← hrun]
    · rw [if_neg hl, if_pos (by omega), show s.walker.position = 4095 by omega]
  refine ⟨fun j => ?_, hflow, ?_⟩
  · rw [State.setWalker_flow, hentry]
    simp only [mem_bucketIndices]
  · rw [advanced, State.setWalker_flow]
    conv_lhs => rw [ht]
    rfl

/-! ## The end of a capture (R92 to R94) -/

/-- The ring found for a notice is the one that fills its frame's capture. -/
theorem fillingRing_eq {s : State} {n : Notice} {id : RingId} {f : Filling} (hc : (s.ring id).capture = some f)
    (hd : f.dir = n.dir) (hs : f.serial = n.serial)
    (hother : ∀ q h, q ≠ id → (s.ring q).capture = some h → h.dir = n.dir → h.serial ≠ n.serial) :
    fillingRing s n.dir n.serial = some id := by
  cases hf : fillingRing s n.dir n.serial with
  | none =>
    have hall : id ∈ allRings := by fin_cases id <;> decide
    have := List.find?_eq_none.1 hf id hall
    exact absurd (by simp [Ring.fillingFor, hc, hd, hs]) this
  | some q =>
    obtain ⟨h, hq, hdir, hserial⟩ := fillingRing_capture hf
    by_contra hne
    exact hother q h (fun e => hne (by rw [e])) hq hdir hserial

theorem fillingRing_none {s : State} {n : Notice}
    (h : ∀ r f, (s.ring r).capture = some f → f.dir = n.dir → f.serial ≠ n.serial) :
    fillingRing s n.dir n.serial = none := by
  cases hf : fillingRing s n.dir n.serial with
  | none => rfl
  | some q =>
    obtain ⟨f, hq, hdir, hserial⟩ := fillingRing_capture hf
    exact absurd hserial (h q f hq hdir)

/-- The Hold Timer's rule where material has come to `v` since `s` (R108). -/
theorem holdAfterMaterial_come {s v : State} (hv : hasMaterial v = true) (hrep : v.rep = s.rep) (hnow : v.now = s.now) :
    holdAfterMaterial (hasMaterial s) v = v.setRep { s.rep with hold := holdStarted s } := by
  unfold holdAfterMaterial holdStarted
  have starts : (!hasMaterial s && s.rep.hold.isNone && !s.rep.buildPending) = true
      ↔ hasMaterial s = false ∧ s.rep.hold = none ∧ s.rep.buildPending = false := by
    simp [Option.isNone_iff_eq_none, and_assoc]
  rw [if_pos hv, hrep, hnow]
  by_cases h : hasMaterial s = false ∧ s.rep.hold = none ∧ s.rep.buildPending = false
  · rw [if_pos (starts.2 h), if_pos h]
    rfl
  · rw [if_neg fun k => h (starts.1 k), if_neg h, ← hrep]
    cases v
    rfl

theorem RingArranged.active_of_capture {g : Ring} {f : Filling} (h : RingArranged g) (hc : g.capture = some f) :
    g.active = true := by
  obtain ⟨-, inactive, -⟩ := h
  by_contra hn
  obtain ⟨-, -, -, -, none, -⟩ := inactive (by simpa using hn)
  exact absurd (none.symm.trans hc) (by simp)

/-- What a completion makes of each descriptor of the ring (R88, R92). -/
structure DescriptorsComplete (g h : Ring) (n : Notice) (e : Option Nat) (u : Nat) : Prop where
  used : ∀ k, k < u → h.desc ((g.fill + k) % g.size) = { g.desc ((g.fill + k) % g.size) with
    state := .filled
    last := decide (k + 1 = u)
    info := if k = 0 then (g.desc ((g.fill + k) % g.size)).info.map fun i =>
        { i with length := some n.length, flag := n.ending, entry := e }
      else (g.desc ((g.fill + k) % g.size)).info }
  unused : ∀ k, u ≤ k → k < g.filling →
    h.desc ((g.fill + k) % g.size) = { g.desc ((g.fill + k) % g.size) with state := .free }
  others : ∀ j, (∀ k, k < g.filling → j ≠ (g.fill + k) % g.size) → h.desc j = g.desc j

theorem Ring.complete_descriptors {g : Ring} (ha : RingArranged g) {f : Filling} (hc : g.capture = some f) (n : Notice)
    (hn : 1 ≤ n.length) (e : Option Nat) :
    DescriptorsComplete g (g.complete f n.length n.ending e) n e (descriptorsOf (min f.slice n.length)) := by
  have hactive := ha.active_of_capture hc
  obtain ⟨zones, -, owned, sliced, -⟩ := ha
  obtain ⟨hsum, -, -, -, -, -, -, -, -, -, marks⟩ := zones hactive
  have hslice := sliced f hc
  obtain ⟨hdesc, -⟩ := g.complete_spec f n.length n.ending e
  have hu0 : 1 ≤ descriptorsOf (min f.slice n.length) := by
    unfold descriptorsOf ceilDiv
    omega
  have hu : descriptorsOf (min f.slice n.length) ≤ g.filling := by
    rw [owned, hc]
    unfold descriptorsOf ceilDiv
    dsimp only
    omega
  generalize descriptorsOf (min f.slice n.length) = u at hdesc hu0 hu ⊢
  have atPlace : ∀ a k m, a + m ≤ g.filling → k < g.filling →
      ((g.fill + k) % g.size ∈ g.positions (g.fill + a) m ↔ a ≤ k ∧ k < a + m) := by
    intro a k m ham hk
    rw [Ring.mem_positions]
    constructor
    · rintro ⟨j, hj, h⟩
      rw [Nat.add_assoc] at h
      have := place_unique (by omega) (by omega) h
      omega
    · rintro ⟨h1, h2⟩
      exact ⟨k - a, by omega, by rw [show g.fill + a + (k - a) = g.fill + k by omega]⟩
  have isPlace : ∀ k m, k < g.filling → m < g.filling → ((g.fill + k) % g.size = (g.fill + m) % g.size ↔ k = m) :=
    fun k m hk hm => ⟨fun h => place_unique (by omega) (by omega) h, fun h => by rw [h]⟩
  have hfirst : g.fill % g.size = (g.fill + 0) % g.size := by rw [Nat.add_zero]
  have hlast : (g.fill + u - 1) % g.size = (g.fill + (u - 1)) % g.size := by rw [show g.fill + u - 1 = g.fill + (u - 1) by omega]
  refine ⟨fun k hk => ?_, fun k h1 h2 => ?_, fun j hj => ?_⟩
  · obtain ⟨-, notLast⟩ := marks k (by omega)
    have inUsed : (g.fill + k) % g.size ∈ g.positions g.fill u := (atPlace 0 k u (by omega) (by omega)).2 (by omega)
    have notFreed : (g.fill + k) % g.size ∉ g.positions (g.fill + u) (g.filling - u) := fun h => by
      have := (atPlace u k _ (by omega) (by omega)).1 h
      omega
    rw [hdesc, if_neg notFreed, if_pos inUsed, hlast, hfirst]
    simp only [isPlace k (u - 1) (by omega) (by omega), isPlace k 0 (by omega) (by omega), notLast]
    by_cases hl : k + 1 = u
    · subst hl
      simp
    · simp [hl, show ¬ k = u - 1 by omega]
  · have inFreed : (g.fill + k) % g.size ∈ g.positions (g.fill + u) (g.filling - u) :=
      (atPlace u k _ (by omega) h2).2 (by omega)
    rw [hdesc, if_pos inFreed, hlast, hfirst, if_neg (by rw [isPlace k _ h2 (by omega)]; omega),
      if_neg (by rw [isPlace k _ h2 (by omega)]; omega)]
  · have notIn : ∀ a m, a + m ≤ g.filling → j ∉ g.positions (g.fill + a) m := fun a m ham h => by
      obtain ⟨k, hk, rfl⟩ := Ring.mem_positions.1 h
      exact hj (a + k) (by omega) (by rw [Nat.add_assoc])
    rw [hdesc, if_neg (notIn u _ (by omega)), if_neg (show j ∉ g.positions g.fill u from notIn 0 u (by omega)), hlast, hfirst, if_neg (hj _ (by omega)),
      if_neg (hj _ (by omega))]

theorem exec_captureCompletion {p : Port} {s : State} {n : Notice} {e : Option Nat} {rest : List (Notice × Option Nat)}
    (h : (s.port p).captureNotices = (n, e) :: rest) : exec (.captureCompletion p) s
      = .next (completeCapture n e (s.setPort p { s.port p with captureNotices := rest })) := by
  show execCaptureCompletion p s = _
  rw [execCaptureCompletion, h]

/-- Settles O36. -/
theorem noticeCompletesTheCapture : Obligations.NoticeCompletesTheCapture := by
  intro p s n e rest id f hnotice hreset hlen g harr hc hd hs hother u
  obtain ⟨used, unused, others⟩ := Ring.complete_descriptors harr hc n hlen e
  obtain ⟨-, hwhole⟩ := g.complete_spec f n.length n.ending e
  have hring : ∀ q, (s.setPort p { s.port p with captureNotices := rest }).ring q = s.ring q := fun q =>
    State.setPort_ring _ _ _ _
  have found : fillingRing (s.setPort p { s.port p with captureNotices := rest }) n.dir n.serial = some id :=
    fillingRing_eq (by rw [hring]; exact hc) hd hs fun q h hq => by rw [hring]; exact hother q h hq
  refine ⟨g.complete f n.length n.ending e, _, hwhole, used, unused, others, exec_captureCompletion hnotice, ?_⟩
  have run : completeCapture n e (s.setPort p { s.port p with captureNotices := rest })
      = pump (holdAfterMaterial (hasMaterial (s.setPort p { s.port p with captureNotices := rest }))
        ((s.setPort p { s.port p with captureNotices := rest }).setRing id (g.complete f n.length n.ending e))) := by
    rw [completeCapture, found]
    dsimp only
    rw [hreset, if_neg (by decide), hring, hc]
  have material : hasMaterial ((s.setPort p { s.port p with captureNotices := rest }).setRing id
      (g.complete f n.length n.ending e)) = true := by
    refine (hasMaterial_iff _).2 (.inr ⟨id, ?_⟩)
    rw [State.setRing_ring, if_pos rfl, hwhole]
    refine ⟨harr.active_of_capture hc, ?_⟩
    have hslice := harr.owned.2.1 f hc
    simp only [descriptorsOf, ceilDiv]
    omega
  have before : hasMaterial (s.setPort p { s.port p with captureNotices := rest }) = hasMaterial s := by cases p <;> rfl
  rw [run, before, holdAfterMaterial_come material (by simp) (by simp)]
  exact pump_isBuilds _

/-- Settles O37. -/
theorem noticeAbandonsTheCapture : Obligations.NoticeAbandonsTheCapture := by
  intro p s n e rest hnotice popped
  have hring : ∀ q, popped.ring q = s.ring q := fun q => State.setPort_ring _ _ _ _
  refine ⟨fun h => ?_, fun r f hreset hc hd hs hother => ⟨_, exec_captureCompletion hnotice, ?_⟩⟩
  · rw [exec_captureCompletion hnotice, completeCapture,
      fillingRing_none (s := s.setPort p { s.port p with captureNotices := rest }) fun r f => by
        rw [State.setPort_ring]; exact h r f]
  · have run : completeCapture n e (s.setPort p { s.port p with captureNotices := rest })
        = popped.setRing r (s.ring r).abandon := by
      rw [completeCapture, fillingRing_eq (id := r) (by rw [State.setPort_ring]; exact hc) hd hs
        fun q h hq => by rw [State.setPort_ring]; exact hother q h hq]
      dsimp only
      rw [hreset, if_pos rfl, State.setPort_ring]
    obtain ⟨zone, whole⟩ := (s.ring r).abandon_spec
    rw [run, State.setRing_ring, if_pos rfl]
    exact ⟨whole, zone, rfl⟩

/-! ## The words of a ring (R85 to R87) -/

theorem legalBaseCell_iff (n : Nat) : legalBaseCell n = true ↔ n ≤ 2040 ∧ n % 8 = 0 := by
  simp [legalBaseCell]

theorem legalRingSize_iff (n : Nat) : legalRingSize n = true ↔ n ∈ [8, 16, 32, 64, 128, 256, 512, 1024] := by
  rw [legalRingSize, List.contains_iff_mem]

theorem overlapsOther_iff (s : State) (r : RingId) : overlapsOther s r = true ↔
    ∃ o, o ≠ r ∧ (s.ring o).active = true ∧ (s.ring r).baseCell < (s.ring o).baseCell + (s.ring o).size
      ∧ (s.ring o).baseCell < (s.ring r).baseCell + (s.ring r).size := by
  have all : ∀ o : RingId, o ∈ allRings := fun o => by fin_cases o <;> decide
  simp [overlapsOther, Ring.overlaps, all, and_assoc]

/-- What a deactivation leaves of the Report Engine: only the Hold Timer and the request can go, and they go when the material
is gone (R108). -/
theorem holdAfterMaterial_gone {s v : State} (hrep : v.rep = s.rep) :
    let u := holdAfterMaterial (hasMaterial s) v
    u = v.setRep { s.rep with hold := u.rep.hold, buildPending := u.rep.buildPending }
      ∧ (hasMaterial u = false → u.rep.hold = none ∧ u.rep.buildPending = false)
      ∧ (hasMaterial u = true → hasMaterial s = true → u.rep = s.rep) := by
  obtain ⟨x, b, heq, hfits⟩ := holdAfterMaterial_fits (hasMaterial s) v
  have same : hasMaterial (holdAfterMaterial (hasMaterial s) v) = hasMaterial v := by rw [heq, hasMaterial_setRep]
  refine ⟨by rw [heq, ← hrep]; rfl, fun h => ?_, fun h hs => ?_⟩
  · rw [heq]
    exact hfits.resolve_left fun k => by rw [same, k] at h; cases h
  · rw [holdAfterMaterial, if_pos (same ▸ h), hs, if_neg (by simp), hrep]

/-- Settles O38. -/
theorem ringWordsAreWritten : Obligations.RingWordsAreWritten := by
  refine ⟨?_, ?_, ?_⟩
  · intro r k v s at_ noted legal
    have row : ∀ u x, writeRingConfig r k v s = (u, x) → exec (.ringConfigWrite r k v) s = .next (noted x u) :=
      fun u x h => congrArg Host.Outcome.next (present_eq h _ _)
    refine ⟨fun ha => row _ _ (if_pos ha), fun ha hl => row _ _ ?_, fun ha hl => row _ _ ?_⟩ <;>
      cases k <;> rw [writeRingConfig, if_neg (by rw [ha]; decide)]
    · exact if_neg fun h => hl ((legalBaseCell_iff _).1 h)
    · exact if_neg fun h => hl ((legalRingSize_iff _).1 h)
    · exact if_pos ((legalBaseCell_iff _).2 hl)
    · exact if_pos ((legalRingSize_iff _).2 hl)
  · intro r s g at_ noted overlap
    have row : ∀ u x, writeActivate r s = (u, x) → exec (.activate r) s = .next (noted x u) :=
      fun u x h => congrArg Host.Outcome.next (present_eq h _ _)
    refine ⟨fun ha => row _ _ (if_pos ha), fun ha hb => row _ _ ?_, fun ha hb ho => row _ _ ?_, fun ha hb ho =>
      ⟨g.activated, row _ _ ?_, ?_, g.freeAll_spec.1⟩⟩
    · rw [writeActivate, if_neg (by rw [ha]; decide), if_pos hb]
    · rw [writeActivate, if_neg (by rw [ha]; decide), if_neg (Nat.not_lt.2 hb), if_pos ((overlapsOther_iff s r).2 ho)]
    · rw [writeActivate, if_neg (by rw [ha]; decide), if_neg (Nat.not_lt.2 hb),
        if_neg fun h => ho ((overlapsOther_iff s r).1 h)]
    · rw [Ring.activated, g.freeAll_spec.2]
  · intro r s g at_ noted named
    have row : ∀ u x, writeDeactivate r s = (u, x) → exec (.deactivate r) s = .next (noted x u) :=
      fun u x h => congrArg Host.Outcome.next (present_eq h _ _)
    have hnamed : (s.cls.bank0.namesRing r || s.cls.bank1.namesRing r) = true ↔ named := Bool.or_eq_true_iff
    refine ⟨fun ha => row _ _ ?_, fun ha hn => row _ _ ?_, fun ha hn hz => row _ _ ?_, fun ha hn hf hi => ?_⟩
    · rw [writeDeactivate, if_neg (by rw [ha]; decide)]
    · rw [writeDeactivate, if_pos ha, if_pos (hnamed.2 hn)]
    · rw [writeDeactivate, if_pos ha, if_neg fun h => hn (hnamed.1 h), if_pos hz]
    · obtain ⟨whole, gone, kept⟩ := holdAfterMaterial_gone (s := s) (v := s.setRing r g.deactivated) rfl
      generalize hu : holdAfterMaterial (hasMaterial s) (s.setRing r g.deactivated) = u at whole gone kept
      have hring : ∀ q, u.ring q = if q = r then g.deactivated else s.ring q := fun q => by
        rw [whole, State.setRep_ring, State.setRing_ring]
      refine ⟨u, row _ _ ?_, ?_, fun i => ?_, ?_, fun q hq => by rw [hring, if_neg hq], ?_, ?_, gone, kept⟩
      · rw [writeDeactivate, if_pos ha, if_neg fun h => hn (hnamed.1 h), if_neg (by tauto)]
        exact congrArg (·, WordResult.ok) hu
      · rw [hring, if_pos rfl, Ring.deactivated, Ring.countCaptures_eq, Ring.capturesIn, g.freeAll_spec.2]
      · rw [hring, if_pos rfl]
        exact g.freeAll_spec.1 i
      · rw [whole]
        rfl
      · rw [whole]
        rfl
      · exact congrArg State.rep whole

end Sys2Proof.Machine
end

section
/-!
PROOFS. The layouts of what is produced (R138, R168, R170), the choice of an egress (R14) and the sending of frames (R13, R15,
R114).
-/

namespace Sys2Proof.Machine

-- One proof after another: elaborated side by side, the proofs of this file take more threads than the check's limits hold.
set_option Elab.async false

/-! ## Layouts (R100, R114, R138, R168, R170) -/

theorem flatten_singletons {α β : Type} (f : α → β) : ∀ l : List α, (l.map fun j => [f j]).flatten = l.map f
  | [] => rfl
  | a :: l => by rw [List.map_cons, List.flatten_cons, flatten_singletons f l, List.map_cons, List.singleton_append]

theorem envelopeBytes_eq (m : SMap Word) {n : Nat} (h : n ≤ 32) :
    envelopeBytes m n = (List.range n).map fun i => (be32 (stagingWord m (i / 4))).getD (i % 4) 0 := by
  have whole : (([0, 1, 2, 3, 4, 5, 6, 7] : List Nat).flatMap fun k => be32 (stagingWord m k))
      = (List.range 32).map fun i => (be32 (stagingWord m (i / 4))).getD (i % 4) 0 := rfl
  rw [envelopeBytes, whole, ← List.map_take, List.take_range, Nat.min_eq_left h]

theorem envelopeBytes_length (m : SMap Word) {n : Nat} (h : n ≤ 32) : (envelopeBytes m n).length = n := by
  rw [envelopeBytes_eq m h, List.length_map, List.length_range]

theorem be16_length (x : BitVec 16) : (be16 x).length = 2 := rfl

theorem be32_length (x : Word) : (be32 x).length = 4 := rfl

theorem be40_length (x : BitVec 40) : (be40 x).length = 5 := rfl

theorem frameCheck_length (b : List Byte) : (frameCheck b).length = 4 := rfl

/-- The bytes of a record item, by its slot. -/
theorem recordItem_bytes (s : State) (u : Nat → Byte) (slot k : Nat) :
    (Item.record slot k).bytes s u = match SMap.find s.rq.slots slot with
      | none => [1, 0, 0, 0, byte k, 0, 0, 0, 0, 0, 0] ++ be32 s.time.offset ++ be32 s.time.offset
          ++ [0, 0, 0, 0, 0, 0, 0, 0, 0] ++ List.replicate k 0
      | some r => [1, r.reason.code, BitVec.setWidth 8 r.template, byte r.dirField.code, byte k,
          (if r.saturated then 1 else 0) ||| (if r.merged then 2 else 0), byte r.rule] ++ be16 (BitVec.ofNat 16 r.index)
          ++ be16 r.generation ++ be32 (r.firstSeen + s.time.offset) ++ be32 (r.lastSeen + s.time.offset)
          ++ be32 r.frames ++ be40 r.bytes ++ (List.range k).map fun j => byteAt r.key j := by
  show (recordItemFields s.time.offset (SMap.find s.rq.slots slot) k).flatten = _
  cases SMap.find s.rq.slots slot with
  | none => simp [recordItemFields]
  | some r => simp [recordItemFields, flatten_singletons]

/-- The fields that a capture item takes from its first descriptor have the lengths of Table 95. -/
theorem captureFields_shape (t : Word) (u : Nat → Byte) (info : Option CaptureInfo) :
    (∃ flags rest, (captureFields t u info).1 = [flags] :: rest ∧ rest.flatten.length = 11)
      ∧ (captureFields t u info).2.length = 2 := by
  unfold captureFields
  match info with
  | none => exact ⟨⟨_, _, rfl, rfl⟩, rfl⟩
  | some ⟨_, _, _, _, _, length, entry⟩ =>
    cases length <;> cases entry <;> exact ⟨⟨_, _, rfl, rfl⟩, rfl⟩

/-- The bytes of a capture item, by what its descriptor gives. -/
theorem captureItem_bytes (s : State) (u : Nat → Byte) (id : RingId) (first c : Nat) (hasEntry : Bool) {flags : Byte}
    {rest : List (List Byte)} {entry : List Byte} (h : (if (s.ring id).active then
        captureFields s.time.offset u ((s.ring id).desc (first % (s.ring id).size)).info
      else ([[0], [0], [0, 0], [0, 0, 0, 0], [0, 0, 0, 0]], [0, 0])) = ([flags] :: rest, entry)) :
    (Item.capture id first c hasEntry).bytes s u = [2, byte id.val, flags ||| (if hasEntry then 0x80 else 0)]
      ++ rest.flatten ++ be16 (BitVec.ofNat 16 c) ++ [byte (descriptorsOf c)] ++ (if hasEntry then entry else [])
      ++ (List.range c).map fun j =>
        if (s.ring id).active then s.cap.readByte ((s.ring id).cellAddress first j) else 0 := by
  show (captureItemFields s.time.offset u s.cap id first c hasEntry).flatten = _
  unfold captureItemFields
  dsimp only
  rw [show s.cap.rings.get id = s.ring id from rfl, h]
  cases hasEntry <;> simp [flatten_singletons, byteAt]

theorem item_bytes_length (s : State) (u : Nat → Byte) (it : Item) : (it.bytes s u).length = it.size := by
  cases it with
  | record slot k =>
    rw [recordItem_bytes]
    cases SMap.find s.rq.slots slot with
    | none =>
      simp only [List.length_append, be32_length, List.length_replicate, List.length_cons, List.length_nil, Item.size]
    | some r =>
      simp only [List.length_append, be16_length, be32_length, be40_length, List.length_map, List.length_range,
        List.length_cons, List.length_nil, Item.size]
  | capture id first c hasEntry =>
    have shape : ∃ flags rest entry, (if (s.ring id).active then
          captureFields s.time.offset u ((s.ring id).desc (first % (s.ring id).size)).info
        else ([[0], [0], [0, 0], [0, 0, 0, 0], [0, 0, 0, 0]], [0, 0])) = ([flags] :: rest, entry)
        ∧ rest.flatten.length = 11 ∧ entry.length = 2 := by
      split_ifs
      · obtain ⟨⟨flags, rest, h1, h2⟩, h3⟩ :=
          captureFields_shape s.time.offset u ((s.ring id).desc (first % (s.ring id).size)).info
        exact ⟨flags, rest, _, Prod.ext h1 rfl, h2, h3⟩
      · exact ⟨0, _, _, rfl, rfl, rfl⟩
    obtain ⟨flags, rest, entry, h, hrest, hentry⟩ := shape
    rw [captureItem_bytes s u id first c hasEntry h]
    cases hasEntry <;>
      simp only [List.length_append, hrest, hentry, be16_length, List.length_map, List.length_range, List.length_cons,
        List.length_nil, Item.size, if_true, if_false, Bool.false_eq_true]

theorem capturesDiscarded_eq (s : State) : capturesDiscarded s = (s.ring 0).counters.discarded
    + (s.ring 1).counters.discarded + (s.ring 2).counters.discarded + (s.ring 3).counters.discarded := by
  simp [capturesDiscarded, allRings]

theorem flagBits (a b : Bool) : ((if a then 1 else 0) ||| (if b then 2 else 0) : Byte)
    = (if a then 1 else 0) + (if b then 2 else 0) := by
  cases a <;> cases b <;> decide

theorem captureFlags (flag : Ending) (d : Direction) (hasEntry : Bool) :
    ((flag.code ||| (byte d.code <<< 4)) ||| (if hasEntry then 0x80 else 0) : Byte)
      = ((match flag with | .good => 0 | .checkFailed => 1 | .truncated => 2 | .oversize => 3)
          + (match d with | .ab => 0 | .ba => 16)) + (if hasEntry then 0x80 else 0) := by
  cases flag <;> cases d <;> cases hasEntry <;> decide

theorem reasonCode (r : Reason) : r.code
    = match r with | .idle => 1 | .active => 2 | .evicted => 3 | .flushed => 4 | .closed => 5 := by
  cases r <;> rfl

theorem dirFieldCode (d : DirField) : byte d.code = match d with | .ab => 0 | .ba => 1 | .merged => 2 := by
  cases d <;> rfl

/-- A response as laid out, before its filler. -/
theorem response_frame_eq (g : Reach) (r : Response) :
    let laid := envelopeBytes g.responseEnvelope g.envLen ++ be16 g.marker
      ++ [2, BitVec.setWidth 8 r.unit, (if r.malformed then 1 else 0) + (if r.reset then 2 else 0)] ++ be16 r.tag
      ++ [byte r.opCount] ++ r.statuses.map OpStatus.code
      ++ r.blocks.flatMap fun b => byte b.offset :: byte b.data.length :: b.data.flatMap be32
    r.frame g = laid ++ List.replicate (12 - laid.length) 0 ++ frameCheck (laid ++ List.replicate (12 - laid.length) 0) := by
  intro laid
  have hflags : Response.body.flagAtByte r.malformed 0 ||| Response.body.flagAtByte r.reset 1
      = (if r.malformed then 1 else 0) + (if r.reset then 2 else 0) := flagBits r.malformed r.reset
  have hlaid : envelopeBytes g.responseEnvelope g.envLen ++ be16 g.marker ++ [Kind.code .response] ++ r.body = laid := by
    unfold Response.body
    rw [hflags]
    simp only [laid, List.append_assoc, List.cons_append, List.nil_append]
    rfl
  unfold Response.frame
  rw [hlaid]

theorem blocks_length (bs : List Block) : (bs.flatMap fun b => byte b.offset :: byte b.data.length :: b.data.flatMap be32).length
    = (bs.map fun b => 2 + 4 * b.data.length).sum := by
  have words : ∀ ws : List Word, (ws.flatMap be32).length = 4 * ws.length := fun ws => by
    simp [List.length_flatMap, be32_length, Nat.mul_comm]
  rw [List.length_flatMap]
  congr 1
  refine List.map_congr_left fun b _ => ?_
  rw [List.length_cons, List.length_cons, words]
  omega

/-- Settles O43. -/
theorem producedLengths : Obligations.ProducedLengths := by
  refine ⟨item_bytes_length, fun m n h => envelopeBytes_eq m h, fun s r he => ?_, fun s u slot k r hr => ?_, ?_, ?_⟩
  · have layout : reportHead s r = envelopeBytes s.reach.reportEnvelope s.reach.envLen ++ be16 s.reach.marker
            ++ [3, BitVec.setWidth 8 s.agent.unit] ++ be16 r.session ++ be16 r.sequence
            ++ [if r.start then 1 else 0, byte r.recordCount, byte r.captureCount] ++ be16 (BitVec.ofNat 16 r.itemsSize)
            ++ be32 (s.time.uptime + s.time.offset) ++ be32 s.rep.conservation.discarded
            ++ be32 ((s.ring 0).counters.discarded + (s.ring 1).counters.discarded + (s.ring 2).counters.discarded
                + (s.ring 3).counters.discarded)
            ++ be32 (s.flow.counters.untrackedFull + s.flow.counters.untrackedQueue) := by
      rw [← capturesDiscarded_eq]
      simp only [reportHead, Kind.code, List.append_assoc, List.cons_append, List.nil_append]
    refine ⟨?_, layout⟩
    rw [layout]
    simp only [List.length_append, envelopeBytes_length _ he, be16_length, be32_length, List.length_cons, List.length_nil]
  · rw [recordItem_bytes, hr]
    dsimp only
    rw [flagBits, reasonCode, dirFieldCode]
    rfl
  · intro s u id first c hasEntry g front
    refine ⟨fun i n ha hi hn hentry => ?_, fun ha => ?_⟩
    · have given : (if g.active then captureFields s.time.offset u (g.desc (first % g.size)).info
          else ([[0], [0], [0, 0], [0, 0, 0, 0], [0, 0, 0, 0]], [0, 0]))
          = ([i.flag.code ||| (byte i.dir.code <<< 4)] :: [[byte i.rule], be16 i.generation,
              be32 (i.uptime + s.time.offset), be32 (shownLength n)],
            match i.entry with | some e => be16 (BitVec.ofNat 16 e) | none => [u 0 &&& 0x3F, u 1]) := by
        rw [if_pos ha, hi]
        unfold captureFields
        dsimp only
        rw [hn] <;> rfl
      rw [captureItem_bytes s u id first c hasEntry given, captureFlags]
      have entry : (if hasEntry then (match i.entry with | some e => be16 (BitVec.ofNat 16 e) | none => [u 0 &&& 0x3F, u 1])
          else []) = if hasEntry then be16 (BitVec.ofNat 16 (i.entry.getD 0)) else [] := by
        cases hasEntry with
        | false => rfl
        | true =>
          obtain ⟨e, he⟩ := Option.ne_none_iff_exists'.1 (hentry rfl)
          rw [he]
          rfl
      rw [entry]
      simp only [front, if_pos ha, g] at ha ⊢
      simp [shownLength, descriptorsOf, ceilDiv, Ring.cellAddress] <;> rfl
    · have given : (if g.active then captureFields s.time.offset u (g.desc (first % g.size)).info
          else ([[0], [0], [0, 0], [0, 0, 0, 0], [0, 0, 0, 0]], [0, 0]))
          = ([0] :: [[0], [0, 0], [0, 0, 0, 0], [0, 0, 0, 0]], [0, 0]) := if_neg (by rw [ha]; decide)
      rw [captureItem_bytes s u id first c hasEntry given]
      have zeros : ((List.range c).map fun j => if (s.ring id).active then s.cap.readByte ((s.ring id).cellAddress first j)
          else 0) = List.replicate c 0 := by
        have hn : ¬ (s.ring id).active = true := by rw [show (s.ring id).active = false from ha]; decide
        simp [if_neg hn]
      rw [zeros]
      cases hasEntry <;> simp [front, descriptorsOf, ceilDiv, be16, be32]
  · intro g r he
    have frame := response_frame_eq g r
    refine ⟨?_, frame⟩
    rw [frame]
    simp only [List.length_append, envelopeBytes_length _ he, be16_length, frameCheck_length, blocks_length,
      List.length_map, List.length_replicate, List.length_cons, List.length_nil]
    omega

/-! ## The choice of an egress (R14, Table 9) -/

theorem transitReady_iff (p : Port) (s : State) : transitReady p s = true
    ↔ ∃ f rest, (s.port p.other).buffer = f :: rest ∧ f.state = .ready := by
  unfold transitReady
  cases (s.port p.other).buffer with
  | nil => simp
  | cons f rest => simp

/-- What an egress starts of what it has chosen. -/
def started (p : Port) (s : State) : Choice → State
  | .nothing => s
  | .transit => startTransit p s
  | .response => startResponse p s
  | .report => startReportTx p s

theorem exec_egressChoose {p : Port} {s : State} (hr : s.resetN = true) (hl : (s.port p).link = .up)
    (hi : (s.port p).egress = .idle) {c : Choice} (hc : mergeChoice p s = c) : exec (.egressChoose p) s
      = .next (started p s c) := by
  show execEgressChoose p s = _
  rw [execEgressChoose, if_pos ⟨hr, hl, hi⟩, hc]
  cases c <;> rfl

theorem startTransit_eq {p : Port} {s : State} {f : HeldFrame} {rest : List HeldFrame}
    (h : (s.port p.other).buffer = f :: rest) : startTransit p s
      = (s.setPort p.other { s.port p.other with buffer := { f with state := .sending } :: rest }).setPort p
        { s.port p with egress := .transit, lastKind := .transit } := by
  rw [startTransit, h]
  cases p <;> rfl

theorem startResponse_eq {p : Port} {s : State} {r : Response} {rest : List Response}
    (h : (s.port p).responses = r :: rest) : startResponse p s = s.setPort p { s.port p with
      responses := rest, egress := .response (r.frame s.reach) 0, lastKind := .inserted } := by
  rw [startResponse, h]

/-- A change made to one report of the list, told from the others by `P`. -/
theorem map_ite_unique {P : Report → Prop} [DecidablePred P] {f : Report → Report} {older newer : List Report} {r : Report}
    (hr : P r) (hothers : ∀ y ∈ older ++ newer, ¬ P y) :
    ((older ++ r :: newer).map fun x => if P x then f x else x) = older ++ f r :: newer := by
  have still : ∀ l : List Report, (∀ y ∈ l, ¬ P y) → (l.map fun x => if P x then f x else x) = l := fun l h =>
    (List.map_congr_left fun y hy => if_neg (h y hy)).trans (List.map_id l)
  rw [List.map_append, List.map_cons, if_pos hr, still older fun y hy => hothers y (List.mem_append_left _ hy),
    still newer fun y hy => hothers y (List.mem_append_right _ hy)]

/-- The oldest report is SENDING when the one that is stands first. -/
theorem oldestSending_eq {e : ReportEngine} {older newer : List Report} {r : Report}
    (ho : e.outstanding = older ++ r :: newer) (hr : r.state = .sending) (holder : ∀ y ∈ older, y.state ≠ .sending) :
    oldestSending e = decide (older = []) := by
  rw [oldestSending, ho]
  cases older with
  | nil => simp [hr]
  | cons y older => simpa using holder y List.mem_cons_self

theorem startReportTx_eq {p : Port} {s : State} {q : BitVec 16} {qs : List (BitVec 16)} {older newer : List Report}
    {r : Report} (hq : s.rep.queue = q :: qs) (ho : s.rep.outstanding = older ++ r :: newer) (hr : r.sequence = q)
    (hothers : ∀ x ∈ older ++ newer, x.sequence ≠ q) (holder : ∀ x ∈ older, x.state ≠ .sending) :
    startReportTx p s = (s.setPort p { s.port p with
        lastKind := .inserted
        egress := .report { report := { r with state := .sending }, gone := false, head := reportHead s r, pos := 0,
                            crc := 0xFFFFFFFF, field := [] } }).setRep
      { s.rep with
        queue := qs, outstanding := older ++ { r with state := .sending } :: newer
        retransmit := if older = [] then none else s.rep.retransmit } := by
  have found : s.rep.outstanding.find? (fun r => r.sequence == q) = some r := by
    rw [ho, List.find?_append, List.find?_eq_none.2 fun y hy => by
      simpa using hothers y (List.mem_append_left _ hy), Option.none_or, List.find?_cons, beq_iff_eq.2 hr]
  have out : ((older ++ r :: newer).map fun x => if x.sequence = q then { r with state := TxState.sending } else x)
      = older ++ { r with state := .sending } :: newer :=
    map_ite_unique (f := fun _ => { r with state := .sending }) hr hothers
  rw [startReportTx, hq]
  dsimp only
  rw [found]
  dsimp only
  rw [State.setPort_rep, ho, out, oldestSending_eq (older := older) (newer := newer) (r := { r with state := .sending }) rfl
    rfl holder]
  by_cases h : older = [] <;> simp [h, crcStart]

/-- Settles O39. -/
theorem egressChoosesByTable9 : Obligations.EgressChoosesByTable9 := by
  intro p s
  refine ⟨fun h => if_neg fun k => ?_, fun hr hl hi => ?_⟩
  · obtain ⟨h1, h2, h3⟩ := k
    rcases h with h | h | h
    · exact absurd (h.symm.trans h1) (by decide)
    · exact absurd (h.symm.trans h2) (by decide)
    · exact h h3
  intro b first report
  have ready := transitReady_iff p s
  refine ⟨fun f rest hb hf hcase => ?_, fun hno => ⟨fun r rest hresp => ?_, ?_⟩, fun hno hresp hrep => ?_⟩
  · have hready : transitReady p s = true := ready.2 ⟨f, rest, hb, hf⟩
    have choice : mergeChoice p s = .transit := by
      unfold mergeChoice
      rcases hcase with (h | h) | ⟨h, h'⟩
      · rw [if_pos ⟨h, hready⟩]
      · rw [if_pos (show (s.port p).lastKind = .inserted ∧ transitReady p s = true from ⟨h, hready⟩), ite_self]
      · rw [if_pos hready, if_neg (not_not.2 h), if_neg h', ite_self, ite_self]
    rw [exec_egressChoose hr hl hi choice]
    exact congrArg _ (startTransit_eq hb)
  · have choice : mergeChoice p s = .response := by
      unfold mergeChoice
      rw [if_neg fun h => hno ⟨.inl h.1, ready.1 h.2⟩, if_neg fun h => hno ⟨.inr h.1, ready.1 h.2⟩,
        if_pos (by rw [hresp]; simp)]
    rw [exec_egressChoose hr hl hi choice]
    exact congrArg _ (startResponse_eq hresp)
  · intro q qs older r newer hresp hport hq ho hseq hothers holder
    have choice : mergeChoice p s = .report := by
      unfold mergeChoice
      rw [if_neg fun h => hno ⟨.inl h.1, ready.1 h.2⟩, if_neg fun h => hno ⟨.inr h.1, ready.1 h.2⟩,
        if_neg (not_not.2 hresp), if_pos ⟨hport, by rw [hq]; simp⟩]
    rw [exec_egressChoose hr hl hi choice]
    exact congrArg _ (startReportTx_eq hq ho hseq hothers holder)
  · have notReady : ¬ transitReady p s = true := fun h => by
      obtain ⟨f, rest, hb, hf⟩ := ready.1 h
      exact hno f rest hb hf
    have choice : mergeChoice p s = .nothing := by
      unfold mergeChoice
      rw [if_neg fun h => notReady h.2, if_neg fun h => notReady h.2, if_neg (not_not.2 hresp), if_neg hrep,
        if_neg notReady]
    exact exec_egressChoose hr hl hi choice

/-! ## The bytes of a frame being sent (R13, R114, R115) -/

/-- The stores that a report's items are read from are not those of a port. -/
theorem Item.fields_setPort (s : State) (p : Port) (x : PortState) (u : Nat → Byte) (it : Item) :
    it.fields (s.setPort p x) u = it.fields s u := by
  cases it <;> simp [Item.fields]

theorem ReportTx.toGo_setPort (s : State) (p : Port) (x : PortState) (u : Nat → Byte) (t : ReportTx) :
    t.toGo (s.setPort p x) u = t.toGo s u := by
  have fields : Item.fields (s.setPort p x) u = Item.fields s u := funext fun it => it.fields_setPort s p x u
  rw [ReportTx.toGo, ReportTx.toGo, fields]

/-- The egress of port `x` in the middle of report `t`, with `line` on its line. -/
def sendingReport (x : PortState) (t : ReportTx) (line : List LineSymbol) : PortState :=
  { x with egress := .report t, line := line }

/-- One byte of a report goes out. -/
theorem sendReportByte_spec (s : State) (p : Port) (x : PortState) (t : ReportTx) (line : List LineSymbol) :
    ∃ b more, NextByte s p line.length t b more
      ∧ sendReportByte p t (s.setPort p (sendingReport x t line))
        = s.setPort p (sendingReport x (byteProduced t b more) (line ++ [.byte b])) := by
  refine ⟨_, _, toGo_spec s p line.length t, ?_⟩
  unfold sendReportByte
  simp only [ReportTx.toGo_setPort, State.setPort_port_same, State.setPort_cap, State.emit, State.setPort_setPort,
    sendingReport, advance_eq]

/-- Settles O40. -/
theorem egressSendsTheNextByte : Obligations.EgressSendsTheNextByte := by
  intro p s
  refine ⟨fun f rest he hb hf => ?_, fun bytes n he hn => ?_, fun x he hx => ?_⟩
  · have row : exec (.egressByteSent p) s = .next (sendTransitByte p s) := by
      show execEgressByteSent p s = _
      rw [execEgressByteSent, he]
    rw [row, sendTransitByte, hb]
    dsimp only
    refine ⟨fun h => ?_, fun h => by rw [if_neg fun k => Nat.not_lt.2 h k.2]⟩
    rw [if_pos ⟨hf, h⟩]
    refine ⟨_, rfl, ?_⟩
    have sent : (s.setBuffer p.other ({ f with sent := f.sent + 1 } :: rest)).emit p (.byte (byteAt f.held f.sent))
        = (s.setPort p.other { s.port p.other with buffer := { f with sent := f.sent + 1 } :: rest }).setPort p
            { s.port p with line := (s.port p).line ++ [.byte (f.held.getD f.sent 0)] } := by
      cases p <;> rfl
    rw [sent]
    exact settleEgress_spec p _
  · show execEgressByteSent p s = _
    rw [execEgressByteSent, he]
    dsimp only
    rw [if_pos hn, sendResponseByte, State.emit, State.setPort_setPort, State.setPort_port_same]
    rfl
  · obtain ⟨b, more, hnext, hsent⟩ := sendReportByte_spec s p (s.port p) x (s.port p).line
    have here : s.setPort p (sendingReport (s.port p) x (s.port p).line) = s := by
      rw [sendingReport, ← he]
      exact State.setPort_self s p
    refine ⟨b, more, hnext, ?_⟩
    show execEgressByteSent p s = _
    rw [execEgressByteSent, he]
    dsimp only
    rw [here] at hsent
    rw [if_pos (show x.pos + 1 < x.total from hx), hsent]
    rfl

/-! ## A report sent to its end (R15, R114, R166) -/

/-- `n` bytes of a report go out, each produced in its turn. -/
theorem sendReportBytes_spec (s : State) (p : Port) (x : PortState) : ∀ (n : Nat) (t : ReportTx) (line : List LineSymbol),
    n = t.total - t.pos → ∃ bs y, Produces s p line.length t bs ∧ bs.length = n
      ∧ sendReportBytes p n (s.setPort p (sendingReport x t line))
        = s.setPort p (sendingReport x y (line ++ bs.map LineSymbol.byte)) := by
  intro n
  induction n with
  | zero => exact fun t line h => ⟨[], t, .done (by unfold ReportTx.total at h; omega), rfl, by simp [sendReportBytes]⟩
  | succ n ih =>
    intro t line h
    obtain ⟨b, more, hnext, hsent⟩ := sendReportByte_spec s p x t line
    obtain ⟨bs, y, hprod, hlen, hrest⟩ := ih (byteProduced t b more) (line ++ [.byte b]) (by
      unfold ReportTx.total at h ⊢
      simp only [byteProduced]
      omega)
    rw [List.length_append] at hprod
    refine ⟨b :: bs, y, .next (by unfold ReportTx.total at h; omega) hnext hprod, by rw [List.length_cons, hlen], ?_⟩
    rw [sendReportBytes, State.setPort_port_same]
    show sendReportBytes p n (sendReportByte p t (s.setPort p (sendingReport x t line))) = _
    rw [hsent, hrest, List.map_cons, List.append_assoc, List.singleton_append]

/-- Where report `x` stands in its bytes `head ++ items`, the items' fields being `fields`: its check register has taken the
bytes before, and what is still to go of its field ends where a field of the items ends. -/
structure StandsIn (fields : List (List Byte)) (x : ReportTx) : Prop where
  crc : x.crc = crc32 crcStart ((x.head ++ fields.flatten).take x.pos)
  inHead : x.pos < x.head.length → x.field = []
  inCheck : (x.head ++ fields.flatten).length ≤ x.pos → x.field = []
  inItems : x.head.length ≤ x.pos → x.pos ≤ (x.head ++ fields.flatten).length → ∃ pre post, fields = pre ++ post
    ∧ pre.flatten.length = x.pos - x.head.length + x.field.length
    ∧ x.field = pre.flatten.drop (x.pos - x.head.length)

/-- The first field that has a byte. -/
theorem exists_field : ∀ {post : List (List Byte)}, post.flatten ≠ [] →
    ∃ empty c m rest, post = empty ++ (c :: m) :: rest ∧ empty.flatten = []
  | [], h => absurd rfl h
  | (c :: m) :: post, _ => ⟨[], c, m, post, rfl, rfl⟩
  | [] :: post, h => by
    obtain ⟨empty, c, m, rest, rfl, he⟩ := exists_field (post := post) h
    exact ⟨[] :: empty, c, m, rest, rfl, he⟩

/-- What the next byte of a report is, and where the report stands after it, the check register apart. -/
structure MovesOn (fields : List (List Byte)) (x : ReportTx) (b : Byte) (more : List Byte) : Prop where
  byte : ((x.head ++ fields.flatten) ++ frameCheck (x.head ++ fields.flatten))[x.pos]? = some b
  inHead : x.pos + 1 < x.head.length → more = []
  inCheck : (x.head ++ fields.flatten).length ≤ x.pos + 1 → more = []
  inItems : x.head.length ≤ x.pos + 1 → x.pos + 1 ≤ (x.head ++ fields.flatten).length → ∃ pre post, fields = pre ++ post
    ∧ pre.flatten.length = x.pos + 1 - x.head.length + more.length
    ∧ more = pre.flatten.drop (x.pos + 1 - x.head.length)

/-- A byte of a field, the field being one of the items'. -/
theorem MovesOn.of_field {fields pre post : List (List Byte)} {x : ReportTx} {b : Byte} {more : List Byte}
    (hpos : x.head.length ≤ x.pos) (hf : fields = pre ++ post)
    (hlen : pre.flatten.length = x.pos - x.head.length + (more.length + 1))
    (hdrop : pre.flatten.drop (x.pos - x.head.length) = b :: more) : MovesOn fields x b more := by
  have htotal : fields.flatten.length = pre.flatten.length + post.flatten.length := by
    rw [hf, List.flatten_append, List.length_append]
  have hat : fields.flatten[x.pos - x.head.length]? = some b := by
    rw [hf, List.flatten_append, List.getElem?_append_left (by omega)]
    have := List.getElem?_drop (xs := pre.flatten) (i := x.pos - x.head.length) (j := 0)
    rw [hdrop] at this
    simpa using this.symm
  refine ⟨?_, fun h => by omega, fun h => ?_, fun _ _ => ⟨pre, post, hf, by omega, ?_⟩⟩
  · rw [List.append_assoc, List.getElem?_append_right hpos, List.getElem?_append_left (by omega), hat]
  · rw [List.length_append] at h
    exact List.length_eq_zero_iff.1 (by omega)
  · rw [show x.pos + 1 - x.head.length = x.pos - x.head.length + 1 by omega, ← List.drop_drop, hdrop, List.drop_succ_cons,
      List.drop_zero]

theorem StandsIn.movesOn {s : State} {p : Port} {n : Nat} {fields : List (List Byte)} {x : ReportTx} {b : Byte}
    {more : List Byte} (hst : StandsIn fields x) (hnext : NextByte s p n x b more)
    (hfields : ∀ u, x.report.items.flatMap (Item.fields s u) = fields) (hsize : x.report.itemsSize = fields.flatten.length)
    (hlt : x.pos < x.head.length + x.report.itemsSize + 4) : MovesOn fields x b more := by
  obtain ⟨going, fresh⟩ := hnext
  have hB : (x.head ++ fields.flatten).length = x.head.length + fields.flatten.length := List.length_append
  by_cases hfield : x.field = []
  · obtain ⟨ofHead, ofItems, ofCheck⟩ := fresh hfield
    rcases (by omega : x.pos < x.head.length ∨ (x.head.length ≤ x.pos ∧ x.pos < x.head.length + fields.flatten.length)
      ∨ x.head.length + fields.flatten.length ≤ x.pos) with h | ⟨h1, h2⟩ | h
    · obtain ⟨rfl, rfl⟩ := ofHead h
      refine ⟨?_, fun _ => rfl, fun _ => rfl, fun h1 _ => ⟨[], fields, rfl, ?_, ?_⟩⟩
      · rw [List.append_assoc, List.getElem?_append_left h, List.getD_eq_getElem?_getD, List.getElem?_eq_getElem h,
          Option.getD_some]
      · simp only [List.flatten_nil, List.length_nil]
        omega
      · simp
    · obtain ⟨pre, post, hf, hlen, -⟩ := hst.inItems h1 (by omega)
      have hpost : post.flatten ≠ [] := fun h => by
        rw [hf, List.flatten_append, List.length_append, h, List.length_nil] at h2
        rw [hfield, List.length_nil] at hlen
        omega
      obtain ⟨empty, c, m, rest, rfl, hempty⟩ := exists_field hpost
      have hpre : (pre ++ empty).flatten.length = x.pos - x.head.length := by
        rw [List.flatten_append, hempty, List.append_nil, hlen, hfield, List.length_nil, Nat.add_zero]
      obtain ⟨rfl, rfl⟩ := ofItems h1 (by omega) (pre ++ empty) c m rest
        (by rw [hfields, hf, List.append_assoc]) hpre
      have hwhole : ((pre ++ empty) ++ [b :: more]).flatten = (pre ++ empty).flatten ++ (b :: more) := by
        rw [List.flatten_append, List.flatten_singleton]
      refine .of_field (pre := (pre ++ empty) ++ [b :: more]) (post := rest) h1 ?_ ?_ ?_
      · rw [hf, List.append_assoc, List.append_assoc, List.singleton_append]
      · rw [hwhole, List.length_append, hpre, List.length_cons]
      · rw [hwhole, ← hpre, List.drop_left]
    · obtain ⟨rfl, rfl⟩ := ofCheck (by omega)
      refine ⟨?_, fun _ => rfl, fun _ => rfl, fun _ h2 => by omega⟩
      have hcrc : x.crc = crc32 crcStart (x.head ++ fields.flatten) := by
        rw [hst.crc, List.take_of_length_le (by omega)]
      have hlast : x.pos - x.head.length - x.report.itemsSize < (be32 (~~~ x.crc)).length := by
        rw [be32_length]
        omega
      rw [List.getElem?_append_right (by omega), frameCheck, ← hcrc, List.getD_eq_getElem?_getD, hB,
        show x.pos - (x.head.length + fields.flatten.length) = x.pos - x.head.length - x.report.itemsSize by omega,
        List.getElem?_eq_getElem hlast, Option.getD_some]
  · obtain ⟨c, m, hcm⟩ := List.exists_cons_of_ne_nil hfield
    obtain ⟨rfl, rfl⟩ := going c m hcm
    have h1 : x.head.length ≤ x.pos := Nat.not_lt.1 fun h => hfield (hst.inHead h)
    have h2 : x.pos < (x.head ++ fields.flatten).length := Nat.not_le.1 fun h => hfield (hst.inCheck h)
    obtain ⟨pre, post, hf, hlen, hdrop⟩ := hst.inItems h1 (Nat.le_of_lt h2)
    rw [hcm] at hlen hdrop
    exact .of_field h1 hf hlen hdrop.symm

theorem MovesOn.stands {fields : List (List Byte)} {x : ReportTx} {b : Byte} {more : List Byte}
    (hm : MovesOn fields x b more) (hst : StandsIn fields x) (hsize : x.report.itemsSize = fields.flatten.length) :
    StandsIn fields (byteProduced x b more) := by
  refine ⟨?_, hm.inHead, hm.inCheck, hm.inItems⟩
  have hB : (x.head ++ fields.flatten).length = x.head.length + x.report.itemsSize := by rw [List.length_append, hsize]
  show (if x.pos < x.head.length + x.report.itemsSize then crc32 x.crc [b] else x.crc)
    = crc32 crcStart ((x.head ++ fields.flatten).take (x.pos + 1))
  split_ifs with h
  · have hb := hm.byte
    rw [List.getElem?_append_left (by omega)] at hb
    rw [List.take_add_one, hb, Option.toList_some, crc32, crc32, List.foldl_append, hst.crc]
    rfl
  · rw [hst.crc, List.take_of_length_le (by omega), List.take_of_length_le (by omega)]

/-- What is still to go of a report is the rest of its bytes and the check over them. -/
theorem Produces.rest {s : State} {p : Port} {n : Nat} {x : ReportTx} {bs : List Byte} (h : Produces s p n x bs)
    {fields : List (List Byte)} (hfields : ∀ u, x.report.items.flatMap (Item.fields s u) = fields)
    (hsize : x.report.itemsSize = fields.flatten.length) (hst : StandsIn fields x) :
    bs = ((x.head ++ fields.flatten) ++ frameCheck (x.head ++ fields.flatten)).drop x.pos := by
  induction h with
  | done hpos =>
    rw [List.drop_of_length_le]
    rw [List.length_append, List.length_append, frameCheck_length]
    omega
  | next hlt hnext _ ih =>
    have moves := hst.movesOn hnext hfields hsize hlt
    have := ih hfields hsize (moves.stands hst hsize)
    obtain ⟨hi, hget⟩ := List.getElem?_eq_some_iff.1 moves.byte
    rw [List.drop_eq_getElem_cons hi, hget, this]
    rfl

/-- A finished transmission of the report of the list that is SENDING (R113, R127, R129). -/
theorem finishTransmission_eq {s : State} {older newer : List Report} {r : Report}
    (ho : s.rep.outstanding = older ++ r :: newer) (hr : r.state = .sending)
    (hothers : ∀ y ∈ older ++ newer, y.state ≠ .sending) : finishTransmission s = s.setRep { s.rep with
      outstanding := older ++ { r with state := .sent } :: newer
      retransmit := if older = [] then some (s.time.uptime + word (s.rep.retransmitBase * min (2 ^ s.rep.attempts) 16))
        else s.rep.retransmit } := by
  have out : ((older ++ r :: newer).map fun x => if x.state = .sending then { x with state := TxState.sent } else x)
      = older ++ { r with state := .sent } :: newer :=
    map_ite_unique (f := fun x => { x with state := .sent }) hr hothers
  rw [finishTransmission, ho, out, oldestSending_eq ho hr fun y hy => hothers y (List.mem_append_left _ hy)]
  by_cases h : older = [] <;> simp [h, retransmitInterval, State.now]

/-- Settles O41. -/
theorem insertedFrameEnds : Obligations.InsertedFrameEnds := by
  intro p s counted
  refine ⟨fun bytes n he => ?_, fun x he => ?_⟩
  · show execInsertedFrameDone p s = _
    rw [execInsertedFrameDone, he]
    dsimp only
    rw [closeInserted, State.emit, State.setPort_port_same, State.setPort_setPort, State.setPort_port_same,
      State.setPort_setPort]
  · obtain ⟨bs, y, hprod, hlen, hsent⟩ :=
      sendReportBytes_spec s p (s.port p) (x.total - x.pos) x (s.port p).line rfl
    have here : s.setPort p (sendingReport (s.port p) x (s.port p).line) = s := by
      rw [sendingReport, ← he]
      exact State.setPort_self s p
    rw [here] at hsent
    let closed : State := (s.setPort p { s.port p with
        egress := .idle, line := (s.port p).line ++ bs.map LineSymbol.byte ++ [.endNormal], counters := counted }).setRep
      { s.rep with delivery := { s.rep.delivery with reportsSent := s.rep.delivery.reportsSent + 1 } }
    have row : exec (.insertedFrameDone p) s = .next (if x.gone then closed else finishTransmission closed) := by
      show execInsertedFrameDone p s = _
      rw [execInsertedFrameDone, he]
      dsimp only
      rw [hsent]
      simp only [closeInserted, State.emit, State.setPort_port_same, State.setPort_setPort, State.setPort_rep,
        sendingReport]
      rfl
    refine ⟨_, bs, row, hprod, hlen, fun hpos hfield hcrc hsum hsame => ?_, ?_, fun hg => ?_,
      fun hg older r newer ho hr hothers => ?_⟩
    · intro body
      have hfields : ∀ u, x.report.items.flatMap (Item.fields s u) = x.report.items.flatMap (Item.fields s fun _ => 0) :=
        fun u => by rw [List.flatMap_def, List.flatMap_def, List.map_congr_left fun it hit => hsame it hit u _]
      have hflat : (x.report.items.flatMap (Item.fields s fun _ => 0)).flatten
          = x.report.items.flatMap fun it => it.bytes s fun _ => 0 := by
        rw [List.flatMap_def, List.flatMap_def, List.flatten_flatten, List.map_map]
        rfl
      have hsize : x.report.itemsSize = (x.report.items.flatMap (Item.fields s fun _ => 0)).flatten.length := by
        rw [hflat, List.length_flatMap, ← hsum]
        congr 1
        exact List.map_congr_left fun it _ => (item_bytes_length s _ it).symm
      have start : StandsIn (x.report.items.flatMap (Item.fields s fun _ => 0)) x :=
        ⟨by rw [hcrc, hpos]; rfl, fun _ => hfield, fun _ => hfield, fun h _ => ⟨[], _, rfl, by simp [hpos, hfield], by
          simp [hfield]⟩⟩
      have := hprod.rest hfields hsize start
      rw [hpos, List.drop_zero, hflat] at this
      exact this
    · split_ifs <;> rfl
    · rw [if_pos hg]
      rfl
    · rw [if_neg (by rw [hg]; decide), finishTransmission_eq (s := closed) ho hr hothers]
      simp [closed]

end Sys2Proof.Machine
end

section
/-!
PROOFS. COMMAND copies and the head command (R139 to R142), the body of a COMMAND (R141, R167), addresses (R143, R145), and the
cursor ops and the end of a command (R144, R148, R149).
-/

namespace Sys2Proof.Machine

-- One proof after another: elaborated side by side, the proofs of this file take more threads than the check's limits hold.
set_option Elab.async false

/-! ## The Command Queue and the head command (R139, R142, R149) -/

theorem queueResponse_room {p : Port} {r : Response} {s : State} (h : (s.port p).responses.length < 4) :
    queueResponse p r s = (s.setPort p { s.port p with responses := (s.port p).responses ++ [r] }).setAgent { s.agent with
      counters := { s.agent.counters with responsesQueued := s.agent.counters.responsesQueued + 1 } } := by
  rw [queueResponse, if_pos h]
  dsimp only
  rw [State.setPort_agent]

theorem queueResponse_lost {p : Port} {r : Response} {s : State} (h : 4 ≤ (s.port p).responses.length) :
    queueResponse p r s = s.setAgent { s.agent with
      counters := { s.agent.counters with responseLost := s.agent.counters.responseLost + 1 } } :=
  if_neg (Nat.not_lt.2 h)

/-- Settles O47. -/
theorem commandsAreTakenAndBegun : Obligations.CommandsAreTakenAndBegun := by
  intro s
  refine ⟨fun p c rest hc => ?_, fun c rest hw hq => ?_⟩
  · intro popped k
    have row : exec (.takeCommandCopy p) s = .next (takeCopy p c popped) := by
      show execTakeCommandCopy p s = _
      rw [execTakeCommandCopy, hc]
    have hagent : popped.agent = s.agent := State.setPort_agent _ _ _
    rw [row, takeCopy, hagent]
    refine ⟨fun h => ?_, fun h hl => ?_, fun h hl => ?_⟩
    · rw [if_pos h, State.countAgent, hagent]
    · rw [if_neg (not_not.2 h), if_pos hl, State.countAgent, hagent]
    · rw [if_neg (not_not.2 h), if_neg (Nat.not_le.2 hl)]
      rfl
  · intro k begun
    have row : exec .beginCommand s = match c.ops with
        | some ops => .next (s.setAgent { s.agent with walk := some (c.startWalk ops) })
        | none => .next (refuseCommand c s) := by
      show execBeginCommand s = _
      rw [execBeginCommand, hw, hq] <;> rfl
    have left : ∀ a : State, a.agent.queue = s.agent.queue → a.agent.walk = s.agent.walk →
        leaveQueue a = a.setAgent { a.agent with queue := rest } := fun a hq' hw' => by
      rw [leaveQueue, hq', hq, List.tail_cons, ← hw, ← hw']
    refine ⟨fun ops ho => by rw [row, ho] <;> rfl, fun ho hr => ?_, fun ho hr hl => ?_, fun ho hr hl => ?_⟩ <;>
      rw [row, ho] <;> refine congrArg Host.Outcome.next ?_ <;> rw [refuseCommand, hr]
    · rw [if_neg (by decide)]
      refine (left _ ?_ ?_).trans ?_ <;> rfl
    · rw [if_pos rfl, queueResponse_lost (by simpa [State.countAgent] using hl)]
      refine (left _ ?_ ?_).trans ?_ <;> rfl
    · rw [if_pos rfl, queueResponse_room (by simpa [State.countAgent] using hl)]
      refine (left _ ?_ ?_).trans ?_ <;> cases c.port <;> rfl

/-! ## The cursor ops and the end of a command (R144, R148) -/

/-- Settles O50. -/
theorem cursorOpsAndCommandEnd : Obligations.CursorOpsAndCommandEnd := by
  intro s w hw ended
  have stepped : ∀ a, stepCursor a s = s.setAgent { s.agent with walk := some (ended (.result .ok) a) } := fun a => by
    rw [stepCursor, State.updateWalk, hw]
    rfl
  refine ⟨fun a ha => ?_, fun d hd => ?_, fun ho => ?_⟩
  · show execSetCursor a s = _
    rw [execSetCursor, hw]
    dsimp only
    rw [if_pos ha, stepped]
  · show execMoveCursor d s = _
    rw [execMoveCursor, hw]
    dsimp only
    rw [if_pos hd, stepped]
    rfl
  · intro r k due
    have row : exec .commandEnd s = .next (endCommand w s) := by
      show execCommandEnd s = _
      rw [execCommandEnd, hw]
      exact if_pos ho
    have hdue : (w.anyMine || w.rollcall) = true ↔ due := Bool.or_eq_true_iff
    refine ⟨fun h => ?_, fun h hl => ?_, fun h hl => ?_⟩ <;> rw [row, endCommand]
    · rw [if_neg fun k => h (hdue.1 k)]
      rfl
    · rw [if_pos (hdue.2 h), queueResponse_room hl]
      rfl
    · rw [if_pos (hdue.2 h), queueResponse_lost hl]
      rfl

/-! ## The body of a COMMAND (R141, R167) -/

/-- The low 8 bits of a number after those before them. -/
theorem append_extract {n : Nat} (x : BitVec (n + 8)) : x.extractLsb' 8 n ++ x.extractLsb' 0 8 = x := by
  refine BitVec.eq_of_getLsbD_eq fun i hi => ?_
  rw [BitVec.getLsbD_append]
  by_cases h : i < 8
  · simp [h]
  · simp [h, show i - 8 < n by omega, show 8 + (i - 8) = i by omega]

theorem word16_be16 (x : BitVec 16) : word16 (x.extractLsb' 8 8) (x.extractLsb' 0 8) = x := append_extract (n := 8) x

theorem word24_bytes (x : BitVec 24) : x.extractLsb' 16 8 ++ x.extractLsb' 8 8 ++ x.extractLsb' 0 8 = x := by
  have upper : x.extractLsb' 16 8 ++ x.extractLsb' 8 8 = x.extractLsb' 8 16 := by
    refine BitVec.eq_of_getLsbD_eq fun i hi => ?_
    rw [BitVec.getLsbD_append]
    by_cases h : i < 8
    · simp [h, hi]
    · simp [h, hi, show i - 8 < 8 by omega, show 16 + (i - 8) = 8 + i by omega]
  exact (congrArg (· ++ x.extractLsb' 0 8) upper).trans (append_extract (n := 16) x)

theorem word32_be32 (v : Word) :
    word32 (v.extractLsb' 24 8) (v.extractLsb' 16 8) (v.extractLsb' 8 8) (v.extractLsb' 0 8) = v :=
  be32_injective (be32_word32 _ _ _ _)

theorem takeWords_encode (ws : List Word) (r : List Byte) : takeWords ws.length (ws.flatMap be32 ++ r) = some (ws, r) := by
  induction ws with
  | nil => rfl
  | cons v ws ih =>
    rw [List.flatMap_cons, List.append_assoc]
    show takeWords (ws.length + 1) (_ :: _ :: _ :: _ :: (ws.flatMap be32 ++ r)) = _
    rw [takeWords, ih]
    dsimp only
    rw [word32_be32]

/-- An op that Table 88 can encode is read back from its encoding. -/
theorem parseOp_encode {op : Op} (h : op.encodable = true) (r : List Byte) : parseOp (op.encode ++ r) = some (op, r) := by
  have count {n : Nat} (h : 1 ≤ n ∧ n ≤ 255) : byte n ≠ 0 ∧ (byte n).toNat = n := by
    have hn : (byte n).toNat = n := by rw [BitVec.toNat_ofNat, Nat.mod_eq_of_lt (by omega)]
    refine ⟨fun h0 => ?_, hn⟩
    rw [h0] at hn
    simp at hn
    omega
  cases op with
  | setCursor a => simp [Op.encode, parseOp, word24_bytes]
  | moveCursor d => simp [Op.encode, parseOp, be16, word16_be16]
  | write ws =>
    obtain ⟨hne, hlen⟩ := count (n := ws.length) (by simpa [Op.encodable] using h)
    simp only [Op.encode, parseOp, List.cons_append, hne, hlen, takeWords_encode, if_false]
    rfl
  | read n =>
    obtain ⟨hne, hlen⟩ := count (n := n) (by simpa [Op.encodable] using h)
    simp only [Op.encode, parseOp, List.cons_append, List.nil_append, hne, hlen, if_false]
    rfl

theorem parseOps_encode : ∀ (ops : List Op) (pad : List Byte), (∀ o ∈ ops, o.encodable = true) → pad.length ≤ 3 →
    parseOps ops.length (ops.flatMap Op.encode ++ pad) = some ops
  | [], pad, _, hp => if_pos hp
  | op :: ops, pad, h, hp => by
    rw [List.length_cons, parseOps, List.flatMap_cons, List.append_assoc, parseOp_encode (h op List.mem_cons_self)]
    dsimp only
    rw [parseOps_encode ops pad (fun o ho => h o (List.mem_cons_of_mem _ ho)) hp]

theorem Command.body_of_layout {c : Command} {head rest : List Byte} (hh : head.length = c.envLen + 3)
    (hb : c.bytes = head ++ rest) : c.body = rest := by
  rw [Command.body, hb, ← hh, List.drop_left]

/-- Settles O48. -/
theorem commandBodyRoundTrip : Obligations.CommandBodyRoundTrip := by
  refine ⟨fun c ops => ⟨fun h => ?_, ?_⟩, fun c head rest tag flags hh hb => ?_, fun c hc => ?_⟩
  · unfold Command.ops at h
    dsimp only at h
    split_ifs at h with h4 h0
    obtain ⟨hlen, henc, pad, hpad, hdrop⟩ := parseOps_inv _ _ _ h
    obtain ⟨h1, h255⟩ := count_pos h0
    have hbody : c.body.length = c.bytes.length - (c.envLen + 3) := List.length_drop
    match hc : c.body, h4 with
    | b0 :: b1 :: b2 :: b3 :: rest, _ =>
      rw [hc] at hlen hdrop h1 h255 hbody
      simp only [byteAt, List.getD_cons_succ, List.getD_cons_zero, List.drop_succ_cons, List.drop_zero] at hlen hdrop h1 h255
      refine ⟨c.bytes.take (c.envLen + 3), pad, word16 b0 b1, b2, by omega, by omega, henc, hpad, ?_, ?_⟩
      · rw [List.length_take]
        simp only [List.length_cons] at hbody
        omega
      · have hcount : BitVec.ofNat 8 ops.length = b3 := by rw [hlen, BitVec.ofNat_toNat, BitVec.setWidth_eq]
        calc c.bytes = c.bytes.take (c.envLen + 3) ++ c.body := (List.take_append_drop _ _).symm
          _ = _ := by rw [hc, hdrop, hcount, be16_word16]; simp
    | [], h4 | [_], h4 | [_, _], h4 | [_, _, _], h4 => exact absurd (by simp) h4
  · rintro ⟨head, pad, tag, flags, h1, h255, henc, hpad, hh, hb⟩
    have hbody : c.body = be16 tag ++ flags :: BitVec.ofNat 8 ops.length :: (ops.flatMap Op.encode ++ pad) :=
      Command.body_of_layout hh (by rw [hb]; simp)
    have hcount : (BitVec.ofNat 8 ops.length).toNat = ops.length := by
      rw [BitVec.toNat_ofNat, Nat.mod_eq_of_lt (by omega)]
    have hne : (BitVec.ofNat 8 ops.length : Byte) ≠ 0 := fun h => by
      rw [h] at hcount
      simp at hcount
      omega
    have at3 : byteAt c.body 3 = BitVec.ofNat 8 ops.length := by rw [hbody]; rfl
    have after4 : c.body.drop 4 = ops.flatMap Op.encode ++ pad := by rw [hbody]; rfl
    unfold Command.ops
    dsimp only
    rw [at3, after4, if_neg (by rw [hbody]; simp [be16]), if_neg hne, hcount, parseOps_encode ops pad henc hpad]
  · have hbody : c.body = be16 tag ++ flags :: rest := Command.body_of_layout hh (by rw [hb]; simp)
    refine ⟨?_, ?_⟩
    · rw [Command.tag, hbody]
      exact word16_be16 tag
    · rw [Command.rollcall, hbody]
      simp [be16, byteAt]
  · have hbody : c.body.length < 3 := by
      rw [Command.body, List.length_drop]
      omega
    refine ⟨?_, ?_⟩
    · rw [Command.rollcall, decide_eq_false (by omega), Bool.false_and]
    · exact if_pos (by omega)

/-! ## Addresses (R143, R145, Table 73) -/

theorem high_byte_toNat (a : BitVec 24) : (a.extractLsb' 16 8).toNat = a.toNat / 65536 := by
  have := a.isLt
  rw [BitVec.extractLsb'_toNat, Nat.shiftRight_eq_div_pow]
  omega

theorem low_half_toNat (a : BitVec 24) : (a.extractLsb' 0 16).toNat = a.toNat % 65536 := by
  rw [BitVec.extractLsb'_toNat, Nat.shiftRight_zero]

/-- An address is mine when its high byte is the unit's or that of the All-Units window. -/
theorem isMine_iff (unit : BitVec 5) (a : BitVec 24) :
    (localOffset unit a).isSome = true ↔ a.toNat / 65536 = unit.toNat ∨ a.toNat / 65536 = 255 := by
  have all : a.extractLsb' 16 8 = 0xFF ↔ a.toNat / 65536 = 255 := by
    rw [← high_byte_toNat]
    exact ⟨fun h => by rw [h]; rfl, fun h => BitVec.eq_of_toNat_eq h⟩
  simp only [localOffset, high_byte_toNat, all]
  split_ifs with h
  · exact iff_of_true rfl h
  · exact iff_of_false (by simp) h

theorem localOffset_eq_some (unit : BitVec 5) (a : BitVec 24) (o : BitVec 16) : localOffset unit a = some o ↔
    (a.toNat / 65536 = unit.toNat ∨ a.toNat / 65536 = 255) ∧ a.toNat % 65536 = o.toNat := by
  rw [← isMine_iff]
  unfold localOffset
  split_ifs
  · simp [BitVec.toNat_eq]
  · simp

/-- Settles O49: an op of at most 255 words crosses at most one boundary between windows. -/
theorem mineWordsFormOneRun : Obligations.MineWordsFormOneRun := by
  refine ⟨fun unit a o => ?_, fun unit a h1 h2 => ?_, fun unit a n hn => ?_⟩
  · have := unit.isLt
    have := o.isLt
    rw [localOffset_eq_some]
    omega
  · have := unit.isLt
    rw [← Option.not_isSome_iff_eq_none, isMine_iff]
    omega
  · have ha := a.isLt
    have place : ∀ j, j < n → ((localOffset unit (a + BitVec.ofNat 24 j)).isSome = true
        ↔ (a.toNat + j) % 16777216 / 65536 = unit.toNat ∨ (a.toNat + j) % 16777216 / 65536 = 255) := fun j hj => by
      rw [isMine_iff, BitVec.toNat_add, BitVec.toNat_ofNat, Nat.mod_eq_of_lt (a := j) (by omega)]
    let here : Prop := a.toNat / 65536 = unit.toNat ∨ a.toNat / 65536 = 255
    let next : Prop := (a.toNat / 65536 + 1) % 256 = unit.toNat ∨ (a.toNat / 65536 + 1) % 256 = 255
    have before : ∀ j, j < n → a.toNat % 65536 + j < 65536 →
        ((localOffset unit (a + BitVec.ofNat 24 j)).isSome = true ↔ here) := fun j hj h => by
      rw [place j hj, show (a.toNat + j) % 16777216 / 65536 = a.toNat / 65536 by omega]
    have after : ∀ j, j < n → 65536 ≤ a.toNat % 65536 + j →
        ((localOffset unit (a + BitVec.ofNat 24 j)).isSome = true ↔ next) := fun j hj h => by
      rw [place j hj, show (a.toNat + j) % 16777216 / 65536 = (a.toNat / 65536 + 1) % 256 by omega]
    by_cases hh : here <;> by_cases hx : next
    · refine ⟨0, n, by omega, fun j hj => iff_of_true ?_ (by omega)⟩
      by_cases h : a.toNat % 65536 + j < 65536
      · exact (before j hj h).2 hh
      · exact (after j hj (by omega)).2 hx
    · refine ⟨0, min n (65536 - a.toNat % 65536), by omega, fun j hj => ?_⟩
      by_cases h : a.toNat % 65536 + j < 65536
      · exact iff_of_true ((before j hj h).2 hh) (by omega)
      · exact iff_of_false (fun k => hx ((after j hj (by omega)).1 k)) (by omega)
    · refine ⟨min n (65536 - a.toNat % 65536), n - min n (65536 - a.toNat % 65536), by omega, fun j hj => ?_⟩
      by_cases h : a.toNat % 65536 + j < 65536
      · exact iff_of_false (fun k => hh ((before j hj h).1 k)) (by omega)
      · exact iff_of_true ((after j hj (by omega)).2 hx) (by omega)
    · refine ⟨0, 0, by omega, fun j hj => iff_of_false (fun k => ?_) (by omega)⟩
      by_cases h : a.toNat % 65536 + j < 65536
      · exact hh ((before j hj h).1 k)
      · exact hx ((after j hj (by omega)).1 k)

end Sys2Proof.Machine
end

section
/-!
PROOFS. The words of the rule and template views (R159, R161), Rule Commit, Template Commit and Swap Banks (R27 to R29, R35, R36).
-/

namespace Sys2Proof.Machine

-- One proof after another: elaborated side by side, the proofs of this file take more threads than the check's limits hold.
set_option Elab.async false

/-! ## Fields of a word and their masks -/

theorem place_getLsbD (n lo i : Nat) : (place n lo).getLsbD i = (decide (i < 32) && decide (lo ≤ i) && n.testBit (i - lo)) := by
  unfold place word
  rw [BitVec.getLsbD_shiftLeft, BitVec.getLsbD_ofNat]
  by_cases h : i < 32
  · simp [h, show i - lo < 32 by omega]
    by_cases hl : i < lo
    · simp [hl]
    · simp [hl, Nat.le_of_not_lt hl]
  · simp [h]

/-- A field put back at its place is the word under the field's mask. -/
theorem place_field (v : Word) (lo len : Nat) : place (field v lo len) lo = v &&& place (2 ^ len - 1) lo := by
  refine BitVec.eq_of_getLsbD_eq fun i hi => ?_
  rw [BitVec.getLsbD_and, place_getLsbD, place_getLsbD, field, BitVec.testBit_toNat, BitVec.getLsbD_extractLsb',
    Nat.testBit_two_pow_sub_one]
  by_cases hl : lo ≤ i
  · simp [hi, hl, show lo + (i - lo) = i by omega, Bool.and_comm]
  · simp [hl]

/-- A bit put back at its place is the word under the bit's mask. -/
theorem flagAt_getLsbD (v : Word) (lo : Nat) : flagAt (v.getLsbD lo) lo = v &&& place 1 lo := by
  have bit : (v.getLsbD lo).toNat = field v lo 1 := by
    rw [field, BitVec.extractLsb'_toNat, Nat.shiftRight_eq_div_pow]
    exact Nat.toNat_testBit _ _
  have flag : flagAt (v.getLsbD lo) lo = place (field v lo 1) lo := by
    rw [← bit]
    cases v.getLsbD lo
    · exact (BitVec.zero_shiftLeft lo).symm
    · rfl
  exact flag.trans (place_field v lo 1)

/-- Fields of one word side by side are the word under their masks together. -/
theorem and_or_and (v a b : Word) : v &&& a ||| v &&& b = v &&& (a ||| b) := BitVec.and_or_distrib_left.symm

/-! ## The rule views (R159) -/

theorem field_lt (v : Word) (lo len : Nat) : field v lo len < 2 ^ len := BitVec.isLt _

theorem directionsOf_code {n : Nat} (h0 : n ≠ 0) (h : n < 4) : ((directionsOf n).getD .both).code = n := by
  interval_cases n <;> first | rfl | exact absurd rfl h0

theorem actionOf_code {n : Nat} (h3 : n ≠ 3) (h : n < 4) : ((actionOf n).getD .pass).code = n := by
  interval_cases n <;> first | rfl | exact absurd rfl h3

theorem stagedRule_action {m : SMap Word} (h : stagedAction m ≠ 3) :
    place (stagedRule m).action.code 0 = stagingWord m 1 &&& 3 := by
  show place ((actionOf (stagedAction m)).getD .pass).code 0 = _
  rw [actionOf_code h (field_lt _ 0 2)]
  exact place_field _ 0 2

/-- The capture word of a rule as it is staged. -/
theorem stagedRule_capture (m : SMap Word) :
    place (stagedRule m).slice 0 ||| place (stagedRule m).ring.toNat 16 = stagingWord m 2 &&& 0x000701FF := by
  show place (field (stagingWord m 2) 0 9) 0 ||| place (field (stagingWord m 2) 16 3) 16 = _
  rw [place_field, place_field, and_or_and]
  rfl

theorem stagedTerm_flags (m : SMap Word) (k : Nat) :
    flagAt (stagedTerm m k).enabled 31 ||| place (stagedTerm m k).offset.toNat 0 = stagingWord m (4 + 3 * k) &&& 0x800000FF := by
  show flagAt ((stagingWord m (4 + 3 * k)).getLsbD 31) 31 ||| place (field (stagingWord m (4 + 3 * k)) 0 8) 0 = _
  rw [flagAt_getLsbD, place_field, and_or_and]
  rfl

/-- The fields of a rule 0–63 that passes check 2 of Table 16. -/
theorem commitCheck2_rule {m : SMap Word} {i : Nat} (h : commitCheck2 m i = true) (hi : i ≠ 64) :
    stagedDirections m ≠ 0 ∧ stagedAction m ≠ 3 ∧ stagedTemplateNumber m ≤ 7 := by
  unfold commitCheck2 at h
  rw [if_neg hi] at h
  simp only [Bool.and_eq_true, bne_iff_ne, decide_eq_true_eq] at h
  tauto

theorem stagedRule_viewWord {m : SMap Word} (hd : stagedDirections m ≠ 0) (ha : stagedAction m ≠ 3)
    (ht : stagedTemplateNumber m ≤ 7) {j : Nat} (hj : j < 16) : (stagedRule m).viewWord j
      = stagingWord m j &&& (if j = 0 then 0x80000003 else if j = 1 then 0x00000F03 else if j = 2 then 0x000701FF
          else if 4 ≤ j ∧ j % 3 = 1 then 0x800000FF else 0xFFFFFFFF) := by
  have full : ∀ v : Word, v &&& 0xFFFFFFFF = v := fun v => BitVec.and_allOnes (x := v)
  match j, hj with
  | 0, _ =>
    show flagAt ((stagingWord m 0).getLsbD 31) 31 ||| place ((directionsOf (stagedDirections m)).getD .both).code 0 = _
    rw [directionsOf_code hd (field_lt _ 0 2), flagAt_getLsbD, stagedDirections, place_field, and_or_and]
    rfl
  | 1, _ =>
    show place (stagedRule m).action.code 0 ||| place (BitVec.ofNat 3 (stagedTemplateNumber m)).toNat 8 = _
    rw [stagedRule_action ha, BitVec.toNat_ofNat, Nat.mod_eq_of_lt (by omega), stagedTemplateNumber, place_field, and_or_and]
    rfl
  | 2, _ => exact stagedRule_capture m
  | 3, _ => exact (full _).symm
  | 4, _ => exact stagedTerm_flags m 0
  | 7, _ => exact stagedTerm_flags m 1
  | 10, _ => exact stagedTerm_flags m 2
  | 13, _ => exact stagedTerm_flags m 3
  | 5, _ | 6, _ | 8, _ | 9, _ | 11, _ | 12, _ | 14, _ | 15, _ => exact (full _).symm
  | n + 16, h => omega

/-! ## Rule Commit (R27, R28) -/

theorem Classifier.shadow_setShadow (c : Classifier) (b : Bank) : (c.setShadow b).shadow = b := by
  unfold Classifier.setShadow Classifier.shadow
  cases c.activeBank <;> simp

theorem Classifier.active_setShadow (c : Classifier) (b : Bank) : (c.setShadow b).active = c.active := by
  unfold Classifier.setShadow Classifier.active
  cases c.activeBank <;> simp

theorem Classifier.setShadow_eq (c : Classifier) (b : Bank) :
    c.setShadow b = { c with bank0 := (c.setShadow b).bank0, bank1 := (c.setShadow b).bank1 } := by
  unfold Classifier.setShadow
  split_ifs <;> rfl

/-- Settles O55. -/
theorem ruleCommitWritesTheShadow : Obligations.RuleCommitWritesTheShadow := by
  intro v s m s0 noted i bad
  have row : ∀ {u x}, commitRule i s0 = (u, x) → exec (.ruleCommit v) s = .next (noted x u) := fun h =>
    congrArg Host.Outcome.next (present_eq h _ _)
  have checked : bad ∨ ¬ 64 < i ∧ commitCheck2 m i = true ∧ commitCheck3 m = true := by
    by_cases h : bad
    · exact .inl h
    · simp only [bad, not_or, Bool.not_eq_false] at h
      exact .inr h
  refine ⟨fun hb => row ?_, fun hb h4 => row ?_, fun hb h4 h5 => row ?_, fun hb h4 h5 => ?_⟩
  · unfold commitRule
    dsimp only
    rcases hb with h | h | h
    · exact if_pos h
    · rw [show commitCheck2 s0.cls.ruleStaging i = false from h]
      exact ite_self _
    · rw [show commitCheck3 s0.cls.ruleStaging = false from h]
      split_ifs <;> first | rfl | simp_all
  all_goals
    obtain ⟨hi, h2, h3⟩ := checked.resolve_left hb
    have through : commitRule i s0 = if !commitCheck4 s.cls i then (s0, .rejected .badTemplate)
        else if !commitCheck5 s i then (s0, .rejected .badRing)
        else (s0.setCls (s0.cls.setShadow (s0.cls.shadow.setRule i (committedRule m i))), .ok) := by
      unfold commitRule
      dsimp only
      rw [if_neg hi, show commitCheck2 s0.cls.ruleStaging i = true from h2, show commitCheck3 s0.cls.ruleStaging = true from h3]
      rfl
    rw [h4] at through
  · exact through
  · rw [h5] at through
    exact through
  · rw [h5] at through
    have shadow : ∀ j, (s0.cls.setShadow (s0.cls.shadow.setRule i (committedRule m i))).shadow.rule j
        = if j = i then committedRule m i else s.cls.shadow.rule j := fun j => by
      rw [Classifier.shadow_setShadow, Bank.rule_setRule]
      rfl
    refine ⟨_, row through, fun j hj => (shadow j).trans (if_neg hj), Classifier.active_setShadow _ _, fun h64 j hj => ?_,
      fun h64 => ?_, congrArg (fun c => { s with cls := c }) (Classifier.setShadow_eq _ _)⟩
    · obtain ⟨hd, ha, ht⟩ := commitCheck2_rule h2 (by omega)
      refine (congrArg (·.viewWord j) ((shadow i).trans (if_pos rfl))).trans ?_
      rw [committedRule, if_neg (by omega)]
      exact stagedRule_viewWord hd ha ht hj
    · have committed : (s0.cls.setShadow (s0.cls.shadow.setRule i (committedRule m i))).shadow.rule 64 = stagedDefault m := by
        rw [shadow, if_pos h64.symm, committedRule, if_pos h64]
      have ha : stagedAction m ≠ 3 := fun h => by
        rw [h64] at h2
        simp [commitCheck2, h] at h2
      have viewed : ∀ j, (((s0.cls.setShadow (s0.cls.shadow.setRule i (committedRule m i))).shadow.rule 64).viewWord j
          = (stagedDefault m).viewWord j) := fun j => congrArg (·.viewWord j) committed
      exact ⟨(viewed 0).trans (show Rule.resetDefault.viewWord 0 = _ by decide), (viewed 1).trans (BitVec.or_zero.trans (stagedRule_action ha)),
        (viewed 2).trans (stagedRule_capture m), (viewed 3).trans rfl⟩

/-! ## Template Commit (R35, R36) -/

theorem stagedSegment_offset (m : SMap Word) (k : Nat) :
    (stagedSegment m k).offset.toNat = ((stagingWord m k >>> 16) &&& 511).toNat := by
  show (stagingWord m k).toNat >>> 16 % 2 ^ 9 = _
  rw [BitVec.toNat_and, BitVec.toNat_ushiftRight]
  exact (Nat.and_two_pow_sub_one_eq_mod _ 9).symm

theorem stagedSegment_length (m : SMap Word) (k : Nat) :
    (stagedSegment m k).length.toNat = (stagingWord m k &&& 31).toNat := by
  show (stagingWord m k).toNat >>> 0 % 2 ^ 5 = _
  rw [BitVec.toNat_and]
  exact (Nat.and_two_pow_sub_one_eq_mod _ 5).symm

theorem stagedTemplate_viewWord (m : SMap Word) {j : Nat} (hj : j < 4) : (stagedTemplate m).viewWord j
    = stagingWord m j &&& (if j = 0 then 0xC1FF001F else 0x01FF001F) := by
  have segment : ∀ k, place (stagedSegment m k).offset.toNat 16 ||| place (stagedSegment m k).length.toNat 0
      = stagingWord m k &&& 0x01FF001F := fun k => by
    show place (field (stagingWord m k) 16 9) 16 ||| place (field (stagingWord m k) 0 5) 0 = _
    rw [place_field, place_field, and_or_and]
    rfl
  match j, hj with
  | 0, _ =>
    show place (stagedSegment m 0).offset.toNat 16 ||| place (stagedSegment m 0).length.toNat 0
      ||| (flagAt ((stagingWord m 0).getLsbD 31) 31 ||| flagAt ((stagingWord m 0).getLsbD 30) 30) = _
    rw [segment, flagAt_getLsbD, flagAt_getLsbD, and_or_and, and_or_and]
    rfl
  | 1, _ | 2, _ | 3, _ => exact BitVec.or_zero.trans (segment _)

theorem templateLegal_iff (m : SMap Word) : templateLegal (stagedTemplate m) = true ↔
    ¬ ((stagingWord m 0).getLsbD 31 = true ∧
      ¬ ((∀ k, k < 4 → (stagingWord m k &&& 31).toNat ≤ 16 ∧ ((stagingWord m k >>> 16) &&& 511).toNat ≤ 255)
        ∧ 1 ≤ ((List.range 4).map fun k => (stagingWord m k &&& 31).toNat).sum
        ∧ ((List.range 4).map fun k => (stagingWord m k &&& 31).toNat).sum ≤ 32)) := by
  have sum : (stagedTemplate m).keyLength = ((List.range 4).map fun k => (stagingWord m k &&& 31).toNat).sum := by
    simp only [← stagedSegment_length]
    rfl
  have all : ((stagedTemplate m).segments.all fun g => g.length.toNat ≤ 16 && g.offset.toNat ≤ 255) = true ↔
      ∀ k, k < 4 → (stagingWord m k &&& 31).toNat ≤ 16 ∧ ((stagingWord m k >>> 16) &&& 511).toNat ≤ 255 := by
    simp only [← stagedSegment_length, ← stagedSegment_offset]
    show (((List.range 4).map (stagedSegment m)).all fun g => g.length.toNat ≤ 16 && g.offset.toNat ≤ 255) = true ↔ _
    simp
  rw [← sum, ← all, not_and, not_not]
  show (!(stagingWord m 0).getLsbD 31 || _) = true ↔ _
  cases (stagingWord m 0).getLsbD 31 <;> simp [and_assoc]

/-- Settles O56. -/
theorem templateCommitReplaces : Obligations.TemplateCommitReplaces := by
  intro v s m c0 noted i lengths bad named
  have row : ∀ {u x}, commitTemplate i (s.setCls c0) = (u, x) → exec (.templateCommit v) s = .next (noted x u) := fun h =>
    congrArg Host.Outcome.next (present_eq h _ _)
  have taken : ¬ bad → commitTemplate i (s.setCls c0) = if s.cls.bank0.namesTemplate i || s.cls.bank1.namesTemplate i
      then (s.setCls c0, .rejected .inUse)
      else (s.setCls { c0 with templates := SMap.set .reset s.cls.templates i (stagedTemplate m) }, .ok) := fun h => by
    obtain ⟨hi, hl⟩ := not_or.1 h
    unfold commitTemplate
    dsimp only
    rw [if_neg hi, show templateLegal (stagedTemplate (s.setCls c0).cls.templateStaging) = true from (templateLegal_iff m).2 hl]
    rfl
  refine ⟨fun hb => row ?_, fun hb hn => row ?_, fun hb hn => ?_⟩
  · unfold commitTemplate
    dsimp only
    by_cases hi : 7 < i
    · exact if_pos hi
    · have hl : templateLegal (stagedTemplate m) = false :=
        Bool.eq_false_iff.2 fun h => (templateLegal_iff m).1 h (hb.resolve_left hi)
      rw [if_neg hi, show templateLegal (stagedTemplate (s.setCls c0).cls.templateStaging) = false from hl]
      rfl
  · rw [taken hb, if_pos (Bool.or_eq_true_iff.2 hn)]
  · have free := (taken hb).trans (if_neg fun h => hn (Bool.or_eq_true_iff.1 h))
    have template : ∀ j, SMap.get .reset (SMap.set .reset s.cls.templates i (stagedTemplate m)) j
        = if j = i then stagedTemplate m else s.cls.template j := fun j => SMap.get_set ..
    exact ⟨_, row free, fun j hj => (congrArg (·.viewWord j) ((template i).trans (if_pos rfl))).trans
      (stagedTemplate_viewWord m hj), fun j hj => (template j).trans (if_neg hj), rfl⟩

/-! ## Swap Banks (R29) -/

/-- What a run of writes over a store's entries leaves: the image of each entry, and what was there elsewhere. -/
theorem SMap.get_foldl_set {α β : Type} [DecidableEq β] (d : β) (f : α → β) (i : Nat) :
    ∀ (l : SMap α), SMap.Sorted l → ∀ m : SMap β,
      SMap.get d (l.foldl (fun m x => SMap.set d m x.1 (f x.2)) m) i = ((SMap.find l i).map f).getD (SMap.get d m i)
  | [], _, _ => rfl
  | (k, w) :: l, hs, m => by
    obtain ⟨hk, hl⟩ := List.pairwise_cons.1 hs
    rw [List.foldl_cons, SMap.get_foldl_set d f i l hl, SMap.get_set, SMap.find]
    by_cases hi : i = k
    · subst hi
      have later : SMap.find l i = none := by
        cases hf : SMap.find l i with
        | none => rfl
        | some v => exact absurd (hk _ (SMap.mem_of_find hf)) (lt_irrefl _)
      rw [later, if_pos rfl, if_pos rfl]
      rfl
    · rw [if_neg hi, if_neg (Ne.symm hi)]

theorem Bank.get_countdowns {b : Bank} (hs : SMap.Sorted b.rules) (i : Nat) :
    SMap.get 0 b.countdowns i = if (b.rule i).slice = 0 then 0 else (b.rule i).ratio.toNat := by
  have listed := SMap.get_foldl_set 0 (fun r : Rule => if r.slice = 0 then 0 else r.ratio.toNat) i b.rules hs []
  unfold Bank.countdowns Bank.rule
  rw [SMap.get_set]
  by_cases hi : i = 64
  · rw [if_pos hi, if_pos hi]
  · rw [if_neg hi, if_neg hi, listed]
    unfold SMap.get
    cases SMap.find b.rules i <;> rfl

/-- Settles O59. -/
theorem swapExchangesTheBanks : Obligations.SwapExchangesTheBanks := fun s hs _ =>
  ⟨s.cls.swap, congrArg Host.Outcome.next (present_eq (u := s.setCls s.cls.swap) rfl _ _), by
      unfold Classifier.active Classifier.swap
      exact ite_self _, by
      unfold Classifier.shadow Classifier.swap
      exact ite_self _,
    rfl, fun i _ => Bank.get_countdowns hs i, fun _ => rfl, rfl⟩

end Sys2Proof.Machine
end

section
/-!
PROOFS. The words of the local map written (R156, R159, R137): their checks, what is stored, and the words that take no write.
-/

namespace Sys2Proof.Machine

-- One proof after another: elaborated side by side, the proofs of this file take more threads than the check's limits hold.
set_option Elab.async false

/-! ## The rows that write a word of the local map -/

theorem exec_settingWrite {o : BitVec 16} {v : Word} {s u : State} {t : Target} {r : WordResult}
    (ht : decodeOffset o.toNat = t) (hw : writeTarget t v s = (u, r)) :
    exec (.settingWrite o v) s = .next (noteTaken (standsAt s t (· == v)) r { u with lastResult := some r }) := by
  subst ht
  exact congrArg Host.Outcome.next (present_eq hw _ _)

/-! ## Settings (Table 80) -/

/-- Of the settings that are only stored, the Report Port and the Window Size alone have a state check. -/
theorem Setting.stateCheck_eq {k : Setting} (h : k ≠ .hashSeed) (s : State) : k.stateCheck s
    = if (k = .reportPort ∨ k = .windowSize) ∧ s.rep.session ≠ .idle then some .busy else none := by
  cases k with
  | hashSeed => exact absurd rfl h
  | reportPort | windowSize =>
    unfold Setting.stateCheck
    by_cases hs : s.rep.session = .idle <;> simp [hs]
  | _ => rfl

theorem writeSetting_unchecked {k : Setting} {s : State} (h : k.stateCheck s = none) (v : Word) : writeSetting k v s
    = if k.legal v.toNat then (storeSetting k v s, .ok) else (s, .rejected .badValue) := by
  rw [writeSetting, h]

/-- What a setting stored bears on. -/
theorem storeSetting_frame {k : Setting} (hk : k ≠ .hashSeed) (hk' : k ≠ .sessionEnable) (v : Word) (s : State) :
    let t := storeSetting k v s
    t.reach.responseEnvelope = s.reach.responseEnvelope ∧ t.reach.reportEnvelope = s.reach.reportEnvelope
      ∧ t = { s with
          reach := t.reach
          cls := { s.cls with mode := t.cls.mode }
          flow := { s.flow with policy := t.flow.policy }
          time := { s.time with offset := t.time.offset }
          sweep := { s.sweep with
            idleTimeout := t.sweep.idleTimeout, activeTimeout := t.sweep.activeTimeout, sweepPeriod := t.sweep.sweepPeriod }
          rep := { s.rep with
            port := t.rep.port, windowSize := t.rep.windowSize, sizeLimit := t.rep.sizeLimit,
            holdTime := t.rep.holdTime, retransmitBase := t.rep.retransmitBase, retryLimit := t.rep.retryLimit } } := by
  cases k with
  | hashSeed => exact absurd rfl hk
  | sessionEnable => exact absurd rfl hk'
  | _ => exact ⟨rfl, rfl, rfl⟩

/-- A Control word whose code names no op (Table 81). -/
theorem writeControl_unnamed {v : Word} (h : field v 0 8 = 0 ∨ 7 < field v 0 8) (s : State) :
    writeControl v s = (s, .rejected .badValue) := by
  unfold writeControl
  split <;> first | rfl | omega

/-! ## The words that take no write -/

/-- The words that the map marks as read-only. -/
def Target.readOnly : Target → Bool
  | .status _ | .activeRule _ _ | .shadowRule _ _ | .template _ _ | .hitCounter _ | .entryView _ | .counter _ => true
  | .ring _ i => 4 ≤ i
  | _ => false

theorem writeTarget_readOnly {t : Target} (h : t.readOnly = true) (v : Word) (s : State) :
    writeTarget t v s = (s, .readOnly) := by
  cases t with
  | ring r i =>
    match i, h with
    | i + 4, _ => rfl
  | status _ | activeRule _ _ | shadowRule _ _ | template _ _ | hitCounter _ | entryView _ | counter _ => rfl
  | _ => cases h

theorem counterNamed_iff {n : Nat} (h : 0x4000 ≤ n) (h' : n ≤ 0x4065) : counterNamed (n - 0x4000) = true ↔
    n ≤ 0x4009 ∨ (0x4010 ≤ n ∧ n ≤ 0x4019) ∨ (0x4020 ≤ n ∧ n ≤ 0x4025) ∨ (0x4028 ≤ n ∧ n ≤ 0x402D)
      ∨ (0x4030 ≤ n ∧ n < 0x4050 ∧ n % 8 < 5) ∨ (0x4050 ≤ n ∧ n ≤ 0x4056) ∨ (0x4058 ≤ n ∧ n ≤ 0x405A)
      ∨ (0x4060 ≤ n ∧ n ≤ 0x4065) := by
  simp only [counterNamed, Bool.or_eq_true, Bool.and_eq_true, decide_eq_true_eq]
  omega

theorem lowTarget_readOnly : ∀ n ∈ [0x00, 0x01, 0x02, 0x03, 0x05, 0x09, 0x0A, 0x0C, 0x15, 0x24, 0x38, 0x39, 0x3A, 0x3B],
    (decodeOffset n).readOnly = true := by decide

theorem lowTarget_unmapped : ∀ n < 0x0100, n ∉ [0x00, 0x01, 0x02, 0x03, 0x04, 0x05, 0x08, 0x09, 0x0A, 0x0C, 0x0D, 0x10, 0x11,
    0x12, 0x13, 0x14, 0x15, 0x20, 0x21, 0x22, 0x23, 0x24, 0x30, 0x31, 0x32, 0x33, 0x34, 0x35, 0x36, 0x38, 0x39, 0x3A, 0x3B] →
    decodeOffset n = .unmapped := by decide +kernel

/-! ## The regions of the local map (Table 78) -/

section
variable {n : Nat}

theorem decodeOffset_envelopeGap (h : 0x0110 ≤ n) (h' : n < 0x0200) : decodeOffset n = .unmapped := by
  simp (disch := omega) only [decodeOffset, if_neg, if_pos]

theorem decodeOffset_stagingGap (h : 0x0216 ≤ n) (h' : n < 0x1000) : decodeOffset n = .unmapped := by
  simp (disch := omega) only [decodeOffset, if_neg, if_pos]

theorem decodeOffset_activeRule (h : 0x1000 ≤ n) (h' : n ≤ 0x13FF) :
    decodeOffset n = .activeRule ((n - 0x1000) / 16) ((n - 0x1000) % 16) := by
  simp (disch := omega) only [decodeOffset, if_neg, if_pos]

theorem decodeOffset_shadowRule (h : 0x1400 ≤ n) (h' : n ≤ 0x17FF) :
    decodeOffset n = .shadowRule ((n - 0x1400) / 16) ((n - 0x1400) % 16) := by
  simp (disch := omega) only [decodeOffset, if_neg, if_pos]

theorem decodeOffset_template (h : 0x1800 ≤ n) (h' : n ≤ 0x181F) :
    decodeOffset n = .template ((n - 0x1800) / 4) ((n - 0x1800) % 4) := by
  simp (disch := omega) only [decodeOffset, if_neg, if_pos]

theorem decodeOffset_activeDefault (h : 0x1820 ≤ n) (h' : n ≤ 0x182F) : decodeOffset n = .activeRule 64 (n - 0x1820) := by
  simp (disch := omega) only [decodeOffset, if_neg, if_pos]

theorem decodeOffset_shadowDefault (h : 0x1830 ≤ n) (h' : n ≤ 0x183F) : decodeOffset n = .shadowRule 64 (n - 0x1830) := by
  simp (disch := omega) only [decodeOffset, if_neg, if_pos]

theorem decodeOffset_hitCounter (h : 0x1840 ≤ n) (h' : n ≤ 0x1880) : decodeOffset n = .hitCounter (n - 0x1840) := by
  simp (disch := omega) only [decodeOffset, if_neg, if_pos]

theorem decodeOffset_viewGap (h : 0x1881 ≤ n) (h' : n < 0x2000) : decodeOffset n = .unmapped := by
  simp (disch := omega) only [decodeOffset, if_neg, if_pos]

theorem decodeOffset_entryView (h : 0x2001 ≤ n) (h' : n ≤ 0x2010) : decodeOffset n = .entryView (n - 0x2001) := by
  simp (disch := omega) only [decodeOffset, if_neg, if_pos]

theorem decodeOffset_entryGap (h : 0x2012 ≤ n) (h' : n < 0x3000) : decodeOffset n = .unmapped := by
  simp (disch := omega) only [decodeOffset, if_neg, if_pos]

theorem decodeOffset_ring (h : 0x3000 ≤ n) (h' : n ≤ 0x301F) : decodeOffset n
    = if n % 8 = 7 then .unmapped else .ring (Fin.ofNat 4 ((n - 0x3000) / 8)) (n % 8) := by
  simp (disch := omega) only [decodeOffset, if_neg, if_pos, show (n - 0x3000) % 8 = n % 8 by omega]

theorem decodeOffset_ringGap (h : 0x3020 ≤ n) (h' : n < 0x4000) : decodeOffset n = .unmapped := by
  simp (disch := omega) only [decodeOffset, if_neg, if_pos]

theorem decodeOffset_counter (h : 0x4000 ≤ n) (h' : n ≤ 0x4065) : decodeOffset n
    = if counterNamed (n - 0x4000) then .counter (n - 0x4000) else .unmapped := by
  simp (disch := omega) only [decodeOffset, if_neg, if_pos]

theorem decodeOffset_beyond (h : 0x4066 ≤ n) : decodeOffset n = .unmapped := by
  simp (disch := omega) only [decodeOffset, if_neg]

end

/-- The offsets of the local map that take no write. -/
theorem decodeOffset_readOnly {n : Nat} (h : n ∈ [0x00, 0x01, 0x02, 0x03, 0x05, 0x09, 0x0A, 0x0C, 0x15, 0x24, 0x38, 0x39, 0x3A,
      0x3B]
    ∨ (0x1000 ≤ n ∧ n ≤ 0x1880) ∨ (0x2001 ≤ n ∧ n ≤ 0x2010) ∨ (0x3000 ≤ n ∧ n ≤ 0x301F ∧ 4 ≤ n % 8 ∧ n % 8 ≤ 6)
    ∨ (0x4000 ≤ n ∧ n ≤ 0x4065 ∧ counterNamed (n - 0x4000) = true)) : (decodeOffset n).readOnly = true := by
  rcases h with h | ⟨h, h'⟩ | ⟨h, h'⟩ | ⟨h, h', h4, h6⟩ | ⟨h, h', hn⟩
  · exact lowTarget_readOnly n h
  · rcases show n ≤ 0x13FF ∨ (0x1400 ≤ n ∧ n ≤ 0x17FF) ∨ (0x1800 ≤ n ∧ n ≤ 0x181F) ∨ (0x1820 ≤ n ∧ n ≤ 0x182F)
      ∨ (0x1830 ≤ n ∧ n ≤ 0x183F) ∨ 0x1840 ≤ n by omega with k | ⟨k, k'⟩ | ⟨k, k'⟩ | ⟨k, k'⟩ | ⟨k, k'⟩ | k
    · rw [decodeOffset_activeRule h k]; rfl
    · rw [decodeOffset_shadowRule k k']; rfl
    · rw [decodeOffset_template k k']; rfl
    · rw [decodeOffset_activeDefault k k']; rfl
    · rw [decodeOffset_shadowDefault k k']; rfl
    · rw [decodeOffset_hitCounter k h']; rfl
  · rw [decodeOffset_entryView h h']; rfl
  · rw [decodeOffset_ring h h', if_neg (by omega)]
    exact decide_eq_true h4
  · rw [decodeOffset_counter h h', if_pos hn]; rfl

/-- The offsets that the local map does not list. -/
theorem decodeOffset_unmapped {n : Nat} (h : (n < 0x0100 ∧ n ∉ [0x00, 0x01, 0x02, 0x03, 0x04, 0x05, 0x08, 0x09, 0x0A, 0x0C, 0x0D,
      0x10, 0x11, 0x12, 0x13, 0x14, 0x15, 0x20, 0x21, 0x22, 0x23, 0x24, 0x30, 0x31, 0x32, 0x33, 0x34, 0x35, 0x36, 0x38, 0x39,
      0x3A, 0x3B])
    ∨ (0x0110 ≤ n ∧ n < 0x0200) ∨ (0x0216 ≤ n ∧ n < 0x1000) ∨ (0x1881 ≤ n ∧ n < 0x2000) ∨ (0x2012 ≤ n ∧ n < 0x3000)
    ∨ (0x3000 ≤ n ∧ n ≤ 0x301F ∧ n % 8 = 7) ∨ (0x3020 ≤ n ∧ n < 0x4000)
    ∨ (0x4000 ≤ n ∧ ¬ (n ≤ 0x4065 ∧ counterNamed (n - 0x4000) = true))) : decodeOffset n = .unmapped := by
  rcases h with ⟨h, h'⟩ | ⟨h, h'⟩ | ⟨h, h'⟩ | ⟨h, h'⟩ | ⟨h, h'⟩ | ⟨h, h', h7⟩ | ⟨h, h'⟩ | ⟨h, hn⟩
  · exact lowTarget_unmapped n h h'
  · exact decodeOffset_envelopeGap h h'
  · exact decodeOffset_stagingGap h h'
  · exact decodeOffset_viewGap h h'
  · exact decodeOffset_entryGap h h'
  · rw [decodeOffset_ring h h', if_pos h7]
  · exact decodeOffset_ringGap h h'
  · by_cases k : n ≤ 0x4065
    · rw [decodeOffset_counter h k, if_neg fun c => hn ⟨k, c⟩]
    · exact decodeOffset_beyond (by omega)

/-- Settles O54. -/
theorem settingsAreWritten : Obligations.SettingsAreWritten := by
  intro v s
  refine ⟨fun o k ho hh hse => ?_, ?_, ?_, fun i hi => ?_, fun i hi => ?_, fun i hi => ⟨?_, ?_⟩, fun o => ?_⟩
  · intro noted held
    have check := Setting.stateCheck_eq hh s
    refine ⟨fun h => exec_settingWrite ho ?_, fun h hl => exec_settingWrite ho ?_, fun h hl => ?_⟩
    · show writeSetting k v s = _
      rw [writeSetting, check, if_pos h]
    · show writeSetting k v s = _
      rw [writeSetting_unchecked (check.trans (if_neg h)), hl]
      rfl
    · refine ⟨storeSetting k v s, exec_settingWrite ho ?_, readSetting_storeSetting s hse hl, fun j hj =>
        readSetting_storeSetting_of_ne s v hse hj, storeSetting_frame hh hse v s⟩
      show writeSetting k v s = _
      rw [writeSetting_unchecked (check.trans (if_neg h)), if_pos hl]
  · intro noted busy
    have free : ¬ busy → Setting.stateCheck .hashSeed s = none := fun h => if_neg h
    have row : ∀ {u r}, writeSetting .hashSeed v s = (u, r) → exec (.hashSeedWrite v) s = .next (noted r u) := fun h =>
      congrArg Host.Outcome.next (present_eq h _ _)
    refine ⟨fun h => row ?_, fun h hv => row ?_, fun h hv => row ?_⟩
    · rw [writeSetting, show Setting.stateCheck .hashSeed s = _ from if_pos h]
    · rw [writeSetting_unchecked (free h)]
      exact if_neg fun k => absurd (of_decide_eq_true k) (Nat.not_le.2 hv)
    · rw [writeSetting_unchecked (free h)]
      exact if_pos (decide_eq_true hv)
  · intro refused code
    refine ⟨fun hv => exec_settingWrite (t := .setting .sessionEnable) rfl ?_,
      fun hv => exec_settingWrite (t := .control) rfl (writeControl_unnamed hv s)⟩
    show writeSetting .sessionEnable v s = _
    rw [writeSetting_unchecked rfl]
    exact if_neg fun k => absurd (of_decide_eq_true k) (Nat.not_le.2 hv)
  · have decoded : ∀ i < 16, decodeOffset (BitVec.ofNat 16 (0x0200 + i)).toNat = .ruleStaging i := by decide
    exact exec_settingWrite (decoded i hi) rfl
  · have decoded : ∀ i < 4, decodeOffset (BitVec.ofNat 16 (0x0211 + i)).toNat = .templateStaging i := by decide
    exact exec_settingWrite (decoded i hi) rfl
  · have decoded : ∀ i < 8, decodeOffset (BitVec.ofNat 16 (0x0100 + i)).toNat = .responseEnvelope i := by decide
    exact exec_settingWrite (decoded i hi) rfl
  · have decoded : ∀ i < 8, decodeOffset (BitVec.ofNat 16 (0x0108 + i)).toNat = .reportEnvelope i := by decide
    exact exec_settingWrite (decoded i hi) rfl
  · intro noted n named
    have hnamed : 0x4000 ≤ n → (named ↔ n ≤ 0x4065 ∧ counterNamed (n - 0x4000) = true) := fun h => by
      constructor
      · intro hn
        have top : n ≤ 0x4065 := by omega
        exact ⟨top, (counterNamed_iff h top).2 hn⟩
      · rintro ⟨top, hn⟩
        exact (counterNamed_iff h top).1 hn
    refine ⟨fun h => ?_, fun h => ?_⟩
    · have ro : (decodeOffset n).readOnly = true := decodeOffset_readOnly
        (h.imp_right (.imp_right (.imp_right (.imp_right fun ⟨k, hn⟩ => ⟨k, (hnamed k).1 hn⟩))))
      exact exec_settingWrite rfl (writeTarget_readOnly ro v s)
    · have un : decodeOffset n = .unmapped := decodeOffset_unmapped (h.imp_right (.imp_right (.imp_right (.imp_right (.imp_right
        (.imp_right (.imp_right fun ⟨k, hn⟩ => ⟨k, fun c => hn ((hnamed k).2 c)⟩)))))))
      refine ⟨un, exec_settingWrite rfl ?_⟩
      show writeTarget (decodeOffset n) v s = _
      rw [un]
      rfl

end Sys2Proof.Machine
end

section
/-!
PROOFS. The words of a WRITE taken at the cursor (R144, R146, R150), and the rows of the registers as words of a WRITE.
-/

namespace Sys2Proof.Machine

-- One proof after another: elaborated side by side, the proofs of this file take more threads than the check's limits hold.
set_option Elab.async false

/-! ## The word row and the WRITE op -/

theorem State.updateWalk_updateWalk (s : State) (f g : Walk → Walk) :
    (s.updateWalk f).updateWalk g = s.updateWalk fun w => g (f w) := by
  unfold State.updateWalk
  cases s.agent.walk <;> rfl

theorem exec_write_eq {s : State} {w : Walk} {ws vs : List Word} {later : List Op} (hw : s.agent.walk = some w)
    (ho : w.ops = .write ws :: later) (hne : vs ≠ []) (hvs : (ws.drop w.taken).take vs.length = vs) :
    exec (.write vs) s = .next ((writeWords vs s).updateWalk Walk.closeWrite) := by
  show execWrite vs s = _
  have hop : currentOp s = some (.write ws) := by rw [currentOp, hw, Option.bind_some, ho, List.head?_cons]
  rw [execWrite, hop, hw]
  exact if_pos ⟨hne, hvs⟩

/-- A row of the word that the Agent stands at is the taking of that word. -/
theorem exec_write_word {s : State} {w : Walk} {ws : List Word} {later : List Op} {o : BitVec 16} {v : Word}
    (hw : s.agent.walk = some w) (ho : w.ops = .write ws :: later) (hv : ws[w.taken]? = some v)
    (hl : localOffset s.agent.unit w.cursor = some o) {t : Target} {ok : Word → Bool} {owner : State → State × WordResult}
    (ht : decodeOffset o.toNat = t) (hok : ok v = true) (howner : owner s = writeTarget t v s) :
    exec (.write [v]) s = .next (present t ok owner s) := by
  have stands : standsAt s t ok = true := by
    have hword : wordAtCursor s = some (o, v) := by
      unfold wordAtCursor
      rw [hw]
      dsimp only
      rw [ho]
      dsimp only
      rw [hv, hl]
    unfold standsAt
    rw [hword]
    dsimp only
    rw [ht, beq_self_eq_true, hok]
    rfl
  have taken : writeOne v s
      = ((writeWord o v s).1.setResult (writeWord o v s).2).updateWalk fun w => w.noteMine (writeWord o v s).2 := by
    unfold writeOne
    rw [hw]
    dsimp only
    rw [hl]
  rw [exec_write_eq hw ho (List.cons_ne_nil _ _) (by rw [List.length_singleton, List.take_one, List.head?_drop, hv]; rfl)]
  show Host.Outcome.next ((writeOne v s).updateWalk Walk.closeWrite) = _
  rw [taken, State.updateWalk_updateWalk, present, howner, stands, ← ht]
  rfl

/-- Settles O53. -/
theorem wordRowIsTheWriteOp : Obligations.WordRowIsTheWriteOp := by
  intro s w ws later o v hw ho hv hl taken
  have row {t : Target} {ok : Word → Bool} {owner : State → State × WordResult} (ht : decodeOffset o.toNat = t)
      (hok : ok v = true) (howner : owner s = writeTarget t v s) : taken = .next (present t ok owner s) :=
    exec_write_word hw ho hv hl ht hok howner
  have same : (v == v) = true := beq_self_eq_true v
  have ringWord : ∀ (r : RingId) (i : Nat), i < 4 → o.toNat = 0x3000 + i + 8 * r.val → decodeOffset o.toNat = .ring r i := by
    have words : ∀ (r : RingId), ∀ i < 4, decodeOffset (0x3000 + i + 8 * r.val) = .ring r i := by decide
    intro r i hi h
    rw [h]
    exact words r i hi
  refine ⟨row rfl same rfl, fun h => ?_, fun h => ?_, fun h => ?_, fun h => ?_, fun h => ?_, fun h hv1 => ?_, fun h hv0 => ?_,
    fun r => ⟨fun h => ?_, fun h => ?_, fun h => ?_, fun h => ?_⟩, fun h => ?_⟩
  · exact row (t := .setting .hashSeed) (by rw [h]; rfl) same rfl
  · exact row (t := .ruleCommit) (by rw [h]; rfl) same rfl
  · exact row (t := .templateCommit) (by rw [h]; rfl) same rfl
  · exact row (t := .entrySelect) (by rw [h]; rfl) same rfl
  · exact row (t := .closeEntry) (by rw [h]; rfl) same rfl
  · exact row (t := .setting .sessionEnable) (by rw [h]; rfl) (beq_iff_eq.2 hv1) (by rw [hv1]; rfl)
  · exact row (t := .setting .sessionEnable) (by rw [h]; rfl) (beq_iff_eq.2 hv0) (by rw [hv0]; rfl)
  · exact row (ringWord r 0 (by decide) h) same rfl
  · exact row (ringWord r 1 (by decide) h) same rfl
  · exact row (ringWord r 2 (by decide) h) rfl rfl
  · exact row (ringWord r 3 (by decide) h) rfl rfl
  · intro code
    have control : decodeOffset o.toNat = .control := by rw [h]; rfl
    have named : ∀ n : BitVec 8, code = n → field v 0 8 = n.toNat := fun n hn => congrArg BitVec.toNat hn
    have spelled : ∀ n : BitVec 8, code = n → controlCode n.toNat v = true := fun n hn => beq_iff_eq.2 (named n hn)
    refine ⟨fun hn => ?_, fun hn => ?_, fun hn => ?_, fun hn => ?_, fun hn => ?_, fun hn => ?_, fun hn => ?_⟩
    all_goals have hc := named _ hn
    · exact row control (spelled _ hn) (by rw [writeTarget, writeControl, hc]; rfl)
    · exact row control (spelled _ hn) (by rw [writeTarget, writeControl, hc]; rfl)
    · refine row control ?_ (by rw [writeTarget, writeControl, hc]; rfl)
      rw [flushWord, show controlCode 3 v = true from spelled _ hn, beq_self_eq_true, beq_self_eq_true]
      rfl
    · exact row control (spelled _ hn) (by rw [writeTarget, writeControl, hc]; rfl)
    · exact row control (spelled _ hn) (by rw [writeTarget, writeControl, hc]; rfl)
    · exact row control (spelled _ hn) (by rw [writeTarget, writeControl, hc]; rfl)
    · exact row control (spelled _ hn) (by rw [writeTarget, writeControl, hc]; rfl)

/-! ## The words of a WRITE (R144, R146) -/

/-- The place of the first mine word of the `n` words from an address. -/
def firstMineFrom (unit : BitVec 5) (a : BitVec 24) (n : Nat) : Option Nat :=
  (List.range n).find? fun j => (localOffset unit (a + BitVec.ofNat 24 j)).isSome

theorem add_ofNat_succ (a : BitVec 24) (j : Nat) : a + BitVec.ofNat 24 (j + 1) = a + 1 + BitVec.ofNat 24 j := by
  rw [Nat.add_comm, BitVec.ofNat_add, ← BitVec.add_assoc]
  rfl

theorem firstMineFrom_succ (unit : BitVec 5) (a : BitVec 24) (n : Nat) : firstMineFrom unit a (n + 1)
    = if (localOffset unit a).isSome then some 0 else (firstMineFrom unit (a + 1) n).map (· + 1) := by
  have first : a + BitVec.ofNat 24 0 = a := BitVec.add_zero a
  unfold firstMineFrom
  rw [List.range_succ_eq_map, List.find?_cons, first, List.find?_map]
  cases (localOffset unit a).isSome
  · simp only [Function.comp_def, Nat.succ_eq_add_one, add_ofNat_succ]
    rfl
  · rfl

/-- The first result that is not OK. -/
def firstFailure (rs : List WordResult) : Option WordResult := rs.find? fun x => decide (x ≠ .ok)

theorem noteFailure_or (f : Option WordResult) (r : WordResult) (rs : List WordResult) :
    (noteFailure f r).or (firstFailure rs) = f.or (firstFailure (r :: rs)) := by
  cases f with
  | some f => rfl
  | none =>
    unfold noteFailure firstFailure
    rw [List.find?_cons]
    by_cases h : r = .ok <;> simp [h]

/-- A walk past the next `n` words of its op, whose mine words had results `rs`. -/
def Walk.past (w : Walk) (unit : BitVec 5) (n : Nat) (rs : List WordResult) : Walk :=
  { w with
    cursor := w.cursor + BitVec.ofNat 24 n
    taken := w.taken + n
    anyMine := w.anyMine || !rs.isEmpty
    firstMine := w.firstMine.or ((firstMineFrom unit w.cursor n).map (w.taken + ·))
    failure := w.failure.or (firstFailure rs) }

theorem Walk.past_zero (w : Walk) (unit : BitVec 5) : w.past unit 0 [] = w := by
  simp [Walk.past, firstMineFrom, firstFailure]

theorem Walk.past_noteOther {w : Walk} {unit : BitVec 5} (h : localOffset unit w.cursor = none) (n : Nat)
    (rs : List WordResult) : w.noteOther.past unit n rs = w.past unit (n + 1) rs := by
  unfold Walk.past Walk.noteOther
  rw [firstMineFrom_succ, h, add_ofNat_succ]
  simp [Nat.add_assoc, Nat.add_comm 1, Function.comp_def]

theorem Walk.past_noteMine {w : Walk} {unit : BitVec 5} {o : BitVec 16} (h : localOffset unit w.cursor = some o) (n : Nat)
    (r : WordResult) (rs : List WordResult) : (w.noteMine r).past unit n rs = w.past unit (n + 1) (r :: rs) := by
  unfold Walk.past Walk.noteMine
  rw [firstMineFrom_succ, h, add_ofNat_succ]
  simp only [noteFailure_or]
  cases w.firstMine <;> simp [Nat.add_assoc, Nat.add_comm 1]

/-- The words of a WRITE without a Soft Reset: their owners' effects, the last result, and the walk past them. -/
theorem writeWords_eq (vs : List Word) : ∀ (s : State) (w : Walk), s.agent.walk = some w →
    NoReset s.agent.unit w.cursor vs →
    let q := wordsWritten s.agent.unit w.cursor vs s
    writeWords vs s
      = q.1.setWalk (q.2.getLast?.or s.lastResult) (some (w.past s.agent.unit vs.length q.2)) s.agent.unit := by
  induction vs with
  | nil =>
    intro s w hw _ q
    show s = s.setWalk s.lastResult (some (w.past s.agent.unit 0 [])) s.agent.unit
    rw [Walk.past_zero, ← hw, State.setWalk_self]
  | cons v vs ih =>
    intro s w hw hn q
    show writeWords vs (writeOne v s) = _
    cases hl : localOffset s.agent.unit w.cursor with
    | none =>
      have one : writeOne v s = s.setWalk s.lastResult (some w.noteOther) s.agent.unit := by
        simp only [writeOne, hw, hl, State.updateWalk, Option.map_some]
        rfl
      have hq : q = wordsWritten s.agent.unit (w.cursor + 1) vs s := by
        simp only [q, wordsWritten, hl]
      have rest := ih (s.setWalk s.lastResult (some w.noteOther) s.agent.unit) w.noteOther rfl hn.tail
      rw [one, rest, hq]
      simp only [State.setWalk_unit, State.setWalk_lastResult]
      rw [show w.noteOther.cursor = w.cursor + 1 from rfl, wordsWritten_setWalk _ _ _ _ _ _ _ hn.tail, Walk.past_noteOther hl]
      rfl
    | some o =>
      obtain ⟨kwalk, kunit, -⟩ := writeWord_keeps o v s (hn.head hl)
      have one : writeOne v s
          = (writeWord o v s).1.setWalk (some (writeWord o v s).2) (some (w.noteMine (writeWord o v s).2)) s.agent.unit := by
        simp only [writeOne, hw, hl, State.updateWalk, State.setResult_agent, kwalk, Option.map_some]
        rw [← kunit]
        rfl
      have hq : q = ((wordsWritten s.agent.unit (w.cursor + 1) vs (writeWord o v s).1).1,
          (writeWord o v s).2 :: (wordsWritten s.agent.unit (w.cursor + 1) vs (writeWord o v s).1).2) := by
        simp only [q, wordsWritten, hl]
      have rest := ih ((writeWord o v s).1.setWalk (some (writeWord o v s).2) (some (w.noteMine (writeWord o v s).2))
        s.agent.unit) (w.noteMine (writeWord o v s).2) rfl hn.tail
      rw [one, rest, hq]
      simp only [State.setWalk_unit, State.setWalk_lastResult]
      rw [show (w.noteMine (writeWord o v s).2).cursor = w.cursor + 1 from rfl, wordsWritten_setWalk _ _ _ _ _ _ _ hn.tail,
        Walk.past_noteMine hl, List.getLast?_cons, State.setWalk_setWalk]
      cases (wordsWritten s.agent.unit (w.cursor + 1) vs (writeWord o v s).1).2.getLast? <;> rfl

theorem wordsWritten_eq_nil_iff (unit : BitVec 5) (vs : List Word) : ∀ (a : BitVec 24) (s : State),
    (wordsWritten unit a vs s).2 = [] ↔ ∀ j, j < vs.length → localOffset unit (a + BitVec.ofNat 24 j) = none := by
  induction vs with
  | nil => exact fun _ _ => iff_of_true rfl fun j hj => absurd hj (Nat.not_lt_zero j)
  | cons v vs ih =>
    intro a s
    have first : a + BitVec.ofNat 24 0 = a := BitVec.add_zero a
    cases hl : localOffset unit a with
    | none =>
      simp only [wordsWritten, hl, ih]
      refine ⟨fun h j hj => ?_, fun h j hj => ?_⟩
      · cases j with
        | zero => rw [first, hl]
        | succ j => rw [add_ofNat_succ, h j (Nat.lt_of_succ_lt_succ hj)]
      · rw [← add_ofNat_succ, h (j + 1) (Nat.succ_lt_succ hj)]
    | some o =>
      simp only [wordsWritten, hl]
      refine iff_of_false (List.cons_ne_nil _ _) fun h => ?_
      have := h 0 (Nat.succ_pos _)
      rw [first, hl] at this
      cases this

theorem firstMineFrom_eq_none_iff (unit : BitVec 5) (a : BitVec 24) (n : Nat) :
    firstMineFrom unit a n = none ↔ ∀ j, j < n → localOffset unit (a + BitVec.ofNat 24 j) = none := by
  unfold firstMineFrom
  simp

theorem State.setWalk_of_unit {s : State} {u : BitVec 5} (h : s.agent.unit = u) (l : Option WordResult) (w : Option Walk) :
    s.setWalk l w u = { s with lastResult := l, agent := { s.agent with walk := w } } := by
  subst h
  rfl

theorem State.updateWalk_idle {s : State} (h : s.agent.walk = none) (f : Walk → Walk) : s.updateWalk f = s := by
  unfold State.updateWalk
  rw [h, Option.map_none, ← h]
  rfl

/-- A walk past the words of a WRITE taken whole goes on to the next op. -/
theorem Walk.closeWrite_past {w : Walk} {ws : List Word} {later : List Op} (ho : w.ops = .write ws :: later) (ht : w.taken = 0)
    (hf : w.firstMine = none) (hx : w.failure = none) (hd : w.data = []) (unit : BitVec 5) (rs : List WordResult) :
    (w.past unit ws.length rs).closeWrite = { w with
      ops := later
      statuses := w.statuses ++ [settleStatus (firstMineFrom unit w.cursor ws.length) (firstFailure rs)]
      cursor := w.cursor + BitVec.ofNat 24 ws.length
      anyMine := w.anyMine || !rs.isEmpty } := by
  have words : (w.past unit ws.length rs).opWords = ws.length := by simp [Walk.opWords, Walk.past, ho, Op.count]
  rw [Walk.closeWrite, words, if_pos (by simp [Walk.past, ht])]
  simp [Walk.finishOp, Walk.past, ho, ht, hf, hx, hd]

/-- The last result is kept by a Soft Reset, and nothing of it looks at it. -/
theorem softReset_lastResult (s : State) (r : Option WordResult) :
    softReset { s with lastResult := r } = { softReset s with lastResult := r } := by
  unfold softReset
  dsimp only
  rw [show standsAtReset { s with lastResult := r } = standsAtReset s from rfl]
  cases s.agent.walk with
  | none => rfl
  | some w =>
    dsimp only
    cases standsAtReset s with
    | false => rfl
    | true =>
      have room : ∀ u : State, ((emptyQueues u).port w.port).responses.length < 4 := fun u => by
        cases w.port <;> exact Nat.succ_pos 3
      rw [if_pos rfl, if_pos rfl, queueResponse_room (room _), queueResponse_room (room _)]
      cases w.port <;> rfl

theorem softReset_updateWalk (s : State) (r : Option WordResult) (f : Walk → Walk) :
    ({ softReset s with lastResult := r } : State).updateWalk f = { softReset s with lastResult := r } :=
  State.updateWalk_idle (by exact softReset_walk s) f

/-- The row SOFT_RESET leaves no walk to note its result in. -/
theorem exec_softReset (s : State) : exec .softReset s = .next { softReset s with lastResult := some .ok } :=
  congrArg Host.Outcome.next ((present_eq (u := softReset s) (r := .ok) rfl .control (controlCode 1)).trans
    (noteTaken_of_idle (by exact softReset_walk s) _ _))

/-- A word of a WRITE that is a Soft Reset ends the command. -/
theorem writeWords_softReset {s : State} {w : Walk} {v : Word} (hw : s.agent.walk = some w)
    (hl : localOffset s.agent.unit w.cursor = some 0x0008) (hv : v.extractLsb' 0 8 = 1) (post : List Word) :
    writeWords (v :: post) s = { softReset s with lastResult := some .ok } := by
  have code : field v 0 8 = 1 := congrArg BitVec.toNat hv
  have reset : writeWord 0x0008 v s = (softReset s, .ok) := by
    show writeControl v s = _
    rw [writeControl, code]
    rfl
  have one : writeOne v s = { softReset s with lastResult := some .ok } := by
    have idle := softReset_walk s
    simp only [writeOne, hw, hl, reset, State.updateWalk, State.setResult_agent, idle, Option.map_none]
    rw [← idle]
    rfl
  rw [writeWords, one]
  exact writeWords_idle post _ (softReset_walk s)

/-- Settles O52. -/
theorem writeWalksItsWords : Obligations.WriteWalksItsWords := by
  intro ws s w later hne hw ho ht hf hx hd at_ resets failure
  have row : exec (.write ws) s = .next ((writeWords ws s).updateWalk Walk.closeWrite) :=
    exec_write_eq hw ho hne (by rw [ht, List.drop_zero, List.take_length])
  refine ⟨fun hn => ?_, fun pre v post hws hn hl hv => ?_⟩ <;> intro q <;>
    have written := writeWords_eq _ s w hw hn <;> have kept := wordsWritten_keeps _ _ _ s hn
  · have none_iff : firstMineFrom s.agent.unit w.cursor ws.length = none ↔ q.2 = [] :=
      (firstMineFrom_eq_none_iff ..).trans (wordsWritten_eq_nil_iff ..).symm
    have status : settleStatus (firstMineFrom s.agent.unit w.cursor ws.length) (firstFailure q.2)
        = if q.2 = [] then .notMine else .result ((failure q.2).getD .ok) := by
      cases hm : firstMineFrom s.agent.unit w.cursor ws.length with
      | none => rw [if_pos (none_iff.1 hm), settleStatus]
      | some j => exact (if_neg fun h => Option.some_ne_none j (hm.symm.trans (none_iff.2 h))).symm
    refine ⟨wordsWritten_eq_nil_iff .., ?_⟩
    rw [row, written, ← status, ← Walk.closeWrite_past ho ht hf hx hd]
    exact congrArg Host.Outcome.next (State.setWalk_of_unit kept.2.1 _ (some (Walk.closeWrite _)))
  · have past : w.past s.agent.unit pre.length q.2 = { w with
        cursor := w.cursor + BitVec.ofNat 24 pre.length
        taken := pre.length
        firstMine := (List.range pre.length).find? fun j => (at_ j).isSome
        failure := failure q.2
        anyMine := w.anyMine || !q.2.isEmpty } := by
      simp [Walk.past, firstMineFrom, firstFailure, ht, hf, hx, at_, failure]
    have stop := writeWords_softReset
      (s := q.1.setWalk (q.2.getLast?.or s.lastResult) (some (w.past s.agent.unit pre.length q.2)) s.agent.unit) rfl hl hv post
    rw [row, hws, writeWords_append, written, stop, exec_softReset, ← past, State.setWalk_of_unit kept.2.1]
    refine congrArg Host.Outcome.next ((softReset_updateWalk _ _ _).trans ?_)
    exact congrArg (fun u : State => { u with lastResult := some .ok }) (softReset_lastResult
      { q.1 with agent := { q.1.agent with walk := some (w.past s.agent.unit pre.length q.2) } } (q.2.getLast?.or s.lastResult))

end Sys2Proof.Machine
end

section
/-!
PROOFS. The words of a READ taken at the cursor (R144, R147), and what the words of the local map read (Tables 78 to 85).
-/

namespace Sys2Proof.Machine

-- One proof after another: elaborated side by side, the proofs of this file take more threads than the check's limits hold.
set_option Elab.async false

/-! ## The words of a READ (R144, R147) -/

/-- The local offsets of the mine words among the `n` words from an address. -/
def mineFrom (unit : BitVec 5) (a : BitVec 24) (n : Nat) : List (BitVec 16) :=
  (List.range n).filterMap fun j => localOffset unit (a + BitVec.ofNat 24 j)

theorem mineFrom_succ (unit : BitVec 5) (a : BitVec 24) (n : Nat) :
    mineFrom unit a (n + 1) = (localOffset unit a).toList ++ mineFrom unit (a + 1) n := by
  have first : a + BitVec.ofNat 24 0 = a := BitVec.add_zero a
  unfold mineFrom
  rw [List.range_succ_eq_map, List.filterMap_cons, first, List.filterMap_map]
  simp only [Function.comp_def, Nat.succ_eq_add_one, add_ofNat_succ]
  cases localOffset unit a <;> rfl

theorem mineCount_eq_length (unit : BitVec 5) (n : Nat) : ∀ a : BitVec 24, mineCount unit a n = (mineFrom unit a n).length := by
  induction n with
  | zero => exact fun _ => rfl
  | succ n ih =>
    intro a
    rw [mineCount, mineFrom_succ, List.length_append, ih]
    cases localOffset unit a <;> rfl

theorem firstMineFrom_none_iff (unit : BitVec 5) (a : BitVec 24) (n : Nat) :
    firstMineFrom unit a n = none ↔ mineFrom unit a n = [] := by
  rw [firstMineFrom_eq_none_iff, mineFrom, List.filterMap_eq_nil_iff]
  simp

/-- What a word reads does not depend on the walk. -/
theorem readWord_setWalk (s : State) (w : Option Walk) (o : BitVec 16) :
    readWord (s.setWalk s.lastResult w s.agent.unit) o = readWord s o := by
  unfold readWord
  cases decodeOffset o.toNat with
  | status k => cases k <;> rfl
  | setting k => cases k <;> rfl
  | _ => rfl

/-- A walk past the next `n` words of a READ, whose mine words had results `rs` and values `ds`. -/
def Walk.pastRead (w : Walk) (unit : BitVec 5) (n : Nat) (rs : List WordResult) (ds : List Word) : Walk :=
  { w.past unit n rs with data := w.data ++ ds }

theorem Walk.pastRead_noteOther {w : Walk} {unit : BitVec 5} (h : localOffset unit w.cursor = none) (n : Nat)
    (rs : List WordResult) (ds : List Word) : w.noteOther.pastRead unit n rs ds = w.pastRead unit (n + 1) rs ds :=
  congrArg (fun x : Walk => { x with data := w.data ++ ds }) (Walk.past_noteOther h n rs)

theorem Walk.pastRead_noteMine {w : Walk} {unit : BitVec 5} {o : BitVec 16} (h : localOffset unit w.cursor = some o) (n : Nat)
    (r : WordResult) (rs : List WordResult) (d : Word) (ds : List Word) :
    ({ w.noteMine r with data := w.data ++ [d] } : Walk).pastRead unit n rs ds = w.pastRead unit (n + 1) (r :: rs) (d :: ds) := by
  refine (congrArg (fun x : Walk => { x with data := w.data ++ [d] ++ ds }) (Walk.past_noteMine h n r rs)).trans ?_
  rw [Walk.pastRead, List.append_assoc, List.singleton_append]

theorem readWords_eq (n : Nat) : ∀ (s : State) (w : Walk), s.agent.walk = some w →
    let mine := mineFrom s.agent.unit w.cursor n
    readWords n s = s.setWalk s.lastResult (some (w.pastRead s.agent.unit n (mine.map fun o => (readWord s o).2)
      (mine.map fun o => (readWord s o).1))) s.agent.unit := by
  induction n with
  | zero =>
    intro s w hw mine
    have here : w.pastRead s.agent.unit 0 [] [] = w := by
      rw [Walk.pastRead, Walk.past_zero, List.append_nil]
    show s = s.setWalk s.lastResult (some (w.pastRead s.agent.unit 0 [] [])) s.agent.unit
    rw [here, ← hw, State.setWalk_self]
  | succ n ih =>
    intro s w hw mine
    show readWords n (readOne s) = _
    cases hl : localOffset s.agent.unit w.cursor with
    | none =>
      have one : readOne s = s.setWalk s.lastResult (some w.noteOther) s.agent.unit := by
        simp only [readOne, hw, hl, State.updateWalk, Option.map_some]
        rfl
      have hmine : mine = mineFrom s.agent.unit (w.cursor + 1) n := by
        simp only [mine, mineFrom_succ, hl, Option.toList_none, List.nil_append]
      have rest := ih (s.setWalk s.lastResult (some w.noteOther) s.agent.unit) w.noteOther rfl
      rw [one, rest, hmine, ← Walk.pastRead_noteOther hl]
      simp only [readWord_setWalk]
      rfl
    | some o =>
      have one : readOne s = s.setWalk s.lastResult
          (some { w.noteMine (readWord s o).2 with data := w.data ++ [(readWord s o).1] }) s.agent.unit := by
        simp only [readOne, hw, hl, State.updateWalk, Option.map_some]
        rfl
      have hmine : mine = o :: mineFrom s.agent.unit (w.cursor + 1) n := by
        simp only [mine, mineFrom_succ, hl, Option.toList_some, List.singleton_append]
      have rest := ih (s.setWalk s.lastResult
        (some { w.noteMine (readWord s o).2 with data := w.data ++ [(readWord s o).1] }) s.agent.unit) _ rfl
      rw [one, rest, hmine, List.map_cons, List.map_cons, ← Walk.pastRead_noteMine hl]
      simp only [readWord_setWalk]
      rfl

/-- A walk past the words of a READ taken whole goes on to the next op, with the block of the mine words. -/
theorem Walk.closeRead_pastRead {w : Walk} {n : Nat} {later : List Op} (ho : w.ops = .read n :: later) (ht : w.taken = 0)
    (hf : w.firstMine = none) (hx : w.failure = none) (hd : w.data = []) (unit : BitVec 5) (rs : List WordResult)
    (ds : List Word) :
    (w.pastRead unit n rs ds).closeRead = { w with
      ops := later
      statuses := w.statuses ++ [settleStatus (firstMineFrom unit w.cursor n) (firstFailure rs)]
      cursor := w.cursor + BitVec.ofNat 24 n
      anyMine := w.anyMine || !rs.isEmpty
      blocks := w.blocks ++ ((firstMineFrom unit w.cursor n).map fun j => { offset := j, data := ds : Block }).toList } := by
  have words : (w.pastRead unit n rs ds).opWords = n := by simp [Walk.opWords, Walk.pastRead, Walk.past, ho, Op.count]
  rw [Walk.closeRead, words, if_pos (by simp [Walk.pastRead, Walk.past, ht])]
  cases hm : firstMineFrom unit w.cursor n <;> simp [Walk.finishOp, Walk.pastRead, Walk.past, ho, ht, hf, hx, hd, hm]

/-- The place of the first mine word. -/
theorem firstMineFrom_eq_some {unit : BitVec 5} {a : BitVec 24} {n j : Nat} (h : firstMineFrom unit a n = some j) :
    j < n ∧ (localOffset unit (a + BitVec.ofNat 24 j)).isSome = true
      ∧ ∀ i, i < j → localOffset unit (a + BitVec.ofNat 24 i) = none := by
  unfold firstMineFrom at h
  rw [List.find?_range_eq_some] at h
  obtain ⟨hj, hn, hbefore⟩ := h
  exact ⟨List.mem_range.1 hn, hj, fun i hi => by simpa using hbefore i hi⟩

/-- A READ taken whole (R144, R147). -/
theorem exec_read {s : State} {w : Walk} {n : Nat} {later : List Op} (hn : 1 ≤ n) (hw : s.agent.walk = some w)
    (ho : w.ops = .read n :: later) (ht : w.taken = 0) : exec (.read n) s
      = if w.noRoom s.agent.unit n then .next (s.updateWalk fun w => w.refuseRead n)
        else .next ((readWords n s).updateWalk Walk.closeRead) := by
  show execRead n s = _
  have hop : currentOp s = some (.read n) := by rw [currentOp, hw, Option.bind_some, ho, List.head?_cons]
  rw [execRead, hop, hw]
  exact if_pos ⟨by omega, by omega⟩

/-- What becomes of the walk of a READ taken whole (R144, R147). -/
theorem readWalks (n : Nat) (s : State) (w : Walk) (later : List Op) (hn : 1 ≤ n) (hw : s.agent.walk = some w)
    (ho : w.ops = .read n :: later) (ht : w.taken = 0) (hf : w.firstMine = none) (hx : w.failure = none) (hd : w.data = []) :
    let m := mineCount s.agent.unit w.cursor n
    let tooLarge := 2048 < w.roomSum m
    let mine := mineFrom s.agent.unit w.cursor n
    let read : List OpStatus → List Block → Walk := fun st bs => { w with
      ops := later, statuses := w.statuses ++ st, cursor := w.cursor + BitVec.ofNat 24 n,
      anyMine := w.anyMine || decide (m ≠ 0), blocks := w.blocks ++ bs }
    ∃ st bs, exec (.read n) s = .next (s.setAgent { s.agent with walk := some (read st bs) })
      ∧ (m = 0 → st = [.notMine] ∧ bs = [])
      ∧ (m ≠ 0 → tooLarge → st = [.noRoom] ∧ bs = [])
      ∧ (m ≠ 0 → ¬ tooLarge → st = [.result ((firstFailure (mine.map fun o => (readWord s o).2)).getD .ok)]
          ∧ ∃ j, firstMineFrom s.agent.unit w.cursor n = some j
            ∧ bs = [{ offset := j, data := mine.map fun o => (readWord s o).1 }]) := by
  intro m tooLarge mine read
  have hm : m = mine.length := mineCount_eq_length _ _ _
  have row := exec_read hn hw ho ht
  have refused : w.noRoom s.agent.unit n = true ↔ m ≠ 0 ∧ tooLarge := by
    simp [Walk.noRoom, ht, m, tooLarge]
  by_cases hr : m ≠ 0 ∧ tooLarge
  · refine ⟨[.noRoom], [], ?_, fun h => absurd h hr.1, fun _ _ => ⟨rfl, rfl⟩, fun _ h => absurd hr.2 h⟩
    rw [row, if_pos (refused.2 hr)]
    refine congrArg (fun x => Host.Outcome.next (s.setAgent { s.agent with walk := x })) ?_
    rw [hw, Option.map_some]
    simp [Walk.refuseRead, Walk.finishOp, read, ho, ht, hf, hx, hd, hr.1]
  · have hany : (!(mine.map fun o => (readWord s o).2).isEmpty) = decide (m ≠ 0) := by
      rw [List.isEmpty_map, hm]
      cases mine <;> simp
    refine ⟨[settleStatus (firstMineFrom s.agent.unit w.cursor n) (firstFailure (mine.map fun o => (readWord s o).2))],
      ((firstMineFrom s.agent.unit w.cursor n).map fun j => { offset := j, data := mine.map fun o => (readWord s o).1 }).toList,
      ?_, fun h => ?_, fun h1 h2 => absurd ⟨h1, h2⟩ hr, fun h1 h2 => ?_⟩
    · have walked := Walk.closeRead_pastRead ho ht hf hx hd s.agent.unit (mine.map fun o => (readWord s o).2)
        (mine.map fun o => (readWord s o).1)
      rw [hany] at walked
      rw [row, if_neg fun h => hr (refused.1 h), readWords_eq n s w hw]
      exact congrArg (fun x => Host.Outcome.next (s.setAgent { s.agent with walk := some x })) walked
    · have none : mine = [] := List.length_eq_zero_iff.1 (hm.symm.trans h)
      rw [(firstMineFrom_none_iff ..).2 none]
      exact ⟨rfl, rfl⟩
    · cases hj : firstMineFrom s.agent.unit w.cursor n with
      | none => exact absurd (hm.trans (List.length_eq_zero_iff.2 ((firstMineFrom_none_iff ..).1 hj))) h1
      | some j => exact ⟨rfl, j, rfl, rfl⟩

end Sys2Proof.Machine
end

section
/-!
PROOFS. What the words of the local map read: fields side by side as sums (Tables 79 to 85), and each region of the map.
-/

namespace Sys2Proof.Machine

-- One proof after another: elaborated side by side, the proofs of this file take more threads than the check's limits hold.
set_option Elab.async false

/-! ## Fields side by side -/

@[simp] theorem place_zero (n : Nat) : place n 0 = word n := BitVec.shiftLeft_zero (word n)

theorem word_toNat_setWidth {w : Nat} (x : BitVec w) : word x.toNat = x.setWidth 32 := BitVec.ofNat_toNat 32 x

theorem flagAt_eq_place (b : Bool) (lo : Nat) : flagAt b lo = place (bitOf b) lo := by
  cases b
  · exact (BitVec.zero_shiftLeft lo).symm
  · rfl

theorem bitOf_lt (b : Bool) : bitOf b < 2 := by cases b <;> decide

/-- A field above another is their sum. -/
theorem place_or_word {a b lo : Nat} (h : b < 2 ^ lo) : place a lo ||| word b = word (2 ^ lo * a + b) := by
  have shifted : place a lo = word (a <<< lo) := by
    refine BitVec.eq_of_getLsbD_eq fun i hi => ?_
    rw [place_getLsbD, BitVec.getLsbD_ofNat, Nat.testBit_shiftLeft, Bool.and_assoc]
  rw [shifted, word, word, ← BitVec.ofNat_or, ← Nat.shiftLeft_add_eq_or_of_lt h, Nat.shiftLeft_eq, Nat.mul_comm]

/-! ## The status words (Table 79) -/

theorem WalkerState.code_lt (x : WalkerState) : x.code < 3 := by cases x <;> decide
theorem WalkerKind.code_lt (x : WalkerKind) : x.code < 3 := by cases x <;> decide
theorem Selector.code_lt (x : Selector) : x.code < 3 := by cases x <;> decide
theorem SessionState.code_lt (x : SessionState) : x.code < 3 := by cases x <;> decide
theorem Source.code_lt (x : Source) : x.code < 5 := by
  cases x with
  | records => decide
  | ring r => exact Nat.succ_lt_succ r.isLt

theorem readStatus_portStatus (s : State) :
    readStatus s .portStatus = word (2 * bitOf (s.portA.link = .up) + bitOf (s.portB.link = .up)) := by
  have bit : ∀ l : Link, l.bit = bitOf (l = .up) := fun l => by cases l <;> rfl
  rw [readStatus, place_zero, bit, bit]
  exact place_or_word (bitOf_lt _)

theorem readStatus_transitFill {s : State} (h : bufferFill s.portB.buffer ≤ 16384) :
    readStatus s .transitFill = word (2 ^ 16 * bufferFill s.portA.buffer + bufferFill s.portB.buffer) := by
  rw [readStatus, place_zero, place_or_word (by omega)]

theorem readStatus_bankStatus (s : State) :
    readStatus s .bankStatus = word (2 ^ 16 * bitOf s.cls.activeBank + s.cls.generation.toNat) := by
  rw [readStatus, flagAt_eq_place, place_zero, place_or_word s.cls.generation.isLt]

theorem readStatus_tableStatus {s : State} (h : s.walker.argument < 128) : readStatus s .tableStatus
    = word (2 ^ 30 * s.walker.state.code + 2 ^ 28 * s.walker.kind.code + 2 ^ 24 * s.walker.selector.code
      + 2 ^ 23 * bitOf s.walker.stalled + 2 ^ 22 * bitOf s.walker.flushAborted + s.walker.argument) := by
  have := s.walker.kind.code_lt
  have := s.walker.selector.code_lt
  have := bitOf_lt s.walker.stalled
  have := bitOf_lt s.walker.flushAborted
  simp (disch := omega) only [readStatus, flagAt_eq_place, place_zero, BitVec.or_assoc, place_or_word, Nat.add_assoc]

theorem readStatus_tableProgress {s : State} (h : s.walker.count ≤ 16384) :
    readStatus s .tableProgress = word (2 ^ 16 * s.walker.position + s.walker.count) := by
  rw [readStatus, place_zero, place_or_word (by omega)]

theorem readStatus_agentStatus {s : State} (ha : s.portA.responses.length ≤ 4) (hb : s.portB.responses.length ≤ 4) :
    readStatus s .agentStatus
      = word (2 ^ 16 * s.agent.queue.length + 2 ^ 8 * s.portA.responses.length + s.portB.responses.length) := by
  simp (disch := omega) only [readStatus, place_zero, BitVec.or_assoc, place_or_word, Nat.add_assoc]

theorem readStatus_sessionStatus {s : State} (ha : s.rep.attempts ≤ 15) (ho : s.rep.outstanding.length ≤ 16) :
    readStatus s .sessionStatus = word (2 ^ 30 * s.rep.session.code + 2 ^ 24 * s.rep.attempts
      + 2 ^ 16 * s.rep.outstanding.length + s.rep.sessionNumber.toNat) := by
  have := s.rep.sessionNumber.isLt
  simp (disch := omega) only [readStatus, place_zero, BitVec.or_assoc, place_or_word, Nat.add_assoc]

theorem readStatus_sequenceStatus (s : State) : readStatus s .sequenceStatus
    = word (2 ^ 16 * (oldestSequence s.rep).toNat + s.rep.nextSequence.toNat) := by
  rw [readStatus, place_zero, place_or_word s.rep.nextSequence.isLt]

theorem readStatus_recordQueueStatus {s : State} (hc : s.rq.count ≤ 256) (hi : s.rq.inReport ≤ s.rq.count) :
    readStatus s .recordQueueStatus = word (2 ^ 24 * s.rq.head + 2 ^ 12 * s.rq.count + s.rq.inReport) := by
  simp (disch := omega) only [readStatus, place_zero, BitVec.or_assoc, place_or_word, Nat.add_assoc]

theorem readStatus_exportStatus {s : State} (hc : s.rq.count ≤ 256) : readStatus s .exportStatus
    = word (2 ^ 31 * bitOf s.rep.hold.isSome + 2 ^ 30 * bitOf s.rep.buildPending + 2 ^ 24 * s.rep.nextStart.code
      + (s.rq.count - s.rq.inReport)) := by
  have := s.rep.nextStart.code_lt
  have := bitOf_lt s.rep.buildPending
  simp (disch := omega) only [readStatus, RecordQueue.unsent, flagAt_eq_place, place_zero, BitVec.or_assoc, place_or_word,
    Nat.add_assoc]

/-! ## What a word of a region reads -/

theorem readWord_status {s : State} {o : BitVec 16} {k : StatusWord} (h : decodeOffset o.toNat = .status k) :
    readWord s o = (readStatus s k, .ok) := by
  rw [readWord, h]

theorem readWord_setting {s : State} {o : BitVec 16} {k : Setting} (h : decodeOffset o.toNat = .setting k) :
    readWord s o = (readSetting s k, .ok) := by
  rw [readWord, h]

theorem ofNat16_toNat {n : Nat} (h : n < 65536) : (BitVec.ofNat 16 n).toNat = n := by
  rw [BitVec.toNat_ofNat, Nat.mod_eq_of_lt h]

theorem readWord_ok {s : State} {o : BitVec 16} (h : (decodeOffset o.toNat).readOnly = true) : (readWord s o).2 = .ok := by
  unfold readWord
  cases ht : decodeOffset o.toNat with
  | unmapped =>
    rw [ht] at h
    cases h
  | _ => rfl

theorem readWord_counter {s : State} {o : BitVec 16} {i : Nat} (h : decodeOffset o.toNat = .counter i) :
    readWord s o = (readCounter s i, .ok) := by
  rw [readWord, h]

/-- A run of counters in offset order. -/
theorem readWord_counters {s : State} {o : BitVec 16} {base : Nat} {cs : List Word}
    (hd : ∀ i < cs.length, decodeOffset (o + BitVec.ofNat 16 i).toNat = .counter (base + i))
    (hr : ∀ i < cs.length, readCounter s (base + i) = cs.getD i 0) (i : Nat) (hi : i < cs.length) :
    readWord s (o + BitVec.ofNat 16 i) = (cs.getD i 0, .ok) := by
  rw [readWord_counter (hd i hi), hr i hi]

section
variable (s : State) {i : Nat}

theorem readCounter_portA (h : i < 10) : readCounter s (0 + i) = s.portA.counters.list.getD i 0 := by
  simp (disch := omega) only [readCounter, if_pos, Nat.zero_add]

theorem readCounter_portB (h : i < 10) : readCounter s (0x10 + i) = s.portB.counters.list.getD i 0 := by
  simp (disch := omega) only [readCounter, if_pos, if_neg, Nat.add_sub_cancel_left]

theorem readCounter_flow (h : i < 6) : readCounter s (0x20 + i) = s.flow.counters.list.getD i 0 := by
  simp (disch := omega) only [readCounter, if_pos, if_neg, Nat.add_sub_cancel_left]

theorem readCounter_sweep (h : i < 6) : readCounter s (0x28 + i) = s.sweep.counters.list.getD i 0 := by
  simp (disch := omega) only [readCounter, if_pos, if_neg, Nat.add_sub_cancel_left]

theorem readCounter_ring (r : RingId) (h : i < 5) :
    readCounter s (0x30 + 8 * r.val + i) = (s.ring r).counters.list.getD i 0 := by
  have := r.isLt
  have hr : Fin.ofNat 4 ((0x30 + 8 * r.val + i - 0x30) / 8) = r := Fin.ext (by
    show (0x30 + 8 * r.val + i - 0x30) / 8 % 4 = r.val
    omega)
  simp (disch := omega) only [readCounter, if_pos, if_neg, hr, show (0x30 + 8 * r.val + i - 0x30) % 8 = i by omega]

theorem readCounter_delivery (h : i < 7) : readCounter s (0x50 + i) = s.rep.delivery.list.getD i 0 := by
  simp (disch := omega) only [readCounter, if_pos, if_neg, Nat.add_sub_cancel_left]

theorem readCounter_conservation (h : i < 3) : readCounter s (0x58 + i) = s.rep.conservation.list.getD i 0 := by
  simp (disch := omega) only [readCounter, if_pos, if_neg, Nat.add_sub_cancel_left]

theorem readCounter_agent (h : i < 6) : readCounter s (0x60 + i) = s.agent.counters.list.getD i 0 := by
  simp (disch := omega) only [readCounter, if_neg, Nat.add_sub_cancel_left]

end

/-! ## Settings and staging (Table 80) -/

theorem settingsRead (s : State) : SettingsRead s := by
  have reads {o : BitVec 16} {k : Setting} {v : Word} (hd : decodeOffset o.toNat = .setting k) (hv : readSetting s k = v) :
      decodeOffset o.toNat = .setting k ∧ readSetting s k = v ∧ readWord s o = (v, .ok) :=
    ⟨hd, hv, by rw [readWord_setting hd, hv]⟩
  have narrow {w : Nat} (x : BitVec w) : place x.toNat 0 = x.setWidth 32 := (place_zero _).trans (word_toNat_setWidth x)
  have port : readSetting s .reportPort = if s.rep.port = .B then 1 else 0 := by
    unfold readSetting
    cases s.rep.port <;> rfl
  exact ⟨reads rfl rfl, reads rfl rfl, reads rfl (narrow _), reads rfl rfl, reads rfl rfl, reads rfl rfl, reads rfl rfl,
    reads rfl rfl, reads rfl (narrow _), reads rfl rfl, reads rfl (narrow _), reads rfl rfl, reads rfl port, reads rfl rfl,
    reads rfl rfl, reads rfl rfl, reads rfl rfl, reads rfl rfl⟩

theorem stagingRead (s : State) : StagingRead s := by
  have ruleStaging : ∀ i < 16, decodeOffset (BitVec.ofNat 16 (0x0200 + i)).toNat = .ruleStaging i := by decide
  have templateStaging : ∀ i < 4, decodeOffset (BitVec.ofNat 16 (0x0211 + i)).toNat = .templateStaging i := by decide
  have responses : ∀ i < 8, decodeOffset (BitVec.ofNat 16 (0x0100 + i)).toNat = .responseEnvelope i := by decide
  have reports : ∀ i < 8, decodeOffset (BitVec.ofNat 16 (0x0108 + i)).toNat = .reportEnvelope i := by decide
  refine ⟨fun i hi => ?_, fun i hi => ?_, fun i hi => ⟨?_, ?_⟩, rfl, rfl, rfl⟩ <;> rw [readWord]
  · rw [ruleStaging i hi]; rfl
  · rw [templateStaging i hi]; rfl
  · rw [responses i hi]; rfl
  · rw [reports i hi]; rfl

/-! ## The views of the Classifier (R159, R161) -/

theorem ruleReads_viewWord {m : Rule} {read : Nat → Word} (h : ∀ j < 16, read j = m.viewWord j) : RuleReads m read := by
  refine ⟨?_, ?_, fun hs => ?_, h 3 (by decide), fun k hk => ⟨?_, ?_, ?_⟩⟩
  · have directions : (m.directions.code < 4 : Prop) := by cases m.directions <;> decide
    rw [h 0 (by decide)]
    show flagAt m.valid 31 ||| place m.directions.code 0 = _
    rw [flagAt_eq_place, place_zero, place_or_word (by omega)]
    rfl
  · have action : (m.action.code < 4 : Prop) := by cases m.action <;> decide
    rw [h 1 (by decide)]
    show place m.action.code 0 ||| place m.template.toNat 8 = _
    rw [place_zero, BitVec.or_comm, place_or_word (by omega)]
    rfl
  · rw [h 2 (by decide)]
    show place m.slice 0 ||| place m.ring.toNat 16 = _
    rw [place_zero, BitVec.or_comm, place_or_word (by omega)]
  · rw [h _ (by omega)]
    have flags : m.viewWord (4 + 3 * k) = flagAt (m.term k).enabled 31 ||| place (m.term k).offset.toNat 0 := by
      interval_cases k <;> rfl
    rw [flags, flagAt_eq_place, place_zero, place_or_word ((m.term k).offset.isLt.trans (by decide))]
  · rw [h _ (by omega)]
    interval_cases k <;> rfl
  · rw [h _ (by omega)]
    interval_cases k <;> rfl

theorem viewsRead (s : State) : ViewsRead s := by
  unfold ViewsRead
  intro at_
  refine ⟨fun r hr => ⟨ruleReads_viewWord fun j hj => ?_, ruleReads_viewWord fun j hj => ?_⟩,
    ruleReads_viewWord fun j hj => ?_, ruleReads_viewWord fun j hj => ?_, fun t i ht hi => ?_, fun i hi => ?_, fun o h h' => ?_⟩
  · have decoded : decodeOffset (BitVec.ofNat 16 (0x1000 + 16 * r + j)).toNat = .activeRule r j := by
      rw [ofNat16_toNat (by omega), decodeOffset_activeRule (by omega) (by omega),
        show (0x1000 + 16 * r + j - 0x1000) / 16 = r by omega, show (0x1000 + 16 * r + j - 0x1000) % 16 = j by omega]
    show (readWord s _).1 = _
    rw [readWord, decoded]
  · have decoded : decodeOffset (BitVec.ofNat 16 (0x1400 + 16 * r + j)).toNat = .shadowRule r j := by
      rw [ofNat16_toNat (by omega), decodeOffset_shadowRule (by omega) (by omega),
        show (0x1400 + 16 * r + j - 0x1400) / 16 = r by omega, show (0x1400 + 16 * r + j - 0x1400) % 16 = j by omega]
    show (readWord s _).1 = _
    rw [readWord, decoded]
  · have decoded : decodeOffset (BitVec.ofNat 16 (0x1820 + j)).toNat = .activeRule 64 j := by
      rw [ofNat16_toNat (by omega), decodeOffset_activeDefault (by omega) (by omega), Nat.add_sub_cancel_left]
    show (readWord s _).1 = _
    rw [readWord, decoded]
  · have decoded : decodeOffset (BitVec.ofNat 16 (0x1830 + j)).toNat = .shadowRule 64 j := by
      rw [ofNat16_toNat (by omega), decodeOffset_shadowDefault (by omega) (by omega), Nat.add_sub_cancel_left]
    show (readWord s _).1 = _
    rw [readWord, decoded]
  · intro m
    have decoded : decodeOffset (BitVec.ofNat 16 (0x1800 + 4 * t + i)).toNat = .template t i := by
      rw [ofNat16_toNat (by omega), decodeOffset_template (by omega) (by omega),
        show (0x1800 + 4 * t + i - 0x1800) / 4 = t by omega, show (0x1800 + 4 * t + i - 0x1800) % 4 = i by omega]
    have hoffset := (m.seg i).offset.isLt
    have hlength := (m.seg i).length.isLt
    have hmerge := bitOf_lt m.merge
    have viewed : m.viewWord i = word ((if i = 0 then 2 ^ 31 * bitOf m.defined + 2 ^ 30 * bitOf m.merge else 0)
        + 2 ^ 16 * (m.seg i).offset.toNat + (m.seg i).length.toNat) := by
      rw [Template.viewWord, BitVec.or_comm]
      by_cases h0 : i = 0
      · simp (disch := omega) only [if_pos h0, flagAt_eq_place, place_zero, BitVec.or_assoc, place_or_word, Nat.add_assoc]
      · rw [if_neg h0, if_neg h0, place_zero, place_or_word (by omega), Nat.zero_add]
        exact BitVec.zero_or
    show (readWord s _).1 = _
    rw [readWord, decoded]
    exact viewed
  · have decoded : decodeOffset (BitVec.ofNat 16 (0x1840 + i)).toNat = .hitCounter i := by
      rw [ofNat16_toNat (by omega), decodeOffset_hitCounter (by omega) (by omega), Nat.add_sub_cancel_left]
    show (readWord s _).1 = _
    rw [readWord, decoded]
  · refine readWord_ok ?_
    rw [ofNat16_toNat (by omega)]
    exact decodeOffset_readOnly (.inr (.inl ⟨h, h'⟩))

/-! ## The Entry View (R163) -/

theorem EntryView.viewWord_of_entry {w : EntryView} {e : FlowEntry} (h : w.entry = some e) :
    w.viewWord 1 = place e.rule 16 ||| place e.generation.toNat 0 ∧ w.viewWord 2 = e.firstSeen ∧ w.viewWord 3 = e.lastSeen
      ∧ w.viewWord 4 = e.frames ∧ w.viewWord 5 = (e.bytes.extractLsb' 32 8).setWidth 32 ∧ w.viewWord 6 = e.bytes.extractLsb' 0 32
      ∧ ∀ j < 8, w.viewWord (7 + j)
        = word32 (byteAt e.key (4 * j)) (byteAt e.key (4 * j + 1)) (byteAt e.key (4 * j + 2)) (byteAt e.key (4 * j + 3)) := by
  unfold EntryView.viewWord
  rw [h]
  refine ⟨rfl, rfl, rfl, rfl, rfl, rfl, fun j hj => ?_⟩
  interval_cases j <;> rfl

theorem EntryView.viewWord_flags {w : EntryView} {e : FlowEntry} (h : w.entry = some e) (hi : w.index < 16384)
    (hk : e.key.length ≤ 32) : w.viewWord 0 = word (2 ^ 31 + 2 ^ 30 * bitOf e.saturated + 2 ^ 29 * bitOf e.merged
      + 2 ^ 28 * e.origin.code + 2 ^ 26 * e.dirField.code + 2 ^ 23 * e.template.toNat + 2 ^ 16 * e.key.length + w.index) := by
  have htemplate := e.template.isLt
  have hdir : e.dirField.code < 3 := by cases e.dirField <;> decide
  have horigin : e.origin.code < 2 := by cases e.origin <;> decide
  have hmerged := bitOf_lt e.merged
  have hsaturated := bitOf_lt e.saturated
  have layout : w.viewWord 0 = flagAt true 31 ||| flagAt e.saturated 30 ||| flagAt e.merged 29 ||| place e.origin.code 28
      ||| place e.dirField.code 26 ||| place e.template.toNat 23 ||| place e.key.length 16 ||| place w.index 0 := by
    unfold EntryView.viewWord
    rw [h]
    rfl
  rw [layout]
  simp (disch := omega) only [flagAt_eq_place, place_zero, BitVec.or_assoc, place_or_word, Nat.add_assoc,
    show bitOf true = 1 from rfl, Nat.mul_one]

theorem entryReads (s : State) : EntryReads s := by
  unfold EntryReads
  intro w view
  have viewed : ∀ {i : Nat} {v : Word}, i < 16 → w.viewWord i = v → view i v := fun {i v} hi hv => by
    have decoded : decodeOffset (BitVec.ofNat 16 (0x2001 + i)).toNat = .entryView i := by
      rw [ofNat16_toNat (by omega), decodeOffset_entryView (by omega) (by omega), Nat.add_sub_cancel_left]
    show readWord s _ = _
    rw [readWord, decoded, ← hv]
  refine ⟨rfl, rfl, viewed (by decide) rfl, fun h => ⟨viewed (by decide) ?_, fun i h1 h15 => viewed (by omega) ?_⟩,
    fun e he => ?_⟩
  · rw [EntryView.viewWord_of_free h, if_neg (by decide), if_pos rfl, place_zero]
  · rw [EntryView.viewWord_of_free h, if_neg (by omega), if_neg (by omega)]
  · obtain ⟨h1, h2, h3, h4, h5, h6, h7⟩ := EntryView.viewWord_of_entry he
    refine ⟨fun hi hk => viewed (by decide) (EntryView.viewWord_flags he hi hk), fun hr => viewed (by decide) ?_,
      viewed (by decide) h2, viewed (by decide) h3, viewed (by decide) h4, viewed (by decide) ?_, viewed (by decide) ?_,
      fun j hj => viewed (by omega) (h7 j hj)⟩
    · rw [h1, place_zero, place_or_word e.generation.isLt]
    · rw [h5]
      refine BitVec.eq_of_toNat_eq ?_
      have := e.bytes.isLt
      rw [BitVec.toNat_setWidth, BitVec.extractLsb'_toNat, Nat.shiftRight_eq_div_pow, BitVec.toNat_ofNat]
      omega
    · rw [h6]
      refine BitVec.eq_of_toNat_eq ?_
      rw [BitVec.extractLsb'_toNat, Nat.shiftRight_zero, BitVec.toNat_ofNat]
      omega

/-! ## The rings (R164) -/

theorem ringsRead (s : State) : RingsRead s := by
  intro r g at_ reads
  have hr := r.isLt
  have offset : ∀ i < 8, (at_ i).toNat = 0x3000 + 8 * r.val + i := fun i hi => ofNat16_toNat (by omega)
  have word7 : readWord s (at_ 7) = (0, .unmapped) := by
    rw [readWord, offset 7 (by decide), decodeOffset_ring (by omega) (by omega), if_pos (by omega)]
  have given : ∀ {i n : Nat}, i < 7 → g.readWord i = word n → reads i n := fun {i n} hi hn => by
    have decoded : decodeOffset (at_ i).toNat = .ring r i := by
      rw [offset i (by omega), decodeOffset_ring (by omega) (by omega), if_neg (by omega)]
      congr 1
      · refine Fin.ext ?_
        show (0x3000 + 8 * r.val + i - 0x3000) / 8 % 4 = r.val
        omega
      · omega
    show readWord s _ = _
    rw [readWord, decoded, ← hn]
  refine ⟨given (by decide) rfl, given (by decide) rfl, given (by decide) rfl, given (by decide) rfl, word7, fun h =>
    ⟨given (by decide) ?_, given (by decide) ?_, given (by decide) ?_⟩, fun h h1 h2 => given (by decide) ?_,
    fun h h1 h2 h3 => given (by decide) ?_, fun h h1 h2 => given (by decide) ?_⟩ <;> rw [Ring.readWord, h]
  · rfl
  · rfl
  · rfl
  · simp (disch := omega) only [if_true, flagAt_eq_place, place_zero, BitVec.or_assoc, place_or_word, Nat.add_assoc,
      show bitOf true = 1 from rfl, Nat.mul_one]
  · simp (disch := omega) only [if_true, place_zero, BitVec.or_assoc, place_or_word, Nat.add_assoc]
  · simp (disch := omega) only [if_true, place_zero, place_or_word]

/-! ## A READ, and every word of the map -/

/-- Settles O51. -/
theorem readWalksItsWords : Obligations.ReadWalksItsWords := by
  refine ⟨fun n s w later hn hw ho ht hf hx hd => ?_, fun s => ?_⟩
  · intro m tooLarge at_ mine
    obtain ⟨st, bs, row, other, refused, taken⟩ := readWalks n s w later hn hw ho ht hf hx hd
    have app : ∀ {α : Type} {xs ys zs : List α}, ys = zs → xs ++ ys = xs ++ zs := fun h => by rw [h]
    refine ⟨_, row, rfl, rfl, rfl, mineCount_eq_length _ _ _, fun h => ⟨app (other h).1, ?_⟩,
      fun h h' => ⟨app (refused h h').1, ?_⟩, fun h h' => ?_, ht, hf, hx, hd, rfl, rfl, rfl, rfl⟩
    · show w.blocks ++ bs = w.blocks
      rw [(other h).2, List.append_nil]
    · show w.blocks ++ bs = w.blocks
      rw [(refused h h').2, List.append_nil]
    · obtain ⟨hst, j, hj, hbs⟩ := taken h h'
      obtain ⟨hjn, hmine, hbefore⟩ := firstMineFrom_eq_some hj
      exact ⟨app hst, j, hjn, hmine, hbefore, app hbs⟩
  · intro bit reads tell
    have status {o : BitVec 16} {k : StatusWord} {n : Nat} (hd : decodeOffset o.toNat = .status k)
        (hv : readStatus s k = word n) (hn : n < 2 ^ 32) : reads o n := ⟨by rw [readWord_status hd, hv], hn⟩
    have hbit : ∀ b, bit b < 2 := bitOf_lt
    have hunit := s.agent.unit.isLt
    have hgeneration := s.cls.generation.isLt
    have huptime := s.time.uptime.isLt
    have hnext := s.rep.nextSequence.isLt
    have holdest := (oldestSequence s.rep).isLt
    have hsession := s.rep.sessionNumber.isLt
    have counters (o : BitVec 16) (base n : Nat) {cs : List Word} (hn : cs.length = n)
        (hd : ∀ i < n, decodeOffset (o + BitVec.ofNat 16 i).toNat = .counter (base + i))
        (hr : ∀ {i}, i < n → readCounter s (base + i) = cs.getD i 0) : tell o cs := by
      subst hn
      exact readWord_counters hd fun i hi => hr hi
    refine ⟨status (k := .identity) rfl rfl (by decide), status (k := .unitNumber) rfl (place_zero _) (by omega),
      status (k := .portStatus) rfl (readStatus_portStatus s) ?_,
      fun ha hb => status (k := .transitFill) rfl (readStatus_transitFill hb) (by omega),
      status (k := .bankStatus) rfl (readStatus_bankStatus s) ?_,
      fun ha => status (k := .tableStatus) rfl (readStatus_tableStatus ha) ?_,
      fun hp hc => status (k := .tableProgress) rfl (readStatus_tableProgress hc) (by omega),
      status (k := .uptime) rfl (word_toNat _).symm huptime,
      fun hp => status (k := .sweepPosition) rfl (place_zero _) (by omega),
      fun hq ha hb => status (k := .agentStatus) rfl (readStatus_agentStatus ha hb) (by omega),
      fun ha ho => status (k := .sessionStatus) rfl (readStatus_sessionStatus ha ho) ?_, ?_,
      fun hh hc hi => ⟨status (k := .recordQueueStatus) rfl (readStatus_recordQueueStatus hc hi) (by omega),
        status (k := .exportStatus) rfl (readStatus_exportStatus hc) ?_⟩,
      fun p => ?_, ?_, ?_, fun r => ?_, ?_, ?_, ?_, settingsRead s, stagingRead s, viewsRead s, entryReads s, ringsRead s,
      fun o h => by rw [readWord, h]⟩
    · have := hbit (s.portA.link = .up)
      have := hbit (s.portB.link = .up)
      omega
    · have := hbit s.cls.activeBank
      omega
    · have := s.walker.state.code_lt
      have := s.walker.kind.code_lt
      have := s.walker.selector.code_lt
      have := hbit s.walker.stalled
      have := hbit s.walker.flushAborted
      show 2 ^ 30 * s.walker.state.code + 2 ^ 28 * s.walker.kind.code + 2 ^ 24 * s.walker.selector.code
        + 2 ^ 23 * bit s.walker.stalled + 2 ^ 22 * bit s.walker.flushAborted + s.walker.argument < 2 ^ 32
      omega
    · have := s.rep.session.code_lt
      show 2 ^ 30 * s.rep.session.code + 2 ^ 24 * s.rep.attempts + 2 ^ 16 * s.rep.outstanding.length
        + s.rep.sessionNumber.toNat < 2 ^ 32
      omega
    · have sequence := readStatus_sequenceStatus s
      unfold oldestSequence at sequence holdest
      cases ho : s.rep.outstanding with
      | nil =>
        rw [ho] at sequence
        exact status (k := .sequenceStatus) (n := 2 ^ 16 * s.rep.nextSequence.toNat + s.rep.nextSequence.toNat) rfl sequence
          (by omega)
      | cons r rest =>
        rw [ho] at sequence holdest
        exact status (k := .sequenceStatus) (n := 2 ^ 16 * r.sequence.toNat + s.rep.nextSequence.toNat) rfl sequence
          (by dsimp only at holdest; omega)
    · have := s.rep.nextStart.code_lt
      have := hbit s.rep.hold.isSome
      have := hbit s.rep.buildPending
      show 2 ^ 31 * bit s.rep.hold.isSome + 2 ^ 30 * bit s.rep.buildPending + 2 ^ 24 * s.rep.nextStart.code
        + (s.rq.count - s.rq.inReport) < 2 ^ 32
      omega
    · cases p with
      | A => exact counters 0x4000 0 10 rfl (by decide +kernel) (readCounter_portA s)
      | B => exact counters 0x4010 0x10 10 rfl (by decide +kernel) (readCounter_portB s)
    · exact counters 0x4020 0x20 6 rfl (by decide +kernel) (readCounter_flow s)
    · exact counters 0x4028 0x28 6 rfl (by decide +kernel) (readCounter_sweep s)
    · have decoded : ∀ r : RingId, ∀ i < 5, decodeOffset (BitVec.ofNat 16 (0x4030 + 8 * r.val) + BitVec.ofNat 16 i).toNat
          = .counter (0x30 + 8 * r.val + i) := by decide +kernel
      exact counters _ (0x30 + 8 * r.val) 5 rfl (decoded r) (readCounter_ring s r)
    · exact counters 0x4050 0x50 7 rfl (by decide +kernel) (readCounter_delivery s)
    · exact counters 0x4058 0x58 3 rfl (by decide +kernel) (readCounter_conservation s)
    · exact counters 0x4060 0x60 6 rfl (by decide +kernel) (readCounter_agent s)

end Sys2Proof.Machine
end
